-- ==== Sys2Proof/Word.lean ====
section
/-!
DEFINITION. The two widths of the JV-4512's fields: one byte and two bytes (R164).
-/

namespace Sys2Proof

/-- A one-byte field of a frame or record (R164). -/
abbrev Byte := BitVec 8

/-- A two-byte field: cell values, ceilings, generations, timeouts, operands (R164), and a member set, in
which bit m says whether member m is present. -/
abbrev Word := BitVec 16

end Sys2Proof
end

