-- ==== Sys2Proof/Config.lean ====
section
/-!
DEFINITION. What the part fixes: its capacities (00, key figures; R123, R169) and its identity code. The
spec leaves no value open, so there is no free value here. The numbers of cells, banks, locks and entries
stand in the types of State and are named here once for the reader.
-/

namespace Sys2Proof.Config

/-- Ports (R123). -/
def portCount : Nat := 4
/-- Cells 0 to 511 (R1). -/
abbrev cellCount : Nat := 512
/-- Banks 0 to 31 (R1). -/
abbrev bankCount : Nat := 32
/-- Locks 0 to 47 (R45). -/
abbrev lockCount : Nat := 48
/-- Wait entries 0 to 23 (R81). -/
abbrev poolSize : Nat := 24
/-- Live entries one port may hold (R82). -/
def portWaits : Nat := 8
/-- Places of one event queue, records and reservations together (R105). -/
def queueSize : Nat := 16
/-- Watches of one port (R100). -/
def watchSize : Nat := 8
/-- Locks one port may hold (R49). -/
def stackSize : Nat := 6
/-- Steps of one chain (R36). -/
def chainSize : Nat := 6
/-- Cells of one GATHER (R9). -/
def gatherSize : Nat := 8
/-- Records of one FETCH (R111). -/
def fetchSize : Nat := 4
/-- Milliseconds of one lease unit (R122). -/
def leaseUnit : Nat := 20
/-- Steps of the cycle check (R54). -/
def cycleSteps : Nat := 4
/-- The identity code of the OPEN response (R169). -/
def identity : Word := 0x4512
/-- The REQUEST frame type (R164). -/
def requestType : Byte := 0xC1
/-- The POLL frame type (R164). -/
def pollType : Byte := 0xC2
/-- The PORT-RESET frame type (R164). -/
def portResetType : Byte := 0xC3
/-- The confirm byte of a PORT-RESET (R164). -/
def confirmByte : Byte := 0x3C
/-- The smallest length byte of a REQUEST (R153). -/
def minLength : Nat := 3
/-- The largest length byte of a REQUEST (R153). -/
def maxLength : Nat := 60

end Sys2Proof.Config
end

