-- ==== Sys2Proof/Syntax.lean ====
section
/-!
DEFINITION. The commands the part takes: one constructor of `Instr` for each row of spec/opcode_table.json.
-/

namespace Sys2Proof

/-- The four ports, in the order of the arbiter's rotation (00, Conventions). -/
inductive Port
  | a | b | c | d
deriving DecidableEq, Repr

/-- The clock mode, fixed at the select by the level of SCK: low gives mode 0, high gives mode 3 (R151). -/
inductive ClockMode
  | mode0 | mode3
deriving DecidableEq, Repr

/-- The part of one transaction (R151) that a frame command carries. A transaction may be carried whole, or cut into
segments anywhere, so that other events fall between its select, its bits and its deselect. The master clocks in the
whole bytes `bytes`, most significant bit first, and then `bits`, fewer than eight, which stay incomplete unless a
later segment completes the byte. The frame type byte is the command's own (log entry 6). -/
inductive Segment
  /-- Select, frame type byte, bytes, bits, deselect. -/
  | whole (mode : ClockMode) (bytes : List Byte) (bits : List Bool)
  /-- Select, frame type byte, bytes and bits; the port stays selected. -/
  | start (mode : ClockMode) (bytes : List Byte) (bits : List Bool)
  /-- The select alone; the port stays selected. -/
  | select (mode : ClockMode)
  /-- The frame type byte, bytes and bits of a transaction that was selected alone. -/
  | first (bytes : List Byte) (bits : List Bool)
  /-- Further bytes and bits of the transaction in progress. -/
  | more (bytes : List Byte) (bits : List Bool)
  /-- Further bytes and bits of the transaction in progress, and its deselect. -/
  | finish (bytes : List Byte) (bits : List Bool)
  /-- Select and deselect with the first byte incomplete. -/
  | aborted (mode : ClockMode) (bits : List Bool)
deriving DecidableEq, Repr

/-- The commands. For a piece of work that serves a request the operand is the requesting port: epoch, kind
and payload are those of the request in that port's slot. -/
inductive Instr
  /-- OPEN (R123). -/
  | openSession (port : Port)
  /-- CLOSE (R130). -/
  | closeSession (port : Port)
  /-- RENEW_EVEN (R125). -/
  | renewEven (port : Port)
  /-- RENEW_ODD (R125). -/
  | renewOdd (port : Port)
  /-- STATUS (R134). -/
  | status (port : Port)
  /-- CHAIN (R19). -/
  | chain (port : Port)
  /-- GATHER (R10). -/
  | gather (port : Port)
  /-- FORMAT (R7). -/
  | formatCell (port : Port)
  /-- ACQUIRE (R50). -/
  | acquire (port : Port)
  /-- RELEASE (R56). -/
  | release (port : Port)
  /-- TAKE (R66). -/
  | take (port : Port)
  /-- GIVE (R70). -/
  | give (port : Port)
  /-- AWAIT (R89). -/
  | await (port : Port)
  /-- CANCEL (R92). -/
  | cancel (port : Port)
  /-- WATCH (R101). -/
  | watch (port : Port)
  /-- UNWATCH (R102). -/
  | unwatch (port : Port)
  /-- FETCH (R111). -/
  | fetch (port : Port)
  /-- EXPIRY_ITEM (R87): the item of the entry with this number. -/
  | expiryItem (entry : Fin 24)
  /-- TEARDOWN_ITEM (R131): the item of this port. -/
  | teardownItem (port : Port)
  /-- REQUEST_FRAME (R154). -/
  | requestFrame (port : Port) (seg : Segment)
  /-- POLL_FRAME (R156). -/
  | pollFrame (port : Port) (seg : Segment)
  /-- PORT_RESET_FRAME (R159). -/
  | portResetFrame (port : Port) (seg : Segment)
  /-- PORT_RESET_ACTS (R159). -/
  | portResetActs (port : Port)
  /-- UNKNOWN_FRAME_TYPE (R155): the first byte is `type`. -/
  | unknownFrameType (port : Port) (type : Byte) (seg : Segment)
  /-- TIMEBASE_TICK (R139). -/
  | timebaseTick
  /-- DEADLINE_ZERO (R86): the tick that brings this entry's deadline to 0. -/
  | deadlineZero (entry : Fin 24)
  /-- LEASE_LOW (R126): the tick that brings this port's lease to one quarter of its period. -/
  | leaseLow (port : Port)
  /-- LAPSE (R127): the tick that brings this port's lease to 0. -/
  | lapse (port : Port)
  /-- POWER_ON (R16). -/
  | powerOn
  /-- INIT_COMPLETE (R162). -/
  | initComplete
  /-- RESET_LINE (R17). -/
  | resetLine
  /-- UNKNOWN_KIND_CODE (R144). -/
  | unknownKindCode (port : Port)
  /-- DAMAGED_REQUEST_FRAME (R155). -/
  | damagedRequestFrame (port : Port) (seg : Segment)
  /-- DAMAGED_PORT_RESET (R155). -/
  | damagedPortReset (port : Port) (seg : Segment)
  /-- RESET_RETURNS_HIGH (R162). -/
  | resetReturnsHigh
deriving DecidableEq, Repr

end Sys2Proof
end

