-- ==== Sys2Proof/Decode.lean ====
section
/-!
DEFINITION. Decoding a table word. No row of spec/opcode_table.json gives its command any bits, so no word
spells a command (log entry 19). The codes inside frames and payloads are in Machine/Operands.lean.
-/

namespace Sys2Proof

/-- The command a word of the table's bits spells: none, since no row has bits. -/
def decodeTableWord (_nbits _w : Nat) : Option Instr := none

end Sys2Proof
end

