-- ==== Sys2Proof/Machine/State.lean ====
section
/-!
DEFINITION. The state of the JV-4512 as plain data, and the state right after power-on (State.reset).
-/

namespace Sys2Proof.Machine

/-! ### Cells and banks (chapter 1) -/

/-- The three cell kinds (R1). -/
inductive CellKind
  | plain | counter | members
deriving DecidableEq, Repr

/-- A cell record (R1): its kind, its value, and for a COUNTER its ceiling. Bit m of a member set says whether
member m is present. -/
inductive Cell
  | plain (value : Word)
  | counter (ceiling value : Word)
  | members (set : Word)
deriving DecidableEq, Repr

/-- A kind and the reported value that goes with it (R5), as a response, a record and the net change carry it. -/
structure Reported where
  kind  : CellKind
  value : Word
deriving DecidableEq, Repr

/-! ### Locks (chapter 3) -/

/-- FREE, or HELD with the holder and the epoch its session had at the grant (R45). -/
inductive LockState
  | free
  | held (port : Port) (epoch : Byte)
deriving DecidableEq, Repr

/-- A lock record (R45). -/
structure Lock where
  state      : LockState
  generation : Word
deriving DecidableEq, Repr

/-! ### The wait pool (chapter 5) -/

/-- The conditions of AWAIT (R90). -/
inductive Condition
  | equal | differ | atLeast | atMost | contains | lacks
deriving DecidableEq, Repr

/-- The purposes of a wait entry (R81). -/
inductive Purpose
  | lockWait | takeWait | awaitCell
deriving DecidableEq, Repr

/-- What an entry waits for: its purpose with its target and, as R81 gives, its amount or condition and operand. -/
inductive Wait
  | lock (lock : Fin 48)
  | take (cell : Fin 512) (amount : Byte)
  | await (cell : Fin 512) (cond : Condition) (operand : Word)
deriving DecidableEq, Repr

/-- A live wait entry (R81). `deadline` is absent when the request asked for none. -/
structure WaitEntry where
  number   : Fin 24
  port     : Port
  epoch    : Byte
  ticket   : Byte
  wait     : Wait
  deadline : Option Nat
deriving DecidableEq, Repr

/-! ### Sessions, watches and event queues (chapters 6 and 7) -/

/-- How a session ended (R119). -/
inductive EndCause
  | none | closed | lapsed | portReset | deviceReset
deriving DecidableEq, Repr

/-- The seven kinds of event record (R105). A `suspect` of `none` is "absent". -/
inductive Event
  | granted (ticket : Byte) (lock : Fin 48) (generation : Word) (suspect : Option Bool)
  | taken (ticket : Byte) (cell : Fin 512) (value : Word)
  | met (ticket : Byte) (cell : Fin 512) (value : Reported)
  | timedOut (ticket : Byte) (purpose : Purpose) (target : Word)
  | changed (cell : Fin 512) (value : Reported) (origin : Port) (count : Nat)
  | leaseLow (remaining : Nat)
  | sessionEnded (cause : EndCause)
deriving DecidableEq, Repr

/-- A queued event record: its sequence number and its fields (R105, R109). -/
structure Record where
  sequence : Byte
  event    : Event
deriving DecidableEq, Repr

/-- A watch record (R100). -/
structure Watch where
  cell    : Fin 512
  pending : Bool
deriving DecidableEq, Repr

/-- The session states (R120). -/
inductive SessionState
  | closed | opened | ending
deriving DecidableEq, Repr

/-- The two renewals (R125). -/
inductive Renewal
  | even | odd
deriving DecidableEq, Repr

/-- A session record (R119), with the watch list and event queue it owns (R100, R105). -/
structure Session where
  state          : SessionState
  epoch          : Byte
  leasePeriod    : Option Nat
  leaseRemaining : Nat
  expected       : Renewal
  lowReported    : Bool
  endCause       : EndCause
  stack          : List (Fin 48)
  pendingAcquire : Option (Fin 48 × Byte)
  liveWaits      : Nat
  nextTicket     : Byte
  reserved       : Nat
  lost           : Nat
  sequence       : Byte
  watches        : List Watch
  queue          : List Record
deriving DecidableEq, Repr

/-! ### Requests and responses (chapters 8 to 10) -/

/-- A request as its frame brought it (R150): the engine reads the kind and payload when it takes it. -/
structure Request where
  epoch   : Byte
  kind    : Byte
  payload : List Byte
deriving DecidableEq, Repr

/-- The outcomes of a request (R146). -/
inductive ReplyKind
  | done | pending | refused
deriving DecidableEq, Repr

/-- The refusal reasons, in the order of their codes 1 to 23 (R171). -/
inductive Reason
  | malformed | noSession | sessionEnding | stale | alreadyOpen | range | kind | guarded
  | ceiling | unavailable | self | depth | order | lockPending | cycle | poolFull
  | portWaits | noEventSlot | noTicket | watchFull | duplicate | notWatched | cellBusy
deriving DecidableEq, Repr

/-- The fields of a STATUS response (R134, R169). -/
structure StatusReport where
  state          : SessionState
  epoch          : Byte
  endCause       : EndCause
  leasePeriod    : Option Nat
  leaseRemaining : Nat
  expected       : Renewal
  stack          : List (Fin 48)
  pendingAcquire : Option (Fin 48 × Byte)
  liveWaits      : Nat
  queueLength    : Nat
  reserved       : Nat
  lost           : Nat
  watchCount     : Nat
  linkErrors     : Nat
deriving DecidableEq, Repr

/-- The kind-specific fields of a response (R169). `zeros n` is the group of a refused request, and of an
unknown kind with n = 0. -/
inductive Fields
  | zeros (count : Nat)
  | opened (epoch leaseUnits : Byte)
  | closed (locks entries : Nat)
  | renewed (restarted : Bool) (expected : Renewal) (remaining : Nat)
  | status (report : StatusReport)
  | chain (w : Word) (z c v : Bool) (performed passed : Nat)
  | gather (first : Fin 512) (bank : Fin 32) (suspect : Bool) (second : Option (Fin 32 × Bool)) (cells : List Cell)
  | formatted (cell : Fin 512) (before after : Cell)
  | acquire (lock : Fin 48) (generation : Word) (suspect : Option Bool) (depth : Nat) (ticket : Byte)
  | release (lock : Fin 48) (depth : Nat) (handed : Bool)
  | take (cell : Fin 512) (amount : Byte) (value : Word) (ticket : Byte) (ahead : Nat)
  | give (cell : Fin 512) (amount : Byte) (value : Word) (granted : Nat)
  | await (cell : Fin 512) (value : Reported) (ticket : Byte)
  | cancel (ticket : Byte) (purpose : Purpose) (target : Word)
  | watch (cell : Fin 512) (value : Reported) (count : Nat)
  | unwatch (cell : Fin 512) (removed : Bool) (count : Nat)
  | fetch (lost length : Nat) (records : List Record)
deriving DecidableEq, Repr

/-- A response record (R146). Its bytes and its CRC are a function of it (R169). -/
structure Response where
  outcome   : ReplyKind
  kind      : Byte
  reason    : Option Reason
  stepIndex : Nat
  fields    : Fields
deriving DecidableEq, Repr

/-! ### Port interfaces (chapter 9) -/

/-- The slot states with the slots they fill (R150, R157). -/
inductive Slot
  | idle
  | held (request : Request)
  | serving (request : Request)
  | ready (response : Response)
deriving DecidableEq, Repr

/-- What the receiver makes of the next byte of a transaction: the frame type, a byte of the frame it is in,
or nothing, the frame being over (R151). -/
inductive RxPhase
  | frameType | request | poll | portReset | ended
deriving DecidableEq, Repr

/-- A transaction in progress (R150, R151): the clock mode, the snapshot taken at the select (status byte and,
in READY, the bytes of the response record), the whole bytes received so far, and the bits of the next one. -/
structure Rx where
  mode     : ClockMode
  status   : Byte
  record   : Option (List Byte)
  received : List Byte
  bits     : List Bool
  phase    : RxPhase
deriving DecidableEq, Repr

/-- The receiver (R150). -/
inductive Receiver
  | idle
  | active (rx : Rx)
deriving DecidableEq, Repr

/-- A port interface (R150). `selected` is the level of the input CS# (true while low). `out` is the model's
record of the output SDO: the bits that the master's clock edges found driven in the current or last transaction (log
entry 7). -/
structure PortLink where
  slot         : Slot
  overrun      : Bool
  linkError    : Bool
  linkErrors   : Nat
  receiver     : Receiver
  resetPending : Bool
  selected     : Bool
  out          : List Bool
deriving DecidableEq, Repr

/-! ### The request engine (chapter 8) -/

/-- An item of the internal work list (R138). -/
inductive Item
  | expiry (entry : Fin 24) (port : Port) (ticket : Byte)
  | teardown (port : Port)
deriving DecidableEq, Repr

/-- A piece of work the engine serves (R137): the request of a port, with that port's link error count as it
stood when the request was taken (R134, log entry 10), or an item of the work list. -/
inductive Work
  | request (port : Port) (linkErrors : Nat)
  | item (item : Item)
deriving DecidableEq, Repr

/-- The service state (R137). -/
inductive Service
  | idle
  | serving (work : Work)
deriving DecidableEq, Repr

/-- An event that came while a piece of work was in service and acts after it (R139, R140, R159). -/
inductive Claim
  | tick
  | portReset (port : Port)
deriving DecidableEq, Repr

/-- What the last piece of work set, and the ticks that came during it do not lower: one port's lease, one
entry's deadline (R86, R124, R139). The model's own field (log entry 4). -/
structure Fresh where
  lease : Option Port
  entry : Option (Fin 24)
deriving DecidableEq, Repr

/-! ### The whole part -/

/-- One value for each port. -/
structure PerPort (α : Type) where
  a : α
  b : α
  c : α
  d : α
deriving DecidableEq, Repr

/-- The state of the part. `pool` lists the live wait entries in the order of their creation (R81), `workList`
the items oldest first (R138), `deferred` the waiting claims in the order they came, and `pending` the commands
that wait to be given to the part. -/
structure State where
  cells       : Vector Cell 512
  suspect     : Vector Bool 32
  locks       : Vector Lock 48
  pool        : List WaitEntry
  sessions    : PerPort Session
  ports       : PerPort PortLink
  rotation    : Port
  workList    : List Item
  service     : Service
  deferred    : List Claim
  fresh       : Fresh
  initialised : Bool
  resetLow    : Bool
  pending     : List Instr
deriving DecidableEq, Repr

/-- The reasons the part could stop: none. The spec answers every request and every frame, so no meaning
raises a fault, and the type has no constructor. -/
inductive Fault
deriving DecidableEq, Repr

/-- The reasons the model could decline a command. -/
inductive Refusal
  /-- Raised by an arm of exec whose command has no meaning yet; safe. Every command has one. -/
  | notModelled (mnemonic : String)
deriving DecidableEq, Repr

/-- A session record at power-on (R98, R116, R135). -/
def Session.powerOn : Session where
  state := .closed
  epoch := 0
  leasePeriod := none
  leaseRemaining := 0
  expected := .even
  lowReported := false
  endCause := .none
  stack := []
  pendingAcquire := none
  liveWaits := 0
  nextTicket := 1
  reserved := 0
  lost := 0
  sequence := 0
  watches := []
  queue := []

/-- A port interface at power-on (R162), with CS# high (log entry 8). -/
def PortLink.powerOn : PortLink where
  slot := .idle
  overrun := false
  linkError := false
  linkErrors := 0
  receiver := .idle
  resetPending := false
  selected := false
  out := []

/-- The part right after power-on (R16, R62, R98, R116, R135, R149, R162), before its initialisation is
complete, with CS# of every port and RESET# high (log entries 8 and 9). -/
def State.reset : State where
  cells := Vector.replicate 512 (.plain 0)
  suspect := Vector.replicate 32 false
  locks := Vector.replicate 48 ⟨.free, 0⟩
  pool := []
  sessions := ⟨.powerOn, .powerOn, .powerOn, .powerOn⟩
  ports := ⟨.powerOn, .powerOn, .powerOn, .powerOn⟩
  rotation := .d
  workList := []
  service := .idle
  deferred := []
  fresh := ⟨none, none⟩
  initialised := false
  resetLow := false
  pending := []

end Sys2Proof.Machine
end

