-- ==== Sys2Proof/Machine/Operands.lean ====
section
/-!
DEFINITION. The operands of requests: byte order, request kinds, payload lengths and chain steps, read from the
bytes of a payload as chapter 10 lays them out.
-/

namespace Sys2Proof.Machine

/-! ### Two-byte fields and numbers -/

/-- A two-byte field, most significant byte first (R164). -/
def word (hi lo : Byte) : Word := hi ++ lo

/-- The cell a two-byte field names, absent above 511 (R1). -/
def cellOf (w : Word) : Option (Fin 512) :=
  if h : w.toNat < 512 then some ⟨w.toNat, h⟩ else none

/-- The lock a one-byte field names, absent above 47 (R45). -/
def lockOf (b : Byte) : Option (Fin 48) :=
  if h : b.toNat < 48 then some ⟨b.toNat, h⟩ else none

/-- The member a two-byte argument names, absent above 15 (R4). -/
def memberOf (w : Word) : Option (Fin 16) :=
  if h : w.toNat < 16 then some ⟨w.toNat, h⟩ else none

/-! ### Request kinds -/

/-- The seventeen request kinds (R171). -/
inductive Kind
  | openSession | closeSession | renewEven | renewOdd | status | chain | gather | formatCell | acquire
  | release | take | give | await | cancel | watch | unwatch | fetch
deriving DecidableEq, Repr

/-- The kind code of R171. -/
def Kind.code : Kind → Byte
  | .openSession => 0x01
  | .closeSession => 0x02
  | .renewEven => 0x03
  | .renewOdd => 0x04
  | .status => 0x05
  | .chain => 0x10
  | .gather => 0x11
  | .formatCell => 0x12
  | .acquire => 0x20
  | .release => 0x21
  | .take => 0x28
  | .give => 0x29
  | .await => 0x30
  | .cancel => 0x31
  | .watch => 0x38
  | .unwatch => 0x39
  | .fetch => 0x3A

/-- All seventeen kinds. -/
def Kind.all : List Kind :=
  [.openSession, .closeSession, .renewEven, .renewOdd, .status, .chain, .gather, .formatCell, .acquire,
   .release, .take, .give, .await, .cancel, .watch, .unwatch, .fetch]

/-- The kind a code names, absent for a code that is none of the seventeen (R144). -/
def Kind.ofCode (b : Byte) : Option Kind := Kind.all.find? (fun k => k.code == b)

/-- STATUS and FETCH, and OPEN by its own checks, are taken in any session state; every other kind needs OPEN
(R145). -/
def Kind.needsOpen : Kind → Bool
  | .openSession | .status | .fetch => false
  | .closeSession | .renewEven | .renewOdd | .chain | .gather | .formatCell | .acquire | .release | .take
  | .give | .await | .cancel | .watch | .unwatch => true

/-- The cell kind of a FORMAT's kind field (R171). -/
def CellKind.ofCode (b : Byte) : Option CellKind :=
  if b = 0x01 then some .plain else if b = 0x02 then some .counter else if b = 0x03 then some .members else none

/-- The condition of an AWAIT's condition field (R171). -/
def Condition.ofCode (b : Byte) : Option Condition :=
  if b = 0x01 then some .equal else if b = 0x02 then some .differ else if b = 0x03 then some .atLeast
  else if b = 0x04 then some .atMost else if b = 0x05 then some .contains else if b = 0x06 then some .lacks
  else none

/-- The length and the codes of the payload suit the kind (R144, R166, R167). -/
def payloadSuits (k : Kind) (payload : List Byte) : Bool :=
  match k with
  | .closeSession | .renewEven | .renewOdd | .status => payload.length == 0
  | .openSession | .release | .cancel | .fetch => payload.length == 1
  | .watch | .unwatch => payload.length == 2
  | .gather | .acquire | .give => payload.length == 3
  | .take => payload.length == 5
  | .chain =>
    match payload with
    | n :: _ => payload.length == 1 + 5 * n.toNat
    | [] => false
  | .formatCell =>
    match payload with
    | _ :: _ :: kc :: _ =>
      match CellKind.ofCode kc with
      | some .counter => payload.length == 7
      | some .plain | some .members => payload.length == 5
      | none => false
    | _ => false
  | .await =>
    match payload with
    | _ :: _ :: cc :: _ => payload.length == 7 && (Condition.ofCode cc).isSome
    | _ => false

/-! ### Chain steps -/

/-- One step as the payload gives it: code, cell field, argument field (R168). -/
structure RawStep where
  code : Byte
  cell : Word
  arg  : Word
deriving DecidableEq, Repr

/-- The steps of a CHAIN payload after its step count, five bytes each (R168). -/
def rawSteps : List Byte → List RawStep
  | code :: c1 :: c0 :: a1 :: a0 :: rest => ⟨code, word c1 c0, word a1 a0⟩ :: rawSteps rest
  | _ => []

/-- A step with its operands read (R168). -/
inductive ChainStep
  | read (cell : Fin 512)
  | load (n : Word)
  | write (cell : Fin 512)
  | exchange (cell : Fin 512)
  | add (cell : Fin 512)
  | addc (cell : Fin 512)
  | sub (cell : Fin 512)
  | subb (cell : Fin 512)
  | and (cell : Fin 512)
  | or (cell : Fin 512)
  | xor (cell : Fin 512)
  | accum (cell : Fin 512)
  | deduct (cell : Fin 512)
  | stepUp (cell : Fin 512)
  | stepDown (cell : Fin 512)
  | insert (cell : Fin 512) (member : Fin 16)
  | remove (cell : Fin 512) (member : Fin 16)
  | whenZero
  | whenNonzero
  | whenEqual (cell : Fin 512)
  | whenBelow (cell : Fin 512)
  | whenMember (cell : Fin 512) (member : Fin 16)
  | whenAbsent (cell : Fin 512) (member : Fin 16)
deriving DecidableEq, Repr

/-- Checks 1 and 2 of R37: the code is a step's (else MALFORMED) and the cell and member it names exist (else
RANGE). Fields the step does not use are ignored (R36). -/
def ChainStep.ofRaw (s : RawStep) : Except Reason ChainStep :=
  let onCell (f : Fin 512 → ChainStep) : Except Reason ChainStep :=
    match cellOf s.cell with
    | some c => .ok (f c)
    | none => .error .range
  let onMember (f : Fin 512 → Fin 16 → ChainStep) : Except Reason ChainStep :=
    match cellOf s.cell, memberOf s.arg with
    | some c, some m => .ok (f c m)
    | _, _ => .error .range
  if s.code = 0x01 then onCell .read
  else if s.code = 0x02 then .ok (.load s.arg)
  else if s.code = 0x03 then onCell .write
  else if s.code = 0x04 then onCell .exchange
  else if s.code = 0x10 then onCell .add
  else if s.code = 0x11 then onCell .addc
  else if s.code = 0x12 then onCell .sub
  else if s.code = 0x13 then onCell .subb
  else if s.code = 0x14 then onCell .and
  else if s.code = 0x15 then onCell .or
  else if s.code = 0x16 then onCell .xor
  else if s.code = 0x18 then onCell .accum
  else if s.code = 0x19 then onCell .deduct
  else if s.code = 0x1A then onCell .stepUp
  else if s.code = 0x1B then onCell .stepDown
  else if s.code = 0x20 then onMember .insert
  else if s.code = 0x21 then onMember .remove
  else if s.code = 0x30 then .ok .whenZero
  else if s.code = 0x31 then .ok .whenNonzero
  else if s.code = 0x32 then onCell .whenEqual
  else if s.code = 0x33 then onCell .whenBelow
  else if s.code = 0x34 then onMember .whenMember
  else if s.code = 0x35 then onMember .whenAbsent
  else .error .malformed

/-- The cell a step names, absent for LOAD, WHEN-ZERO and WHEN-NONZERO (R35). -/
def ChainStep.cell? : ChainStep → Option (Fin 512)
  | .read c | .write c | .exchange c | .add c | .addc c | .sub c | .subb c | .and c | .or c | .xor c
  | .accum c | .deduct c | .stepUp c | .stepDown c | .insert c _ | .remove c _ | .whenEqual c
  | .whenBelow c | .whenMember c _ | .whenAbsent c _ => some c
  | .load _ | .whenZero | .whenNonzero => none

/-- The cell kinds a step accepts (R35). -/
def ChainStep.accepts : ChainStep → CellKind → Bool
  | .read _, _ => true
  | .add _, .plain | .addc _, .plain | .sub _, .plain | .subb _, .plain => true
  | .add _, .counter | .addc _, .counter | .sub _, .counter | .subb _, .counter => true
  | .and _, .plain | .or _, .plain | .xor _, .plain => true
  | .and _, .counter | .or _, .counter | .xor _, .counter => true
  | .whenEqual _, .plain | .whenBelow _, .plain | .whenEqual _, .counter | .whenBelow _, .counter => true
  | .write _, .plain | .exchange _, .plain | .accum _, .plain | .deduct _, .plain | .stepUp _, .plain
  | .stepDown _, .plain => true
  | .insert _ _, .members | .remove _ _, .members | .whenMember _ _, .members | .whenAbsent _ _, .members => true
  | _, _ => false

/-- The modifying steps (R11, R35). -/
def ChainStep.modifies : ChainStep → Bool
  | .write _ | .exchange _ | .accum _ | .deduct _ | .stepUp _ | .stepDown _ | .insert _ _ | .remove _ _ => true
  | .read _ | .load _ | .add _ | .addc _ | .sub _ | .subb _ | .and _ | .or _ | .xor _ | .whenZero
  | .whenNonzero | .whenEqual _ | .whenBelow _ | .whenMember _ _ | .whenAbsent _ _ => false

end Sys2Proof.Machine
end

