-- ==== Sys2Proof/Machine/Ops.lean ====
section
/-!
DEFINITION. The named operations over the shared state: cells, banks, locks, event queues, the wait pool, grants,
net change and the teardown. The meanings of the commands are built from these.
-/

namespace Sys2Proof.Machine

/-! ### Access to the parts of State -/

/-- The value of one port. -/
def PerPort.get {α : Type} (t : PerPort α) : Port → α
  | .a => t.a
  | .b => t.b
  | .c => t.c
  | .d => t.d

/-- The table with one port's value replaced. -/
def PerPort.set {α : Type} (t : PerPort α) (p : Port) (v : α) : PerPort α :=
  match p with
  | .a => { t with a := v }
  | .b => { t with b := v }
  | .c => { t with c := v }
  | .d => { t with d := v }

/-- The four ports in order. -/
def allPorts : List Port := [.a, .b, .c, .d]

/-- The port after this one in the rotation A, B, C, D and back to A (R141). -/
def nextPort : Port → Port
  | .a => .b
  | .b => .c
  | .c => .d
  | .d => .a

def State.session (s : State) (p : Port) : Session := s.sessions.get p

def State.modSession (s : State) (p : Port) (f : Session → Session) : State :=
  { s with sessions := s.sessions.set p (f (s.sessions.get p)) }

def State.port (s : State) (p : Port) : PortLink := s.ports.get p

def State.modPort (s : State) (p : Port) (f : PortLink → PortLink) : State :=
  { s with ports := s.ports.set p (f (s.ports.get p)) }

def State.cell (s : State) (c : Fin 512) : Cell := s.cells[c]

def State.setCell (s : State) (c : Fin 512) (x : Cell) : State := { s with cells := s.cells.set c x }

def State.lock (s : State) (l : Fin 48) : Lock := s.locks[l]

def State.setLock (s : State) (l : Fin 48) (x : Lock) : State := { s with locks := s.locks.set l x }

def State.bankSuspect (s : State) (b : Fin 32) : Bool := s.suspect[b]

def State.setSuspect (s : State) (b : Fin 32) (x : Bool) : State := { s with suspect := s.suspect.set b x }

/-! ### Cells and banks -/

/-- The bank of a cell: its number divided by 16, rounded down (R1). -/
def bankOf (c : Fin 512) : Fin 32 := ⟨c.val / 16, by omega⟩

/-- Lock k is the bank lock of bank k (R48). -/
def bankLock (b : Fin 32) : Fin 48 := ⟨b.val, by omega⟩

/-- The bank a lock guards; absent for the plain locks 32 to 47 (R48). -/
def lockBank (l : Fin 48) : Option (Fin 32) := if h : l.val < 32 then some ⟨l.val, h⟩ else none

/-- The number of members of a set. -/
def memberCount (set : Word) : Nat := (List.range 16).countP (fun i => set.getLsbD i)

def Cell.kind : Cell → CellKind
  | .plain _ => .plain
  | .counter _ _ => .counter
  | .members _ => .members

/-- Kind and reported value (R5). -/
def Cell.reported : Cell → Reported
  | .plain v => ⟨.plain, v⟩
  | .counter _ v => ⟨.counter, v⟩
  | .members m => ⟨.members, m⟩

/-- The number a reading step sees: the value, or the number of members (R23). -/
def Cell.number : Cell → Word
  | .plain v => v
  | .counter _ v => v
  | .members m => BitVec.ofNat 16 (memberCount m)

/-- The member set of a MEMBERS cell. -/
def Cell.set : Cell → Word
  | .members m => m
  | .plain _ | .counter _ _ => 0

/-- The ceiling of a COUNTER cell, 0 for the other kinds (R169). -/
def Cell.ceiling : Cell → Word
  | .counter n _ => n
  | .plain _ | .members _ => 0

/-- The bank lock of the cell's bank is HELD by a port other than this one (R11). -/
def guardedAgainst (s : State) (p : Port) (c : Fin 512) : Bool :=
  match (s.lock (bankLock (bankOf c))).state with
  | .held q _ => q != p
  | .free => false

/-! ### Event queues -/

/-- Append a record with the next sequence number (R109). -/
def appendRecord (p : Port) (e : Event) (s : State) : State :=
  s.modSession p fun x => { x with queue := x.queue ++ [⟨x.sequence, e⟩], sequence := x.sequence + 1 }

/-- Place the record that ends a wait entry, using its reservation (R106). -/
def placeReserved (p : Port) (e : Event) (s : State) : State :=
  (appendRecord p e s).modSession p fun x => { x with reserved := x.reserved - 1 }

/-- The queue has a place that is neither filled nor reserved (R107). -/
def hasRoom (x : Session) : Bool := x.queue.length + x.reserved < Config.queueSize

/-- Offer an unreserved record: append it, or drop it and raise the lost count, which stays at 255 (R107). -/
def offerRecord (p : Port) (e : Event) (s : State) : State :=
  if hasRoom (s.session p) then appendRecord p e s
  else s.modSession p fun x => { x with lost := min 255 (x.lost + 1) }

/-! ### The wait pool -/

def WaitEntry.onLock (l : Fin 48) (w : WaitEntry) : Bool :=
  match w.wait with
  | .lock k => k == l
  | .take _ _ | .await _ _ _ => false

def WaitEntry.takes (c : Fin 512) (w : WaitEntry) : Bool :=
  match w.wait with
  | .take d _ => d == c
  | .lock _ | .await _ _ _ => false

def WaitEntry.awaits (c : Fin 512) (w : WaitEntry) : Bool :=
  match w.wait with
  | .await d _ _ => d == c
  | .lock _ | .take _ _ => false

/-- The amount of a TAKE waiter (R65). -/
def WaitEntry.amount (w : WaitEntry) : Nat :=
  match w.wait with
  | .take _ n => n.toNat
  | .lock _ | .await _ _ _ => 0

/-- The waiters of a lock, oldest first (R53). -/
def lockWaiters (s : State) (l : Fin 48) : List WaitEntry := s.pool.filter (·.onLock l)

/-- The TAKE waiters of a cell, oldest first (R65). -/
def takeWaiters (s : State) (c : Fin 512) : List WaitEntry := s.pool.filter (·.takes c)

/-- The AWAIT entries of a cell, oldest first (R81). -/
def awaitEntries (s : State) (c : Fin 512) : List WaitEntry := s.pool.filter (·.awaits c)

/-- The live entry of a number. -/
def entryNumbered (s : State) (n : Fin 24) : Option WaitEntry := s.pool.find? (fun w => w.number == n)

/-- Purpose and target as a record or a CANCEL response carries them (R169). -/
def Wait.purpose : Wait → Purpose
  | .lock _ => .lockWait
  | .take _ _ => .takeWait
  | .await _ _ _ => .awaitCell

def Wait.target : Wait → Word
  | .lock l => BitVec.ofNat 16 l.val
  | .take c _ => BitVec.ofNat 16 c.val
  | .await c _ _ => BitVec.ofNat 16 c.val

/-- Free an entry: it leaves the pool and its port's live wait count falls by one (R93). -/
def dropEntry (w : WaitEntry) (s : State) : State :=
  { s with pool := s.pool.filter (fun x => x.number != w.number) }.modSession w.port
    fun x => { x with liveWaits := x.liveWaits - 1 }

/-- Clear the pending-acquire marker when the entry was a LOCK-WAIT (R53). -/
def clearMarker (w : WaitEntry) (s : State) : State :=
  match w.wait with
  | .lock _ => s.modSession w.port fun x => { x with pendingAcquire := none }
  | .take _ _ | .await _ _ _ => s

/-- All 24 entry numbers, ascending. -/
def entryNumbers : List (Fin 24) := List.ofFn id

/-- The lowest-numbered free entry (R83). -/
def freeEntry (s : State) : Option (Fin 24) :=
  entryNumbers.find? (fun n => s.pool.all (fun w => w.number != n))

/-- The ticket after this one: 255 is followed by 1 (R84). -/
def ticketAfter (t : Byte) : Byte := if t = 255 then 1 else t + 1

/-- A live entry of the port holds the ticket (R84). -/
def ticketHeld (s : State) (p : Port) (t : Byte) : Bool := s.pool.any (fun w => w.port == p && w.ticket == t)

/-- The first ticket from `t` on that no live entry of the port holds, looking at `fuel` values (R84). -/
def findTicket (s : State) (p : Port) : Nat → Byte → Byte
  | 0, t => t
  | fuel + 1, t => if ticketHeld s p t then findTicket s p fuel (ticketAfter t) else t

/-- The ticket R84 issues to the port's next entry. A port's entries hold fewer than 255 of the 255 tickets, so
one is found (log entry 18). -/
def issuedTicket (s : State) (p : Port) : Byte := findTicket s p 255 (s.session p).nextTicket

/-- A timeout of 1 to 65534 is a deadline; 65535 asks for none (R85). -/
def deadlineOf (timeout : Word) : Option Nat := if timeout = 65535 then none else some timeout.toNat

/-- The pool's checks and the creation of an entry (R83): the reason of the first check that fails, or the ticket
and the state with the entry live. -/
def createEntry (p : Port) (wait : Wait) (timeout : Word) (s : State) : Except Reason (Byte × State) :=
  let x := s.session p
  if Config.portWaits ≤ x.liveWaits then .error .portWaits
  else
    match freeEntry s with
    | none => .error .poolFull
    | some n =>
      if Config.queueSize ≤ x.queue.length + x.reserved then .error .noEventSlot
      else
        let t := issuedTicket s p
        let entry : WaitEntry := ⟨n, p, x.epoch, t, wait, deadlineOf timeout⟩
        .ok (t, { s with pool := s.pool ++ [entry], fresh := { s.fresh with entry := some n } }.modSession p
          fun y => { y with nextTicket := ticketAfter t, liveWaits := y.liveWaits + 1, reserved := y.reserved + 1 })

/-! ### Locks -/

/-- The lock is HELD by the port under its current epoch (R46). -/
def heldBy (s : State) (p : Port) (l : Fin 48) : Bool :=
  (s.lock l).state == .held p (s.session p).epoch

/-- The suspect flag a grant of the lock reports; absent for a plain lock (R48). -/
def lockSuspect (s : State) (l : Fin 48) : Option Bool := (lockBank l).map s.bankSuspect

/-- A grant: the lock becomes HELD, its generation rises by one, and it is pushed on the stack (R46, R47). -/
def grantLock (p : Port) (epoch : Byte) (l : Fin 48) (s : State) : State :=
  (s.setLock l ⟨.held p epoch, (s.lock l).generation + 1⟩).modSession p fun x => { x with stack := x.stack ++ [l] }

/-- The handoff of a released lock to its head waiter (R57). -/
def handoff (l : Fin 48) (w : WaitEntry) (s : State) : State :=
  let s := clearMarker w (dropEntry w (grantLock w.port w.epoch l s))
  placeReserved w.port (.granted w.ticket l (s.lock l).generation (lockSuspect s l)) s

/-- A popped lock is handed to its head waiter or becomes FREE with its generation (R56, R60). The flag says
whether it was handed on. -/
def passOn (l : Fin 48) (s : State) : State × Bool :=
  match lockWaiters s l with
  | w :: _ => (handoff l w s, true)
  | [] => (s.setLock l ⟨.free, (s.lock l).generation⟩, false)

/-- Pop the top lock of the port's stack (R49). -/
def popStack (p : Port) (s : State) : State := s.modSession p fun x => { x with stack := x.stack.dropLast }

/-- Set or clear the suspect flag of the bank a lock guards; a plain lock guards none (R6). -/
def markBank (l : Fin 48) (flag : Bool) (s : State) : State :=
  match lockBank l with
  | some b => s.setSuspect b flag
  | none => s

/-! ### Counting cells -/

/-- The value of a COUNTER cell falls by an amount. -/
def lowerCounter (c : Fin 512) (n : Nat) (s : State) : State :=
  match s.cell c with
  | .counter ceil v => s.setCell c (.counter ceil (BitVec.ofNat 16 (v.toNat - n)))
  | .plain _ | .members _ => s

/-- The grant of a TAKE waiter (R71). -/
def grantTake (c : Fin 512) (w : WaitEntry) (s : State) : State :=
  let s := dropEntry w (lowerCounter c w.amount s)
  placeReserved w.port (.taken w.ticket c (s.cell c).number) s

/-- The grant walk over a list of waiters, oldest first: it stops at the first it cannot serve (R72). The number
counts the grants. -/
def walkOver (c : Fin 512) : List WaitEntry → State → State × Nat
  | [], s => (s, 0)
  | w :: ws, s =>
    if w.amount ≤ (s.cell c).number.toNat then
      let r := walkOver c ws (grantTake c w s)
      (r.1, r.2 + 1)
    else (s, 0)

/-- The grant walk on a cell (R72). -/
def grantWalk (c : Fin 512) (s : State) : State × Nat := walkOver c (takeWaiters s c) s

/-- The entry is the head TAKE waiter of its cell: that cell, absent otherwise (R65). -/
def headOf (w : WaitEntry) (s : State) : Option (Fin 512) :=
  match w.wait with
  | .take c _ =>
    match takeWaiters s c with
    | h :: _ => if h.number = w.number then some c else none
    | [] => none
  | .lock _ | .await _ _ _ => none

/-! ### Net change (chapter 1.7), met conditions and change notices -/

/-- The condition of an AWAIT on a reported value (R90); numbers are compared unsigned. -/
def Condition.holds (cond : Condition) (operand : Word) (r : Reported) : Bool :=
  match cond with
  | .equal => r.value == operand
  | .differ => r.value != operand
  | .atLeast => operand.toNat ≤ r.value.toNat
  | .atMost => r.value.toNat ≤ operand.toNat
  | .contains => r.value.getLsbD operand.toNat
  | .lacks => !r.value.getLsbD operand.toNat

/-- The entry is an AWAIT whose condition holds on the value. -/
def WaitEntry.metBy (r : Reported) (w : WaitEntry) : Bool :=
  match w.wait with
  | .await _ cond operand => cond.holds operand r
  | .lock _ | .take _ _ => false

/-- Check one AWAIT entry of a changed cell; it is met when its condition holds (R91). -/
def meetEntry (c : Fin 512) (r : Reported) (s : State) (w : WaitEntry) : State :=
  if w.metBy r then placeReserved w.port (.met w.ticket c r) (dropEntry w s) else s

/-- Check the AWAIT entries of a changed cell in their order of creation (R91). -/
def meetAwaits (s : State) (c : Fin 512) : State :=
  (awaitEntries s c).foldl (meetEntry c (s.cell c).reported) s

/-- The queued record is the CHANGED record of a cell. -/
def Record.reports (c : Fin 512) (r : Record) : Bool :=
  match r.event with
  | .changed d _ _ _ => d == c
  | .granted .. | .taken .. | .met .. | .timedOut .. | .leaseLow .. | .sessionEnded .. => false

/-- Update a queued CHANGED record of the cell in place (R104). -/
def Record.update (c : Fin 512) (v : Reported) (origin : Port) (r : Record) : Record :=
  match r.event with
  | .changed d _ _ n => if d = c then { r with event := .changed c v origin (min 255 (n + 1)) } else r
  | .granted .. | .taken .. | .met .. | .timedOut .. | .leaseLow .. | .sessionEnded .. => r

/-- Set the notice-pending marker of the watch on a cell. -/
def setMarker (c : Fin 512) (flag : Bool) (ws : List Watch) : List Watch :=
  ws.map fun w => if w.cell = c then { w with pending := flag } else w

/-- Deal with one port that may watch a changed cell (R103): update its queued record, or offer a new one and set
the marker when it is queued. -/
def notifyPort (c : Fin 512) (v : Reported) (origin : Port) (s : State) (p : Port) : State :=
  if p = origin then s
  else
    match (s.session p).watches.find? (fun w => w.cell == c) with
    | none => s
    | some w =>
      if w.pending then s.modSession p fun x => { x with queue := x.queue.map (Record.update c v origin) }
      else if hasRoom (s.session p) then
        (offerRecord p (.changed c v origin 1) s).modSession p
          fun x => { x with watches := setMarker c true x.watches }
      else offerRecord p (.changed c v origin 1) s

/-- Tell every watcher of a changed cell but the origin (R103). -/
def notifyWatchers (origin : Port) (s : State) (c : Fin 512) : State :=
  allPorts.foldl (notifyPort c (s.cell c).reported origin) s

/-- Insert a cell in an ascending list without repeats. -/
def insertCell (c : Fin 512) : List (Fin 512) → List (Fin 512)
  | [] => [c]
  | d :: ds => if c < d then c :: d :: ds else if c = d then d :: ds else d :: insertCell c ds

/-- The cells of a list, ascending and without repeats. -/
def ascending (cs : List (Fin 512)) : List (Fin 512) := cs.foldr insertCell []

/-- The touched cells with a net change, ascending (R13). -/
def netChanges (before : Vector Cell 512) (touched : List (Fin 512)) (s : State) : List (Fin 512) :=
  (ascending touched).filter fun c => before[c].reported != (s.cell c).reported

/-- The end of a piece of work that can change cells (R15): the cells with a net change go to the AWAIT entries,
and, when the origin is a port, to the watch lists. -/
def handOn (origin : Option Port) (before : Vector Cell 512) (touched : List (Fin 512)) (s : State) : State :=
  let cs := netChanges before touched s
  let s := cs.foldl meetAwaits s
  match origin with
  | none => s
  | some p => cs.foldl (notifyWatchers p) s

/-! ### The teardown (R131) -/

/-- The cells whose head TAKE waiter belongs to the port, ascending (R73). -/
def headedCells (p : Port) (s : State) : List (Fin 512) :=
  ascending ((s.pool.filter (fun w => w.port == p)).filterMap (fun w => headOf w s))

/-- Step 1: every entry of the port is freed without a record (R97). -/
def dropAllEntries (p : Port) (s : State) : State :=
  { s with pool := s.pool.filter (fun w => w.port != p) }.modSession p
    fun x => { x with liveWaits := 0, pendingAcquire := none }

/-- Step 3 for one lock: popped, its bank marked suspect, and handed on or freed (R60). -/
def teardownLock (p : Port) (s : State) (l : Fin 48) : State := (passOn l (markBank l true (popStack p s))).1

/-- Step 3: the locks from the top of the stack downward (R60). -/
def releaseAll (p : Port) (s : State) : State := (s.session p).stack.reverse.foldl (teardownLock p) s

/-- Steps 4 and 5: the watch list and the queue are emptied (R115). -/
def clearNotices (p : Port) (s : State) : State :=
  s.modSession p fun x => { x with watches := [], queue := [], reserved := 0 }

/-- Step 6: the SESSION-ENDED record, for the causes LAPSED and PORT-RESET (R108, log entry 17). -/
def noticeOfEnd (p : Port) (s : State) : State :=
  match (s.session p).endCause with
  | .lapsed => appendRecord p (.sessionEnded .lapsed) s
  | .portReset => appendRecord p (.sessionEnded .portReset) s
  | .none | .closed | .deviceReset => s

/-- The teardown of a port's session, with the handing on of its net changes, whose origin is none (R131). -/
def teardown (p : Port) (s : State) : State :=
  let heads := headedCells p s
  let t := dropAllEntries p s
  let t := heads.foldl (fun t c => (grantWalk c t).1) t
  let t := releaseAll p t
  let t := noticeOfEnd p (clearNotices p t)
  let t := t.modSession p fun x => { x with state := .closed }
  handOn none s.cells heads t

end Sys2Proof.Machine
end

