-- ==== Sys2Proof/Machine/Formats.lean ====
section
/-!
DEFINITION. The bytes the part sends: codes (R171), event records (R170), response fields (R169), response records
(R165), the status byte (R152, R171) and the CRC (R158).
-/

namespace Sys2Proof.Machine

/-! ### Bytes -/

/-- The two bytes of a two-byte field, most significant first (R164). -/
def wordBytes (w : Word) : List Byte := [w.extractLsb' 8 8, w.extractLsb' 0 8]

/-- A count as a one-byte field. -/
def byteOf (n : Nat) : Byte := BitVec.ofNat 8 n

/-- A count as a two-byte field. -/
def countBytes (n : Nat) : List Byte := wordBytes (BitVec.ofNat 16 n)

/-- The one-byte form of a yes or no. -/
def flagByte (b : Bool) : Byte := if b then 1 else 0

/-- The suspect field: 0x00 clear, 0x01 set, 0xFF absent (R164). -/
def suspectByte : Option Bool → Byte
  | none => 0xFF
  | some b => flagByte b

/-- The bits of a byte in the order they pass, most significant first (R151). -/
def byteBits (b : Byte) : List Bool := [7, 6, 5, 4, 3, 2, 1, 0].map fun i => b.getLsbD i

/-- The bits of bytes in the order they pass (R151). -/
def wire (bytes : List Byte) : List Bool := bytes.flatMap byteBits

/-- The byte of eight bits, most significant first (R151). -/
def byteOfBits (bits : List Bool) : Byte := bits.foldl (fun b bit => (b <<< 1) ||| flagByte bit) 0

/-! ### The CRC (R158) -/

/-- One bit into the CRC register. -/
def crcBit (reg : Byte) (b : Bool) : Byte :=
  let shifted := reg <<< 1
  if reg.msb != b then shifted ^^^ 0x07 else shifted

/-- One byte into the CRC register, most significant bit first. -/
def crcByte (reg b : Byte) : Byte := (byteBits b).foldl crcBit reg

/-- The CRC of a list of bytes. -/
def crc (bytes : List Byte) : Byte := bytes.foldl crcByte 0

/-! ### Codes (R171) -/

def portCode : Port → Byte
  | .a => 1
  | .b => 2
  | .c => 3
  | .d => 4

def CellKind.code : CellKind → Byte
  | .plain => 1
  | .counter => 2
  | .members => 3

def Purpose.code : Purpose → Byte
  | .lockWait => 1
  | .takeWait => 2
  | .awaitCell => 3

def SessionState.code : SessionState → Byte
  | .closed => 0
  | .opened => 1
  | .ending => 2

def EndCause.code : EndCause → Byte
  | .none => 0
  | .closed => 1
  | .lapsed => 2
  | .portReset => 3
  | .deviceReset => 4

def Renewal.code : Renewal → Byte
  | .even => 0
  | .odd => 1

def ReplyKind.code : ReplyKind → Byte
  | .done => 1
  | .pending => 2
  | .refused => 3

def Reason.code : Reason → Byte
  | .malformed => 1
  | .noSession => 2
  | .sessionEnding => 3
  | .stale => 4
  | .alreadyOpen => 5
  | .range => 6
  | .kind => 7
  | .guarded => 8
  | .ceiling => 9
  | .unavailable => 10
  | .self => 11
  | .depth => 12
  | .order => 13
  | .lockPending => 14
  | .cycle => 15
  | .poolFull => 16
  | .portWaits => 17
  | .noEventSlot => 18
  | .noTicket => 19
  | .watchFull => 20
  | .duplicate => 21
  | .notWatched => 22
  | .cellBusy => 23

/-! ### Event records (R170) -/

/-- A kind field and the value field beside it. -/
def Reported.bytes (r : Reported) : List Byte := r.kind.code :: wordBytes r.value

/-- The record kind code and the field bytes that follow the sequence number. -/
def Event.bytes : Event → Byte × List Byte
  | .granted t l g s => (0x01, [t, byteOf l.val] ++ wordBytes g ++ [suspectByte s, 0, 0])
  | .taken t c v => (0x02, [t] ++ countBytes c.val ++ wordBytes v ++ [0, 0])
  | .met t c r => (0x03, [t] ++ countBytes c.val ++ r.bytes ++ [0])
  | .timedOut t p w => (0x04, [t, p.code] ++ wordBytes w ++ [0, 0, 0])
  | .changed c r o n => (0x05, countBytes c.val ++ r.bytes ++ [portCode o, byteOf n])
  | .leaseLow n => (0x06, countBytes n ++ [0, 0, 0, 0, 0])
  | .sessionEnded c => (0x07, [c.code, 0, 0, 0, 0, 0, 0])

/-- The nine bytes of an event record. -/
def Record.bytes (r : Record) : List Byte := r.event.bytes.1 :: r.sequence :: r.event.bytes.2

/-! ### Response fields (R169) -/

/-- The five bytes of a cell descriptor. -/
def Cell.descriptor (c : Cell) : List Byte := c.reported.bytes ++ wordBytes c.ceiling

/-- The six places of the lock stack in a STATUS response. -/
def stackBytes (stack : List (Fin 48)) : List Byte :=
  (stack.map (fun l => byteOf l.val) ++ List.replicate 6 (0xFF : Byte)).take 6

/-- The pending ACQUIRE in a STATUS response. -/
def pendingBytes : Option (Fin 48 × Byte) → List Byte
  | none => [0xFF, 0]
  | some (l, t) => [byteOf l.val, t]

def StatusReport.bytes (r : StatusReport) : List Byte :=
  [r.state.code, r.epoch, r.endCause.code, byteOf (r.leasePeriod.getD 0 / Config.leaseUnit)]
    ++ countBytes r.leaseRemaining ++ [r.expected.code, byteOf r.stack.length] ++ stackBytes r.stack
    ++ pendingBytes r.pendingAcquire
    ++ [byteOf r.liveWaits, byteOf r.queueLength, byteOf r.reserved, byteOf r.lost, byteOf r.watchCount,
        byteOf r.linkErrors]

/-- The capacities of the part in an OPEN response (R123). -/
def capacityBytes : List Byte :=
  [byteOf Config.portCount] ++ countBytes Config.cellCount
    ++ [byteOf Config.lockCount, byteOf Config.poolSize, byteOf Config.queueSize, byteOf Config.watchSize,
        byteOf Config.stackSize]

/-- The second bank of a GATHER, 0xFF where the run lies in one bank. -/
def secondBankBytes : Option (Fin 32 × Bool) → List Byte
  | none => [0xFF, 0xFF]
  | some (b, s) => [byteOf b.val, flagByte s]

/-- Z in bit 2, C in bit 1, V in bit 0. -/
def chainFlags (z c v : Bool) : Byte := (flagByte z <<< 2) ||| (flagByte c <<< 1) ||| flagByte v

def Fields.bytes : Fields → List Byte
  | .zeros n => List.replicate n 0
  | .opened e u => [e, u] ++ wordBytes Config.identity ++ capacityBytes
  | .closed l w => [byteOf l, byteOf w]
  | .renewed r x n => [flagByte r, x.code] ++ countBytes n
  | .status r => r.bytes
  | .chain w z c v n m => wordBytes w ++ [chainFlags z c v, byteOf n, byteOf m]
  | .gather c b s second cells =>
    countBytes c.val ++ [byteOf cells.length, byteOf b.val, flagByte s] ++ secondBankBytes second ++ [0]
      ++ cells.flatMap Cell.descriptor
  | .formatted c x y => countBytes c.val ++ x.descriptor ++ y.descriptor
  | .acquire l g s d t => [byteOf l.val] ++ wordBytes g ++ [suspectByte s, byteOf d, t]
  | .release l d h => [byteOf l.val, byteOf d, flagByte h]
  | .take c n v t w => countBytes c.val ++ [n] ++ wordBytes v ++ [t, byteOf w]
  | .give c n v w => countBytes c.val ++ [n] ++ wordBytes v ++ [byteOf w]
  | .await c r t => countBytes c.val ++ r.bytes ++ [t]
  | .cancel t p w => [t, p.code] ++ wordBytes w
  | .watch c r n => countBytes c.val ++ r.bytes ++ [byteOf n]
  | .unwatch c r n => countBytes c.val ++ [flagByte r, byteOf n]
  | .fetch l n rs => [byteOf l, byteOf n, byteOf rs.length] ++ rs.flatMap Record.bytes

/-- The number of zero field bytes in a refused response of a kind: the fixed part of its group (R169). -/
def Kind.fixedPart : Kind → Nat
  | .openSession => 12
  | .closeSession => 2
  | .renewEven | .renewOdd => 4
  | .status => 22
  | .chain => 5
  | .gather => 8
  | .formatCell => 12
  | .acquire => 6
  | .release => 3
  | .take => 7
  | .give => 6
  | .await => 6
  | .cancel => 4
  | .watch => 6
  | .unwatch => 4
  | .fetch => 3

/-! ### Response records (R165) -/

/-- The reason code, 0x00 for DONE and PENDING. -/
def reasonByte : Option Reason → Byte
  | none => 0
  | some r => r.code

/-- The bytes of a response record before its CRC: the length counts the bytes after it, CRC included. -/
def Response.body (r : Response) : List Byte :=
  byteOf (5 + r.fields.bytes.length) :: r.outcome.code :: r.kind :: reasonByte r.reason :: byteOf r.stepIndex
    :: r.fields.bytes

/-- The bytes of a response record. -/
def Response.bytes (r : Response) : List Byte := r.body ++ [crc r.body]

/-! ### The attention state and the status byte -/

/-- The attention state: the queue holds a record (R113). -/
def attention (s : State) (p : Port) : Bool := !(s.session p).queue.isEmpty

/-- ATTN# is driven low: the attention state is asserted and RESET# is high (R161). -/
def attnLow (s : State) (p : Port) : Bool := attention s p && !s.resetLow

/-- REQ-HELD: the slot state is HELD or SERVING (R152). -/
def Slot.reqHeld : Slot → Bool
  | .held _ | .serving _ => true
  | .idle | .ready _ => false

/-- RESP-READY: the slot state is READY (R152). -/
def Slot.respReady : Slot → Bool
  | .ready _ => true
  | .idle | .held _ | .serving _ => false

/-- The status byte, bit 7 first (R152, R171). -/
def statusByte (s : State) (p : Port) : Byte :=
  let x := s.session p
  let l := s.port p
  (flagByte l.slot.reqHeld <<< 7) ||| (flagByte l.slot.respReady <<< 6) ||| (flagByte (attention s p) <<< 5)
    ||| (flagByte (x.state == .opened) <<< 4) ||| (flagByte (x.state == .ending) <<< 3)
    ||| (flagByte l.overrun <<< 2) ||| (flagByte l.linkError <<< 1)

end Sys2Proof.Machine
end

