-- ==== Sys2Proof/Machine/Timebase.lean ====
section
/-!
DEFINITION. What a millisecond tick does when it acts (R86, R124, R126, R127, R139). When it acts is the engine's
matter (Machine/Engine.lean).
-/

namespace Sys2Proof.Machine

/-- The tick lowers this entry's deadline: it has one above 0, and the piece of work during which the tick came did
not create it (R86). -/
def counts (fresh : Fresh) (w : WaitEntry) : Bool :=
  match w.deadline with
  | some d => d != 0 && fresh.entry != some w.number
  | none => false

/-- An entry after the tick. -/
def lowerDeadline (fresh : Fresh) (w : WaitEntry) : WaitEntry :=
  if counts fresh w then { w with deadline := w.deadline.map (· - 1) } else w

/-- The tick brings this entry's deadline to 0. -/
def reachesZero (fresh : Fresh) (w : WaitEntry) : Bool := counts fresh w && w.deadline == some 1

/-- The expiry items of the tick, in ascending order of entry number (R86, R139). -/
def expiryItems (s : State) : List Item :=
  entryNumbers.filterMap fun n =>
    match entryNumbered s n with
    | some w => if reachesZero s.fresh w then some (.expiry n w.port w.ticket) else none
    | none => none

/-- The tick lowers this port's lease: the session is OPEN, the lease is above 0, and the piece of work during which
the tick came did not set it (R124). -/
def leaseCounts (s : State) (p : Port) : Bool :=
  (s.session p).state == .opened && (s.session p).leaseRemaining != 0 && s.fresh.lease != some p

/-- One quarter of the lease period, rounded down (R126). -/
def quarter (x : Session) : Nat := x.leasePeriod.getD 0 / 4

/-- The session lapses: ENDING with cause LAPSED, and a teardown item is appended (R127). -/
def lapseSession (p : Port) (s : State) : State :=
  { s.modSession p fun x => { x with state := .ending, endCause := .lapsed } with
    workList := s.workList ++ [.teardown p] }

/-- The lease-low warning: the record is offered and the marker set, whether it was queued or dropped (R126). -/
def warnLease (p : Port) (s : State) : State :=
  (offerRecord p (.leaseLow (s.session p).leaseRemaining) s).modSession p fun x => { x with lowReported := true }

/-- The tick on one port's lease (R124, R126, R127). -/
def tickLease (s : State) (p : Port) : State :=
  if leaseCounts s p then
    let t := s.modSession p fun x => { x with leaseRemaining := x.leaseRemaining - 1 }
    let x := t.session p
    if x.leaseRemaining = 0 then lapseSession p t
    else if x.leaseRemaining = quarter x && !x.lowReported then warnLease p t
    else t
  else s

/-- The tick on the deadlines: they are lowered, and the expiry items are appended (R86). -/
def tickDeadlines (s : State) : State :=
  { s with pool := s.pool.map (lowerDeadline s.fresh), workList := s.workList ++ expiryItems s }

/-- A tick acts: first the deadlines with their items, then the leases in port order (R139). -/
def tickActs (s : State) : State := allPorts.foldl tickLease (tickDeadlines s)

end Sys2Proof.Machine
end

