-- ==== Sys2Proof/Machine/Engine.lean ====
section
/-!
DEFINITION. The request engine: the arbiter (R141, R142), the end of a piece of work and the claims that waited for
it (R139, R140, R159), the common checks (R144, R145) and the response (R146, R169).
-/

namespace Sys2Proof.Machine

/-! ### The arbiter -/

/-- The oldest expiry item of the work list (R141). -/
def oldestExpiry (s : State) : Option Item :=
  s.workList.find? fun i =>
    match i with
    | .expiry _ _ _ => true
    | .teardown _ => false

/-- The port's request is HELD (R157). -/
def holdsRequest (s : State) (p : Port) : Bool :=
  match (s.port p).slot with
  | .held _ => true
  | .idle | .serving _ | .ready _ => false

/-- The work list holds a teardown item of the port. -/
def listsTeardown (s : State) (p : Port) : Bool := s.workList.any (· == .teardown p)

/-- The work of one port as the rotation meets it: its request, and otherwise its teardown item (R141). -/
def portWork (s : State) (p : Port) : Option Work :=
  if holdsRequest s p then some (.request p (s.port p).linkErrors)
  else if listsTeardown s p then some (.item (.teardown p))
  else none

/-- The ports from the one after the rotation pointer round to the pointer's own (R141). -/
def rotationFrom (p : Port) : List Port :=
  [nextPort p, nextPort (nextPort p), nextPort (nextPort (nextPort p)), p]

/-- The arbiter's choice among the work that waits (R141). -/
def choose (s : State) : Option Work :=
  match oldestExpiry s with
  | some i => some (.item i)
  | none =>
    if listsTeardown s s.rotation then some (.item (.teardown s.rotation))
    else (rotationFrom s.rotation).findSome? (portWork s)

/-- The slot of a request that is taken (R157). -/
def Slot.taken : Slot → Slot
  | .held r => .serving r
  | .idle => .idle
  | .serving r => .serving r
  | .ready r => .ready r

/-- The engine takes a piece of work: a request's slot goes to SERVING and the rotation pointer names its port
(R142); an item leaves the list (R138). -/
def takeWork (w : Work) (s : State) : State :=
  match w with
  | .request p _ =>
    { s.modPort p fun x => { x with slot := x.slot.taken } with rotation := p, service := .serving w }
  | .item i => { s with workList := s.workList.erase i, service := .serving w }

/-- The arbiter at work: an idle engine takes what it chooses, if any work waits (R137, R141). -/
def arbitrate (s : State) : State :=
  match s.service with
  | .serving _ => s
  | .idle =>
    match choose s with
    | some w => takeWork w s
    | none => s

/-! ### Port resets -/

/-- The port reset's claim on the session (R128, R140). -/
def claimSession (p : Port) (s : State) : State :=
  match (s.session p).state with
  | .opened =>
    { s.modSession p fun x => { x with state := .ending, endCause := .portReset, leaseRemaining := 0 } with
      workList := s.workList ++ [.teardown p] }
  | .ending | .closed => s

/-- A port reset acts (R159): slots emptied, flags and count cleared, the marker cleared, the session claimed. -/
def resetPort (p : Port) (s : State) : State :=
  claimSession p <| s.modPort p fun x =>
    { x with slot := .idle, overrun := false, linkError := false, linkErrors := 0, resetPending := false }

/-! ### The end of a piece of work -/

/-- A claim acts. -/
def actClaim (s : State) (c : Claim) : State :=
  match c with
  | .tick => tickActs s
  | .portReset p => resetPort p s

/-- The ticks at the front of the waiting claims act; a port reset and what came after it stay waiting. -/
def actTicks : List Claim → State → State
  | .tick :: rest, s => actTicks rest (tickActs s)
  | .portReset p :: rest, s => { s with deferred := .portReset p :: rest }
  | [], s => { s with deferred := [] }

/-- The claims up to and with the port's reset act, and then the ticks that follow it. -/
def actThrough (p : Port) : List Claim → State → State
  | [], s => { s with deferred := [] }
  | c :: rest, s => if c = .portReset p then actTicks rest (resetPort p s) else actThrough p rest (actClaim s c)

/-- When no claim waits any more, what the piece set counts as any other, and the arbiter chooses (R139, R141). -/
def chooseNext (s : State) : State :=
  if s.deferred = [] then arbitrate { s with fresh := ⟨none, none⟩ } else s

/-- The end of the piece of work in service: the engine is idle, the ticks that came during it act, and the arbiter
chooses unless a port reset waits to act (R137, R139, R159). -/
def conclude (s : State) : State :=
  let s := { s with service := .idle }
  chooseNext (actTicks s.deferred s)

/-- The state in which a command finds the part. An idle engine has let the claims that waited for its last piece act,
"as soon as that piece is complete" (R159), and has taken work if any waits (R137); PORT_RESET_ACTS alone can come
before that. -/
def settled (s : State) : State :=
  match s.service with
  | .serving _ => s
  | .idle => chooseNext (s.deferred.foldl actClaim { s with deferred := [] })

/-! ### The common checks -/

/-- The reason of the first common check that refuses the request (R144, R145). -/
def commonCheck (k : Kind) (r : Request) (x : Session) : Option Reason :=
  if !payloadSuits k r.payload then some .malformed
  else if k.needsOpen then
    match x.state with
    | .closed => some .noSession
    | .ending => some .sessionEnding
    | .opened => if r.epoch = x.epoch then none else some .stale
  else none

/-! ### Serving a request -/

/-- How a kind's own work answers: DONE or PENDING with its fields, or REFUSED with a reason and, for a chain, the
step index. -/
inductive Reply
  | done (fields : Fields)
  | pending (fields : Fields)
  | refused (reason : Reason) (stepIndex : Nat)
deriving DecidableEq, Repr

/-- The response record of a reply (R146, R169). -/
def Reply.response (kind : Byte) (fixedPart : Nat) : Reply → Response
  | .done f => ⟨.done, kind, none, 0, f⟩
  | .pending f => ⟨.pending, kind, none, 0, f⟩
  | .refused r i => ⟨.refused, kind, some r, i, .zeros fixedPart⟩

/-- The response is placed in the port's response slot and the request leaves its slot (R146). -/
def placeResponse (p : Port) (r : Response) (s : State) : State := s.modPort p fun x => { x with slot := .ready r }

/-- The work of a kind on a request that has passed the common checks: the state it leaves and its reply. -/
abbrev OwnWork := Port → List Byte → State → State × Reply

/-- One request served whole: the common checks, the kind's own work, the response (R144 to R146). -/
def serve (k : Kind) (own : OwnWork) (p : Port) (r : Request) (s : State) : State :=
  match commonCheck k r (s.session p) with
  | some reason => placeResponse p ((Reply.refused reason 0).response r.kind k.fixedPart) s
  | none =>
    let a := own p r.payload s
    placeResponse p (a.2.response r.kind k.fixedPart) a.1

/-- The request of the port in service, when the engine is serving one whose code is `kind`. -/
def requestInService (p : Port) (s : State) : Option Request :=
  match s.service, (s.port p).slot with
  | .serving (.request q _), .serving r => if q = p then some r else none
  | _, _ => none

/-- The engine's command for a request kind: the request of the port in service, when it is of that kind, is served
and the piece ends. Where no such request is in service the event does not take place (log entry 2). -/
def finishRequest (k : Kind) (own : OwnWork) (p : Port) (s : State) : State :=
  let s := settled s
  match requestInService p s with
  | some r => if r.kind = k.code then conclude (serve k own p r s) else s
  | none => s

/-- A request whose kind code is none of the seventeen: MALFORMED, with no field bytes (R144, R169). -/
def refuseUnknown (p : Port) (r : Request) (s : State) : State :=
  placeResponse p ((Reply.refused .malformed 0).response r.kind 0) s

end Sys2Proof.Machine
end

