-- ==== Sys2Proof/WellFormed.lean ====
section
/-!
DEFINITION. Well-formed commands: a frame command that carries a whole transaction carries the frame its row
names. A command that is not well formed is still run: the part acts on the bytes the wire carries.
-/

namespace Sys2Proof

/-- The bytes after the type byte hold a REQUEST's length byte in 3 to 60 and at least the bytes it counts
(R153), so that the frame completes. -/
def requestCompletes : List Byte → Bool
  | [] => false
  | len :: rest => Config.minLength ≤ len.toNat && len.toNat ≤ Config.maxLength && len.toNat ≤ rest.length

/-- The second byte of a PORT-RESET is the confirm byte (R159). -/
def confirms : List Byte → Bool
  | [] => false
  | b :: _ => b == Config.confirmByte

/-- The frame types of R164. -/
def knownType (t : Byte) : Bool :=
  t == Config.requestType || t == Config.pollType || t == Config.portResetType

/-- The check of one segment: a whole transaction satisfies `ok`, and a part of a transaction may hold any bytes
(R151); the bits beside the bytes make no byte. -/
def Segment.wf (ok : List Byte → Bool) : Segment → Bool
  | .whole _ bytes bits => ok bytes && bits.length < 8
  | .start _ _ bits | .first _ bits | .more _ bits | .finish _ bits | .aborted _ bits => bits.length < 8
  | .select _ => true

/-- The command carries what its row names. -/
def Instr.wf : Instr → Bool
  | .requestFrame _ seg => seg.wf requestCompletes
  | .pollFrame _ seg => seg.wf (fun _ => true)
  | .portResetFrame _ seg => seg.wf confirms
  | .unknownFrameType _ t seg => !knownType t && seg.wf (fun _ => true)
  | .damagedRequestFrame _ seg => seg.wf (fun bs => !requestCompletes bs)
  | .damagedPortReset _ seg => seg.wf (fun bs => !confirms bs)
  | .openSession _ | .closeSession _ | .renewEven _ | .renewOdd _ | .status _ | .chain _ | .gather _
  | .formatCell _ | .acquire _ | .release _ | .take _ | .give _ | .await _ | .cancel _ | .watch _
  | .unwatch _ | .fetch _ | .expiryItem _ | .teardownItem _ | .portResetActs _ | .timebaseTick
  | .deadlineZero _ | .leaseLow _ | .lapse _ | .powerOn | .initComplete | .resetLine
  | .unknownKindCode _ | .resetReturnsHigh => true

end Sys2Proof
end

