-- ==== Sys2Proof/Machine/Links.lean ====
section
/-!
DEFINITION. The port links (chapter 9): transactions and their segments, the REQUEST, POLL and PORT-RESET frames and
link errors.
-/

namespace Sys2Proof.Machine

/-- The port answers selects: initialisation is complete and RESET# is high (R162). -/
def answers (s : State) : Bool := s.initialised && !s.resetLow

def setReceiver (p : Port) (r : Receiver) (s : State) : State := s.modPort p fun x => { x with receiver := r }

/-- A link error: LINK-ERROR is set and the count rises, staying at 255 (R155). -/
def countLinkError (p : Port) (s : State) : State :=
  s.modPort p fun x => { x with linkError := true, linkErrors := min 255 (x.linkErrors + 1) }

/-! ### The REQUEST frame -/

/-- The request in the bytes of a complete REQUEST frame (R153). -/
def requestOf (frame : List Byte) : Request where
  epoch := frame.getD 2 0
  kind := frame.getD 3 0
  payload := (frame.drop 4).dropLast

/-- The CRC byte of a complete frame is that of the bytes before it (R153, R158). -/
def crcCorrect (frame : List Byte) : Bool := frame.getLast? == some (crc frame.dropLast)

/-- A complete REQUEST frame with a correct CRC is decided by the slot state (R154). A request placed is work that
arrives, so that an idle engine's arbiter chooses (R141). -/
def acceptRequest (p : Port) (r : Request) (s : State) : State :=
  match (s.port p).slot with
  | .idle => arbitrate (s.modPort p fun x => { x with slot := .held r })
  | .held _ | .serving _ | .ready _ => s.modPort p fun x => { x with overrun := true }

/-- A REQUEST frame has come to its last byte (R153, R155). -/
def completeRequest (p : Port) (frame : List Byte) (s : State) : State :=
  if crcCorrect frame then acceptRequest p (requestOf frame) s else countLinkError p s

/-- What a byte of a REQUEST frame leads to, `frame` being the bytes received with it (R153, R155). -/
inductive RequestStep
  | goesOn | badLength | complete
deriving DecidableEq, Repr

/-- The length byte is the second byte and lies in 3 to 60; the frame is complete at byte L + 2 (R153). -/
def requestStep (frame : List Byte) : RequestStep :=
  let len := (frame.getD 1 0).toNat
  if frame.length = 2 then
    if Config.minLength ≤ len ∧ len ≤ Config.maxLength then .goesOn else .badLength
  else if frame.length = len + 2 then .complete
  else .goesOn

/-! ### The PORT-RESET frame -/

/-- A correct PORT-RESET has been received (R159): with the engine idle it acts at once, and what it appends is work
that arrives (R141); while a piece is in service the marker is set and the claim waits. -/
def receivePortReset (p : Port) (s : State) : State :=
  match s.service with
  | .idle => arbitrate (resetPort p s)
  | .serving _ =>
    if (s.port p).resetPending then s
    else
      { s.modPort p fun x => { x with resetPending := true } with deferred := s.deferred ++ [.portReset p] }

/-! ### Bytes and bits of a transaction -/

/-- The byte the part returns while it receives the next one (R151, R156): first the status byte, then in a POLL the
record of the snapshot or a length of 0, and 0 after that and in every other transaction. -/
def nextOut (rx : Rx) : Byte :=
  match rx.received.length with
  | 0 => rx.status
  | i + 1 => if rx.phase = .poll then (rx.record.getD [0]).getD i 0 else 0

/-- The first byte of a transaction as a frame type (R151). -/
def phaseOf (t : Byte) : Option RxPhase :=
  if t = Config.requestType then some .request
  else if t = Config.pollType then some .poll
  else if t = Config.portResetType then some .portReset
  else none

/-- The bit of that byte that SDO drives while the next bit is received (R151). -/
def driven (rx : Rx) : Bool := (nextOut rx).getLsbD (7 - rx.bits.length)

/-- A whole byte is received in a transaction the receiver follows (R151, R153, R155, R156, R159). -/
def receiveByte (p : Port) (rx : Rx) (b : Byte) (s : State) : State :=
  let rx' := { rx with received := rx.received ++ [b] }
  let closing := Receiver.active { rx' with phase := .ended }
  match rx.phase with
  | .frameType =>
    match phaseOf b with
    | some ph => setReceiver p (.active { rx' with phase := ph }) s
    | none => countLinkError p (setReceiver p closing s)
  | .request =>
    match requestStep rx'.received with
    | .goesOn => setReceiver p (.active rx') s
    | .badLength => countLinkError p (setReceiver p closing s)
    | .complete => completeRequest p rx'.received (setReceiver p closing s)
  | .poll => setReceiver p (.active rx') s
  | .portReset =>
    if b = Config.confirmByte then receivePortReset p (setReceiver p closing s)
    else countLinkError p (setReceiver p closing s)
  | .ended => setReceiver p (.active rx') s

/-- A bit is clocked: one bit out, one bit in, and the eighth makes the byte. A receiver that follows no transaction
ignores it, and SDO is released (R151, R162). -/
def clockBit (p : Port) (s : State) (bit : Bool) : State :=
  match (s.port p).receiver with
  | .idle => s
  | .active rx =>
    let bits := rx.bits ++ [bit]
    let s := s.modPort p fun x => { x with out := x.out ++ [driven rx] }
    if bits.length = 8 then receiveByte p { rx with bits := [] } (byteOfBits bits) s
    else setReceiver p (.active { rx with bits := bits }) s

/-- Bits are clocked one after another. -/
def clockBits (p : Port) (bits : List Bool) (s : State) : State := bits.foldl (clockBit p) s

/-- The bit that SDO drives between two commands, SCK resting at its mode's level; absent where it drives none (R151). In
mode 0 the next bit is driven from the select or the last falling edge on. In mode 3 the last bit stays driven, and none
is before the first falling edge. -/
def sdo (s : State) (p : Port) : Option Bool :=
  match (s.port p).receiver with
  | .idle => none
  | .active rx =>
    match rx.mode with
    | .mode0 => some (driven rx)
    | .mode3 => (s.port p).out.getLast?

/-! ### Select and deselect -/

/-- The bytes of the response record of a READY slot (R156). -/
def readyBytes : Slot → Option (List Byte)
  | .ready r => some r.bytes
  | .idle | .held _ | .serving _ => none

/-- The select (R151): a port that answers takes its snapshot and follows the transaction; one that does not answer
leaves SDO released (R162). -/
def selectPort (p : Port) (mode : ClockMode) (s : State) : State :=
  let rx : Rx := ⟨mode, statusByte s p, readyBytes (s.port p).slot, [], [], .frameType⟩
  s.modPort p fun x =>
    { x with selected := true, out := [], receiver := if answers s then .active rx else .idle }

/-- The record of the snapshot was clocked out with every bit, its CRC byte included (R156). -/
def readOut (rx : Rx) : Bool :=
  match rx.record with
  | some bytes => bytes.length + 1 ≤ rx.received.length
  | none => false

/-- The slot after a POLL that read the record out (R156, R157). -/
def Slot.emptied : Slot → Slot
  | .ready _ => .idle
  | .idle => .idle
  | .held r => .held r
  | .serving r => .serving r

/-- The deselect of a POLL (R156): a slot read out is emptied, and the flags that the status byte showed set are
cleared (bits 2 and 1, R171). -/
def endPoll (p : Port) (rx : Rx) (s : State) : State :=
  s.modPort p fun x =>
    { x with
      slot := if readOut rx then x.slot.emptied else x.slot
      overrun := x.overrun && !rx.status.getLsbD 2
      linkError := x.linkError && !rx.status.getLsbD 1 }

/-- The deselect (R151): a REQUEST or PORT-RESET cut short is a link error (R155). -/
def deselectPort (p : Port) (s : State) : State :=
  let t := s.modPort p fun x => { x with selected := false, receiver := .idle }
  match (s.port p).receiver with
  | .idle => t
  | .active rx =>
    match rx.phase with
    | .request | .portReset => countLinkError p t
    | .poll => endPoll p rx t
    | .frameType | .ended => t

/-- A falling edge of CS#. The edge supposes that CS# was high, so that a transaction still open has ended before it
(log entry 6). -/
def openTransaction (p : Port) (mode : ClockMode) (s : State) : State :=
  selectPort p mode (if (s.port p).selected then deselectPort p s else s)

/-- A segment of a transaction whose frame type byte is `type`. The bits of an incomplete byte are discarded at the
deselect (R151). -/
def transact (p : Port) (type : Byte) (seg : Segment) (s : State) : State :=
  match seg with
  | .whole mode bytes bits => deselectPort p (clockBits p (wire (type :: bytes) ++ bits) (openTransaction p mode s))
  | .start mode bytes bits => clockBits p (wire (type :: bytes) ++ bits) (openTransaction p mode s)
  | .select mode => openTransaction p mode s
  | .first bytes bits => clockBits p (wire (type :: bytes) ++ bits) s
  | .more bytes bits => clockBits p (wire bytes ++ bits) s
  | .finish bytes bits => deselectPort p (clockBits p (wire bytes ++ bits) s)
  | .aborted mode bits => deselectPort p (clockBits p bits (openTransaction p mode s))

/-! ### The frame commands -/

/-- REQUEST_FRAME (R154). -/
def execRequestFrame (p : Port) (seg : Segment) (s : State) : Host.Outcome State Fault Refusal :=
  .next (transact p Config.requestType seg (settled s))

/-- POLL_FRAME (R156). -/
def execPollFrame (p : Port) (seg : Segment) (s : State) : Host.Outcome State Fault Refusal :=
  .next (transact p Config.pollType seg (settled s))

/-- PORT_RESET_FRAME (R159). -/
def execPortResetFrame (p : Port) (seg : Segment) (s : State) : Host.Outcome State Fault Refusal :=
  .next (transact p Config.portResetType seg (settled s))

/-- UNKNOWN_FRAME_TYPE (R155): a transaction whose first byte is `type`. -/
def execUnknownFrameType (p : Port) (type : Byte) (seg : Segment) (s : State) : Host.Outcome State Fault Refusal :=
  .next (transact p type seg (settled s))

/-- DAMAGED_REQUEST_FRAME (R155). -/
def execDamagedRequestFrame (p : Port) (seg : Segment) (s : State) : Host.Outcome State Fault Refusal :=
  .next (transact p Config.requestType seg (settled s))

/-- DAMAGED_PORT_RESET (R155). -/
def execDamagedPortReset (p : Port) (seg : Segment) (s : State) : Host.Outcome State Fault Refusal :=
  .next (transact p Config.portResetType seg (settled s))

/-- PORT_RESET_ACTS (R159): the engine has completed the piece that was in service, the port's reset is pending, and
it acts, with the claims that came before it; the arbiter chooses when no claim waits any more. In any other state
no reset of the port is due and the event does not take place (log entry 2). -/
def execPortResetActs (p : Port) (s : State) : Host.Outcome State Fault Refusal :=
  match s.service with
  | .serving _ => .next s
  | .idle =>
    .next (if .portReset p ∈ s.deferred then chooseNext (actThrough p s.deferred s) else s)

end Sys2Proof.Machine
end

