-- ==== Sys2Proof/Machine/CellRequests.lean ====
section
/-!
DEFINITION. FORMAT and GATHER (chapter 1).
-/

namespace Sys2Proof.Machine

/-- A FORMAT's fields: the cell field and the record it names (R7, R166). -/
def formatFields : List Byte → Option (Word × Cell)
  | [c1, c0, kc, v1, v0] =>
    match CellKind.ofCode kc with
    | some .plain => some (word c1 c0, .plain (word v1 v0))
    | some .members => some (word c1 c0, .members (word v1 v0))
    | some .counter | none => none
  | [c1, c0, kc, n1, n0, v1, v0] =>
    match CellKind.ofCode kc with
    | some .counter => some (word c1 c0, .counter (word n1 n0) (word v1 v0))
    | some .plain | some .members | none => none
  | _ => none

/-- Checks 2 and 3 of R7: a COUNTER's ceiling is not 0 and its value does not exceed it. -/
def Cell.fits : Cell → Bool
  | .counter n v => n != 0 && v.toNat ≤ n.toNat
  | .plain _ | .members _ => true

/-- A live wait entry targets the cell (R7). -/
def cellBusy (s : State) (c : Fin 512) : Bool := s.pool.any (fun w => w.takes c || w.awaits c)

/-- FORMAT after the common checks (R7, R8). -/
def serveFormat : OwnWork := fun p payload s =>
  match formatFields payload with
  | none => (s, .refused .malformed 0)
  | some (w, x) =>
    match cellOf w with
    | none => (s, .refused .range 0)
    | some c =>
      if !x.fits then (s, .refused .range 0)
      else if guardedAgainst s p c then (s, .refused .guarded 0)
      else if cellBusy s c then (s, .refused .cellBusy 0)
      else (handOn (some p) s.cells [c] (s.setCell c x), .done (.formatted c (s.cell c) x))

/-- FORMAT (R7). -/
def execFormat (p : Port) (s : State) : Host.Outcome State Fault Refusal :=
  .next (finishRequest .formatCell serveFormat p s)

/-- The cells of a run in ascending order (R10). -/
def runCells (s : State) (first count : Nat) : List Cell :=
  (List.range count).filterMap fun i =>
    if h : first + i < 512 then some (s.cell ⟨first + i, h⟩) else none

/-- GATHER after the common checks (R9, R10). -/
def serveGather : OwnWork := fun _ payload s =>
  match payload with
  | [c1, c0, n] =>
    match cellOf (word c1 c0) with
    | none => (s, .refused .range 0)
    | some c =>
      if n = 0 ∨ Config.gatherSize < n.toNat then (s, .refused .range 0)
      else
        if h : c.val + n.toNat - 1 < 512 then
          let last : Fin 512 := ⟨c.val + n.toNat - 1, h⟩
          let second := if bankOf last = bankOf c then none else some (bankOf last, s.bankSuspect (bankOf last))
          (s, .done (.gather c (bankOf c) (s.bankSuspect (bankOf c)) second (runCells s c.val n.toNat)))
        else (s, .refused .range 0)
  | _ => (s, .refused .malformed 0)

/-- GATHER (R10). -/
def execGather (p : Port) (s : State) : Host.Outcome State Fault Refusal :=
  .next (finishRequest .gather serveGather p s)

end Sys2Proof.Machine
end

