-- ==== Sys2Proof/Machine/Flags.lean ====
section
/-!
DEFINITION. The arithmetic of chain steps: true results, stored results and the flags Z, C and V (R21, R25 to
R30). A result is computed without wrapping and narrowed at the end.
-/

namespace Sys2Proof.Machine

/-- The flags of a chain (R20). -/
structure Flags where
  z : Bool
  c : Bool
  v : Bool
deriving DecidableEq, Repr

/-- 1 when a flag is set. -/
def bit (b : Bool) : Nat := if b then 1 else 0

/-- A signed result lies outside -32768 to 32767 (R25, R26). -/
def outside (x : Int) : Bool := x < -32768 || 32767 < x

/-- The stored result of an addition with carry in: the true result modulo 65536 (R25). -/
def addResult (x y : Word) (carry : Bool) : Word := BitVec.ofNat 16 (x.toNat + y.toNat + bit carry)

/-- Carry of an addition: the true result is 65536 or more (R25). -/
def addCarry (x y : Word) (carry : Bool) : Bool := 65536 ≤ x.toNat + y.toNat + bit carry

/-- Signed overflow of an addition (R25). -/
def addOverflow (x y : Word) (carry : Bool) : Bool := outside (x.toInt + y.toInt + bit carry)

/-- The stored result of a subtraction with borrow in (R26). -/
def subResult (x y : Word) (borrow : Bool) : Word := BitVec.ofInt 16 ((x.toNat : Int) - y.toNat - bit borrow)

/-- Borrow of a subtraction: the true result is below 0 (R26). -/
def subBorrow (x y : Word) (borrow : Bool) : Bool := x.toNat < y.toNat + bit borrow

/-- Signed overflow of a subtraction (R26). -/
def subOverflow (x y : Word) (borrow : Bool) : Bool := outside (x.toInt - y.toInt - bit borrow)

/-- Z from a new value of W (R21). -/
def zeroFlag (w : Word) : Bool := w == 0

end Sys2Proof.Machine
end

