-- ==== Sys2Proof/Machine/Chains.lean ====
section
/-!
DEFINITION. CHAIN (chapter 2): validation, the steps, guards and passing over, and the response.
-/

namespace Sys2Proof.Machine

/-- A chain in progress (R20, R34): the cells as the steps have left them, W and the flags, the two counts, and the
cells that performed steps touched. It lives within one piece of work. -/
structure ChainRun where
  cells     : Vector Cell 512
  w         : Word
  flags     : Flags
  performed : Nat
  passed    : Nat
  touched   : List (Fin 512)
deriving DecidableEq, Repr

/-- The start of every chain: W 0 and all flags clear (R20). -/
def ChainRun.start (cells : Vector Cell 512) : ChainRun := ⟨cells, 0, ⟨false, false, false⟩, 0, 0, []⟩

def ChainRun.number (r : ChainRun) (c : Fin 512) : Word := r.cells[c].number

def ChainRun.set (r : ChainRun) (c : Fin 512) : Word := r.cells[c].set

/-- W takes a new value and Z is set from it (R21). -/
def ChainRun.setW (r : ChainRun) (w : Word) : ChainRun := { r with w := w, flags := { r.flags with z := zeroFlag w } }

def ChainRun.setCV (r : ChainRun) (c v : Bool) : ChainRun := { r with flags := { r.flags with c := c, v := v } }

def ChainRun.setC (r : ChainRun) (c : Bool) : ChainRun := { r with flags := { r.flags with c := c } }

/-- A PLAIN cell takes a number. -/
def ChainRun.store (r : ChainRun) (c : Fin 512) (v : Word) : ChainRun := { r with cells := r.cells.set c (.plain v) }

/-- A MEMBERS cell takes a set. -/
def ChainRun.storeSet (r : ChainRun) (c : Fin 512) (m : Word) : ChainRun :=
  { r with cells := r.cells.set c (.members m) }

/-- ADD and ADDC with this carry in (R25). -/
def ChainRun.addStep (r : ChainRun) (c : Fin 512) (carry : Bool) : ChainRun :=
  let x := r.number c
  (r.setW (addResult r.w x carry)).setCV (addCarry r.w x carry) (addOverflow r.w x carry)

/-- SUB and SUBB with this borrow in (R26). -/
def ChainRun.subStep (r : ChainRun) (c : Fin 512) (borrow : Bool) : ChainRun :=
  let x := r.number c
  (r.setW (subResult r.w x borrow)).setCV (subBorrow r.w x borrow) (subOverflow r.w x borrow)

/-- The cell takes a result and W takes the new cell value (R28 to R30). -/
def ChainRun.storeBack (r : ChainRun) (c : Fin 512) (v : Word) : ChainRun := (r.store c v).setW v

/-- The effect of a performed step on cells, W and flags; a guard has none (R23 to R32). -/
def ChainStep.effect (step : ChainStep) (r : ChainRun) : ChainRun :=
  match step with
  | .read c => r.setW (r.number c)
  | .load n => r.setW n
  | .write c => r.store c r.w
  | .exchange c => (r.store c r.w).setW (r.number c)
  | .add c => r.addStep c false
  | .addc c => r.addStep c r.flags.c
  | .sub c => r.subStep c false
  | .subb c => r.subStep c r.flags.c
  | .and c => r.setW (r.w &&& r.number c)
  | .or c => r.setW (r.w ||| r.number c)
  | .xor c => r.setW (r.w ^^^ r.number c)
  | .accum c =>
    let x := r.number c
    (r.storeBack c (addResult x r.w false)).setCV (addCarry x r.w false) (addOverflow x r.w false)
  | .deduct c =>
    let x := r.number c
    (r.storeBack c (subResult x r.w false)).setCV (subBorrow x r.w false) (subOverflow x r.w false)
  | .stepUp c => (r.storeBack c (addResult (r.number c) 1 false)).setC (addCarry (r.number c) 1 false)
  | .stepDown c => (r.storeBack c (subResult (r.number c) 1 false)).setC (subBorrow (r.number c) 1 false)
  | .insert c m =>
    let x := r.set c ||| (1#16 <<< m.val)
    (r.storeSet c x).setW (BitVec.ofNat 16 (memberCount x))
  | .remove c m =>
    let x := r.set c &&& ~~~(1#16 <<< m.val)
    (r.storeSet c x).setW (BitVec.ofNat 16 (memberCount x))
  | .whenZero | .whenNonzero | .whenEqual _ | .whenBelow _ | .whenMember _ _ | .whenAbsent _ _ => r

/-- The step is a guard whose condition fails, so that the step after it is passed over (R32, R33). -/
def ChainStep.fails (step : ChainStep) (r : ChainRun) : Bool :=
  match step with
  | .whenZero => r.w != 0
  | .whenNonzero => r.w == 0
  | .whenEqual c => r.w != r.number c
  | .whenBelow c => !(r.w.toNat < (r.number c).toNat)
  | .whenMember c m => !(r.set c).getLsbD m.val
  | .whenAbsent c m => (r.set c).getLsbD m.val
  | .read _ | .load _ | .write _ | .exchange _ | .add _ | .addc _ | .sub _ | .subb _ | .and _ | .or _ | .xor _
  | .accum _ | .deduct _ | .stepUp _ | .stepDown _ | .insert _ _ | .remove _ _ => false

/-- A step is performed: its effect, the performed count, and the cell it touches (R34, R42). -/
def ChainRun.perform (r : ChainRun) (step : ChainStep) : ChainRun :=
  let t := step.effect r
  { t with performed := t.performed + 1, touched := step.cell?.toList ++ t.touched }

/-- The steps in order (R33): the flag says that the next step is passed over. -/
def runSteps : List ChainStep → Bool → ChainRun → ChainRun
  | [], _, r => r
  | _ :: rest, true, r => runSteps rest false { r with passed := r.passed + 1 }
  | step :: rest, false, r => runSteps rest (step.fails r) (r.perform step)

/-- Checks 3 and 4 of R37 on one step: the kind of its cell and the guarding of its bank. -/
def checkStep (p : Port) (s : State) (step : ChainStep) : Option Reason :=
  match step.cell? with
  | none => none
  | some c =>
    if !step.accepts (s.cell c).kind then some .kind
    else if step.modifies && guardedAgainst s p c then some .guarded
    else none

/-- Validation of the steps from position `i` on (R37): the steps read, or the reason and position of the first
check that fails. -/
def validateSteps (p : Port) (s : State) : Nat → List RawStep → Except (Reason × Nat) (List ChainStep)
  | _, [] => .ok []
  | i, raw :: rest =>
    match ChainStep.ofRaw raw with
    | .error r => .error (r, i)
    | .ok step =>
      match checkStep p s step with
      | some r => .error (r, i)
      | none =>
        match validateSteps p s (i + 1) rest with
        | .error e => .error e
        | .ok steps => .ok (step :: steps)

/-- A chain that has passed validation: its steps run, and its net change is handed on (R40, R42). -/
def runChain (p : Port) (steps : List ChainStep) (s : State) : State × Reply :=
  let r := runSteps steps false (ChainRun.start s.cells)
  (handOn (some p) s.cells r.touched { s with cells := r.cells },
    .done (.chain r.w r.flags.z r.flags.c r.flags.v r.performed r.passed))

/-- CHAIN after the common checks (R36, R37, R40, R41). -/
def serveChain : OwnWork := fun p payload s =>
  match payload with
  | [] => (s, .refused .malformed 0)
  | n :: rest =>
    if n = 0 ∨ Config.chainSize < n.toNat then (s, .refused .malformed 0)
    else
      match validateSteps p s 1 (rawSteps rest) with
      | .error (r, i) => (s, .refused r i)
      | .ok steps => runChain p steps s

/-- CHAIN (R19). -/
def execChain (p : Port) (s : State) : Host.Outcome State Fault Refusal := .next (finishRequest .chain serveChain p s)

end Sys2Proof.Machine
end

