-- ==== Sys2Proof/Machine/Counting.lean ====
section
/-!
DEFINITION. TAKE and GIVE (chapter 4).
-/

namespace Sys2Proof.Machine

/-- A TAKE granted at once (R67): the value falls by the amount. -/
def takeNow (p : Port) (c : Fin 512) (amount : Byte) (s : State) : State × Reply :=
  let t := lowerCounter c amount.toNat s
  (handOn (some p) s.cells [c] t, .done (.take c amount (t.cell c).number 0 0))

/-- A TAKE that waits (R68). -/
def takeLater (p : Port) (c : Fin 512) (amount : Byte) (timeout : Word) (s : State) : State × Reply :=
  match createEntry p (.take c amount) timeout s with
  | .error r => (s, .refused r 0)
  | .ok (t, s') => (s', .pending (.take c amount (s.cell c).number t (takeWaiters s c).length))

/-- A TAKE that passed its checks is decided by the value and the waiters (R67, R68). -/
def decideTake (p : Port) (c : Fin 512) (amount : Byte) (timeout : Word) (s : State) : State × Reply :=
  if takeWaiters s c = [] ∧ amount.toNat ≤ (s.cell c).number.toNat then takeNow p c amount s
  else if timeout = 0 then (s, .refused .unavailable 0)
  else takeLater p c amount timeout s

/-- TAKE after the common checks (R66). -/
def serveTake : OwnWork := fun p payload s =>
  match payload with
  | [c1, c0, amount, t1, t0] =>
    match cellOf (word c1 c0) with
    | none => (s, .refused .range 0)
    | some c =>
      if amount = 0 then (s, .refused .range 0)
      else
        match s.cell c with
        | .plain _ | .members _ => (s, .refused .kind 0)
        | .counter ceil _ =>
          if ceil.toNat < amount.toNat then (s, .refused .range 0)
          else if guardedAgainst s p c then (s, .refused .guarded 0)
          else decideTake p c amount (word t1 t0) s
  | _ => (s, .refused .malformed 0)

/-- TAKE (R66). -/
def execTake (p : Port) (s : State) : Host.Outcome State Fault Refusal := .next (finishRequest .take serveTake p s)

/-- A GIVE that passed its checks: the value is raised and the grant walk made (R70). -/
def giveUnits (p : Port) (c : Fin 512) (ceil value : Word) (amount : Byte) (s : State) : State × Reply :=
  let r := grantWalk c (s.setCell c (.counter ceil (BitVec.ofNat 16 (value.toNat + amount.toNat))))
  (handOn (some p) s.cells [c] r.1, .done (.give c amount (r.1.cell c).number r.2))

/-- GIVE after the common checks (R69, R70). -/
def serveGive : OwnWork := fun p payload s =>
  match payload with
  | [c1, c0, amount] =>
    match cellOf (word c1 c0) with
    | none => (s, .refused .range 0)
    | some c =>
      if amount = 0 then (s, .refused .range 0)
      else
        match s.cell c with
        | .plain _ | .members _ => (s, .refused .kind 0)
        | .counter ceil v =>
          if guardedAgainst s p c then (s, .refused .guarded 0)
          else if ceil.toNat < v.toNat + amount.toNat then (s, .refused .ceiling 0)
          else giveUnits p c ceil v amount s
  | _ => (s, .refused .malformed 0)

/-- GIVE (R70). -/
def execGive (p : Port) (s : State) : Host.Outcome State Fault Refusal := .next (finishRequest .give serveGive p s)

end Sys2Proof.Machine
end

