-- ==== Sys2Proof/Machine/LockRequests.lean ====
section
/-!
DEFINITION. ACQUIRE and RELEASE (chapter 3).
-/

namespace Sys2Proof.Machine

/-- The port that holds a lock. -/
def holderOf (s : State) (l : Fin 48) : Option Port :=
  match (s.lock l).state with
  | .held q _ => some q
  | .free => none

/-- The walk of the cycle check from a port reached, with so many steps left (R54): it finds a cycle when a step
reaches the requester. A pending lock that were FREE would end the walk (log entry 23). -/
def cycleFrom (s : State) (requester : Port) : Nat → Port → Bool
  | 0, _ => false
  | fuel + 1, q =>
    match (s.session q).pendingAcquire with
    | none => false
    | some (l, _) =>
      match holderOf s l with
      | none => false
      | some next => if next = requester then true else cycleFrom s requester fuel next

/-- The first check of R50 on the port that fails for a lock: SELF, LOCK-PENDING, DEPTH. -/
def acquireCheck (x : Session) (l : Fin 48) : Option Reason :=
  if l ∈ x.stack then some .self
  else if x.pendingAcquire.isSome then some .lockPending
  else if Config.stackSize ≤ x.stack.length then some .depth
  else none

/-- The immediate grant of a FREE lock (R51). -/
def grantNow (p : Port) (l : Fin 48) (s : State) : State × Reply :=
  let t := grantLock p (s.session p).epoch l s
  (t, .done (.acquire l (t.lock l).generation (lockSuspect t l) (t.session p).stack.length 0))

/-- The wait for a HELD lock (R53). -/
def waitForLock (p : Port) (l : Fin 48) (timeout : Word) (s : State) : State × Reply :=
  match createEntry p (.lock l) timeout s with
  | .error r => (s, .refused r 0)
  | .ok (t, s') =>
    (s'.modSession p fun x => { x with pendingAcquire := some (l, t) }, .pending (.acquire l 0 none 0 t))

/-- ACQUIRE of an existing lock that passed the checks of R50 (R51 to R54). -/
def decideAcquire (p : Port) (l : Fin 48) (timeout : Word) (s : State) : State × Reply :=
  match holderOf s l with
  | none => grantNow p l s
  | some q =>
    if timeout = 0 then (s, .refused .unavailable 0)
    else if cycleFrom s p Config.cycleSteps q then (s, .refused .cycle 0)
    else waitForLock p l timeout s

/-- ACQUIRE after the common checks (R50). -/
def serveAcquire : OwnWork := fun p payload s =>
  match payload with
  | [lb, t1, t0] =>
    match lockOf lb with
    | none => (s, .refused .range 0)
    | some l =>
      match acquireCheck (s.session p) l with
      | some r => (s, .refused r 0)
      | none => decideAcquire p l (word t1 t0) s
  | _ => (s, .refused .malformed 0)

/-- ACQUIRE (R50). -/
def execAcquire (p : Port) (s : State) : Host.Outcome State Fault Refusal :=
  .next (finishRequest .acquire serveAcquire p s)

/-- A RELEASE that passes its checks: pop, clear the bank's suspect flag, pass the lock on (R56). -/
def releaseTop (p : Port) (l : Fin 48) (s : State) : State × Reply :=
  let r := passOn l (markBank l false (popStack p s))
  (r.1, .done (.release l (r.1.session p).stack.length r.2))

/-- RELEASE after the common checks (R55, R56). -/
def serveRelease : OwnWork := fun p payload s =>
  match payload with
  | [lb] =>
    match lockOf lb with
    | none => (s, .refused .range 0)
    | some l =>
      if (s.session p).pendingAcquire.isSome then (s, .refused .lockPending 0)
      else if heldBy s p l && (s.session p).stack.getLast? == some l then releaseTop p l s
      else (s, .refused .order 0)
  | _ => (s, .refused .malformed 0)

/-- RELEASE (R56). -/
def execRelease (p : Port) (s : State) : Host.Outcome State Fault Refusal :=
  .next (finishRequest .release serveRelease p s)

end Sys2Proof.Machine
end

