-- ==== Sys2Proof/Machine/Notices.lean ====
section
/-!
DEFINITION. WATCH, UNWATCH and FETCH (chapter 6).
-/

namespace Sys2Proof.Machine

/-- The cell is in the port's watch list. -/
def watches (x : Session) (c : Fin 512) : Bool := x.watches.any (fun w => w.cell == c)

/-- WATCH after the common checks (R101). -/
def serveWatch : OwnWork := fun p payload s =>
  match payload with
  | [c1, c0] =>
    match cellOf (word c1 c0) with
    | none => (s, .refused .range 0)
    | some c =>
      let x := s.session p
      if Config.watchSize ≤ x.watches.length then (s, .refused .watchFull 0)
      else if watches x c then (s, .refused .duplicate 0)
      else
        (s.modSession p fun y => { y with watches := y.watches ++ [⟨c, false⟩] },
          .done (.watch c (s.cell c).reported (x.watches.length + 1)))
  | _ => (s, .refused .malformed 0)

/-- WATCH (R101). -/
def execWatch (p : Port) (s : State) : Host.Outcome State Fault Refusal := .next (finishRequest .watch serveWatch p s)

/-- The watch and its queued CHANGED record are removed (R102). -/
def dropWatch (p : Port) (c : Fin 512) (s : State) : State :=
  s.modSession p fun x =>
    { x with watches := x.watches.filter (fun w => w.cell != c), queue := x.queue.filter (fun r => !r.reports c) }

/-- A CHANGED record of the cell is queued. -/
def hasNotice (x : Session) (c : Fin 512) : Bool := x.queue.any (fun r => r.reports c)

/-- UNWATCH after the common checks (R102). -/
def serveUnwatch : OwnWork := fun p payload s =>
  match payload with
  | [c1, c0] =>
    match cellOf (word c1 c0) with
    | none => (s, .refused .range 0)
    | some c =>
      if watches (s.session p) c then
        let t := dropWatch p c s
        (t, .done (.unwatch c (hasNotice (s.session p) c) (t.session p).watches.length))
      else (s, .refused .notWatched 0)
  | _ => (s, .refused .malformed 0)

/-- UNWATCH (R102). -/
def execUnwatch (p : Port) (s : State) : Host.Outcome State Fault Refusal :=
  .next (finishRequest .unwatch serveUnwatch p s)

/-- Clear the notice-pending marker of the watch whose CHANGED record was removed (R111). -/
def clearFor (ws : List Watch) (r : Record) : List Watch :=
  match r.event with
  | .changed c _ _ _ => setMarker c false ws
  | .granted .. | .taken .. | .met .. | .timedOut .. | .leaseLow .. | .sessionEnded .. => ws

/-- The oldest records leave the queue and the lost count is cleared (R111). -/
def fetchRecords (p : Port) (n : Nat) (s : State) : State :=
  s.modSession p fun x =>
    { x with queue := x.queue.drop n, lost := 0, watches := (x.queue.take n).foldl clearFor x.watches }

/-- FETCH after the common checks (R111). -/
def serveFetch : OwnWork := fun p payload s =>
  match payload with
  | [n] =>
    if n = 0 ∨ Config.fetchSize < n.toNat then (s, .refused .range 0)
    else
      let x := s.session p
      let t := fetchRecords p n.toNat s
      (t, .done (.fetch x.lost (t.session p).queue.length (x.queue.take n.toNat)))
  | _ => (s, .refused .malformed 0)

/-- FETCH (R111). -/
def execFetch (p : Port) (s : State) : Host.Outcome State Fault Refusal := .next (finishRequest .fetch serveFetch p s)

end Sys2Proof.Machine
end

