-- ==== Sys2Proof/Machine/SessionRequests.lean ====
section
/-!
DEFINITION. OPEN, CLOSE, RENEW-EVEN, RENEW-ODD, STATUS and the teardown item (chapter 7).
-/

namespace Sys2Proof.Machine

/-- The epoch after this one: 255 is followed by 1 (R121). -/
def epochAfter (e : Byte) : Byte := if e = 255 then 1 else e + 1

/-- The session record a successful OPEN leaves (R123). -/
def Session.opening (x : Session) (units : Byte) : Session :=
  { x with
    epoch := epochAfter x.epoch
    leasePeriod := some (units.toNat * Config.leaseUnit)
    leaseRemaining := units.toNat * Config.leaseUnit
    expected := .even
    lowReported := false
    queue := []
    sequence := 0
    lost := 0
    nextTicket := 1
    state := .opened }

/-- The lease of a port counts from the first tick that comes after the piece of work (R124). -/
def markFresh (p : Port) (s : State) : State := { s with fresh := { s.fresh with lease := some p } }

/-- OPEN after the common checks (R122, R123). -/
def serveOpen : OwnWork := fun p payload s =>
  match payload with
  | [units] =>
    match (s.session p).state with
    | .opened => (s, .refused .alreadyOpen 0)
    | .ending => (s, .refused .sessionEnding 0)
    | .closed =>
      if units = 0 then (s, .refused .range 0)
      else
        (markFresh p (s.modSession p fun x => x.opening units),
          .done (.opened (epochAfter (s.session p).epoch) units))
  | _ => (s, .refused .malformed 0)

/-- OPEN (R123). -/
def execOpen (p : Port) (s : State) : Host.Outcome State Fault Refusal :=
  .next (finishRequest .openSession serveOpen p s)

/-- CLOSE after the common checks (R130). -/
def serveClose : OwnWork := fun p _ s =>
  let x := s.session p
  (teardown p (s.modSession p fun y => { y with endCause := .closed, leaseRemaining := 0 }),
    .done (.closed x.stack.length x.liveWaits))

/-- CLOSE (R130). -/
def execClose (p : Port) (s : State) : Host.Outcome State Fault Refusal :=
  .next (finishRequest .closeSession serveClose p s)

/-- The other renewal. -/
def Renewal.other : Renewal → Renewal
  | .even => .odd
  | .odd => .even

/-- A matching renewal restarts the lease (R125). -/
def restartLease (p : Port) (s : State) : State :=
  markFresh p <| s.modSession p fun x =>
    { x with leaseRemaining := x.leasePeriod.getD 0, expected := x.expected.other, lowReported := false }

/-- A renewal of either kind after the common checks (R125). -/
def serveRenew (kind : Renewal) : OwnWork := fun p _ s =>
  let x := s.session p
  if x.expected = kind then
    let t := restartLease p s
    (t, .done (.renewed true (t.session p).expected (t.session p).leaseRemaining))
  else (s, .done (.renewed false x.expected x.leaseRemaining))

/-- RENEW_EVEN (R125). -/
def execRenewEven (p : Port) (s : State) : Host.Outcome State Fault Refusal :=
  .next (finishRequest .renewEven (serveRenew .even) p s)

/-- RENEW_ODD (R125). -/
def execRenewOdd (p : Port) (s : State) : Host.Outcome State Fault Refusal :=
  .next (finishRequest .renewOdd (serveRenew .odd) p s)

/-- The link error count a STATUS reports: as it stood when the request was taken (R134, log entry 10). -/
def reportedErrors (p : Port) (s : State) : Nat :=
  match s.service with
  | .serving (.request _ n) => n
  | .serving (.item _) | .idle => (s.port p).linkErrors

/-- The STATUS report of a port (R134). -/
def statusReport (p : Port) (s : State) : StatusReport :=
  let x := s.session p
  { state := x.state
    epoch := x.epoch
    endCause := x.endCause
    leasePeriod := x.leasePeriod
    leaseRemaining := x.leaseRemaining
    expected := x.expected
    stack := x.stack
    pendingAcquire := x.pendingAcquire
    liveWaits := x.liveWaits
    queueLength := x.queue.length
    reserved := x.reserved
    lost := x.lost
    watchCount := x.watches.length
    linkErrors := reportedErrors p s }

/-- STATUS after the common checks (R134). -/
def serveStatus : OwnWork := fun p _ s => (s, .done (.status (statusReport p s)))

/-- STATUS (R134). -/
def execStatus (p : Port) (s : State) : Host.Outcome State Fault Refusal :=
  .next (finishRequest .status serveStatus p s)

/-- TEARDOWN_ITEM (R131): the teardown item in service, when it is of this port, is carried out. -/
def execTeardownItem (p : Port) (s : State) : Host.Outcome State Fault Refusal :=
  let s := settled s
  match s.service with
  | .serving (.item (.teardown q)) => .next (if q = p then conclude (teardown q s) else s)
  | .serving (.item (.expiry _ _ _)) | .serving (.request _ _) | .idle => .next s

end Sys2Proof.Machine
end

