-- ==== Sys2Proof/Machine/Waiting.lean ====
section
/-!
DEFINITION. AWAIT, CANCEL and the expiry item (chapter 5).
-/

namespace Sys2Proof.Machine

/-- The condition tests membership, so it suits a MEMBERS cell and its operand is a member (R88, R90). -/
def Condition.ofMembers : Condition → Bool
  | .contains | .lacks => true
  | .equal | .differ | .atLeast | .atMost => false

/-- The condition suits the cell kind (R88). -/
def Condition.suits (cond : Condition) (k : CellKind) : Bool := cond.ofMembers == (k == .members)

/-- An AWAIT that passed its checks is decided by the cell's value (R89). -/
def decideAwait (p : Port) (c : Fin 512) (cond : Condition) (operand timeout : Word) (s : State) : State × Reply :=
  let v := (s.cell c).reported
  if cond.holds operand v then (s, .done (.await c v 0))
  else if timeout = 0 then (s, .refused .unavailable 0)
  else
    match createEntry p (.await c cond operand) timeout s with
    | .error r => (s, .refused r 0)
    | .ok (t, s') => (s', .pending (.await c v t))

/-- AWAIT after the common checks (R88, R89). -/
def serveAwait : OwnWork := fun p payload s =>
  match payload with
  | [c1, c0, cc, o1, o0, t1, t0] =>
    match Condition.ofCode cc with
    | none => (s, .refused .malformed 0)
    | some cond =>
      match cellOf (word c1 c0) with
      | none => (s, .refused .range 0)
      | some c =>
        if cond.ofMembers && 15 < (word o1 o0).toNat then (s, .refused .range 0)
        else if !cond.suits (s.cell c).kind then (s, .refused .kind 0)
        else decideAwait p c cond (word o1 o0) (word t1 t0) s
  | _ => (s, .refused .malformed 0)

/-- AWAIT (R89). -/
def execAwait (p : Port) (s : State) : Host.Outcome State Fault Refusal := .next (finishRequest .await serveAwait p s)

/-- The grant walk that follows the removal of a head TAKE waiter, and the handing on of its change with origin none
(R73, R74). -/
def walkAfter (head : Option (Fin 512)) (before : Vector Cell 512) (s : State) : State :=
  match head with
  | none => s
  | some c => handOn none before [c] (grantWalk c s).1

/-- The port's live entry with a ticket. -/
def entryTicketed (s : State) (p : Port) (t : Byte) : Option WaitEntry :=
  s.pool.find? (fun w => w.port == p && w.ticket == t)

/-- The cancelling of an entry (R92): freed, its reservation returned, its marker cleared, and the walk. -/
def cancelEntry (w : WaitEntry) (s : State) : State :=
  let t := (dropEntry w s).modSession w.port fun x => { x with reserved := x.reserved - 1 }
  walkAfter (headOf w s) s.cells (clearMarker w t)

/-- CANCEL after the common checks (R92). -/
def serveCancel : OwnWork := fun p payload s =>
  match payload with
  | [t] =>
    match entryTicketed s p t with
    | none => (s, .refused .noTicket 0)
    | some w => (cancelEntry w s, .done (.cancel t w.wait.purpose w.wait.target))
  | _ => (s, .refused .malformed 0)

/-- CANCEL (R92). -/
def execCancel (p : Port) (s : State) : Host.Outcome State Fault Refusal :=
  .next (finishRequest .cancel serveCancel p s)

/-- The expiry of an entry (R87): freed, its TIMED-OUT record placed, its marker cleared, and the walk. -/
def expireEntry (w : WaitEntry) (s : State) : State :=
  let t := placeReserved w.port (.timedOut w.ticket w.wait.purpose w.wait.target) (dropEntry w s)
  walkAfter (headOf w s) s.cells (clearMarker w t)

/-- The item names this entry. An item whose entry number is free is stale (R87); one whose number holds an entry of
another port or ticket would be stale as well, which R138 rules out (log entry 11). -/
def WaitEntry.named (n : Fin 24) (p : Port) (t : Byte) (w : WaitEntry) : Bool :=
  w.number == n && w.port == p && w.ticket == t

/-- The work of an expiry item (R87, R143). -/
def serveExpiry (n : Fin 24) (p : Port) (t : Byte) (s : State) : State :=
  match s.pool.find? (fun w => w.named n p t) with
  | none => s
  | some w => expireEntry w s

/-- EXPIRY_ITEM (R87): the expiry item in service, when it is of this entry, is carried out. -/
def execExpiryItem (n : Fin 24) (s : State) : Host.Outcome State Fault Refusal :=
  let s := settled s
  match s.service with
  | .serving (.item (.expiry m p t)) => .next (if m = n then conclude (serveExpiry m p t s) else s)
  | .serving (.item (.teardown _)) | .serving (.request _ _) | .idle => .next s

end Sys2Proof.Machine
end

