-- ==== Sys2Proof/Machine/Resets.lean ====
section
/-!
DEFINITION. UNKNOWN_KIND_CODE, and the whole-part events: POWER_ON, INIT_COMPLETE, RESET_LINE, RESET_RETURNS_HIGH. The
RESET line completes the piece of work in service first (R17, R147), so this file knows every kind's work.
-/

namespace Sys2Proof.Machine

/-- UNKNOWN_KIND_CODE (R144): the request in service of the port, when its code is none of the seventeen, is answered
REFUSED with MALFORMED and the piece ends. -/
def execUnknownKindCode (p : Port) (s : State) : Host.Outcome State Fault Refusal :=
  let s := settled s
  match requestInService p s with
  | some r => .next (if (Kind.ofCode r.kind).isNone then conclude (refuseUnknown p r s) else s)
  | none => .next s

/-! ### The piece of work in service, whatever it is -/

/-- The own work of each kind. -/
def Kind.work : Kind → OwnWork
  | .openSession => serveOpen
  | .closeSession => serveClose
  | .renewEven => serveRenew .even
  | .renewOdd => serveRenew .odd
  | .status => serveStatus
  | .chain => serveChain
  | .gather => serveGather
  | .formatCell => serveFormat
  | .acquire => serveAcquire
  | .release => serveRelease
  | .take => serveTake
  | .give => serveGive
  | .await => serveAwait
  | .cancel => serveCancel
  | .watch => serveWatch
  | .unwatch => serveUnwatch
  | .fetch => serveFetch

/-- A request served, of whatever kind (R144). -/
def serveAny (p : Port) (r : Request) (s : State) : State :=
  match Kind.ofCode r.kind with
  | some k => serve k k.work p r s
  | none => refuseUnknown p r s

/-- The piece of work in service carried to its end; an idle engine has none (R17). -/
def completeWork (s : State) : State :=
  match s.service with
  | .idle => s
  | .serving (.item (.expiry n p t)) => serveExpiry n p t s
  | .serving (.item (.teardown p)) => teardown p s
  | .serving (.request p _) =>
    match (s.port p).slot with
    | .serving r => serveAny p r s
    | .idle | .held _ | .ready _ => s

/-! ### The RESET line -/

/-- The lock is HELD. -/
def Lock.isHeld (l : Lock) : Bool :=
  match l.state with
  | .held _ _ => true
  | .free => false

/-- A session record after the RESET line: epoch, lease period and expected renewal keep their values (R136, R99,
R117). -/
def Session.lineReset (x : Session) : Session :=
  { Session.powerOn with
    epoch := x.epoch, leasePeriod := x.leasePeriod, expected := x.expected, endCause := .deviceReset }

/-- A port interface after the RESET line (R162). The level of CS# and the record of what SDO has driven are not the
port's to reset. -/
def PortLink.lineReset (x : PortLink) : PortLink :=
  { PortLink.powerOn with selected := x.selected, out := x.out }

def PerPort.map {α β : Type} (f : α → β) (t : PerPort α) : PerPort β := ⟨f t.a, f t.b, f t.c, f t.d⟩

/-- What the RESET line does to the state that the last complete piece of work left (R17, R63, R80, R99, R117, R136,
R149, R162). -/
def lineReset (s : State) : State where
  cells := s.cells
  suspect := Vector.ofFn fun b => s.bankSuspect b || (s.lock (bankLock b)).isHeld
  locks := Vector.replicate 48 ⟨.free, 0⟩
  pool := []
  sessions := s.sessions.map Session.lineReset
  ports := s.ports.map PortLink.lineReset
  rotation := .d
  workList := []
  service := .idle
  deferred := []
  fresh := ⟨none, none⟩
  initialised := s.initialised
  resetLow := true
  pending := s.pending

/-- RESET_LINE (R17): RESET# is asserted; a piece of work in service completes first. -/
def execResetLine (s : State) : Host.Outcome State Fault Refusal := .next (lineReset (completeWork (settled s)))

/-- RESET_RETURNS_HIGH (R162). -/
def execResetReturnsHigh (s : State) : Host.Outcome State Fault Refusal := .next { s with resetLow := false }

/-- Every part of the state at its power-on value. The levels of the input pins are the board's (log entry 8), and
the waiting commands are the sender's. -/
def powerUp (s : State) : State :=
  { State.reset with
    ports := s.ports.map fun x => { PortLink.powerOn with selected := x.selected }
    resetLow := s.resetLow
    pending := s.pending }

/-- POWER_ON (R16, R62, R98, R116, R135, R149, R162). -/
def execPowerOn (s : State) : Host.Outcome State Fault Refusal := .next (powerUp s)

/-- INIT_COMPLETE (R162): from here on the part answers selects. -/
def execInitComplete (s : State) : Host.Outcome State Fault Refusal := .next { s with initialised := true }

end Sys2Proof.Machine
end

