-- ==== Sys2Proof/Machine/Ticks.lean ====
section
/-!
DEFINITION. The timebase commands (R86, R124, R126, R127, R139). DEADLINE_ZERO, LEASE_LOW and LAPSE are ticks named by
what they bring about (log entry 5).
-/

namespace Sys2Proof.Machine

/-- A tick comes: with the engine idle it acts at once, and the items it appends are work that arrives (R141); while
a piece is in service it waits for its end (R139). -/
def tickComes (s : State) : State :=
  match s.service with
  | .idle => arbitrate (tickActs s)
  | .serving _ => { s with deferred := s.deferred ++ [.tick] }

/-- The ticks that wait for the piece in service. -/
def waitingTicks (s : State) : Nat := s.deferred.countP (· == .tick)

/-- TIMEBASE_TICK (R139). -/
def execTimebaseTick (s : State) : Host.Outcome State Fault Refusal := .next (tickComes (settled s))

/-- The next tick brings the entry's deadline to 0, as the state stands. -/
def deadlineDue (n : Fin 24) (s : State) : Bool :=
  match entryNumbered s n with
  | some w => w.deadline == some (1 + waitingTicks s)
  | none => false

/-- DEADLINE_ZERO (R86): the tick that brings the entry's deadline to 0; no event where it would not. -/
def execDeadlineZero (n : Fin 24) (s : State) : Host.Outcome State Fault Refusal :=
  let s := settled s
  .next (if deadlineDue n s then tickComes s else s)

/-- The next tick brings the port's lease to a value, as the state stands. -/
def leaseComesTo (p : Port) (n : Nat) (s : State) : Bool :=
  (s.session p).state == .opened && (s.session p).leaseRemaining == n + 1 + waitingTicks s

/-- LEASE_LOW (R126): the tick that brings the port's lease to one quarter of its period, with lease-low-reported
still no; no event where it would not. -/
def execLeaseLow (p : Port) (s : State) : Host.Outcome State Fault Refusal :=
  let s := settled s
  .next (if leaseComesTo p (quarter (s.session p)) s && !(s.session p).lowReported then tickComes s else s)

/-- LAPSE (R127): the tick that brings the port's lease to 0; no event where it would not. -/
def execLapse (p : Port) (s : State) : Host.Outcome State Fault Refusal :=
  let s := settled s
  .next (if leaseComesTo p 0 s then tickComes s else s)

end Sys2Proof.Machine
end

