-- ==== Sys2Proof/Machine/Dispatch.lean ====
section
/-!
DEFINITION. One arm for each command.
-/

namespace Sys2Proof.Machine

def exec (i : Instr) (s : State) : Host.Outcome State Fault Refusal :=
  match i with
  | .openSession p => Sys2Proof.Machine.execOpen p s
  | .closeSession p => Sys2Proof.Machine.execClose p s
  | .renewEven p => Sys2Proof.Machine.execRenewEven p s
  | .renewOdd p => Sys2Proof.Machine.execRenewOdd p s
  | .status p => Sys2Proof.Machine.execStatus p s
  | .chain p => Sys2Proof.Machine.execChain p s
  | .gather p => Sys2Proof.Machine.execGather p s
  | .formatCell p => Sys2Proof.Machine.execFormat p s
  | .acquire p => Sys2Proof.Machine.execAcquire p s
  | .release p => Sys2Proof.Machine.execRelease p s
  | .take p => Sys2Proof.Machine.execTake p s
  | .give p => Sys2Proof.Machine.execGive p s
  | .await p => Sys2Proof.Machine.execAwait p s
  | .cancel p => Sys2Proof.Machine.execCancel p s
  | .watch p => Sys2Proof.Machine.execWatch p s
  | .unwatch p => Sys2Proof.Machine.execUnwatch p s
  | .fetch p => Sys2Proof.Machine.execFetch p s
  | .expiryItem n => Sys2Proof.Machine.execExpiryItem n s
  | .teardownItem p => Sys2Proof.Machine.execTeardownItem p s
  | .requestFrame p seg => Sys2Proof.Machine.execRequestFrame p seg s
  | .pollFrame p seg => Sys2Proof.Machine.execPollFrame p seg s
  | .portResetFrame p seg => Sys2Proof.Machine.execPortResetFrame p seg s
  | .portResetActs p => Sys2Proof.Machine.execPortResetActs p s
  | .unknownFrameType p t seg => Sys2Proof.Machine.execUnknownFrameType p t seg s
  | .timebaseTick => Sys2Proof.Machine.execTimebaseTick s
  | .deadlineZero n => Sys2Proof.Machine.execDeadlineZero n s
  | .leaseLow p => Sys2Proof.Machine.execLeaseLow p s
  | .lapse p => Sys2Proof.Machine.execLapse p s
  | .powerOn => Sys2Proof.Machine.execPowerOn s
  | .initComplete => Sys2Proof.Machine.execInitComplete s
  | .resetLine => Sys2Proof.Machine.execResetLine s
  | .unknownKindCode p => Sys2Proof.Machine.execUnknownKindCode p s
  | .damagedRequestFrame p seg => Sys2Proof.Machine.execDamagedRequestFrame p seg s
  | .damagedPortReset p seg => Sys2Proof.Machine.execDamagedPortReset p seg s
  | .resetReturnsHigh => Sys2Proof.Machine.execResetReturnsHigh s

end Sys2Proof.Machine
end

