-- ==== Sys2Proof/Safety.lean ====
section
/-!
DEFINITION. The laws of the state: what the spec says of every state the part can be in, each as a proposition about
one State. Obligations state that they hold at power-on and that every step keeps them.
-/

namespace Sys2Proof.Safety

open Sys2Proof.Machine

/-! ### When a command finds the part -/

/-- The engine serves this request of this port (R137, R157). -/
def Serves (s : State) (p : Port) (r : Request) : Prop :=
  (∃ n, s.service = .serving (.request p n)) ∧ (s.port p).slot = .serving r

/-- The engine serves a request of this port, of this kind and payload, that passes the common checks (R144, R145). -/
def Admits (s : State) (p : Port) (k : Kind) (payload : List Byte) : Prop :=
  ∃ e, Serves s p ⟨e, k.code, payload⟩ ∧ payloadSuits k payload = true ∧
    (k.needsOpen = true → (s.session p).state = .opened ∧ e = (s.session p).epoch)

/-- The engine is at rest: idle, with no work and no claim waiting (R137, R141). -/
def AtRest (s : State) : Prop :=
  s.service = .idle ∧ s.deferred = [] ∧ s.fresh = ⟨none, none⟩ ∧ choose s = none

/-- The engine serves a piece of work or is at rest. -/
def Ready (s : State) : Prop := (∃ w, s.service = .serving w) ∨ AtRest s

/-- The command that carries out a request of a kind. -/
def commandOf : Kind → Port → Instr
  | .openSession => .openSession
  | .closeSession => .closeSession
  | .renewEven => .renewEven
  | .renewOdd => .renewOdd
  | .status => .status
  | .chain => .chain
  | .gather => .gather
  | .formatCell => .formatCell
  | .acquire => .acquire
  | .release => .release
  | .take => .take
  | .give => .give
  | .await => .await
  | .cancel => .cancel
  | .watch => .watch
  | .unwatch => .unwatch
  | .fetch => .fetch

/-- A piece of work that leaves `u` ends with the answer DONE (R146). -/
def answeredDone (p : Port) (k : Kind) (f : Fields) (u : State) : Host.Outcome State Fault Refusal :=
  .next (conclude (placeResponse p ⟨.done, k.code, none, 0, f⟩ u))

/-- A piece of work that leaves `u` ends with the answer PENDING (R146). -/
def answeredPending (p : Port) (k : Kind) (f : Fields) (u : State) : Host.Outcome State Fault Refusal :=
  .next (conclude (placeResponse p ⟨.pending, k.code, none, 0, f⟩ u))

/-- A piece of work ends with the answer REFUSED, a reason, a step index and fields of zeros, and changes nothing else
(R146, R169). -/
def answeredRefused (p : Port) (k : Kind) (r : Reason) (index : Nat) (s : State) : Host.Outcome State Fault Refusal :=
  .next (conclude (placeResponse p ⟨.refused, k.code, some r, index, .zeros k.fixedPart⟩ s))

/-- What no piece of work changes of itself: the port interfaces, the engine, and the whole part's inputs. -/
structure SameOutside (s t : State) : Prop where
  ports       : t.ports = s.ports
  rotation    : t.rotation = s.rotation
  workList    : t.workList = s.workList
  service     : t.service = s.service
  deferred    : t.deferred = s.deferred
  initialised : t.initialised = s.initialised
  resetLow    : t.resetLow = s.resetLow
  pending     : t.pending = s.pending

/-! ### Payloads and frames that statements speak of -/

/-- The payload of a FORMAT for a record (R166). -/
def formatPayload (w : Word) (x : Cell) : List Byte := wordBytes w ++ match x with
  | .plain v => 0x01 :: wordBytes v
  | .counter n v => 0x02 :: (wordBytes n ++ wordBytes v)
  | .members m => 0x03 :: wordBytes m

/-- The signed reading of a number (chapter 2.2). -/
def signed (x : Word) : Int := if x.toNat ≤ 32767 then x.toNat else x.toNat - 65536

/-- The payload of a CHAIN (R166, R168). -/
def chainPayload (n : Byte) (raws : List RawStep) : List Byte :=
  n :: raws.flatMap fun x => x.code :: (wordBytes x.cell ++ wordBytes x.arg)

/-- A step passes the four checks of R37. -/
def Passes (s : State) (p : Port) (raw : RawStep) (st : ChainStep) : Prop :=
  ChainStep.ofRaw raw = .ok st ∧
    ∀ c, st.cell? = some c →
      st.accepts (s.cell c).kind = true ∧ (st.modifies = true → guardedAgainst s p c = false)

/-- Every step of a list passes, and is read as the step beside it. -/
def PassAll (s : State) (p : Port) (raws : List RawStep) (steps : List ChainStep) : Prop :=
  raws.length = steps.length ∧ ∀ x ∈ raws.zip steps, Passes s p x.1 x.2

/-- One step of the walk of the cycle check: to the holder of the lock that the port's pending ACQUIRE names (R54). -/
def walkStep (s : State) (q : Port) : Option Port :=
  (s.session q).pendingAcquire.bind fun x => holderOf s x.1

/-- The port that so many steps of the walk reach. -/
def walkFrom (s : State) : Nat → Port → Option Port
  | 0, q => some q
  | k + 1, q => (walkStep s q).bind (walkFrom s k)

/-- The TAKEN records of one port from the grants of a walk, each with the value after its own grant (R71). -/
def takenEvents (p : Port) (c : Fin 512) : Nat → List WaitEntry → List Event
  | _, [] => []
  | v, w :: ws =>
    (if w.port = p then [.taken w.ticket c (BitVec.ofNat 16 (v - w.amount))] else [])
      ++ takenEvents p c (v - w.amount) ws

/-- Records of these events, numbered from a sequence number on, 255 followed by 0 (R109). -/
def numbered : Byte → List Event → List Record
  | _, [] => []
  | q, e :: es => ⟨q, e⟩ :: numbered (q + 1) es

/-- The six frame commands of a port, each waiting for its segment. -/
def frameCommands (p : Port) (type : Byte) : List (Segment → Instr) :=
  [.requestFrame p, .pollFrame p, .portResetFrame p, .unknownFrameType p type, .damagedRequestFrame p,
   .damagedPortReset p]

/-- The first `n` bits of a stream of bytes that zeros follow. -/
def firstBits (stream : List Byte) (n : Nat) : List Bool := (wire stream ++ List.replicate n false).take n

/-! ### Cells (chapter 1) -/

/-- A COUNTER holds a number from 0 up to and including its ceiling, which is not 0 (R1, R3). -/
def CellLaw (s : State) : Prop := ∀ c, (s.cell c).fits = true

/-! ### The wait pool and the event queues (chapters 5 and 6) -/

/-- The live entries of a port. -/
def entriesOf (s : State) (p : Port) : List WaitEntry := s.pool.filter (fun w => w.port == p)

/-- No entry number is live twice (R81). -/
def NumbersDistinct (s : State) : Prop := (s.pool.map WaitEntry.number).Nodup

/-- The counts of one port (R82, R105): at most 8 live entries, as many as its live wait count and its reserved count
say, and at most 16 places of its queue filled or reserved. -/
def CountsAgree (s : State) (p : Port) : Prop :=
  (s.session p).liveWaits = (entriesOf s p).length ∧ (s.session p).reserved = (entriesOf s p).length ∧
    (entriesOf s p).length ≤ Config.portWaits ∧
    (s.session p).queue.length + (s.session p).reserved ≤ Config.queueSize

/-- The pool and the queues agree. -/
def PoolLaw (s : State) : Prop := NumbersDistinct s ∧ ∀ p, CountsAgree s p

/-- The tickets of a port's live entries are pairwise different and never 0 (R84). -/
def TicketLaw (s : State) : Prop :=
  NumbersDistinct s ∧
    ∀ p, (s.session p).nextTicket ≠ 0 ∧ ((entriesOf s p).map WaitEntry.ticket).Nodup ∧
      ∀ w ∈ entriesOf s p, w.ticket ≠ 0

/-- A live entry belongs to a session that is OPEN or ENDING and carries its current epoch (R82). -/
def EntryLaw (s : State) : Prop :=
  ∀ w ∈ s.pool, (s.session w.port).state ≠ .closed ∧ w.epoch = (s.session w.port).epoch

/-- The CHANGED records of a cell in a queue. -/
def noticesOf (x : Session) (c : Fin 512) : List Record := x.queue.filter (fun r => r.reports c)

/-- The watch list of a port (R100): at most 8 cells, none twice; the queue holds one CHANGED record for a watched cell
whose marker is set, and none for any other cell. A CLOSED session watches nothing (R120). -/
def WatchLaw (s : State) : Prop :=
  ∀ p, ((s.session p).state = .closed → (s.session p).watches = []) ∧
    (s.session p).watches.length ≤ Config.watchSize ∧ ((s.session p).watches.map Watch.cell).Nodup ∧
    ∀ c, (noticesOf (s.session p) c).length = if ⟨c, true⟩ ∈ (s.session p).watches then 1 else 0

/-! ### Locks (chapter 3) -/

/-- A HELD lock stands once in its holder's stack and in no other, and a FREE lock in none (R46); a stack holds at most
6 locks (R49). -/
def StackLaw (s : State) : Prop :=
  ∀ p, (s.session p).stack.length ≤ Config.stackSize ∧
    ∀ l, (s.session p).stack.count l = if holderOf s l = some p then 1 else 0

/-- A pending-acquire marker names the port's one live LOCK-WAIT entry, whose lock is HELD by another port, and there is
no such entry without it (R53, R84); a port with a pending ACQUIRE holds at most 5 locks (R49). -/
def MarkerLaw (s : State) : Prop :=
  ∀ p,
    ((entriesOf s p).filterMap fun w => match w.wait with
        | .lock l => some (l, w.ticket)
        | .take _ _ | .await _ _ _ => none) = (s.session p).pendingAcquire.toList ∧
      ∀ l t, (s.session p).pendingAcquire = some (l, t) →
        (∃ q, holderOf s l = some q ∧ q ≠ p) ∧ (s.session p).stack.length < Config.stackSize

/-- The holder epoch of a HELD lock is the current epoch of a session that is OPEN or ENDING (R46). -/
def HolderLaw (s : State) : Prop :=
  ∀ l p e, (s.lock l).state = .held p e → (s.session p).state ≠ .closed ∧ e = (s.session p).epoch

/-! ### Waiters (chapters 4 and 5) -/

/-- A cell with TAKE waiters is a COUNTER whose value is less than its head waiter's amount (R65). -/
def TakeLaw (s : State) : Prop :=
  ∀ c w ws, takeWaiters s c = w :: ws →
    (s.cell c).kind = .counter ∧ (s.cell c).number.toNat < w.amount

/-- The condition of a live AWAIT entry does not hold on its cell's current value (R91). -/
def AwaitLaw (s : State) : Prop :=
  ∀ w ∈ s.pool, ∀ c cond operand, w.wait = .await c cond operand → cond.holds operand (s.cell c).reported = false

/-! ### Sessions and the work list (chapters 7 and 8) -/

/-- The teardown items of a port, on the list and in service. -/
def teardownsOf (s : State) (p : Port) : Nat :=
  s.workList.countP (· == .teardown p) + (if s.service = .serving (.item (.teardown p)) then 1 else 0)

/-- A port has one teardown item while its session is ENDING and none otherwise (R132, R138). -/
def TeardownLaw (s : State) : Prop :=
  ∀ p, teardownsOf s p = if (s.session p).state = .ending then 1 else 0

/-- A lease (R119): in an OPEN session it stands above 0 and at most at the period, which is 20 to 5100 ms and a multiple
of 20; otherwise the lease is 0. -/
def LeaseLaw (s : State) : Prop :=
  ∀ p, match (s.session p).state with
    | .opened =>
      0 < (s.session p).leaseRemaining ∧
        ∃ u, 1 ≤ u ∧ u ≤ 255 ∧ (s.session p).leasePeriod = some (u * Config.leaseUnit) ∧
          (s.session p).leaseRemaining ≤ u * Config.leaseUnit
    | .closed | .ending => (s.session p).leaseRemaining = 0

/-! ### Port interfaces (chapter 9) -/

/-- A slot is SERVING while the engine serves that port's request, and only then (R157). -/
def SlotLaw (s : State) : Prop :=
  ∀ p, (∃ r, (s.port p).slot = .serving r) ↔ ∃ n, s.service = .serving (.request p n)

/-- The marker of a port reset that waits is set while its claim waits for the piece in service, once (R159). -/
def ResetMarkerLaw (s : State) : Prop :=
  ∀ p, s.deferred.count (.portReset p) = if (s.port p).resetPending then 1 else 0

/-- An engine that is idle with work waiting is idle only until the port resets that waited for its last piece have acted
(R137, R159). -/
def IdleLaw (s : State) : Prop :=
  s.service = .idle → s.deferred = [] → AtRest s

end Sys2Proof.Safety
end

