-- ==== Sys2Proof/Certificates/Slice0/Obligations.lean ====
section
/-!
DEFINITION. The statements for the provers, chapter by chapter. Words used in them: Serves, Admits, AtRest, Ready,
answeredDone, answeredPending, answeredRefused, SameOutside and the laws, all of Safety.lean.
-/

open Sys2Proof Sys2Proof.Machine Sys2Proof.Safety

/-! ### The queue of commands -/

/-- A step takes the command at the front of the queue and runs it on the state with the queue's rest. -/
def Obligations.StepRunsTheFrontCommand : Prop :=
  ∀ (c : Instr) (rest : List Instr) (s : State), s.pending = c :: rest → step s = exec c { s with pending := rest }

/-- Every command is answered with a next state, in every state, and no command touches the queue of commands. The spec
answers each request taken. That a command whose event cannot take place is answered with the state as it stands is log
entry 2 (DESIGN CHOICE), and that an ill-formed frame command is run on its bytes is log entry 16 (DESIGN CHOICE). -/
def Obligations.EveryCommandIsAnswered : Prop :=
  ∀ (c : Instr) (s : State), ∃ t, exec c s = .next t ∧ t.pending = s.pending

/-! ### Power-on and the RESET line -/

/-- POWER_ON gives the cells, banks, locks, entries, queues and sessions their first values (R16, R62, R98, R116, R135). -/
def Obligations.PowerOnValues : Prop :=
  ∀ s : State, ∃ t, exec .powerOn s = .next t ∧
    (∀ c, t.cell c = .plain 0) ∧ (∀ b, t.bankSuspect b = false) ∧
    (∀ l, t.lock l = ⟨.free, 0⟩) ∧ t.pool = [] ∧ t.workList = [] ∧
    ∀ p,
      t.session p =
        { state := .closed, epoch := 0, leasePeriod := none, leaseRemaining := 0, expected := .even,
          lowReported := false, endCause := .none, stack := [], pendingAcquire := none, liveWaits := 0,
          nextTicket := 1, reserved := 0, lost := 0, sequence := 0, watches := [], queue := [] } ∧
      attention t p = false ∧ (statusReport p t).bytes.getD 3 1 = 0

/-- POWER_ON makes the engine idle with an empty list and the pointer at D, empties every port interface, and starts the
initialisation (R149, R162). The levels of the input pins are kept and nothing is driven on SDO: the model's choice,
log entries 7 and 8. State.reset is what POWER_ON leaves, with CS# of every port and RESET# high: log entries 8 and 9. -/
def Obligations.PowerOnEngineAndPorts : Prop :=
  (exec .powerOn State.reset = .next State.reset ∧ State.reset.pending = [] ∧
    State.reset.resetLow = false ∧ ∀ p, (State.reset.port p).selected = false) ∧
  ∀ s : State, ∃ t, exec .powerOn s = .next t ∧
    t.service = .idle ∧ t.workList = [] ∧ t.rotation = .d ∧ t.initialised = false ∧
    (∀ p, t.port p =
        { slot := .idle, overrun := false, linkError := false, linkErrors := 0, receiver := .idle,
          resetPending := false, selected := (s.port p).selected, out := [] } ∧
      attnLow t p = false) ∧
    t.resetLow = s.resetLow ∧ t.deferred = [] ∧ t.fresh = ⟨none, none⟩

/-- Every law of Safety.lean holds of State.reset: the cells, locks, pool, queues, sessions, engine and ports of R16, R62,
R98, R116, R135, R149 and R162. That State.reset is the part right after power-on with its input pins high is the
model's choice, log entries 8 and 9. -/
def Obligations.LawsHoldAtReset : Prop :=
  CellLaw State.reset ∧ PoolLaw State.reset ∧ TicketLaw State.reset ∧ EntryLaw State.reset ∧
    WatchLaw State.reset ∧ StackLaw State.reset ∧ MarkerLaw State.reset ∧ HolderLaw State.reset ∧
    TakeLaw State.reset ∧ AwaitLaw State.reset ∧ TeardownLaw State.reset ∧ LeaseLaw State.reset ∧
    SlotLaw State.reset ∧ ResetMarkerLaw State.reset ∧ IdleLaw State.reset

/-- RESET_LINE keeps the cells, sets the suspect flag of every bank whose lock was HELD, and resets locks, entries,
sessions, ports and engine, all from the state the piece of work in service left when it completed: the request with its
kind's work, the expiry item or the teardown item, each the work that its command carries to the end (R17, R147); an
engine at rest has none (R63, R99, R117, R136, R149, R162). An idle engine with claims waiting lets them act first (log
entry 3). The level of CS# and the bits that SDO has driven are kept: the model's choice, log entry 7. A RESET_LINE that
comes while RESET# is low acts again: log entry 15 (DESIGN CHOICE). -/
def Obligations.ResetLineValues : Prop :=
  (∀ s : State, ∃ t, exec .resetLine s = .next t ∧
    let u := completeWork (settled s)
    t.cells = u.cells ∧
    (∀ b, t.bankSuspect b = (u.bankSuspect b || (holderOf u (bankLock b)).isSome)) ∧
    (∀ l, t.lock l = ⟨.free, 0⟩) ∧ t.pool = [] ∧
    (∀ p,
      t.session p =
        { state := .closed, epoch := (u.session p).epoch, leasePeriod := (u.session p).leasePeriod,
          leaseRemaining := 0, expected := (u.session p).expected, lowReported := false,
          endCause := .deviceReset, stack := [], pendingAcquire := none, liveWaits := 0, nextTicket := 1,
          reserved := 0, lost := 0, sequence := 0, watches := [], queue := [] } ∧
      t.port p =
        { slot := .idle, overrun := false, linkError := false, linkErrors := 0, receiver := .idle,
          resetPending := false, selected := (u.port p).selected, out := (u.port p).out } ∧
      attnLow t p = false) ∧
    t.service = .idle ∧ t.workList = [] ∧ t.rotation = .d ∧ t.deferred = [] ∧ t.fresh = ⟨none, none⟩ ∧
    t.resetLow = true ∧ t.initialised = u.initialised) ∧
  ∀ s : State,
    (∀ p r k, Serves s p r → r.kind = Kind.code k →
      completeWork (settled s) = serve k k.work p r s ∧
        exec (commandOf k p) s = .next (conclude (serve k k.work p r s))) ∧
    (∀ p r, Serves s p r → (∀ k, r.kind ≠ Kind.code k) →
      completeWork (settled s) = refuseUnknown p r s ∧
        exec (.unknownKindCode p) s = .next (conclude (refuseUnknown p r s))) ∧
    (∀ n p t, s.service = .serving (.item (.expiry n p t)) →
      completeWork (settled s) = serveExpiry n p t s ∧
        exec (.expiryItem n) s = .next (conclude (serveExpiry n p t s))) ∧
    (∀ p, s.service = .serving (.item (.teardown p)) →
      completeWork (settled s) = teardown p s ∧ exec (.teardownItem p) s = .next (conclude (teardown p s))) ∧
    (AtRest s → completeWork (settled s) = s)

/-- INIT_COMPLETE and RESET_RETURNS_HIGH change one thing each, in every state, also where they repeat or find an idle
engine with claims waiting: log entry 15 (DESIGN CHOICE). While the part is not initialised or RESET# is low, a
transaction, whole or begun, changes nothing but the level of CS#, and no bit is driven. A transaction that the receiver
does not follow, such as one that the RESET line cut, is not resumed: its bits are ignored and SDO stays released until
its deselect, whatever RESET# does meanwhile. ATTN# is released while RESET# is low and follows the queue again
afterwards (R161, R162). The record of SDO is the model's, log entry 7. -/
def Obligations.NoAnswerBeforeInitialisation : Prop :=
  (∀ s : State,
    exec .initComplete s = .next { s with initialised := true } ∧
    exec .resetReturnsHigh s = .next { s with resetLow := false } ∧
    ∀ p, (s.resetLow = true → attnLow s p = false) ∧
      attnLow { s with resetLow := false } p = !(s.session p).queue.isEmpty) ∧
  (∀ (s : State) (p : Port) (type : Byte) (m : ClockMode) (bytes : List Byte) (bits : List Bool),
    Ready s → s.initialised = false ∨ s.resetLow = true →
    (s.port p).selected = false ∨ (s.port p).receiver = .idle →
    let silent (level : Bool) := s.modPort p fun x => { x with selected := level, receiver := .idle, out := [] }
    ∀ f ∈ frameCommands p type,
      exec (f (.whole m bytes bits)) s = .next (silent false) ∧
      exec (f (.aborted m bits)) s = .next (silent false) ∧
      exec (f (.start m bytes bits)) s = .next (silent true) ∧
      exec (f (.select m)) s = .next (silent true)) ∧
  ∀ (s : State) (p : Port) (type : Byte) (bytes : List Byte) (bits : List Bool),
    Ready s → (s.port p).receiver = .idle →
    sdo s p = none ∧
    ∀ f ∈ frameCommands p type,
      exec (f (.first bytes bits)) s = .next s ∧
      exec (f (.more bytes bits)) s = .next s ∧
      exec (f (.finish bytes bits)) s = .next (s.modPort p fun x => { x with selected := false })

/-! ### The request engine (chapter 8) -/

/-- The arbiter's choice (R141): the oldest expiry item; then the pointer's own teardown item; then, from the port after
the pointer round to its own, a port's request before its teardown item; otherwise nothing. -/
def Obligations.ArbiterChoice : Prop :=
  (∀ (s : State) (pre post : List Item) (n : Fin 24) (p : Port) (t : Byte),
    s.workList = pre ++ .expiry n p t :: post → (∀ i ∈ pre, ∃ q, i = .teardown q) →
      choose s = some (.item (.expiry n p t))) ∧
  (∀ s : State, (∀ i ∈ s.workList, ∃ q, i = .teardown q) → .teardown s.rotation ∈ s.workList →
      choose s = some (.item (.teardown s.rotation))) ∧
  (∀ (s : State) (pre post : List Port) (p : Port),
    (∀ i ∈ s.workList, ∃ q, i = .teardown q) → .teardown s.rotation ∉ s.workList →
    rotationFrom s.rotation = pre ++ p :: post →
    (∀ q ∈ pre, holdsRequest s q = false ∧ .teardown q ∉ s.workList) →
      (holdsRequest s p = true → choose s = some (.request p (s.port p).linkErrors)) ∧
      (holdsRequest s p = false → .teardown p ∈ s.workList → choose s = some (.item (.teardown p)))) ∧
  (∀ s : State, s.workList = [] → (∀ q, holdsRequest s q = false) → choose s = none) ∧
  rotationFrom .a = [.b, .c, .d, .a] ∧ rotationFrom .b = [.c, .d, .a, .b] ∧
  rotationFrom .c = [.d, .a, .b, .c] ∧ rotationFrom .d = [.a, .b, .c, .d]

/-- Taking a request moves its slot to SERVING and the rotation pointer to its port; taking an item removes it from the
list and leaves the pointer; a serving engine takes nothing (R137, R138, R142, R157). At the end of a piece of work the
ticks that came during it act one after another, and then the arbiter chooses (R139, R141). Where a port reset waits, only
the ticks ahead of it act, and the engine is idle and chooses nothing until it has acted (R159; the model's reading, log
entry 3). A command other than PORT_RESET_ACTS, INIT_COMPLETE and RESET_RETURNS_HIGH finds an idle engine settled: every
claim that waits has acted, in the order they came, and the arbiter has chosen (log entry 3). -/
def Obligations.TakingAndEndingWork : Prop :=
  (∀ s : State,
    (s.service = .idle →
      (∀ p n r, choose s = some (.request p n) → (s.port p).slot = .held r →
        arbitrate s = { s.modPort p fun x => { x with slot := .serving r } with
          rotation := p, service := .serving (.request p n) }) ∧
      (∀ i, choose s = some (.item i) →
        arbitrate s = { s with workList := s.workList.erase i, service := .serving (.item i) }) ∧
      (choose s = none → arbitrate s = s)) ∧
    ∀ w, s.service = .serving w → arbitrate s = s) ∧
  (∀ (s : State) (n : Nat),
    (s.deferred = List.replicate n .tick →
      conclude s = arbitrate
        { Nat.repeat tickActs n { s with service := .idle } with deferred := [], fresh := ⟨none, none⟩ }) ∧
    ∀ p rest, s.deferred = List.replicate n .tick ++ .portReset p :: rest →
      conclude s = { Nat.repeat tickActs n { s with service := .idle } with deferred := .portReset p :: rest }) ∧
  ∀ s : State,
    (∀ w, s.service = .serving w → settled s = s) ∧
    (s.service = .idle →
      settled s = arbitrate
        { s.deferred.foldl actClaim { s with deferred := [] } with fresh := ⟨none, none⟩ }) ∧
    actClaim s .tick = tickActs s ∧ (∀ p, actClaim s (.portReset p) = resetPort p s) ∧
    ∀ c : Instr, (∀ p, c ≠ .portResetActs p) → c ≠ .initComplete → c ≠ .resetReturnsHigh →
      exec c s = exec c (settled s)

/-- Requests with an unsuitable payload, without a session, in an ending session or with a wrong epoch are refused, in
this order of checks, and change nothing else (R144, R145); and the payload that suits each kind (R166, R167). -/
def Obligations.CommonChecks : Prop :=
  (∀ (k : Kind) (p : Port) (r : Request) (s : State), Serves s p r → r.kind = k.code →
    (payloadSuits k r.payload = false → exec (commandOf k p) s = answeredRefused p k .malformed 0 s) ∧
    (payloadSuits k r.payload = true → k.needsOpen = true →
      ((s.session p).state = .closed → exec (commandOf k p) s = answeredRefused p k .noSession 0 s) ∧
      ((s.session p).state = .ending → exec (commandOf k p) s = answeredRefused p k .sessionEnding 0 s) ∧
      ((s.session p).state = .opened → r.epoch ≠ (s.session p).epoch →
        exec (commandOf k p) s = answeredRefused p k .stale 0 s))) ∧
  (∀ k : Kind, k.needsOpen = false ↔ k = .openSession ∨ k = .status ∨ k = .fetch) ∧
  (∀ pl : List Byte,
    (∀ k, k = .closeSession ∨ k = .renewEven ∨ k = .renewOdd ∨ k = .status →
      (payloadSuits k pl = true ↔ pl.length = 0)) ∧
    (∀ k, k = .openSession ∨ k = .release ∨ k = .cancel ∨ k = .fetch →
      (payloadSuits k pl = true ↔ pl.length = 1)) ∧
    (∀ k, k = .watch ∨ k = .unwatch → (payloadSuits k pl = true ↔ pl.length = 2)) ∧
    (∀ k, k = .gather ∨ k = .acquire ∨ k = .give → (payloadSuits k pl = true ↔ pl.length = 3)) ∧
    (payloadSuits .take pl = true ↔ pl.length = 5) ∧
    (payloadSuits .chain pl = true ↔ ∃ n rest, pl = n :: rest ∧ pl.length = 1 + 5 * n.toNat) ∧
    (payloadSuits .formatCell pl = true ↔
      ∃ c1 c0 kc rest, pl = c1 :: c0 :: kc :: rest ∧
        ((kc = 1 ∨ kc = 3) ∧ pl.length = 5 ∨ kc = 2 ∧ pl.length = 7)) ∧
    (payloadSuits .await pl = true ↔
      ∃ c1 c0 cc rest, pl = c1 :: c0 :: cc :: rest ∧ pl.length = 7 ∧ 1 ≤ cc.toNat ∧ cc.toNat ≤ 6)) ∧
  Kind.all.map Kind.code =
    [0x01, 0x02, 0x03, 0x04, 0x05, 0x10, 0x11, 0x12, 0x20, 0x21, 0x28, 0x29, 0x30, 0x31, 0x38, 0x39, 0x3A] ∧
  ∀ k : Kind, k ∈ Kind.all

/-- A request whose kind code is none of the seventeen is refused MALFORMED, with its code echoed and no field bytes
(R144, R169). -/
def Obligations.UnknownKindRefused : Prop :=
  ∀ (p : Port) (r : Request) (s : State), Serves s p r → (∀ k : Kind, r.kind ≠ k.code) →
    exec (.unknownKindCode p) s =
      .next (conclude (placeResponse p ⟨.refused, r.kind, some .malformed, 0, .zeros 0⟩ s)) ∧
    (Response.bytes ⟨.refused, r.kind, some .malformed, 0, .zeros 0⟩).take 5 = [5, 3, r.kind, 1, 0]

/-- A request taken is answered once, in its port's slot, with its kind echoed. Its work changes neither ports nor
engine. A refused request changes nothing but the response, whose fields are the zeros of the fixed part of its kind's
group (R169); PENDING is given to ACQUIRE, TAKE and AWAIT alone (R146). -/
def Obligations.OneResponsePerRequest : Prop :=
  Kind.all.map Kind.fixedPart = [12, 2, 4, 4, 22, 5, 8, 12, 6, 3, 7, 6, 6, 4, 6, 4, 3] ∧
  Kind.all =
    [.openSession, .closeSession, .renewEven, .renewOdd, .status, .chain, .gather, .formatCell, .acquire, .release, .take,
      .give, .await, .cancel, .watch, .unwatch, .fetch] ∧
  (∀ n, (Fields.zeros n).bytes = List.replicate n 0x00) ∧
  ∀ (k : Kind) (p : Port) (r : Request) (s : State), Serves s p r → r.kind = k.code →
    ∃ resp u, exec (commandOf k p) s = .next (conclude (placeResponse p resp u)) ∧ SameOutside s u ∧
      resp.kind = r.kind ∧
      (resp.outcome = .refused → u = s ∧ resp.reason ≠ none ∧ resp.fields = .zeros k.fixedPart) ∧
      (resp.outcome ≠ .refused → resp.reason = none ∧ resp.stepIndex = 0) ∧
      (resp.outcome = .pending → k = .acquire ∨ k = .take ∨ k = .await) ∧
      (k ≠ .chain → resp.stepIndex = 0)

/-! ### Sessions and leases (chapter 7) -/

/-- OPEN (R122, R123): refused ALREADY-OPEN, SESSION-ENDING or RANGE in this order, and otherwise the new session. The
field fresh, set to the port, is the model's own (log entry 4). -/
def Obligations.OpenSession : Prop :=
  ∀ (s : State) (p : Port) (units : Byte), Admits s p .openSession [units] →
    ((s.session p).state = .opened → exec (.openSession p) s = answeredRefused p .openSession .alreadyOpen 0 s) ∧
    ((s.session p).state = .ending → exec (.openSession p) s = answeredRefused p .openSession .sessionEnding 0 s) ∧
    ((s.session p).state = .closed → units = 0 →
      exec (.openSession p) s = answeredRefused p .openSession .range 0 s) ∧
    ((s.session p).state = .closed → units ≠ 0 →
      let e := if (s.session p).epoch = 255 then 1 else (s.session p).epoch + 1
      exec (.openSession p) s =
        answeredDone p .openSession (.opened e units)
          { s.modSession p fun x =>
              { x with
                epoch := e, leasePeriod := some (units.toNat * 20), leaseRemaining := units.toNat * 20,
                expected := .even, lowReported := false, queue := [], sequence := 0, lost := 0,
                nextTicket := 1, state := .opened } with
            fresh := { s.fresh with lease := some p } } ∧
      (Fields.opened e units).bytes = [e, units, 0x45, 0x12, 4, 2, 0, 48, 24, 16, 8, 6])

/-- RENEW-EVEN and RENEW-ODD in an OPEN session with its epoch (R125): the expected kind restarts the lease, the other
changes nothing, and both are answered DONE. The field fresh, set by the restart, is the model's own (log entry 4). -/
def Obligations.Renewals : Prop :=
  ∀ (s : State) (p : Port) (period : Nat), (s.session p).leasePeriod = some period →
    (Admits s p .renewEven [] →
      ((s.session p).expected = .even →
        exec (.renewEven p) s =
          answeredDone p .renewEven (.renewed true .odd period)
            { s.modSession p fun x =>
                { x with leaseRemaining := period, expected := .odd, lowReported := false } with
              fresh := { s.fresh with lease := some p } }) ∧
      ((s.session p).expected = .odd →
        exec (.renewEven p) s =
          answeredDone p .renewEven (.renewed false .odd (s.session p).leaseRemaining) s)) ∧
    (Admits s p .renewOdd [] →
      ((s.session p).expected = .odd →
        exec (.renewOdd p) s =
          answeredDone p .renewOdd (.renewed true .even period)
            { s.modSession p fun x =>
                { x with leaseRemaining := period, expected := .even, lowReported := false } with
              fresh := { s.fresh with lease := some p } }) ∧
      ((s.session p).expected = .even →
        exec (.renewOdd p) s =
          answeredDone p .renewOdd (.renewed false .even (s.session p).leaseRemaining) s))

/-- STATUS (R134) is answered DONE in any session state, reports the session record, the queue length, the watch count
and the link error count, and changes nothing. The link error count is that of the moment the request was taken:
log entry 10. -/
def Obligations.StatusReports : Prop :=
  ∀ (s : State) (p : Port) (e : Byte) (n : Nat),
    s.service = .serving (.request p n) → (s.port p).slot = .serving ⟨e, 0x05, []⟩ →
    let x := s.session p
    let report : StatusReport :=
      { state := x.state, epoch := x.epoch, endCause := x.endCause, leasePeriod := x.leasePeriod,
        leaseRemaining := x.leaseRemaining, expected := x.expected, stack := x.stack,
        pendingAcquire := x.pendingAcquire, liveWaits := x.liveWaits, queueLength := x.queue.length,
        reserved := x.reserved, lost := x.lost, watchCount := x.watches.length, linkErrors := n }
    exec (.status p) s = answeredDone p .status (.status report) s ∧ report.bytes.length = 22

/-- CLOSE (R130): the cause CLOSED, the lease at 0 and a teardown, in one piece of work; the answer counts the locks
and the entries as they stood when it was taken. -/
def Obligations.CloseSession : Prop :=
  ∀ (s : State) (p : Port), Admits s p .closeSession [] →
    exec (.closeSession p) s =
      answeredDone p .closeSession (.closed (s.session p).stack.length (s.session p).liveWaits)
        (teardown p (s.modSession p fun x => { x with endCause := .closed, leaseRemaining := 0 }))

/-- TEARDOWN_ITEM carries out the item in service, with no response (R143). What a teardown leaves of the session it ends
(R131, R132, R108, R115): CLOSED, nothing held, an empty watch list, and a queue that holds the SESSION-ENDED record
alone, or nothing when the session was closed by CLOSE; that the causes NONE and DEVICE-RESET give no record either is log
entry 17 (DEDUCED). It goes by the steps of R131: the port's entries freed; the grant walk on each cell whose head TAKE
waiter was the port's, ascending, and on no other (R73, R94); the locks from the top of the stack downward, each with its
bank suspect, to its head waiter or FREE with its generation (R60); and the net changes handed on with origin none. The
records that the other ports get are those of these walks, handoffs and met conditions. Every other cell, lock and suspect
flag stays as it was (R6). -/
def Obligations.Teardown : Prop :=
  (∀ (s : State) (p : Port),
    (s.service = .serving (.item (.teardown p)) → exec (.teardownItem p) s = .next (conclude (teardown p s))) ∧
    let x := s.session p
    let notice : List Event :=
      if x.endCause = .lapsed ∨ x.endCause = .portReset then [.sessionEnded x.endCause] else []
    (teardown p s).session p =
      { x with
        state := .closed, liveWaits := 0, pendingAcquire := none, stack := [], reserved := 0, watches := [],
        queue := notice.map (fun e => ⟨x.sequence, e⟩),
        sequence := x.sequence + BitVec.ofNat 8 notice.length } ∧
    (∀ w ∈ (teardown p s).pool, w.port ≠ p) ∧ SameOutside s (teardown p s)) ∧
  (∀ (s : State) (p : Port),
    (∀ l ∈ (s.session p).stack,
      (∀ e, ((teardown p s).lock l).state ≠ .held p e) ∧
      ∀ b, lockBank l = some b → (teardown p s).bankSuspect b = true) ∧
    (∀ l, l ∉ (s.session p).stack → (teardown p s).lock l = s.lock l) ∧
    (∀ b, bankLock b ∉ (s.session p).stack → (teardown p s).bankSuspect b = s.bankSuspect b) ∧
    ∀ c, c ∉ headedCells p s → (teardown p s).cell c = s.cell c) ∧
  (∀ (s : State) (p : Port),
    (headedCells p s).Pairwise (· < ·) ∧
    (NumbersDistinct s →
      ∀ c, c ∈ headedCells p s ↔ ∃ w ws, takeWaiters s c = w :: ws ∧ w.port = p) ∧
    let freed := { s.modSession p fun y => { y with liveWaits := 0, pendingAcquire := none } with
      pool := s.pool.filter fun w => w.port ≠ p }
    let walked := (headedCells p s).foldl (fun t c => (grantWalk c t).1) freed
    let released := (s.session p).stack.reverse.foldl (teardownLock p) walked
    let notice (y : Session) : List Event :=
      if y.endCause = .lapsed ∨ y.endCause = .portReset then [.sessionEnded y.endCause] else []
    teardown p s =
      handOn none s.cells (headedCells p s)
        (released.modSession p fun y =>
          { y with
            state := .closed, reserved := 0, watches := [],
            queue := (notice y).map (fun e => ⟨y.sequence, e⟩),
            sequence := y.sequence + BitVec.ofNat 8 (notice y).length })) ∧
  (∀ (s : State) (p : Port) (l : Fin 48),
    let u := markBank l true (s.modSession p fun y => { y with stack := y.stack.dropLast })
    (∀ b, u.bankSuspect b = if bankLock b = l then true else s.bankSuspect b) ∧
    (lockWaiters s l = [] → teardownLock p s l = u.setLock l ⟨.free, (s.lock l).generation⟩) ∧
    ∀ w ws, lockWaiters s l = w :: ws → teardownLock p s l = handoff l w u) ∧
  ∀ (s : State) (p : Port), NumbersDistinct s →
    (∀ c ∈ headedCells p s,
      (teardown p s).cell c =
        (grantWalk c { s with pool := s.pool.filter fun w => w.port ≠ p }).1.cell c) ∧
    ((s.session p).stack.Nodup →
      ∀ l ∈ (s.session p).stack,
        let g := (s.lock l).generation
        let others := (lockWaiters s l).filter fun w => w.port ≠ p
        (others = [] → (teardown p s).lock l = ⟨.free, g⟩) ∧
        ∀ w ws, others = w :: ws →
          (teardown p s).lock l = ⟨.held w.port w.epoch, g + 1⟩ ∧
          ∃ r ∈ ((teardown p s).session w.port).queue,
            r.event = .granted w.ticket l (g + 1) ((lockBank l).map fun _ => true))

/-! ### Cells (chapter 1) -/

/-- FORMAT (R7, R8): the checks in their order, and the cell's new record with both records in the answer. A record fits
when a COUNTER's ceiling is not 0 and its value does not exceed it (checks 2 and 3), and a cell is busy while a live TAKE
or AWAIT entry targets it (check 5). -/
def Obligations.FormatSetsTheCell : Prop :=
  (∀ (s : State) (p : Port) (w : Word) (x : Cell), Admits s p .formatCell (formatPayload w x) →
    (512 ≤ w.toNat → exec (.formatCell p) s = answeredRefused p .formatCell .range 0 s) ∧
    ∀ c : Fin 512, w.toNat = c.val →
      (x.fits = false → exec (.formatCell p) s = answeredRefused p .formatCell .range 0 s) ∧
      (x.fits = true → guardedAgainst s p c = true →
        exec (.formatCell p) s = answeredRefused p .formatCell .guarded 0 s) ∧
      (x.fits = true → guardedAgainst s p c = false → cellBusy s c = true →
        exec (.formatCell p) s = answeredRefused p .formatCell .cellBusy 0 s) ∧
      (x.fits = true → guardedAgainst s p c = false → cellBusy s c = false →
        exec (.formatCell p) s =
          answeredDone p .formatCell (.formatted c (s.cell c) x) (handOn (some p) s.cells [c] (s.setCell c x)))) ∧
  (∀ v n : Word,
    (Cell.plain v).fits = true ∧ (Cell.members v).fits = true ∧
    ((Cell.counter n v).fits = true ↔ n ≠ 0 ∧ v.toNat ≤ n.toNat)) ∧
  ∀ (s : State) (c : Fin 512),
    cellBusy s c = true ↔
      ∃ w ∈ s.pool, (∃ n, w.wait = .take c n) ∨ ∃ cond operand, w.wait = .await c cond operand

/-- A bank lock guards the cells of its bank against every port but its holder (R11, R48). -/
def Obligations.BankGuarding : Prop :=
  ∀ (s : State) (p : Port) (c : Fin 512),
    (bankOf c).val = c.val / 16 ∧ (bankLock (bankOf c)).val = c.val / 16 ∧
    ((s.lock (bankLock (bankOf c))).state = .free → guardedAgainst s p c = false) ∧
    ∀ q e, (s.lock (bankLock (bankOf c))).state = .held q e → guardedAgainst s p c = decide (q ≠ p)

/-- GATHER (R9, R10): refused RANGE where the run does not lie in cells 0 to 511 or is not of 1 to 8 cells; otherwise
the cells of the run in order with the suspect flags of its banks, whoever holds them, and nothing changed. -/
def Obligations.GatherReadsTheRun : Prop :=
  ∀ (s : State) (p : Port) (first : Word) (n : Byte), Admits s p .gather (wordBytes first ++ [n]) →
    (n = 0 ∨ 8 < n.toNat ∨ 512 < first.toNat + n.toNat →
      exec (.gather p) s = answeredRefused p .gather .range 0 s) ∧
    ∀ (_ : 0 < n.toNat) (_ : n.toNat ≤ 8) (h : first.toNat + n.toNat ≤ 512),
      let bankAt (i : Nat) (hi : i < 512) : Fin 32 := ⟨i / 16, by omega⟩
      let b := bankAt first.toNat (by omega)
      let d := bankAt (first.toNat + n.toNat - 1) (by omega)
      exec (.gather p) s =
        answeredDone p .gather
          (.gather ⟨first.toNat, by omega⟩ b (s.bankSuspect b)
            (if d = b then none else some (d, s.bankSuspect d))
            (List.ofFn fun i : Fin n.toNat => s.cell ⟨first.toNat + i.val, by omega⟩)) s

/-- The cells with a net change, ascending, are handed on: first to the AWAIT entries, and then, when the origin is a port,
to the watch lists of the four ports in order (R13, R14, R15, R103; MET before CHANGED, R110). A change of origin none is
handed to the wait pool alone. Work without a net change is handed to nobody, whatever values its cells passed through. -/
def Obligations.OnlyNetChangesAreHandedOn : Prop :=
  (∀ (before : Vector Cell 512) (touched : List (Fin 512)) (s : State),
    (∀ c, c ∈ netChanges before touched s ↔ c ∈ touched ∧ before[c].reported ≠ (s.cell c).reported) ∧
    (netChanges before touched s).Pairwise (· < ·) ∧
    handOn none before touched s = (netChanges before touched s).foldl meetAwaits s ∧
    (∀ p, handOn (some p) before touched s =
      (netChanges before touched s).foldl (notifyWatchers p) ((netChanges before touched s).foldl meetAwaits s)) ∧
    ∀ origin, (∀ c ∈ touched, before[c].reported = (s.cell c).reported) → handOn origin before touched s = s) ∧
  ∀ (s : State) (c : Fin 512) (origin : Port),
    notifyWatchers origin s c = [.a, .b, .c, .d].foldl (notifyPort c (s.cell c).reported origin) s

/-! ### Chains (chapter 2) -/

/-- The code and fields of every chain step (R168), and the checks of its code and its operands (R37). -/
def Obligations.StepCodes : Prop :=
  (∀ (c : Fin 512) (a : Word),
    let w : Word := BitVec.ofNat 16 c.val
    ChainStep.ofRaw ⟨0x01, w, a⟩ = .ok (.read c) ∧ ChainStep.ofRaw ⟨0x03, w, a⟩ = .ok (.write c) ∧
    ChainStep.ofRaw ⟨0x04, w, a⟩ = .ok (.exchange c) ∧ ChainStep.ofRaw ⟨0x10, w, a⟩ = .ok (.add c) ∧
    ChainStep.ofRaw ⟨0x11, w, a⟩ = .ok (.addc c) ∧ ChainStep.ofRaw ⟨0x12, w, a⟩ = .ok (.sub c) ∧
    ChainStep.ofRaw ⟨0x13, w, a⟩ = .ok (.subb c) ∧ ChainStep.ofRaw ⟨0x14, w, a⟩ = .ok (.and c) ∧
    ChainStep.ofRaw ⟨0x15, w, a⟩ = .ok (.or c) ∧ ChainStep.ofRaw ⟨0x16, w, a⟩ = .ok (.xor c) ∧
    ChainStep.ofRaw ⟨0x18, w, a⟩ = .ok (.accum c) ∧ ChainStep.ofRaw ⟨0x19, w, a⟩ = .ok (.deduct c) ∧
    ChainStep.ofRaw ⟨0x1A, w, a⟩ = .ok (.stepUp c) ∧ ChainStep.ofRaw ⟨0x1B, w, a⟩ = .ok (.stepDown c) ∧
    ChainStep.ofRaw ⟨0x32, w, a⟩ = .ok (.whenEqual c) ∧ ChainStep.ofRaw ⟨0x33, w, a⟩ = .ok (.whenBelow c)) ∧
  (∀ (c : Fin 512) (m : Fin 16),
    let w : Word := BitVec.ofNat 16 c.val
    let a : Word := BitVec.ofNat 16 m.val
    ChainStep.ofRaw ⟨0x20, w, a⟩ = .ok (.insert c m) ∧ ChainStep.ofRaw ⟨0x21, w, a⟩ = .ok (.remove c m) ∧
    ChainStep.ofRaw ⟨0x34, w, a⟩ = .ok (.whenMember c m) ∧ ChainStep.ofRaw ⟨0x35, w, a⟩ = .ok (.whenAbsent c m)) ∧
  (∀ w a : Word,
    ChainStep.ofRaw ⟨0x02, w, a⟩ = .ok (.load a) ∧ ChainStep.ofRaw ⟨0x30, w, a⟩ = .ok .whenZero ∧
    ChainStep.ofRaw ⟨0x31, w, a⟩ = .ok .whenNonzero) ∧
  (∀ (code : Byte) (w a : Word), 512 ≤ w.toNat →
    code ∈ [0x01, 0x03, 0x04, 0x10, 0x11, 0x12, 0x13, 0x14, 0x15, 0x16, 0x18, 0x19, 0x1A, 0x1B, 0x20, 0x21, 0x32,
            0x33, 0x34, 0x35] → ChainStep.ofRaw ⟨code, w, a⟩ = .error .range) ∧
  (∀ (code : Byte) (w a : Word), 16 ≤ a.toNat → code ∈ [0x20, 0x21, 0x34, 0x35] →
    ChainStep.ofRaw ⟨code, w, a⟩ = .error .range) ∧
  ∀ (code : Byte) (w a : Word),
    code ∉ [0x01, 0x02, 0x03, 0x04, 0x10, 0x11, 0x12, 0x13, 0x14, 0x15, 0x16, 0x18, 0x19, 0x1A, 0x1B, 0x20, 0x21,
            0x30, 0x31, 0x32, 0x33, 0x34, 0x35] → ChainStep.ofRaw ⟨code, w, a⟩ = .error .malformed

/-- READ, LOAD, WRITE and EXCHANGE (R23, R24). -/
def Obligations.MovingSteps : Prop :=
  ∀ (r : ChainRun) (c : Fin 512) (n : Word),
    (let t := (ChainStep.read c).effect r
     t.w = r.cells[c].number ∧ t.flags = ⟨decide (t.w = 0), r.flags.c, r.flags.v⟩ ∧ t.cells = r.cells) ∧
    (∀ m, r.cells[c] = .members m →
      ((ChainStep.read c).effect r).w.toNat = ((List.range 16).filter fun i => m.getLsbD i).length) ∧
    (let t := (ChainStep.load n).effect r
     t.w = n ∧ t.flags = ⟨decide (n = 0), r.flags.c, r.flags.v⟩ ∧ t.cells = r.cells) ∧
    (let t := (ChainStep.write c).effect r
     t.cells = r.cells.set c (.plain r.w) ∧ t.w = r.w ∧ t.flags = r.flags) ∧
    (∀ v, r.cells[c] = .plain v →
      let t := (ChainStep.exchange c).effect r
      t.cells = r.cells.set c (.plain r.w) ∧ t.w = v ∧ t.flags = ⟨decide (v = 0), r.flags.c, r.flags.v⟩ ∧
        (v = r.w → t.cells = r.cells ∧ t.w = r.w)) ∧
    (∀ st ∈ [ChainStep.write c, .exchange c],
      ChainStep.modifies st = true ∧ ∀ k, ChainStep.accepts st k = true ↔ k = .plain) ∧
    (∀ k, (ChainStep.read c).accepts k = true) ∧ (ChainStep.read c).modifies = false ∧
    (ChainStep.load n).cell? = none ∧ (ChainStep.load n).modifies = false ∧
    ∀ st : ChainStep, (r.perform st).performed = r.performed + 1

/-- ADD, ADDC, SUB, SUBB, AND, OR and XOR: results, flags, and every cell as it was (R25, R26, R27). -/
def Obligations.ComputingSteps : Prop :=
  ∀ (r : ChainRun) (c : Fin 512),
    let x := r.cells[c].number
    (∀ (st : ChainStep) (carry : Nat), (st, carry) ∈ [(ChainStep.add c, 0), (.addc c, if r.flags.c then 1 else 0)] →
      let t := ChainStep.effect st r
      t.w.toNat = (r.w.toNat + x.toNat + carry) % 65536 ∧ t.cells = r.cells ∧
        t.flags.z = decide (t.w = 0) ∧
        t.flags.c = decide (65536 ≤ r.w.toNat + x.toNat + carry) ∧
        (t.flags.v = false ↔
          -32768 ≤ signed r.w + signed x + carry ∧
            signed r.w + signed x + carry ≤ 32767)) ∧
    (∀ (st : ChainStep) (borrow : Nat), (st, borrow) ∈ [(ChainStep.sub c, 0), (.subb c, if r.flags.c then 1 else 0)] →
      let t := ChainStep.effect st r
      (t.w.toNat : Int) = ((r.w.toNat : Int) - x.toNat - borrow) % 65536 ∧ t.cells = r.cells ∧
        t.flags.z = decide (t.w = 0) ∧
        t.flags.c = decide (r.w.toNat < x.toNat + borrow) ∧
        (t.flags.v = false ↔
          -32768 ≤ signed r.w - signed x - borrow ∧
            signed r.w - signed x - borrow ≤ 32767)) ∧
    (∀ st y, (st, y) ∈ [(ChainStep.and c, r.w &&& x), (.or c, r.w ||| x), (.xor c, r.w ^^^ x)] →
      let t := ChainStep.effect st r
      t.w = y ∧ t.cells = r.cells ∧ t.flags = ⟨decide (y = 0), r.flags.c, r.flags.v⟩) ∧
    ∀ st ∈ [ChainStep.add c, .addc c, .sub c, .subb c, .and c, .or c, .xor c],
      ChainStep.modifies st = false ∧ ∀ k, ChainStep.accepts st k = true ↔ k = .plain ∨ k = .counter

/-- ACCUM, DEDUCT, STEP-UP and STEP-DOWN on a PLAIN cell: the cell and W take the result. INSERT and REMOVE on a MEMBERS
cell: one member of the set, and W the number of members (R28, R29, R30, R31). -/
def Obligations.StoringSteps : Prop :=
  (∀ (r : ChainRun) (c : Fin 512) (x : Word), r.cells[c] = .plain x →
    (let t := (ChainStep.accum c).effect r
     t.w.toNat = (x.toNat + r.w.toNat) % 65536 ∧ t.cells = r.cells.set c (.plain t.w) ∧
       t.flags.z = decide (t.w = 0) ∧ t.flags.c = decide (65536 ≤ x.toNat + r.w.toNat) ∧
       (t.flags.v = false ↔
         -32768 ≤ signed x + signed r.w ∧ signed x + signed r.w ≤ 32767)) ∧
    (let t := (ChainStep.deduct c).effect r
     (t.w.toNat : Int) = ((x.toNat : Int) - r.w.toNat) % 65536 ∧ t.cells = r.cells.set c (.plain t.w) ∧
       t.flags.z = decide (t.w = 0) ∧ t.flags.c = decide (x.toNat < r.w.toNat) ∧
       (t.flags.v = false ↔
         -32768 ≤ signed x - signed r.w ∧ signed x - signed r.w ≤ 32767)) ∧
    (let t := (ChainStep.stepUp c).effect r
     t.w = x + 1 ∧ t.cells = r.cells.set c (.plain t.w) ∧
       t.flags = ⟨decide (t.w = 0), decide (x = 65535), r.flags.v⟩) ∧
    (let t := (ChainStep.stepDown c).effect r
     t.w = x - 1 ∧ t.cells = r.cells.set c (.plain t.w) ∧
       t.flags = ⟨decide (t.w = 0), decide (x = 0), r.flags.v⟩) ∧
    ∀ st ∈ [ChainStep.accum c, .deduct c, .stepUp c, .stepDown c],
      ChainStep.modifies st = true ∧ ∀ k, ChainStep.accepts st k = true ↔ k = .plain) ∧
  ∀ (r : ChainRun) (c : Fin 512) (m : Fin 16) (x : Word), r.cells[c] = .members x →
    ∀ st flag, (st, flag) ∈ [(ChainStep.insert c m, true), (.remove c m, false)] →
      let t := ChainStep.effect st r
      (∃ y : Word, t.cells = r.cells.set c (.members y) ∧
        (∀ i : Fin 16, y.getLsbD i.val = if i = m then flag else x.getLsbD i.val) ∧
        (x.getLsbD m.val = flag → y = x) ∧
        t.w.toNat = ((List.range 16).filter fun i => y.getLsbD i).length) ∧
      t.flags = ⟨decide (t.w = 0), r.flags.c, r.flags.v⟩ ∧
      ChainStep.modifies st = true ∧ ∀ k, ChainStep.accepts st k = true ↔ k = .members

/-- The six guards: their conditions, and that they change nothing; no other step fails (R32). Steps are performed or passed
over in order (R33), every chain starts from W 0 with the flags clear (R20), and the two counts add up to the step count
(R34). -/
def Obligations.GuardsAndPassingOver : Prop :=
  (∀ (r : ChainRun) (c : Fin 512) (m : Fin 16),
    ((ChainStep.whenZero.fails r = false) ↔ r.w = 0) ∧ ((ChainStep.whenNonzero.fails r = false) ↔ r.w ≠ 0) ∧
    (((ChainStep.whenEqual c).fails r = false) ↔ r.w = r.cells[c].number) ∧
    (((ChainStep.whenBelow c).fails r = false) ↔ r.w.toNat < r.cells[c].number.toNat) ∧
    (∀ x, r.cells[c] = .members x →
      (((ChainStep.whenMember c m).fails r = false) ↔ x.getLsbD m.val = true) ∧
      (((ChainStep.whenAbsent c m).fails r = false) ↔ x.getLsbD m.val = false)) ∧
    (∀ st ∈ [ChainStep.whenZero, .whenNonzero, .whenEqual c, .whenBelow c, .whenMember c m, .whenAbsent c m],
      ChainStep.effect st r = r ∧ ChainStep.modifies st = false) ∧
    (∀ st ∈ [ChainStep.whenEqual c, .whenBelow c], ∀ k, ChainStep.accepts st k = true ↔ k = .plain ∨ k = .counter) ∧
    (∀ st ∈ [ChainStep.whenMember c m, .whenAbsent c m], ∀ k, ChainStep.accepts st k = true ↔ k = .members) ∧
    (∀ st ∈ [ChainStep.whenZero, .whenNonzero], ChainStep.cell? st = none) ∧
    ∀ n : Word, ∀ st ∈ [ChainStep.read c, .load n, .write c, .exchange c, .add c, .addc c, .sub c, .subb c, .and c,
      .or c, .xor c, .accum c, .deduct c, .stepUp c, .stepDown c, .insert c m, .remove c m],
      ChainStep.fails st r = false) ∧
  (∀ (r : ChainRun) (st : ChainStep) (rest : List ChainStep) (skip : Bool),
    runSteps [] skip r = r ∧
    runSteps (st :: rest) false r = runSteps rest (st.fails r) (r.perform st) ∧
    runSteps (st :: rest) true r = runSteps rest false { r with passed := r.passed + 1 } ∧
    r.perform st = { st.effect r with performed := r.performed + 1, touched := st.cell?.toList ++ r.touched }) ∧
  ∀ (cells : Vector Cell 512) (steps : List ChainStep),
    ChainRun.start cells = ⟨cells, 0, ⟨false, false, false⟩, 0, 0, []⟩ ∧
    let r := runSteps steps false (ChainRun.start cells)
    r.performed + r.passed = steps.length ∧ (steps ≠ [] → 1 ≤ r.performed) ∧
      (steps.length ≤ 6 → r.passed ≤ 3)

/-- A CHAIN of 1 to 6 steps that all pass their checks is carried out and answered DONE with the final W, flags and
counts; its net change is handed on with the sender as origin (R19, R37, R40, R42). -/
def Obligations.ChainRuns : Prop :=
  ∀ (s : State) (p : Port) (n : Byte) (raws : List RawStep) (steps : List ChainStep),
    Admits s p .chain (chainPayload n raws) → n.toNat = raws.length → 1 ≤ n.toNat → n.toNat ≤ 6 →
    PassAll s p raws steps →
      let r := runSteps steps false (ChainRun.start s.cells)
      exec (.chain p) s =
        answeredDone p .chain (.chain r.w r.flags.z r.flags.c r.flags.v r.performed r.passed)
          (handOn (some p) s.cells r.touched { s with cells := r.cells })

/-- A CHAIN is refused MALFORMED for its step count, with index 0, and otherwise for the first step that fails a check,
with that step's index; the checks of a step stand in the order MALFORMED, RANGE, KIND, GUARDED (R36, R37, R41). -/
def Obligations.ChainIsRefusedWhole : Prop :=
  (∀ (s : State) (p : Port) (n : Byte) (raws : List RawStep),
    Admits s p .chain (chainPayload n raws) → n.toNat = raws.length → n.toNat = 0 ∨ 6 < n.toNat →
      exec (.chain p) s = answeredRefused p .chain .malformed 0 s) ∧
  ∀ (s : State) (p : Port) (n : Byte) (before after : List RawStep) (raw : RawStep) (steps : List ChainStep),
    Admits s p .chain (chainPayload n (before ++ raw :: after)) →
    n.toNat = (before ++ raw :: after).length → n.toNat ≤ 6 →
    PassAll s p before steps →
      (∀ e, ChainStep.ofRaw raw = .error e →
        exec (.chain p) s = answeredRefused p .chain e (before.length + 1) s) ∧
      ∀ st c, ChainStep.ofRaw raw = .ok st → st.cell? = some c →
        (st.accepts (s.cell c).kind = false →
          exec (.chain p) s = answeredRefused p .chain .kind (before.length + 1) s) ∧
        (st.accepts (s.cell c).kind = true → st.modifies = true → guardedAgainst s p c = true →
          exec (.chain p) s = answeredRefused p .chain .guarded (before.length + 1) s)

/-! ### Locks (chapter 3) -/

/-- ACQUIRE (R50 to R54): refused RANGE, SELF, LOCK-PENDING or DEPTH in this order. A FREE lock is granted at once whatever
the timeout; a HELD one is refused UNAVAILABLE without a timeout and CYCLE where a wait would close a ring; otherwise the
request waits, and the pool may refuse it. The walk of the cycle check takes at most 4 steps, and ends at a lock that is
FREE (log entry 23). -/
def Obligations.AcquireALock : Prop :=
  (∀ (s : State) (p : Port) (b : Byte) (timeout : Word), Admits s p .acquire (b :: wordBytes timeout) →
    (48 ≤ b.toNat → exec (.acquire p) s = answeredRefused p .acquire .range 0 s) ∧
    ∀ l : Fin 48, b.toNat = l.val →
      let x := s.session p
      (l ∈ x.stack → exec (.acquire p) s = answeredRefused p .acquire .self 0 s) ∧
      (l ∉ x.stack → x.pendingAcquire ≠ none →
        exec (.acquire p) s = answeredRefused p .acquire .lockPending 0 s) ∧
      (l ∉ x.stack → x.pendingAcquire = none → 6 ≤ x.stack.length →
        exec (.acquire p) s = answeredRefused p .acquire .depth 0 s) ∧
      (l ∉ x.stack → x.pendingAcquire = none → x.stack.length < 6 →
        ((s.lock l).state = .free →
          let g := (s.lock l).generation + 1
          exec (.acquire p) s =
            answeredDone p .acquire (.acquire l g ((lockBank l).map s.bankSuspect) (x.stack.length + 1) 0)
              ((s.setLock l ⟨.held p x.epoch, g⟩).modSession p fun y => { y with stack := y.stack ++ [l] })) ∧
        ∀ q e, (s.lock l).state = .held q e →
          (timeout = 0 → exec (.acquire p) s = answeredRefused p .acquire .unavailable 0 s) ∧
          (timeout ≠ 0 → cycleFrom s p 4 q = true →
            exec (.acquire p) s = answeredRefused p .acquire .cycle 0 s) ∧
          (timeout ≠ 0 → cycleFrom s p 4 q = false →
            (∀ r, createEntry p (.lock l) timeout s = .error r →
              exec (.acquire p) s = answeredRefused p .acquire r 0 s) ∧
            ∀ t u, createEntry p (.lock l) timeout s = .ok (t, u) →
              exec (.acquire p) s =
                answeredPending p .acquire (.acquire l 0 none 0 t)
                  (u.modSession p fun y => { y with pendingAcquire := some (l, t) })))) ∧
  (∀ l : Fin 48, (∀ b, lockBank l = some b ↔ l = bankLock b) ∧ (lockBank l = none ↔ 32 ≤ l.val)) ∧
  ∀ (s : State) (p q : Port),
    cycleFrom s p 4 q = true ↔ ∃ k, 1 ≤ k ∧ k ≤ 4 ∧ walkFrom s k q = some p

/-- RELEASE (R55, R56): refused RANGE, LOCK-PENDING or ORDER in this order; otherwise the top lock is popped, its bank's
suspect flag is cleared, and the lock goes to its head waiter or becomes FREE with its generation. -/
def Obligations.ReleaseTheTopLock : Prop :=
  ∀ (s : State) (p : Port) (b : Byte), Admits s p .release [b] →
    (48 ≤ b.toNat → exec (.release p) s = answeredRefused p .release .range 0 s) ∧
    ∀ l : Fin 48, b.toNat = l.val →
      let x := s.session p
      (x.pendingAcquire ≠ none → exec (.release p) s = answeredRefused p .release .lockPending 0 s) ∧
      (x.pendingAcquire = none → ¬((s.lock l).state = .held p x.epoch ∧ x.stack.getLast? = some l) →
        exec (.release p) s = answeredRefused p .release .order 0 s) ∧
      (x.pendingAcquire = none → (s.lock l).state = .held p x.epoch → x.stack.getLast? = some l →
        let u := markBank l false (s.modSession p fun y => { y with stack := y.stack.dropLast })
        (∀ k, u.bankSuspect k = if bankLock k = l then false else s.bankSuspect k) ∧
        (lockWaiters s l = [] →
          exec (.release p) s =
            answeredDone p .release (.release l (x.stack.length - 1) false)
              (u.setLock l ⟨.free, (s.lock l).generation⟩)) ∧
        ∀ w ws, lockWaiters s l = w :: ws → w.port ≠ p →
          exec (.release p) s = answeredDone p .release (.release l (x.stack.length - 1) true) (handoff l w u))

/-- A handoff (R57): the lock HELD by the waiter's port with the waiter's epoch and one generation more, pushed on its
stack; the entry freed, the marker cleared, and a GRANTED record in the place reserved for it. -/
def Obligations.HandoffToTheHeadWaiter : Prop :=
  ∀ (s : State) (l : Fin 48) (w : WaitEntry), w.wait = .lock l →
    let t := handoff l w s
    let g := (s.lock l).generation + 1
    t.lock l = ⟨.held w.port w.epoch, g⟩ ∧ (∀ k, k ≠ l → t.lock k = s.lock k) ∧
    (let x := s.session w.port
     t.session w.port =
      { x with
        stack := x.stack ++ [l], liveWaits := x.liveWaits - 1, pendingAcquire := none, reserved := x.reserved - 1,
        queue := x.queue ++ [⟨x.sequence, .granted w.ticket l g ((lockBank l).map s.bankSuspect)⟩],
        sequence := x.sequence + 1 }) ∧
    (∀ q, q ≠ w.port → t.session q = s.session q) ∧
    t.pool = s.pool.filter (fun v => v.number ≠ w.number) ∧ t.cells = s.cells ∧ t.suspect = s.suspect ∧
    SameOutside s t

/-! ### Counting cells (chapter 4) -/

/-- TAKE (R66, R67, R68): refused RANGE, RANGE, KIND, RANGE or GUARDED in this order; granted at once when no TAKE waits
for the cell and the value covers the amount, refused UNAVAILABLE otherwise without a timeout, and else made to wait. -/
def Obligations.TakeUnits : Prop :=
  ∀ (s : State) (p : Port) (w : Word) (amount : Byte) (timeout : Word),
    Admits s p .take (wordBytes w ++ amount :: wordBytes timeout) →
    (512 ≤ w.toNat ∨ amount = 0 → exec (.take p) s = answeredRefused p .take .range 0 s) ∧
    ∀ c : Fin 512, w.toNat = c.val → amount ≠ 0 →
      ((s.cell c).kind ≠ .counter → exec (.take p) s = answeredRefused p .take .kind 0 s) ∧
      ∀ ceil v, s.cell c = .counter ceil v →
        (ceil.toNat < amount.toNat → exec (.take p) s = answeredRefused p .take .range 0 s) ∧
        (amount.toNat ≤ ceil.toNat → guardedAgainst s p c = true →
          exec (.take p) s = answeredRefused p .take .guarded 0 s) ∧
        (amount.toNat ≤ ceil.toNat → guardedAgainst s p c = false →
          (takeWaiters s c = [] → amount.toNat ≤ v.toNat →
            let rest : Word := BitVec.ofNat 16 (v.toNat - amount.toNat)
            exec (.take p) s =
              answeredDone p .take (.take c amount rest 0 0)
                (handOn (some p) s.cells [c] (s.setCell c (.counter ceil rest)))) ∧
          (takeWaiters s c ≠ [] ∨ v.toNat < amount.toNat →
            (timeout = 0 → exec (.take p) s = answeredRefused p .take .unavailable 0 s) ∧
            (timeout ≠ 0 →
              (∀ r, createEntry p (.take c amount) timeout s = .error r →
                exec (.take p) s = answeredRefused p .take r 0 s) ∧
              ∀ t u, createEntry p (.take c amount) timeout s = .ok (t, u) →
                exec (.take p) s =
                  answeredPending p .take (.take c amount v t (takeWaiters s c).length) u)))

/-- GIVE (R69, R70): refused RANGE, RANGE, KIND, GUARDED or CEILING in this order; otherwise the value is raised and the
grant walk made, and the answer carries the value after it and the number of grants. -/
def Obligations.GiveUnits : Prop :=
  ∀ (s : State) (p : Port) (w : Word) (amount : Byte), Admits s p .give (wordBytes w ++ [amount]) →
    (512 ≤ w.toNat ∨ amount = 0 → exec (.give p) s = answeredRefused p .give .range 0 s) ∧
    ∀ c : Fin 512, w.toNat = c.val → amount ≠ 0 →
      ((s.cell c).kind ≠ .counter → exec (.give p) s = answeredRefused p .give .kind 0 s) ∧
      ∀ ceil v, s.cell c = .counter ceil v →
        (guardedAgainst s p c = true → exec (.give p) s = answeredRefused p .give .guarded 0 s) ∧
        (guardedAgainst s p c = false → ceil.toNat < v.toNat + amount.toNat →
          exec (.give p) s = answeredRefused p .give .ceiling 0 s) ∧
        (guardedAgainst s p c = false → v.toNat + amount.toNat ≤ ceil.toNat →
          let u := s.setCell c (.counter ceil (BitVec.ofNat 16 (v.toNat + amount.toNat)))
          (takeWaiters s c = [] → grantWalk c u = (u, 0)) ∧
          exec (.give p) s =
            answeredDone p .give (.give c amount ((grantWalk c u).1.cell c).number (grantWalk c u).2)
              (handOn (some p) s.cells [c] (grantWalk c u).1))

/-- The grant walk (R71, R72): the oldest TAKE waiters of the cell are served one after another as far as the value
covers them, each with a TAKEN record that carries the value after its own grant and takes the next sequence number of its
port and the place reserved for it (R106, R109); it stops at the first waiter the value does not cover. -/
def Obligations.GrantWalkServesInOrder : Prop :=
  ∀ (s : State) (c : Fin 512) (ceil v : Word), NumbersDistinct s → s.cell c = .counter ceil v →
    let t := (grantWalk c s).1
    ∃ served rest, takeWaiters s c = served ++ rest ∧ served.length = (grantWalk c s).2 ∧
      let sum := (served.map WaitEntry.amount).sum
      sum ≤ v.toNat ∧ t.cell c = .counter ceil (BitVec.ofNat 16 (v.toNat - sum)) ∧
      (∀ w ws, rest = w :: ws → v.toNat - sum < w.amount) ∧
      t.pool = s.pool.filter (fun w => w ∉ served) ∧
      (∀ p,
        let x := s.session p
        let events := takenEvents p c v.toNat served
        events.length = (served.filter fun w => w.port == p).length ∧
        t.session p =
          { x with
            liveWaits := x.liveWaits - events.length, reserved := x.reserved - events.length,
            queue := x.queue ++ numbered x.sequence events,
            sequence := x.sequence + BitVec.ofNat 8 events.length }) ∧
      (∀ d, d ≠ c → t.cell d = s.cell d) ∧ t.locks = s.locks ∧ t.suspect = s.suspect ∧ SameOutside s t

/-! ### The wait pool (chapter 5) -/

/-- The pool's checks and the new entry (R83, R84, R85): PORT-WAITS, POOL-FULL and NO-EVENT-SLOT in this order; then the
lowest free number, the first ticket from the counter on that the port does not hold, a deadline unless the timeout is
65535, and one more live wait and reservation. The field fresh, set to the entry, is the model's own (log entry 4). -/
def Obligations.WaitEntryIsCreated : Prop :=
  ∀ (s : State) (p : Port) (wait : Wait) (timeout : Word),
    let x := s.session p
    let t := issuedTicket s p
    (8 ≤ x.liveWaits → createEntry p wait timeout s = .error .portWaits) ∧
    (x.liveWaits < 8 → (∀ n, ∃ w ∈ s.pool, w.number = n) → createEntry p wait timeout s = .error .poolFull) ∧
    (∀ n, (∀ w ∈ s.pool, w.number ≠ n) → x.liveWaits < 8 →
      (16 ≤ x.queue.length + x.reserved → createEntry p wait timeout s = .error .noEventSlot) ∧
      (x.queue.length + x.reserved < 16 → (∀ m, m < n → ∃ w ∈ s.pool, w.number = m) →
        createEntry p wait timeout s =
          .ok (t,
            { s.modSession p fun y =>
                { y with
                  nextTicket := if t = 255 then 1 else t + 1, liveWaits := y.liveWaits + 1,
                  reserved := y.reserved + 1 } with
              pool := s.pool ++
                [⟨n, p, x.epoch, t, wait, if timeout = 65535 then none else some timeout.toNat⟩]
              fresh := { s.fresh with entry := some n } }))) ∧
    (s.pool.length ≤ 24 → x.nextTicket ≠ 0 →
      t ≠ 0 ∧ (∀ w ∈ s.pool, w.port = p → w.ticket ≠ t) ∧
      ∃ k, t = Nat.repeat ticketAfter k x.nextTicket ∧
        ∀ j, j < k → ∃ w ∈ s.pool, w.port = p ∧ w.ticket = Nat.repeat ticketAfter j x.nextTicket)

/-- AWAIT (R88, R89, R90): refused RANGE, RANGE or KIND in this order; answered DONE when the condition holds on the cell's
value, refused UNAVAILABLE otherwise without a timeout, and else made to wait. No bank lock stops it. -/
def Obligations.AwaitACondition : Prop :=
  (∀ (s : State) (p : Port) (w : Word) (code : Byte) (cond : Condition) (operand timeout : Word),
    Condition.ofCode code = some cond →
    Admits s p .await (wordBytes w ++ code :: (wordBytes operand ++ wordBytes timeout)) →
    let ofSet := cond = .contains ∨ cond = .lacks
    (512 ≤ w.toNat → exec (.await p) s = answeredRefused p .await .range 0 s) ∧
    ∀ c : Fin 512, w.toNat = c.val →
      let v := (s.cell c).reported
      (ofSet → 16 ≤ operand.toNat → exec (.await p) s = answeredRefused p .await .range 0 s) ∧
      (ofSet → operand.toNat < 16 → v.kind ≠ .members →
        exec (.await p) s = answeredRefused p .await .kind 0 s) ∧
      (¬ofSet → v.kind = .members → exec (.await p) s = answeredRefused p .await .kind 0 s) ∧
      (ofSet ∧ operand.toNat < 16 ∧ v.kind = .members ∨ ¬ofSet ∧ v.kind ≠ .members →
        (cond.holds operand v = true → exec (.await p) s = answeredDone p .await (.await c v 0) s) ∧
        (cond.holds operand v = false → timeout = 0 →
          exec (.await p) s = answeredRefused p .await .unavailable 0 s) ∧
        (cond.holds operand v = false → timeout ≠ 0 →
          (∀ r, createEntry p (.await c cond operand) timeout s = .error r →
            exec (.await p) s = answeredRefused p .await r 0 s) ∧
          ∀ t u, createEntry p (.await c cond operand) timeout s = .ok (t, u) →
            exec (.await p) s = answeredPending p .await (.await c v t) u))) ∧
  [1, 2, 3, 4, 5, 6].map Condition.ofCode =
    [some .equal, some .differ, some .atLeast, some .atMost, some .contains, some .lacks] ∧
  ∀ (operand : Word) (v : Reported),
    (Condition.equal.holds operand v = true ↔ v.value = operand) ∧
    (Condition.differ.holds operand v = true ↔ v.value ≠ operand) ∧
    (Condition.atLeast.holds operand v = true ↔ operand.toNat ≤ v.value.toNat) ∧
    (Condition.atMost.holds operand v = true ↔ v.value.toNat ≤ operand.toNat) ∧
    (Condition.contains.holds operand v = true ↔ v.value.getLsbD operand.toNat = true) ∧
    (Condition.lacks.holds operand v = true ↔ v.value.getLsbD operand.toNat = false)

/-- CANCEL (R92): refused NO-TICKET where no live entry of the port holds the ticket; otherwise the entry is freed, its
reservation returned and its marker cleared. EXPIRY_ITEM (R87): a stale item does nothing; otherwise the entry is freed,
its TIMED-OUT record takes its reserved place, and its marker is cleared. The grant walk follows either where the entry was
its cell's head TAKE waiter, with origin none (R73, R74). -/
def Obligations.CancelAndExpiry : Prop :=
  (∀ (s : State) (p : Port) (t : Byte), Admits s p .cancel [t] →
    ((∀ w ∈ s.pool, w.port = p → w.ticket ≠ t) →
      exec (.cancel p) s = answeredRefused p .cancel .noTicket 0 s) ∧
    ∀ w, s.pool.find? (fun v => v.port == p && v.ticket == t) = some w →
      let u := { s.modSession p fun x =>
          { x with
            liveWaits := x.liveWaits - 1, reserved := x.reserved - 1,
            pendingAcquire := if w.wait.purpose = .lockWait then none else x.pendingAcquire } with
        pool := s.pool.filter fun v => v.number ≠ w.number }
      exec (.cancel p) s =
        answeredDone p .cancel (.cancel t w.wait.purpose w.wait.target)
          (match headOf w s with
            | none => u
            | some c => handOn none s.cells [c] (grantWalk c u).1)) ∧
  (∀ (s : State) (w : WaitEntry) (c : Fin 512),
    headOf w s = some c ↔
      (∃ n, w.wait = .take c n) ∧ ∃ h hs, takeWaiters s c = h :: hs ∧ h.number = w.number) ∧
  ∀ (s : State) (n : Fin 24) (p : Port) (t : Byte), s.service = .serving (.item (.expiry n p t)) →
    ((∀ w ∈ s.pool, w.number ≠ n) → exec (.expiryItem n) s = .next (conclude s)) ∧
    ∀ w ∈ s.pool, NumbersDistinct s → w.number = n → w.port = p → w.ticket = t →
      let u := { s.modSession p fun x =>
          { x with
            liveWaits := x.liveWaits - 1, reserved := x.reserved - 1,
            queue := x.queue ++ [⟨x.sequence, .timedOut t w.wait.purpose w.wait.target⟩],
            sequence := x.sequence + 1,
            pendingAcquire := if w.wait.purpose = .lockWait then none else x.pendingAcquire } with
        pool := s.pool.filter fun v => v.number ≠ n }
      exec (.expiryItem n) s =
        .next (conclude (match headOf w s with
          | none => u
          | some c => handOn none s.cells [c] (grantWalk c u).1))

/-- The AWAIT entries of a changed cell whose condition holds on its value are freed, and each port gets their MET records
in the order of creation, with the next sequence numbers of that port and in the places reserved for them (R106, R109);
the others stay (R91). -/
def Obligations.AwaitsAreMet : Prop :=
  ∀ (s : State) (c : Fin 512), NumbersDistinct s →
    let v := (s.cell c).reported
    let met := s.pool.filter fun w => w.awaits c && w.metBy v
    let t := meetAwaits s c
    t.pool = s.pool.filter (fun w => !(w.awaits c && w.metBy v)) ∧
    (∀ p,
      let x := s.session p
      let events := (met.filter fun w => w.port == p).map fun w => Event.met w.ticket c v
      t.session p =
        { x with
          liveWaits := x.liveWaits - events.length, reserved := x.reserved - events.length,
          queue := x.queue ++ numbered x.sequence events,
          sequence := x.sequence + BitVec.ofNat 8 events.length }) ∧
    t.cells = s.cells ∧ t.locks = s.locks ∧ t.suspect = s.suspect ∧ SameOutside s t

/-! ### Watches and event queues (chapter 6) -/

/-- WATCH (R101): refused RANGE, WATCH-FULL or DUPLICATE in this order; otherwise the cell joins the list with its marker
clear, and the answer carries its kind, its value and the number of watches. -/
def Obligations.WatchACell : Prop :=
  ∀ (s : State) (p : Port) (w : Word), Admits s p .watch (wordBytes w) →
    (512 ≤ w.toNat → exec (.watch p) s = answeredRefused p .watch .range 0 s) ∧
    ∀ c : Fin 512, w.toNat = c.val →
      let ws := (s.session p).watches
      (8 ≤ ws.length → exec (.watch p) s = answeredRefused p .watch .watchFull 0 s) ∧
      (ws.length < 8 → (∃ v ∈ ws, v.cell = c) →
        exec (.watch p) s = answeredRefused p .watch .duplicate 0 s) ∧
      (ws.length < 8 → (∀ v ∈ ws, v.cell ≠ c) →
        exec (.watch p) s =
          answeredDone p .watch (.watch c (s.cell c).reported (ws.length + 1))
            (s.modSession p fun x => { x with watches := x.watches ++ [⟨c, false⟩] }))

/-- UNWATCH (R102): refused RANGE and then NOT-WATCHED; otherwise the watch goes, and with it the queued CHANGED record of
the cell, wherever it stands; the records around it keep their order and their numbers. -/
def Obligations.UnwatchACell : Prop :=
  ∀ (s : State) (p : Port) (w : Word), Admits s p .unwatch (wordBytes w) →
    (512 ≤ w.toNat → exec (.unwatch p) s = answeredRefused p .unwatch .range 0 s) ∧
    ∀ c : Fin 512, w.toNat = c.val →
      let x := s.session p
      ((∀ v ∈ x.watches, v.cell ≠ c) → exec (.unwatch p) s = answeredRefused p .unwatch .notWatched 0 s) ∧
      ((∃ v ∈ x.watches, v.cell = c) →
        let left := x.watches.filter fun v => v.cell ≠ c
        exec (.unwatch p) s =
          answeredDone p .unwatch (.unwatch c (x.queue.any fun r => r.reports c) left.length)
            (s.modSession p fun y =>
              { y with watches := left, queue := y.queue.filter fun r => !r.reports c }))

/-- FETCH (R111), in any session state: refused RANGE for a count outside 1 to 4; otherwise the oldest records leave the
queue and are returned with the lost count and the length left, the lost count becomes 0, and the markers of the CHANGED
records that left are cleared. -/
def Obligations.FetchTheOldestRecords : Prop :=
  ∀ (s : State) (p : Port) (n : Byte), Admits s p .fetch [n] →
    (n = 0 ∨ 4 < n.toNat → exec (.fetch p) s = answeredRefused p .fetch .range 0 s) ∧
    (n ≠ 0 → n.toNat ≤ 4 →
      let x := s.session p
      let taken := x.queue.take n.toNat
      exec (.fetch p) s =
        answeredDone p .fetch (.fetch x.lost (x.queue.length - n.toNat) taken)
          (s.modSession p fun y =>
            { y with
              queue := y.queue.drop n.toNat, lost := 0,
              watches := y.watches.map fun v =>
                if taken.any (fun r => r.reports v.cell) then { v with pending := false } else v }))

/-- An unreserved record is appended while the queue has room and is dropped and counted otherwise (R107, R109). A net
change of another port updates the CHANGED record that is queued, or offers a new one; the origin gets none (R103,
R104). -/
def Obligations.NoticesAreOfferedAndMerged : Prop :=
  (∀ (s : State) (p : Port) (e : Event),
    let x := s.session p
    (x.queue.length + x.reserved < 16 →
      offerRecord p e s =
        s.modSession p fun y => { y with queue := y.queue ++ [⟨y.sequence, e⟩], sequence := y.sequence + 1 }) ∧
    (16 ≤ x.queue.length + x.reserved →
      offerRecord p e s = s.modSession p fun y => { y with lost := if y.lost < 255 then y.lost + 1 else 255 })) ∧
  ∀ (s : State) (c : Fin 512) (v : Reported) (origin p : Port),
    let x := s.session p
    let t := notifyPort c v origin s p
    (p = origin → t = s) ∧ ((∀ w ∈ x.watches, w.cell ≠ c) → t = s) ∧
    (∀ w, p ≠ origin → x.watches.find? (fun u => u.cell == c) = some w →
      (w.pending = true →
        t = s.modSession p fun y =>
          { y with
            queue := y.queue.map fun r =>
              match r.event with
              | .changed d _ _ n =>
                if d = c then ⟨r.sequence, .changed c v origin (if n < 255 then n + 1 else 255)⟩ else r
              | .granted .. | .taken .. | .met .. | .timedOut .. | .leaseLow .. | .sessionEnded .. => r }) ∧
      (w.pending = false → x.queue.length + x.reserved < 16 →
        t = s.modSession p fun y =>
          { y with
            queue := y.queue ++ [⟨y.sequence, .changed c v origin 1⟩], sequence := y.sequence + 1,
            watches := y.watches.map fun u => if u.cell = c then ⟨c, true⟩ else u }) ∧
      (w.pending = false → 16 ≤ x.queue.length + x.reserved →
        t = s.modSession p fun y => { y with lost := if y.lost < 255 then y.lost + 1 else 255 })) ∧
    (notifyWatchers origin s c).session p = (notifyPort c (s.cell c).reported origin s p).session p

/-! ### The timebase (R86, R124, R126, R127, R139) -/

/-- What a tick does in every state, also at the end of a piece of work with items waiting (R86, R124, R126, R127, R139):
every deadline above 0 and the lease of every OPEN session fall by 1, but for the lease and the deadline that the piece
just ended has set (log entry 4). After every item already on the list, an expiry item is appended for every deadline that
reaches 0, in ascending order of entry number, and after them a teardown item for every session that lapses, in port order.
A lease at its quarter is warned of once, by a record that is queued or counted as lost; a lapsed session is ENDING with
cause LAPSED. TIMEBASE_TICK is such a tick: with the engine at rest it acts at once, and then the arbiter chooses; while a
piece of work is in service it waits for its end (log entry 3). -/
def Obligations.TickActs : Prop :=
  (∀ s : State,
    let t := tickActs s
    t.pool = s.pool.map (fun w =>
      if s.fresh.entry = some w.number then w else { w with deadline := w.deadline.map (· - 1) }) ∧
    t.workList = s.workList ++
      ((List.ofFn id).filterMap fun n : Fin 24 =>
        (s.pool.find? fun w => w.number == n).bind fun w =>
          if w.deadline = some 1 ∧ s.fresh.entry ≠ some n then some (.expiry n w.port w.ticket) else none) ++
      (([.a, .b, .c, .d].filter fun p =>
        (s.session p).state == .opened && (s.session p).leaseRemaining == 1 && s.fresh.lease != some p).map
          Item.teardown) ∧
    (∀ p,
      let x := s.session p
      (x.state ≠ .opened ∨ x.leaseRemaining = 0 ∨ s.fresh.lease = some p → t.session p = x) ∧
      ∀ n, x.state = .opened → x.leaseRemaining = n + 1 → s.fresh.lease ≠ some p →
        let warned := n = x.leasePeriod.getD 0 / 4 ∧ x.lowReported = false
        (n = 0 → t.session p = { x with leaseRemaining := 0, state := .ending, endCause := .lapsed }) ∧
        (n ≠ 0 → ¬warned → t.session p = { x with leaseRemaining := n }) ∧
        (n ≠ 0 → warned → x.queue.length + x.reserved < 16 →
          t.session p =
            { x with
              leaseRemaining := n, lowReported := true, queue := x.queue ++ [⟨x.sequence, .leaseLow n⟩],
              sequence := x.sequence + 1 }) ∧
        (n ≠ 0 → warned → 16 ≤ x.queue.length + x.reserved →
          t.session p =
            { x with
              leaseRemaining := n, lowReported := true, lost := if x.lost < 255 then x.lost + 1 else 255 })) ∧
    t.cells = s.cells ∧ t.locks = s.locks ∧ t.suspect = s.suspect ∧ t.ports = s.ports ∧ t.rotation = s.rotation ∧
    t.service = s.service ∧ t.deferred = s.deferred ∧ t.fresh = s.fresh ∧ t.initialised = s.initialised ∧
    t.resetLow = s.resetLow ∧ t.pending = s.pending) ∧
  (∀ s : State, AtRest s → exec .timebaseTick s = .next (arbitrate (tickActs s))) ∧
  ∀ (s : State) (w : Work), s.service = .serving w →
    exec .timebaseTick s = .next { s with deferred := s.deferred ++ [.tick] }

/-- DEADLINE_ZERO, LEASE_LOW and LAPSE, each the tick that brings its event about (R86, R126, R127, log entry 5). With
the engine at rest it acts at once. What it brings about holds of a tick in every state, also at the end of a piece,
unless the piece set that deadline or lease (log entry 4). The quarter's LEASE-LOW record is queued, or counted as lost
where the queue has no room, and the warning is marked as made. The lapse makes the session ENDING with cause LAPSED and
appends its teardown item. While a piece of work is in service the tick waits for its end (R139, log entry 3), where it
would bring the event about after the ticks that wait already (log entry 5). Where the next tick would not bring the
event about, the state stays as it is (log entry 2, DESIGN CHOICE). -/
def Obligations.TicksNamedByTheirEffect : Prop :=
  (∀ s : State,
    let t := tickActs s
    (∀ n w, s.pool.find? (fun v => v.number == n) = some w → w.deadline = some 1 → s.fresh.entry ≠ some n →
      (AtRest s → exec (.deadlineZero n) s = .next (arbitrate t)) ∧ .expiry n w.port w.ticket ∈ t.workList ∧
        { w with deadline := some 0 } ∈ t.pool) ∧
    (∀ p period,
      let x := s.session p
      x.state = .opened → x.leasePeriod = some period → 20 ≤ period → x.leaseRemaining = period / 4 + 1 →
      x.lowReported = false → s.fresh.lease ≠ some p →
        (AtRest s → exec (.leaseLow p) s = .next (arbitrate t)) ∧
        (x.queue.length + x.reserved < 16 →
          t.session p =
            { x with
              leaseRemaining := period / 4, lowReported := true,
              queue := x.queue ++ [⟨x.sequence, .leaseLow (period / 4)⟩], sequence := x.sequence + 1 }) ∧
        (16 ≤ x.queue.length + x.reserved →
          t.session p =
            { x with
              leaseRemaining := period / 4, lowReported := true,
              lost := if x.lost < 255 then x.lost + 1 else 255 })) ∧
    ∀ p,
      let x := s.session p
      x.state = .opened → x.leaseRemaining = 1 → s.fresh.lease ≠ some p →
        (AtRest s → exec (.lapse p) s = .next (arbitrate t)) ∧ .teardown p ∈ t.workList ∧
        t.session p = { x with leaseRemaining := 0, state := .ending, endCause := .lapsed }) ∧
  (∀ (s : State) (w : Work), s.service = .serving w →
    let ticks := s.deferred.count .tick
    let later : State := { s with deferred := s.deferred ++ [.tick] }
    (∀ n v, s.pool.find? (fun v => v.number == n) = some v → v.deadline = some (ticks + 1) →
      exec (.deadlineZero n) s = .next later) ∧
    ∀ p,
      let x := s.session p
      (∀ period, x.state = .opened → x.leasePeriod = some period → x.leaseRemaining = period / 4 + ticks + 1 →
        x.lowReported = false → exec (.leaseLow p) s = .next later) ∧
      (x.state = .opened → x.leaseRemaining = ticks + 1 → exec (.lapse p) s = .next later)) ∧
  ∀ s : State, Ready s →
    let ticks := s.deferred.count .tick
    (∀ n, (∀ v, s.pool.find? (fun v => v.number == n) = some v → v.deadline ≠ some (ticks + 1)) →
      exec (.deadlineZero n) s = .next s) ∧
    ∀ p,
      let x := s.session p
      (∀ period, x.leasePeriod = some period →
        x.state ≠ .opened ∨ x.leaseRemaining ≠ period / 4 + ticks + 1 ∨ x.lowReported = true →
          exec (.leaseLow p) s = .next s) ∧
      (x.state ≠ .opened ∨ x.leaseRemaining ≠ ticks + 1 → exec (.lapse p) s = .next s)

/-! ### Port links (chapters 9 and 10) -/

/-- REQUEST_FRAME (R151, R153, R154): a whole frame with its right CRC is placed in an IDLE slot and waits for the arbiter,
which an engine at rest lets take it at once (R141); in any other slot state it is discarded and OVERRUN is set. Whatever
follows the frame is ignored. The part returns the status byte of the select and then zeros. Where the transaction is cut,
so that other events fall inside it, the receiver keeps the bytes of the frame, and the slot state at the frame's last byte
decides, not that of the select. That the request is decided at its last byte and taken at once is log entry 21, the cut is
log entry 6, and the record of what SDO drove is log entry 7. -/
def Obligations.RequestFrameIsAccepted : Prop :=
  ∀ (s : State) (p : Port) (m : ClockMode) (e k : Byte) (payload extra : List Byte) (bits : List Bool),
    Ready s → payload.length ≤ 57 → bits.length < 8 →
    let body : List Byte := BitVec.ofNat 8 (payload.length + 3) :: e :: k :: payload
    let frame := body ++ [crc (0xC1 :: body)]
    let decided (ended : PortLink → PortLink) (seg : Segment) : Prop :=
      ((s.port p).slot = .idle →
        (∀ w, s.service = .serving w →
          exec (.requestFrame p seg) s =
            .next (s.modPort p fun x => { ended x with slot := .held ⟨e, k, payload⟩ })) ∧
        (s.service = .idle →
          exec (.requestFrame p seg) s =
            .next { s.modPort p fun x => { ended x with slot := .serving ⟨e, k, payload⟩ } with
              rotation := p, service := .serving (.request p (s.port p).linkErrors) })) ∧
      ((s.port p).slot ≠ .idle →
        exec (.requestFrame p seg) s = .next (s.modPort p fun x => { ended x with overrun := true }))
    (answers s = true → (s.port p).selected = false →
      decided
        (fun x =>
          { x with
            receiver := .idle,
            out := firstBits [statusByte s p] (8 * (frame.length + extra.length + 1) + bits.length) })
        (.whole m (frame ++ extra) bits)) ∧
    ∀ got rest, frame = got ++ rest → rest ≠ [] →
      (answers s = true → (s.port p).selected = false →
        exec (.requestFrame p (.start m got bits)) s =
          .next (s.modPort p fun x =>
            { x with
              selected := true,
              receiver := .active ⟨m, statusByte s p, readyBytes x.slot, 0xC1 :: got, bits, .request⟩,
              out := firstBits [statusByte s p] (8 * (got.length + 1) + bits.length) })) ∧
      ∀ status record, (s.port p).receiver = .active ⟨m, status, record, 0xC1 :: got, [], .request⟩ →
        decided
          (fun x =>
            { x with
              selected := false, receiver := .idle,
              out := x.out ++ List.replicate (8 * (rest.length + extra.length) + bits.length) false })
          (.finish (rest ++ extra) bits)

/-- Link errors (R155): an unknown frame type, a REQUEST with a length outside 3 to 60 or cut short, a REQUEST with a wrong
CRC, and a PORT-RESET without its confirm byte. Each sets LINK-ERROR and raises the count, which stays at 255, once for
the transaction, and changes nothing else of the part, whatever the slot state; an unknown type does so at the end of the
first byte, on the flags as events since the select left them. A transaction that ends inside its first byte is no link
error and changes nothing (R151). The record of what SDO drove, the bits of the status byte and then zeros, is the
model's, log entry 7, and the cut of a transaction is log entry 6. -/
def Obligations.LinkErrors : Prop :=
  (∀ (s : State) (p : Port) (m : ClockMode) (bytes : List Byte) (bits : List Bool),
    Ready s → answers s = true → (s.port p).selected = false → bits.length < 8 →
    let hit := s.modPort p fun x =>
      { x with
        linkError := true, linkErrors := if x.linkErrors < 255 then x.linkErrors + 1 else 255,
        receiver := .idle, out := firstBits [statusByte s p] (8 * (bytes.length + 1) + bits.length) }
    (∀ type, type ≠ 0xC1 → type ≠ 0xC2 → type ≠ 0xC3 →
      exec (.unknownFrameType p type (.whole m bytes bits)) s = .next hit) ∧
    (requestCompletes bytes = false → exec (.damagedRequestFrame p (.whole m bytes bits)) s = .next hit) ∧
    (bytes.head? ≠ some 0x3C → exec (.damagedPortReset p (.whole m bytes bits)) s = .next hit) ∧
    (∀ (len : Byte) (rest : List Byte) (check : Byte), bytes = len :: (rest ++ [check]) →
      3 ≤ len.toNat → len.toNat ≤ 60 → rest.length + 1 = len.toNat → check ≠ crc (0xC1 :: len :: rest) →
      exec (.requestFrame p (.whole m bytes bits)) s = .next hit) ∧
    ∀ type, ∀ f ∈ frameCommands p type,
      exec (f (.aborted m bits)) s =
        .next (s.modPort p fun x => { x with receiver := .idle, out := firstBits [statusByte s p] bits.length })) ∧
  ∀ (s : State) (p : Port) (m : ClockMode) (status type : Byte) (record : Option (List Byte)) (bytes : List Byte)
    (bits : List Bool),
    Ready s → (s.port p).receiver = .active ⟨m, status, record, [], [], .frameType⟩ → bits.length < 8 →
    type ≠ 0xC1 → type ≠ 0xC2 → type ≠ 0xC3 →
      exec (.unknownFrameType p type (.first bytes bits)) s =
        .next (s.modPort p fun x =>
          { x with
            linkError := true, linkErrors := if x.linkErrors < 255 then x.linkErrors + 1 else 255,
            receiver := .active ⟨m, status, record, type :: bytes, bits, .ended⟩,
            out := x.out ++ firstBits [status] (8 * (bytes.length + 1) + bits.length) })

/-- POLL_FRAME (R152, R156): the status byte of the select, then the response record of a READY slot or a length of 0, then
zeros. At the deselect a slot whose record was clocked out with every bit is emptied, and OVERRUN and LINK-ERROR, which the
status byte showed as they stood, are clear. In a transaction that is cut, the snapshot of the select goes on being sent,
whatever other events did since: a response placed after the select is neither sent nor emptied, and a flag that the status
byte showed clear stays as it is. The record of what SDO drove is the model's, log entry 7; what counts as read out is log
entry 22, and the cut is log entry 6. -/
def Obligations.PollReturnsTheResponse : Prop :=
  (∀ (s : State) (p : Port) (m : ClockMode) (bytes : List Byte) (bits : List Bool),
    Ready s → answers s = true → (s.port p).selected = false → bits.length < 8 →
    let sent (answer : List Byte) : List Bool :=
      firstBits (statusByte s p :: answer) (8 * (bytes.length + 1) + bits.length)
    let ended (answer : List Byte) (x : PortLink) : PortLink :=
      { x with receiver := .idle, overrun := false, linkError := false, out := sent answer }
    let begun (answer : List Byte) (record : Option (List Byte)) (x : PortLink) : PortLink :=
      { x with
        selected := true, receiver := .active ⟨m, statusByte s p, record, 0xC2 :: bytes, bits, .poll⟩,
        out := sent answer }
    (∀ r, (s.port p).slot = .ready r →
      exec (.pollFrame p (.whole m bytes bits)) s =
        .next (s.modPort p fun x =>
          { ended r.bytes x with slot := if r.bytes.length ≤ bytes.length then .idle else .ready r }) ∧
      exec (.pollFrame p (.start m bytes bits)) s = .next (s.modPort p (begun r.bytes (some r.bytes)))) ∧
    ((∀ r, (s.port p).slot ≠ .ready r) →
      exec (.pollFrame p (.whole m bytes bits)) s = .next (s.modPort p (ended [0])) ∧
      exec (.pollFrame p (.start m bytes bits)) s = .next (s.modPort p (begun [0] none)))) ∧
  ∀ (s : State) (p : Port) (m : ClockMode) (status : Byte) (record : Option (List Byte)) (got bytes : List Byte)
    (bits : List Bool),
    Ready s → (s.port p).receiver = .active ⟨m, status, record, 0xC2 :: got, [], .poll⟩ → bits.length < 8 →
    let ended (x : PortLink) : PortLink :=
      { x with
        selected := false, receiver := .idle,
        overrun := x.overrun && !status.getLsbD 2, linkError := x.linkError && !status.getLsbD 1,
        out := x.out ++ firstBits ((record.getD [0]).drop got.length) (8 * bytes.length + bits.length) }
    (∀ r, record = some r → r.length ≤ got.length + bytes.length → (∃ resp, (s.port p).slot = .ready resp) →
      exec (.pollFrame p (.finish bytes bits)) s = .next (s.modPort p fun x => { ended x with slot := .idle })) ∧
    ((∀ r, record = some r → got.length + bytes.length < r.length) ∨ (∀ resp, (s.port p).slot ≠ .ready resp) →
      exec (.pollFrame p (.finish bytes bits)) s = .next (s.modPort p ended))

/-- PORT_RESET_FRAME and PORT_RESET_ACTS (R128, R140, R159). A port reset empties the slots, clears the flags, the count and
the marker, and claims an OPEN session: ENDING with cause PORT-RESET, the lease at 0, and a teardown item. With the engine
at rest it acts at once; while a piece of work is in service the marker is set and it waits, once; and it acts when that
piece has ended, with the claims that came ahead of it and the ticks behind it, up to another port's reset (the model's
reading, log entry 3; the bits kept of SDO are the model's record, log entry 7). -/
def Obligations.PortReset : Prop :=
  (∀ (s : State) (p : Port),
    let t := resetPort p s
    t.port p =
      { s.port p with
        slot := .idle, overrun := false, linkError := false, linkErrors := 0, resetPending := false } ∧
    (∀ q, q ≠ p → t.port q = s.port q ∧ t.session q = s.session q) ∧
    ((s.session p).state = .opened →
      t.session p = { s.session p with state := .ending, endCause := .portReset, leaseRemaining := 0 } ∧
        t.workList = s.workList ++ [.teardown p]) ∧
    ((s.session p).state ≠ .opened → t.session p = s.session p ∧ t.workList = s.workList) ∧
    t.cells = s.cells ∧ t.suspect = s.suspect ∧ t.locks = s.locks ∧ t.pool = s.pool ∧ t.rotation = s.rotation ∧
    t.service = s.service ∧ t.deferred = s.deferred) ∧
  (∀ (s : State) (p : Port) (m : ClockMode) (bits : List Bool) (rest : List Byte),
    answers s = true → (s.port p).selected = false → bits.length < 8 →
    let ended (x : PortLink) : PortLink :=
      { x with receiver := .idle, out := firstBits [statusByte s p] (8 * (rest.length + 2) + bits.length) }
    (AtRest s →
      exec (.portResetFrame p (.whole m (0x3C :: rest) bits)) s =
        .next (arbitrate ((resetPort p s).modPort p ended))) ∧
    ∀ w, s.service = .serving w →
      ((s.port p).resetPending = true →
        exec (.portResetFrame p (.whole m (0x3C :: rest) bits)) s = .next (s.modPort p ended)) ∧
      ((s.port p).resetPending = false →
        exec (.portResetFrame p (.whole m (0x3C :: rest) bits)) s =
          .next { s.modPort p fun x => { ended x with resetPending := true } with
            deferred := s.deferred ++ [.portReset p] })) ∧
  ∀ (s : State) (p : Port) (ahead rest : List Claim) (n : Nat), s.service = .idle → .portReset p ∉ ahead →
    s.deferred = ahead ++ .portReset p :: (List.replicate n .tick ++ rest) →
    let t := Nat.repeat tickActs n (resetPort p (ahead.foldl actClaim s))
    (rest = [] →
      exec (.portResetActs p) s = .next (arbitrate { t with deferred := [], fresh := ⟨none, none⟩ })) ∧
    (∀ q later, rest = .portReset q :: later → exec (.portResetActs p) s = .next { t with deferred := rest }) ∧
    actClaim s .tick = tickActs s ∧ ∀ q, actClaim s (.portReset q) = resetPort q s

/-- The fields of the status byte (R152, R171), and the attention state and the line that follow the queue (R113, R161). The
select takes its snapshot: the status byte, the record of a READY slot and the clock mode (R151). Each clocked bit finds
one bit on SDO, which in mode 0 is driven from the select or the falling edge before, and in mode 3 stays driven after; in
mode 3 the select alone drives no bit (log entry 7, which keeps those bits). -/
def Obligations.StatusByteAndAttention : Prop :=
  (∀ (s : State) (p : Port),
    let b := statusByte s p
    (b.getLsbD 7 = true ↔ ∃ r, (s.port p).slot = .held r ∨ (s.port p).slot = .serving r) ∧
    (b.getLsbD 6 = true ↔ ∃ r, (s.port p).slot = .ready r) ∧
    (b.getLsbD 5 = true ↔ (s.session p).queue ≠ []) ∧
    (b.getLsbD 4 = true ↔ (s.session p).state = .opened) ∧
    (b.getLsbD 3 = true ↔ (s.session p).state = .ending) ∧
    b.getLsbD 2 = (s.port p).overrun ∧ b.getLsbD 1 = (s.port p).linkError ∧ b.getLsbD 0 = false ∧
    (attention s p = true ↔ (s.session p).queue ≠ []) ∧
    (attnLow s p = true ↔ (s.session p).queue ≠ [] ∧ s.resetLow = false)) ∧
  (∀ (s : State) (p : Port) (m : ClockMode) (type : Byte),
    Ready s → answers s = true → (s.port p).selected = false →
    let record : Option (List Byte) :=
      match (s.port p).slot with
      | .ready r => some r.bytes
      | .idle | .held _ | .serving _ => none
    let t := s.modPort p fun x =>
      { x with
        selected := true, receiver := .active ⟨m, statusByte s p, record, [], [], .frameType⟩, out := [] }
    (∀ f ∈ frameCommands p type, exec (f (.select m)) s = .next t) ∧
    sdo t p = if m = .mode0 then some ((statusByte s p).getLsbD 7) else none) ∧
  ∀ (s t : State) (p : Port) (rx : Rx) (type : Byte) (bit : Bool), Ready s → (s.port p).receiver = .active rx →
    ∀ f ∈ frameCommands p type, exec (f (.more [] [bit])) s = .next t →
      ∃ found, (t.port p).out = (s.port p).out ++ [found] ∧
        (rx.mode = .mode0 → sdo s p = some found) ∧ (rx.mode = .mode3 → sdo t p = some found)

/-- The CRC (R158): a register that starts at 0 takes every byte most significant bit first; a list with its CRC at its end
has CRC 0. A response record opens with the count of the bytes after it, its outcome, kind, reason and step index, and
closes with the CRC of those before (R165, R169). The field groups of the responses (R169) with their STATUS table, cell
descriptors, chain flags and absent fields; the nine bytes of each kind of event record (R170); two-byte fields most
significant byte first (R164); and the codes of outcomes, reasons, cell kinds, purposes, ports, session states, end causes
and expected renewals (R169, R171). Counts are taken modulo the width of their field: log entry 20. -/
def Obligations.ChecksumAndRecords : Prop :=
  (crc [] = 0 ∧ (∀ (bytes : List Byte) (b : Byte), crc (bytes ++ [b]) = crcByte (crc bytes) b) ∧
    (∀ reg b : Byte,
      crcByte reg b =
        crcBit (crcBit (crcBit (crcBit (crcBit (crcBit (crcBit (crcBit reg (b.getLsbD 7)) (b.getLsbD 6))
          (b.getLsbD 5)) (b.getLsbD 4)) (b.getLsbD 3)) (b.getLsbD 2)) (b.getLsbD 1)) (b.getLsbD 0)) ∧
    (∀ (reg : Byte) (bit : Bool),
      crcBit reg bit = if reg.getLsbD 7 = bit then reg <<< 1 else (reg <<< 1) ^^^ 0x07) ∧
    ∀ bytes : List Byte, crc (bytes ++ [crc bytes]) = 0) ∧
  ((∀ r : Response,
      r.bytes.take 5 =
          [BitVec.ofNat 8 (r.bytes.length - 1), r.outcome.code, r.kind, (r.reason.map Reason.code).getD 0,
            BitVec.ofNat 8 r.stepIndex] ∧
        (r.bytes.drop 5).dropLast = r.fields.bytes ∧
        r.bytes.length = 6 + r.fields.bytes.length ∧ crc r.bytes = 0) ∧
    (Response.bytes ⟨.pending, 0x20, none, 0, .acquire 40 0 none 0 1⟩).take 11 =
      [0x0B, 0x02, 0x20, 0x00, 0x00, 0x28, 0x00, 0x00, 0xFF, 0x00, 0x01]) ∧
  (let one (n : Nat) : Byte := BitVec.ofNat 8 n
   let two (n : Nat) : List Byte := [BitVec.ofNat 8 (n / 256), BitVec.ofNat 8 n]
   let field (w : Word) : List Byte := two w.toNat
   let flag (b : Bool) : Byte := if b then 0x01 else 0x00
   let suspect (x : Option Bool) : Byte := (x.map flag).getD 0xFF
   let valued (r : Reported) : List Byte := r.kind.code :: field r.value
   (∀ v n : Word,
      (Cell.plain v).descriptor = 0x01 :: (field v ++ [0, 0]) ∧
      (Cell.counter n v).descriptor = 0x02 :: (field v ++ field n) ∧
      (Cell.members v).descriptor = 0x03 :: (field v ++ [0, 0])) ∧
    (∀ (n a b : Nat) (e u t m : Byte) (restarted z c v suspectFlag : Bool) (x : Renewal),
      (Fields.zeros n).bytes = List.replicate n 0x00 ∧
      (Fields.opened e u).bytes = [e, u, 0x45, 0x12, 4, 0x02, 0x00, 48, 24, 16, 8, 6] ∧
      (Fields.closed a b).bytes = [one a, one b] ∧
      (Fields.renewed restarted x n).bytes = flag restarted :: x.code :: two n ∧
      (∀ w, (Fields.chain w z c v a b).bytes =
        field w ++ [(if z then 0x04 else 0) + (if c then 0x02 else 0) + (if v then 0x01 else 0), one a, one b]) ∧
      (∀ (first : Fin 512) (k : Fin 32) (cells : List Cell),
        (Fields.gather first k suspectFlag none cells).bytes =
          two first.val ++ [one cells.length, one k.val, flag suspectFlag, 0xFF, 0xFF, 0x00]
            ++ cells.flatMap Cell.descriptor ∧
        ∀ (d : Fin 32) (last : Bool),
          (Fields.gather first k suspectFlag (some (d, last)) cells).bytes =
            two first.val ++ [one cells.length, one k.val, flag suspectFlag, one d.val, flag last, 0x00]
              ++ cells.flatMap Cell.descriptor) ∧
      (∀ (d : Fin 512) (before after : Cell) (r : Reported) (w : Word) (q : Purpose) (rs : List Record),
        (Fields.formatted d before after).bytes = two d.val ++ before.descriptor ++ after.descriptor ∧
        (Fields.take d m w t n).bytes = two d.val ++ [m] ++ field w ++ [t, one n] ∧
        (Fields.give d m w n).bytes = two d.val ++ [m] ++ field w ++ [one n] ∧
        (Fields.await d r t).bytes = two d.val ++ valued r ++ [t] ∧
        (Fields.cancel t q w).bytes = [t, q.code] ++ field w ∧
        (Fields.watch d r n).bytes = two d.val ++ valued r ++ [one n] ∧
        (Fields.unwatch d restarted n).bytes = two d.val ++ [flag restarted, one n] ∧
        (Fields.fetch a b rs).bytes = [one a, one b, one rs.length] ++ rs.flatMap Record.bytes) ∧
      ∀ (l : Fin 48) (g : Word) (s : Option Bool),
        (Fields.acquire l g s n t).bytes = [one l.val] ++ field g ++ [suspect s, one n, t] ∧
        (Fields.release l n restarted).bytes = [one l.val, one n, flag restarted]) ∧
    (∀ r : StatusReport, r.stack.length ≤ 6 →
      (Fields.status r).bytes =
        [r.state.code, r.epoch, r.endCause.code, one (r.leasePeriod.getD 0 / 20)] ++ two r.leaseRemaining
          ++ [r.expected.code, one r.stack.length]
          ++ (r.stack.map fun l => one l.val) ++ List.replicate (6 - r.stack.length) 0xFF
          ++ (match r.pendingAcquire with
              | none => [0xFF, 0x00]
              | some (l, t) => [one l.val, t])
          ++ [one r.liveWaits, one r.queueLength, one r.reserved, one r.lost, one r.watchCount, one r.linkErrors]) ∧
    (∀ (q t : Byte) (l : Fin 48) (c : Fin 512) (g : Word) (s : Option Bool) (r : Reported) (u : Purpose) (o : Port)
        (n : Nat) (e : EndCause),
      Record.bytes ⟨q, .granted t l g s⟩ = [0x01, q, t, one l.val] ++ field g ++ [suspect s, 0, 0] ∧
      Record.bytes ⟨q, .taken t c g⟩ = [0x02, q, t] ++ two c.val ++ field g ++ [0, 0] ∧
      Record.bytes ⟨q, .met t c r⟩ = [0x03, q, t] ++ two c.val ++ valued r ++ [0] ∧
      Record.bytes ⟨q, .timedOut t u g⟩ = [0x04, q, t, u.code] ++ field g ++ [0, 0, 0] ∧
      Record.bytes ⟨q, .changed c r o n⟩ = [0x05, q] ++ two c.val ++ valued r ++ [portCode o, one n] ∧
      Record.bytes ⟨q, .leaseLow n⟩ = [0x06, q] ++ two n ++ [0, 0, 0, 0, 0] ∧
      Record.bytes ⟨q, .sessionEnded e⟩ = [0x07, q, e.code, 0, 0, 0, 0, 0, 0]) ∧
    ∀ r : Record, r.bytes.length = 9) ∧
  [ReplyKind.done, .pending, .refused].map ReplyKind.code = [1, 2, 3] ∧
  [Reason.malformed, .noSession, .sessionEnding, .stale, .alreadyOpen, .range, .kind, .guarded, .ceiling, .unavailable,
    .self, .depth, .order, .lockPending, .cycle, .poolFull, .portWaits, .noEventSlot, .noTicket, .watchFull, .duplicate,
    .notWatched, .cellBusy].map Reason.code =
      [1, 2, 3, 4, 5, 6, 7, 8, 9, 10, 11, 12, 13, 14, 15, 16, 17, 18, 19, 20, 21, 22, 23] ∧
  [CellKind.plain, .counter, .members].map CellKind.code = [1, 2, 3] ∧
  [Purpose.lockWait, .takeWait, .awaitCell].map Purpose.code = [1, 2, 3] ∧
  [Port.a, .b, .c, .d].map portCode = [1, 2, 3, 4] ∧
  [SessionState.closed, .opened, .ending].map SessionState.code = [0, 1, 2] ∧
  [EndCause.none, .closed, .lapsed, .portReset, .deviceReset].map EndCause.code = [0, 1, 2, 3, 4] ∧
  [Renewal.even, .odd].map Renewal.code = [0, 1] ∧
  (∀ l : Fin 48, (Wait.lock l).target = BitVec.ofNat 16 l.val ∧ (Wait.lock l).purpose = .lockWait) ∧
  (∀ (c : Fin 512) (n : Byte), (Wait.take c n).target = BitVec.ofNat 16 c.val ∧ (Wait.take c n).purpose = .takeWait) ∧
  ∀ (c : Fin 512) (cond : Condition) (operand : Word),
    (Wait.await c cond operand).target = BitVec.ofNat 16 c.val ∧ (Wait.await c cond operand).purpose = .awaitCell

/-! ### What commands leave unchanged -/

/-- The frame of the request commands. Only CHAIN, FORMAT, TAKE, GIVE, CANCEL and CLOSE change cells; only ACQUIRE, RELEASE
and CLOSE change locks; only RELEASE and CLOSE change suspect flags (R6); only ACQUIRE, TAKE and AWAIT add entries. With no
claim waiting, OPEN, the renewals, STATUS, GATHER, ACQUIRE, AWAIT, WATCH, UNWATCH and FETCH change no other port's
session, and those but ACQUIRE and AWAIT change no wait entry. -/
def Obligations.FramesOfRequests : Prop :=
  ∀ (k : Kind) (p : Port) (s t : State), exec (commandOf k p) s = .next t →
    (k ∉ [.chain, .formatCell, .take, .give, .cancel, .closeSession] → t.cells = s.cells) ∧
    (k ∉ [.acquire, .release, .closeSession] → t.locks = s.locks) ∧
    (k ∉ [.release, .closeSession] → t.suspect = s.suspect) ∧
    (k ∉ [.acquire, .take, .await] → ∀ w ∈ t.pool, ∃ v ∈ s.pool, v.number = w.number ∧ v.ticket = w.ticket) ∧
    (s.deferred = [] →
      (k ∈ [.openSession, .renewEven, .renewOdd, .status, .gather, .acquire, .await, .watch, .unwatch, .fetch] →
        ∀ q, q ≠ p → t.session q = s.session q) ∧
      (k ∈ [.openSession, .renewEven, .renewOdd, .status, .gather, .watch, .unwatch, .fetch] → t.pool = s.pool)) ∧
    t.initialised = s.initialised ∧ t.resetLow = s.resetLow

/-- A transaction on a port, whole or in segments, acts on that port's interface, its session and the engine alone: cells,
locks, suspect flags, wait entries, and the sessions and interfaces of the other ports stay as they were (R64, R118,
R151). Where a transaction is cut, be it inside a byte, makes no difference when nothing comes between its parts (log
entry 6). -/
def Obligations.LinksActOnTheirOwnPort : Prop :=
  (∀ (s t : State) (p : Port) (type : Byte) (seg : Segment), Ready s → ∀ f ∈ frameCommands p type,
    exec (f seg) s = .next t →
      t.cells = s.cells ∧ t.suspect = s.suspect ∧ t.locks = s.locks ∧ t.pool = s.pool ∧
      (∀ q, q ≠ p → t.session q = s.session q ∧ t.port q = s.port q) ∧
      (t.session p).queue = (s.session p).queue ∧ (t.session p).watches = (s.session p).watches ∧
      (t.session p).stack = (s.session p).stack ∧ (t.session p).epoch = (s.session p).epoch ∧
      t.initialised = s.initialised ∧ t.resetLow = s.resetLow) ∧
  ∀ (s : State) (p : Port) (type : Byte) (m : ClockMode) (bytes bytes1 bytes2 : List Byte) (bits bits1 bits2 : List Bool),
    Ready s → wire bytes ++ bits = wire bytes1 ++ bits1 ++ (wire bytes2 ++ bits2) → ∀ f ∈ frameCommands p type,
    (∀ t, exec (f (.select m)) s = .next t → exec (f (.first bytes bits)) t = exec (f (.start m bytes bits)) s) ∧
    (∀ t, exec (f (.start m bytes1 bits1)) s = .next t →
      exec (f (.more bytes2 bits2)) t = exec (f (.start m bytes bits)) s ∧
      exec (f (.finish bytes2 bits2)) t = exec (f (.whole m bytes bits)) s) ∧
    ∀ t, exec (f (.more bytes1 bits1)) s = .next t →
      exec (f (.more bytes2 bits2)) t = exec (f (.more bytes bits)) s ∧
      exec (f (.finish bytes2 bits2)) t = exec (f (.finish bytes bits)) s

/-! ### Laws that every step keeps -/

/-- No COUNTER ever exceeds its ceiling, and no ceiling is 0 (R1, R3). -/
def Obligations.CellLawIsKept : Prop := ∀ s t : State, CellLaw s → step s = .next t → CellLaw t

/-- For every port, the records of its queue and its reserved count together never exceed 16, the reserved count and the
live wait count are the number of its live entries, and these are at most 8; no entry number is live twice (R82, R105). -/
def Obligations.PoolLawIsKept : Prop := ∀ s t : State, PoolLaw s → step s = .next t → PoolLaw t

/-- The tickets of a port's live entries are pairwise different and never 0 (R84). -/
def Obligations.TicketLawIsKept : Prop := ∀ s t : State, TicketLaw s → step s = .next t → TicketLaw t

/-- A port watches at most 8 cells, none twice; its queue holds one CHANGED record for each watched cell whose marker is
set, and none for any other cell; a CLOSED session watches nothing (R100). -/
def Obligations.WatchLawIsKept : Prop := ∀ s t : State, WatchLaw s → step s = .next t → WatchLaw t

/-- Locks, stacks and pending ACQUIREs agree: a HELD lock stands once, in its holder's stack, under the holder's current
epoch; a stack holds at most 6 locks, and at most 5 beside a pending ACQUIRE; a pending-acquire marker names the port's
one LOCK-WAIT entry, on a lock that another port holds; a live entry belongs to a session that is not CLOSED and carries
its epoch (R46, R49, R53, R82). -/
def Obligations.LockLawIsKept : Prop :=
  ∀ s t : State,
    NumbersDistinct s ∧ EntryLaw s ∧ StackLaw s ∧ MarkerLaw s ∧ HolderLaw s → step s = .next t →
      NumbersDistinct t ∧ EntryLaw t ∧ StackLaw t ∧ MarkerLaw t ∧ HolderLaw t

/-- A cell with TAKE waiters is a COUNTER whose value is less than its head waiter's amount (R65), and the condition of a
live AWAIT entry does not hold on its cell's value (R91). -/
def Obligations.WaiterLawIsKept : Prop :=
  ∀ s t : State, NumbersDistinct s ∧ TakeLaw s ∧ AwaitLaw s → step s = .next t →
    NumbersDistinct t ∧ TakeLaw t ∧ AwaitLaw t

/-- A port has one teardown item, on the list or in service, while its session is ENDING and none otherwise; the lease of
an OPEN session stands above 0 and at most at its period, and any other lease is 0 (R119, R132, R138). -/
def Obligations.SessionLawIsKept : Prop :=
  ∀ s t : State, TeardownLaw s ∧ LeaseLaw s → step s = .next t → TeardownLaw t ∧ LeaseLaw t

/-- A slot is SERVING exactly while the engine serves that port's request (R157); the reset-pending marker is set exactly
while a port reset of the port waits (R159); an engine that is idle with no claim waiting has no work waiting
(R137; log entries 1 and 3). -/
def Obligations.EngineLawIsKept : Prop :=
  ∀ s t : State, SlotLaw s ∧ ResetMarkerLaw s ∧ IdleLaw s → step s = .next t →
    SlotLaw t ∧ ResetMarkerLaw t ∧ IdleLaw t
end

