-- ==== Sys2Proof/Laws/Bytes.lean ====
section
/-!
SUPPORT. Bytes, words and the CRC: reading back what was written, the lengths of records, and the arithmetic of chain
steps in the words of the spec.
-/

namespace Sys2Proof.Machine

open Sys2Proof.Safety

/-! ### Two-byte fields -/

@[simp] theorem word_of_halves (w : Word) : word (w.extractLsb' 8 8) (w.extractLsb' 0 8) = w := by
  unfold word
  apply BitVec.eq_of_getLsbD_eq
  intro i hi
  rw [BitVec.getLsbD_append, BitVec.getLsbD_extractLsb', BitVec.getLsbD_extractLsb']
  split
  · rename_i h
    simp [h]
  · rename_i h
    have h1 : 8 + (i - 8) = i := by omega
    have h2 : i - 8 < 8 := by omega
    simp [h1, h2]

theorem wordBytes_eq (w : Word) : wordBytes w = [w.extractLsb' 8 8, w.extractLsb' 0 8] := rfl

@[simp] theorem wordBytes_length (w : Word) : (wordBytes w).length = 2 := rfl

theorem cellOf_of_lt {w : Word} {c : Fin 512} (h : w.toNat = c.val) : cellOf w = some c := by
  have : w.toNat < 512 := h ▸ c.isLt
  simp [cellOf, h]

theorem cellOf_of_le {w : Word} (h : 512 ≤ w.toNat) : cellOf w = none := by
  simp [cellOf, Nat.not_lt.mpr h]

theorem lockOf_of_lt {b : Byte} {l : Fin 48} (h : b.toNat = l.val) : lockOf b = some l := by
  simp [lockOf, h]

theorem lockOf_of_le {b : Byte} (h : 48 ≤ b.toNat) : lockOf b = none := by
  simp [lockOf, Nat.not_lt.mpr h]

/-- The steps of a payload that was written from steps. -/
theorem rawSteps_payload (raws : List RawStep) :
    rawSteps (raws.flatMap fun x => x.code :: (wordBytes x.cell ++ wordBytes x.arg)) = raws := by
  induction raws with
  | nil => rfl
  | cons x xs ih =>
    rw [List.flatMap_cons]
    generalize hl : (xs.flatMap fun x => x.code :: (wordBytes x.cell ++ wordBytes x.arg)) = rest at ih ⊢
    simp only [wordBytes_eq, List.cons_append, List.nil_append, rawSteps, word_of_halves, ih]

/-! ### The CRC -/

theorem crc_snoc (bytes : List Byte) (b : Byte) : crc (bytes ++ [b]) = crcByte (crc bytes) b := by
  simp [crc]

theorem crcByte_self_table : ∀ n : Fin 256, crcByte (BitVec.ofNat 8 n.val) (BitVec.ofNat 8 n.val) = 0 := by decide +kernel

/-- A byte list with its CRC at its end has CRC 0. -/
theorem crc_with_check (bytes : List Byte) : crc (bytes ++ [crc bytes]) = 0 := by
  rw [crc_snoc]
  have h := crcByte_self_table ⟨(crc bytes).toNat, (crc bytes).isLt⟩
  simpa using h

/-! ### Lengths of records -/

theorem event_bytes_length (e : Event) : e.bytes.2.length = 7 := by
  cases e <;> simp [Event.bytes, countBytes, Reported.bytes]

theorem record_bytes_length (r : Record) : r.bytes.length = 9 := by
  simp [Record.bytes, event_bytes_length]

theorem response_body_length (r : Response) : r.body.length = 5 + r.fields.bytes.length := by
  simp [Response.body]
  omega

theorem response_bytes_length (r : Response) : r.bytes.length = 6 + r.fields.bytes.length := by
  simp [Response.bytes, response_body_length]
  omega

theorem stackBytes_length (stack : List (Fin 48)) : (stackBytes stack).length = 6 := by
  simp [stackBytes]

theorem statusReport_bytes_length (r : StatusReport) : r.bytes.length = 22 := by
  have : (pendingBytes r.pendingAcquire).length = 2 := by cases r.pendingAcquire <;> rfl
  simp [StatusReport.bytes, countBytes, stackBytes_length, this]

/-! ### The arithmetic of chain steps -/

theorem signed_eq_toInt (x : Word) : signed x = x.toInt := by
  have h := x.isLt
  unfold signed
  rw [BitVec.toInt_eq_toNat_cond]
  split <;> split <;> omega

theorem outside_eq_false (x : Int) : outside x = false ↔ -32768 ≤ x ∧ x ≤ 32767 := by
  unfold outside
  rw [Bool.or_eq_false_iff, decide_eq_false_iff_not, decide_eq_false_iff_not]
  omega

theorem bit_eq (b : Bool) : bit b = if b = true then 1 else 0 := rfl

theorem addResult_toNat (x y : Word) (carry : Bool) :
    (addResult x y carry).toNat = (x.toNat + y.toNat + bit carry) % 65536 := by
  simp [addResult]

theorem subResult_toNat (x y : Word) (borrow : Bool) :
    ((subResult x y borrow).toNat : Int) = ((x.toNat : Int) - y.toNat - bit borrow) % 65536 := by
  unfold subResult
  rw [BitVec.toNat_ofInt]
  omega

/-- The number of members of a set is at most 16. -/
theorem memberCount_le (m : Word) : memberCount m ≤ 16 := by
  have := List.countP_le_length (p := fun i => m.getLsbD i) (l := List.range 16)
  simpa [memberCount] using this

/-- A set with one bit written: the other bits are as they were. -/
theorem getLsbD_insert (x : Word) (m i : Fin 16) :
    (x ||| (1#16 <<< m.val)).getLsbD i.val = if i = m then true else x.getLsbD i.val := by
  have h : ∀ m i : Fin 16, (1#16 <<< m.val).getLsbD i.val = decide (i = m) := by decide
  rw [BitVec.getLsbD_or, h m i]
  by_cases e : i = m <;> simp [e]

theorem getLsbD_remove (x : Word) (m i : Fin 16) :
    (x &&& ~~~(1#16 <<< m.val)).getLsbD i.val = if i = m then false else x.getLsbD i.val := by
  have h : ∀ m i : Fin 16, (~~~(1#16 <<< m.val)).getLsbD i.val = !decide (i = m) := by decide
  rw [BitVec.getLsbD_and, h m i]
  by_cases e : i = m <;> simp [e]

end Sys2Proof.Machine
end

