-- ==== Sys2Proof/Laws/State.lean ====
section
/-!
SUPPORT. Reading a part of the state after an update of a part: one lemma for each update and each part, so that no
proof unfolds a record update.
-/

namespace Sys2Proof.Machine

/-! ### One value for each port -/

@[simp] theorem PerPort.get_set_same {α : Type} (t : PerPort α) (p : Port) (v : α) : (t.set p v).get p = v := by
  cases p <;> rfl

theorem PerPort.get_set_other {α : Type} (t : PerPort α) (p q : Port) (v : α) (h : q ≠ p) :
    (t.set p v).get q = t.get q := by
  cases p <;> cases q <;> first | rfl | exact absurd rfl h

theorem PerPort.get_set {α : Type} (t : PerPort α) (p q : Port) (v : α) :
    (t.set p v).get q = if q = p then v else t.get q := by
  cases p <;> cases q <;> rfl

@[simp] theorem PerPort.set_get {α : Type} (t : PerPort α) (p : Port) : t.set p (t.get p) = t := by
  cases p <;> rfl

@[simp] theorem PerPort.set_set {α : Type} (t : PerPort α) (p : Port) (v w : α) :
    (t.set p v).set p w = t.set p w := by
  cases p <;> rfl

theorem PerPort.set_comm {α : Type} (t : PerPort α) (p q : Port) (v w : α) (h : p ≠ q) :
    (t.set p v).set q w = (t.set q w).set p v := by
  cases p <;> cases q <;> first | rfl | exact absurd rfl h

/-- Two tables that agree at every port are equal. -/
theorem PerPort.eq_of_get {α : Type} {t u : PerPort α} (h : ∀ p, t.get p = u.get p) : t = u := by
  have ha := h .a
  have hb := h .b
  have hc := h .c
  have hd := h .d
  cases t
  cases u
  simp only [PerPort.get] at ha hb hc hd
  subst ha hb hc hd
  rfl

namespace State

variable (s : State) (p q : Port)

/-! ### The accessors on an explicit state -/

section
variable (cells : Vector Cell 512) (suspect : Vector Bool 32) (locks : Vector Lock 48) (pool : List WaitEntry)
  (sessions : PerPort Session) (ports : PerPort PortLink) (rotation : Port) (workList : List Item)
  (service : Service) (deferred : List Claim) (fresh : Fresh) (initialised resetLow : Bool) (pending : List Instr)

@[simp] theorem session_mk :
    session ⟨cells, suspect, locks, pool, sessions, ports, rotation, workList, service, deferred, fresh, initialised,
      resetLow, pending⟩ p = sessions.get p := rfl

@[simp] theorem port_mk :
    port ⟨cells, suspect, locks, pool, sessions, ports, rotation, workList, service, deferred, fresh, initialised,
      resetLow, pending⟩ p = ports.get p := rfl

@[simp] theorem cell_mk (c : Fin 512) :
    cell ⟨cells, suspect, locks, pool, sessions, ports, rotation, workList, service, deferred, fresh, initialised,
      resetLow, pending⟩ c = cells[c.val] := rfl

@[simp] theorem lock_mk (l : Fin 48) :
    lock ⟨cells, suspect, locks, pool, sessions, ports, rotation, workList, service, deferred, fresh, initialised,
      resetLow, pending⟩ l = locks[l.val] := rfl

@[simp] theorem bankSuspect_mk (b : Fin 32) :
    bankSuspect ⟨cells, suspect, locks, pool, sessions, ports, rotation, workList, service, deferred, fresh,
      initialised, resetLow, pending⟩ b = suspect[b.val] := rfl
end

@[simp] theorem sessions_get : s.sessions.get p = s.session p := rfl
@[simp] theorem ports_get : s.ports.get p = s.port p := rfl
@[simp] theorem cells_at (c : Fin 512) : s.cells[c.val] = s.cell c := rfl
@[simp] theorem locks_at (l : Fin 48) : s.locks[l.val] = s.lock l := rfl
@[simp] theorem suspect_at (b : Fin 32) : s.suspect[b.val] = s.bankSuspect b := rfl

/-! ### A session changes -/

section
variable (f g : Session → Session)

@[simp] theorem modSession_cells : (s.modSession p f).cells = s.cells := rfl
@[simp] theorem modSession_suspect : (s.modSession p f).suspect = s.suspect := rfl
@[simp] theorem modSession_locks : (s.modSession p f).locks = s.locks := rfl
@[simp] theorem modSession_pool : (s.modSession p f).pool = s.pool := rfl
@[simp] theorem modSession_ports : (s.modSession p f).ports = s.ports := rfl
@[simp] theorem modSession_rotation : (s.modSession p f).rotation = s.rotation := rfl
@[simp] theorem modSession_workList : (s.modSession p f).workList = s.workList := rfl
@[simp] theorem modSession_service : (s.modSession p f).service = s.service := rfl
@[simp] theorem modSession_deferred : (s.modSession p f).deferred = s.deferred := rfl
@[simp] theorem modSession_fresh : (s.modSession p f).fresh = s.fresh := rfl
@[simp] theorem modSession_initialised : (s.modSession p f).initialised = s.initialised := rfl
@[simp] theorem modSession_resetLow : (s.modSession p f).resetLow = s.resetLow := rfl
@[simp] theorem modSession_pending : (s.modSession p f).pending = s.pending := rfl
@[simp] theorem modSession_port : (s.modSession p f).port q = s.port q := rfl
@[simp] theorem modSession_cell (c : Fin 512) : (s.modSession p f).cell c = s.cell c := rfl
@[simp] theorem modSession_lock (l : Fin 48) : (s.modSession p f).lock l = s.lock l := rfl
@[simp] theorem modSession_bankSuspect (b : Fin 32) : (s.modSession p f).bankSuspect b = s.bankSuspect b := rfl

@[simp] theorem modSession_session_same : (s.modSession p f).session p = f (s.session p) :=
  PerPort.get_set_same _ _ _

theorem modSession_session_other (h : q ≠ p) : (s.modSession p f).session q = s.session q :=
  PerPort.get_set_other _ _ _ _ h

theorem modSession_session : (s.modSession p f).session q = if q = p then f (s.session q) else s.session q := by
  by_cases h : q = p
  · subst h
    simp
  · simp [h, modSession_session_other]

@[simp] theorem modSession_modSession :
    (s.modSession p f).modSession p g = s.modSession p fun x => g (f x) := by
  simp [modSession]

/-- Two updates that agree on the session lead to the same state. -/
theorem modSession_congr (h : f (s.session p) = g (s.session p)) : s.modSession p f = s.modSession p g := by
  simp only [modSession, sessions_get, h]

/-- An update that leaves a session as it is leaves the state as it is. -/
theorem modSession_same (h : f (s.session p) = s.session p) : s.modSession p f = s := by
  simp only [modSession, sessions_get, h]
  simp only [← sessions_get, PerPort.set_get]
end

/-! ### A port interface changes -/

section
variable (f g : PortLink → PortLink)

@[simp] theorem modPort_cells : (s.modPort p f).cells = s.cells := rfl
@[simp] theorem modPort_suspect : (s.modPort p f).suspect = s.suspect := rfl
@[simp] theorem modPort_locks : (s.modPort p f).locks = s.locks := rfl
@[simp] theorem modPort_pool : (s.modPort p f).pool = s.pool := rfl
@[simp] theorem modPort_sessions : (s.modPort p f).sessions = s.sessions := rfl
@[simp] theorem modPort_rotation : (s.modPort p f).rotation = s.rotation := rfl
@[simp] theorem modPort_workList : (s.modPort p f).workList = s.workList := rfl
@[simp] theorem modPort_service : (s.modPort p f).service = s.service := rfl
@[simp] theorem modPort_deferred : (s.modPort p f).deferred = s.deferred := rfl
@[simp] theorem modPort_fresh : (s.modPort p f).fresh = s.fresh := rfl
@[simp] theorem modPort_initialised : (s.modPort p f).initialised = s.initialised := rfl
@[simp] theorem modPort_resetLow : (s.modPort p f).resetLow = s.resetLow := rfl
@[simp] theorem modPort_pending : (s.modPort p f).pending = s.pending := rfl
@[simp] theorem modPort_session : (s.modPort p f).session q = s.session q := rfl
@[simp] theorem modPort_cell (c : Fin 512) : (s.modPort p f).cell c = s.cell c := rfl
@[simp] theorem modPort_lock (l : Fin 48) : (s.modPort p f).lock l = s.lock l := rfl
@[simp] theorem modPort_bankSuspect (b : Fin 32) : (s.modPort p f).bankSuspect b = s.bankSuspect b := rfl

@[simp] theorem modPort_port_same : (s.modPort p f).port p = f (s.port p) := PerPort.get_set_same _ _ _

theorem modPort_port_other (h : q ≠ p) : (s.modPort p f).port q = s.port q := PerPort.get_set_other _ _ _ _ h

theorem modPort_port : (s.modPort p f).port q = if q = p then f (s.port q) else s.port q := by
  by_cases h : q = p
  · subst h
    simp
  · simp [h, modPort_port_other]

@[simp] theorem modPort_modPort : (s.modPort p f).modPort p g = s.modPort p fun x => g (f x) := by
  simp [modPort]

/-- Two updates that agree on the port interface lead to the same state. -/
theorem modPort_congr (h : f (s.port p) = g (s.port p)) : s.modPort p f = s.modPort p g := by
  simp only [modPort, ports_get, h]

/-- An update that leaves a port interface as it is leaves the state as it is. -/
theorem modPort_same (h : f (s.port p) = s.port p) : s.modPort p f = s := by
  simp only [modPort, ports_get, h]
  simp only [← ports_get, PerPort.set_get]
end

/-! ### A cell, a lock or a suspect flag changes -/

section
variable (c d : Fin 512) (x : Cell)

@[simp] theorem setCell_suspect : (s.setCell c x).suspect = s.suspect := rfl
@[simp] theorem setCell_locks : (s.setCell c x).locks = s.locks := rfl
@[simp] theorem setCell_pool : (s.setCell c x).pool = s.pool := rfl
@[simp] theorem setCell_sessions : (s.setCell c x).sessions = s.sessions := rfl
@[simp] theorem setCell_ports : (s.setCell c x).ports = s.ports := rfl
@[simp] theorem setCell_rotation : (s.setCell c x).rotation = s.rotation := rfl
@[simp] theorem setCell_workList : (s.setCell c x).workList = s.workList := rfl
@[simp] theorem setCell_service : (s.setCell c x).service = s.service := rfl
@[simp] theorem setCell_deferred : (s.setCell c x).deferred = s.deferred := rfl
@[simp] theorem setCell_fresh : (s.setCell c x).fresh = s.fresh := rfl
@[simp] theorem setCell_initialised : (s.setCell c x).initialised = s.initialised := rfl
@[simp] theorem setCell_resetLow : (s.setCell c x).resetLow = s.resetLow := rfl
@[simp] theorem setCell_pending : (s.setCell c x).pending = s.pending := rfl
@[simp] theorem setCell_session : (s.setCell c x).session p = s.session p := rfl
@[simp] theorem setCell_port : (s.setCell c x).port p = s.port p := rfl
@[simp] theorem setCell_lock (l : Fin 48) : (s.setCell c x).lock l = s.lock l := rfl
@[simp] theorem setCell_bankSuspect (b : Fin 32) : (s.setCell c x).bankSuspect b = s.bankSuspect b := rfl

theorem setCell_cell : (s.setCell c x).cell d = if d = c then x else s.cell d := by
  change (s.cells.set c x)[d.val] = _
  rw [Vector.getElem_set]
  by_cases h : d = c
  · subst h
    simp
  · have h' : c.val ≠ d.val := fun e => h (Fin.ext e.symm)
    simp [h, h']

@[simp] theorem setCell_cell_same : (s.setCell c x).cell c = x := by simp [setCell_cell]

theorem setCell_cell_other (h : d ≠ c) : (s.setCell c x).cell d = s.cell d := by simp [setCell_cell, h]
end

section
variable (l k : Fin 48) (x : Lock)

@[simp] theorem setLock_cells : (s.setLock l x).cells = s.cells := rfl
@[simp] theorem setLock_suspect : (s.setLock l x).suspect = s.suspect := rfl
@[simp] theorem setLock_pool : (s.setLock l x).pool = s.pool := rfl
@[simp] theorem setLock_sessions : (s.setLock l x).sessions = s.sessions := rfl
@[simp] theorem setLock_ports : (s.setLock l x).ports = s.ports := rfl
@[simp] theorem setLock_rotation : (s.setLock l x).rotation = s.rotation := rfl
@[simp] theorem setLock_workList : (s.setLock l x).workList = s.workList := rfl
@[simp] theorem setLock_service : (s.setLock l x).service = s.service := rfl
@[simp] theorem setLock_deferred : (s.setLock l x).deferred = s.deferred := rfl
@[simp] theorem setLock_fresh : (s.setLock l x).fresh = s.fresh := rfl
@[simp] theorem setLock_initialised : (s.setLock l x).initialised = s.initialised := rfl
@[simp] theorem setLock_resetLow : (s.setLock l x).resetLow = s.resetLow := rfl
@[simp] theorem setLock_pending : (s.setLock l x).pending = s.pending := rfl
@[simp] theorem setLock_session : (s.setLock l x).session p = s.session p := rfl
@[simp] theorem setLock_port : (s.setLock l x).port p = s.port p := rfl
@[simp] theorem setLock_cell (c : Fin 512) : (s.setLock l x).cell c = s.cell c := rfl
@[simp] theorem setLock_bankSuspect (b : Fin 32) : (s.setLock l x).bankSuspect b = s.bankSuspect b := rfl

theorem setLock_lock : (s.setLock l x).lock k = if k = l then x else s.lock k := by
  change (s.locks.set l x)[k.val] = _
  rw [Vector.getElem_set]
  by_cases h : k = l
  · subst h
    simp
  · have h' : l.val ≠ k.val := fun e => h (Fin.ext e.symm)
    simp [h, h']

@[simp] theorem setLock_lock_same : (s.setLock l x).lock l = x := by simp [setLock_lock]

theorem setLock_lock_other (h : k ≠ l) : (s.setLock l x).lock k = s.lock k := by simp [setLock_lock, h]
end

section
variable (b d : Fin 32) (x : Bool)

@[simp] theorem setSuspect_cells : (s.setSuspect b x).cells = s.cells := rfl
@[simp] theorem setSuspect_locks : (s.setSuspect b x).locks = s.locks := rfl
@[simp] theorem setSuspect_pool : (s.setSuspect b x).pool = s.pool := rfl
@[simp] theorem setSuspect_sessions : (s.setSuspect b x).sessions = s.sessions := rfl
@[simp] theorem setSuspect_ports : (s.setSuspect b x).ports = s.ports := rfl
@[simp] theorem setSuspect_rotation : (s.setSuspect b x).rotation = s.rotation := rfl
@[simp] theorem setSuspect_workList : (s.setSuspect b x).workList = s.workList := rfl
@[simp] theorem setSuspect_service : (s.setSuspect b x).service = s.service := rfl
@[simp] theorem setSuspect_deferred : (s.setSuspect b x).deferred = s.deferred := rfl
@[simp] theorem setSuspect_fresh : (s.setSuspect b x).fresh = s.fresh := rfl
@[simp] theorem setSuspect_initialised : (s.setSuspect b x).initialised = s.initialised := rfl
@[simp] theorem setSuspect_resetLow : (s.setSuspect b x).resetLow = s.resetLow := rfl
@[simp] theorem setSuspect_pending : (s.setSuspect b x).pending = s.pending := rfl
@[simp] theorem setSuspect_session : (s.setSuspect b x).session p = s.session p := rfl
@[simp] theorem setSuspect_port : (s.setSuspect b x).port p = s.port p := rfl
@[simp] theorem setSuspect_cell (c : Fin 512) : (s.setSuspect b x).cell c = s.cell c := rfl
@[simp] theorem setSuspect_lock (l : Fin 48) : (s.setSuspect b x).lock l = s.lock l := rfl

theorem setSuspect_bankSuspect : (s.setSuspect b x).bankSuspect d = if d = b then x else s.bankSuspect d := by
  change (s.suspect.set b x)[d.val] = _
  rw [Vector.getElem_set]
  by_cases h : d = b
  · subst h
    simp
  · have h' : b.val ≠ d.val := fun e => h (Fin.ext e.symm)
    simp [h, h']

@[simp] theorem setSuspect_bankSuspect_same : (s.setSuspect b x).bankSuspect b = x := by
  simp [setSuspect_bankSuspect]
end

end State

end Sys2Proof.Machine
end

