-- ==== Sys2Proof/Laws/Ops.lean ====
section
/-!
SUPPORT. What each shared operation can do, said once: its effect on the parts it changes, and the parts it leaves as
they were.
-/

namespace Sys2Proof.Machine

open Sys2Proof.Safety

/-! ### What no piece of work changes -/

theorem sameOutside_refl (s : State) : SameOutside s s := ⟨rfl, rfl, rfl, rfl, rfl, rfl, rfl, rfl⟩

theorem sameOutside_trans {s t u : State} (h : SameOutside s t) (k : SameOutside t u) : SameOutside s u :=
  ⟨k.1.trans h.1, k.2.trans h.2, k.3.trans h.3, k.4.trans h.4, k.5.trans h.5, k.6.trans h.6, k.7.trans h.7,
    k.8.trans h.8⟩

theorem sameOutside_modSession (s : State) (p : Port) (f : Session → Session) : SameOutside s (s.modSession p f) :=
  ⟨rfl, rfl, rfl, rfl, rfl, rfl, rfl, rfl⟩

theorem sameOutside_setCell (s : State) (c : Fin 512) (x : Cell) : SameOutside s (s.setCell c x) :=
  ⟨rfl, rfl, rfl, rfl, rfl, rfl, rfl, rfl⟩

theorem sameOutside_setLock (s : State) (l : Fin 48) (x : Lock) : SameOutside s (s.setLock l x) :=
  ⟨rfl, rfl, rfl, rfl, rfl, rfl, rfl, rfl⟩

theorem sameOutside_setSuspect (s : State) (b : Fin 32) (x : Bool) : SameOutside s (s.setSuspect b x) :=
  ⟨rfl, rfl, rfl, rfl, rfl, rfl, rfl, rfl⟩

/-- A fold of steps that each leave the outside as it was does so too. -/
theorem sameOutside_foldl {α : Type} {f : State → α → State} (h : ∀ s a, SameOutside s (f s a)) (l : List α)
    (s : State) : SameOutside s (l.foldl f s) := by
  induction l generalizing s with
  | nil => exact sameOutside_refl s
  | cons a l ih => exact sameOutside_trans (h s a) (ih _)

/-- A part of the state that every step of a fold keeps is kept by the fold. -/
theorem foldl_keeps {α β : Type} {f : State → α → State} (g : State → β) (h : ∀ s a, g (f s a) = g s) (l : List α)
    (s : State) : g (l.foldl f s) = g s := by
  induction l generalizing s with
  | nil => rfl
  | cons a l ih => exact (ih _).trans (h s a)

/-! ### Event queues -/

/-- The record that ends a wait entry: appended, and one reservation less. -/
@[simp] theorem numbered_length (q : Byte) (es : List Event) : (numbered q es).length = es.length := by
  induction es generalizing q with
  | nil => rfl
  | cons e es ih => simp [numbered, ih]

/-- Records of one list of events after another are numbered on. -/
theorem numbered_append (q : Byte) (es fs : List Event) :
    numbered q (es ++ fs) = numbered q es ++ numbered (q + BitVec.ofNat 8 es.length) fs := by
  induction es generalizing q with
  | nil => simp [numbered]
  | cons e es ih =>
    have h : q + 1 + BitVec.ofNat 8 es.length = q + BitVec.ofNat 8 (es.length + 1) := by
      rw [BitVec.ofNat_add, BitVec.add_assoc, BitVec.add_comm 1]
      rfl
    rw [List.cons_append, numbered, ih, h]
    rfl

theorem numbered_events (q : Byte) (es : List Event) : (numbered q es).map Record.event = es := by
  induction es generalizing q with
  | nil => rfl
  | cons e es ih => simp [numbered, ih]

theorem placeReserved_eq (p : Port) (e : Event) (s : State) :
    placeReserved p e s =
      s.modSession p fun x =>
        { x with queue := x.queue ++ [⟨x.sequence, e⟩], sequence := x.sequence + 1, reserved := x.reserved - 1 } := by
  simp [placeReserved, appendRecord]

theorem offerRecord_of_room (p : Port) (e : Event) (s : State) (h : hasRoom (s.session p) = true) :
    offerRecord p e s = appendRecord p e s := by
  simp [offerRecord, h]

theorem offerRecord_of_full (p : Port) (e : Event) (s : State) (h : hasRoom (s.session p) = false) :
    offerRecord p e s = s.modSession p fun x => { x with lost := min 255 (x.lost + 1) } := by
  simp [offerRecord, h]

/-- An offered record changes one session, and of it the queue, the sequence number and the lost count. -/
theorem offerRecord_eq (p : Port) (e : Event) (s : State) :
    ∃ f : Session → Session, offerRecord p e s = s.modSession p f ∧
      ∀ x, { f x with queue := x.queue, sequence := x.sequence, lost := x.lost } = x := by
  cases h : hasRoom (s.session p)
  · exact ⟨_, offerRecord_of_full p e s h, fun _ => rfl⟩
  · exact ⟨_, offerRecord_of_room p e s h, fun _ => rfl⟩

theorem hasRoom_iff (x : Session) : hasRoom x = true ↔ x.queue.length + x.reserved < 16 := by
  exact decide_eq_true_iff

/-! ### The wait pool -/

@[simp] theorem dropEntry_pool (w : WaitEntry) (s : State) :
    (dropEntry w s).pool = s.pool.filter (fun x => x.number != w.number) := rfl

@[simp] theorem dropEntry_cells (w : WaitEntry) (s : State) : (dropEntry w s).cells = s.cells := rfl
@[simp] theorem dropEntry_locks (w : WaitEntry) (s : State) : (dropEntry w s).locks = s.locks := rfl
@[simp] theorem dropEntry_suspect (w : WaitEntry) (s : State) : (dropEntry w s).suspect = s.suspect := rfl

theorem dropEntry_session (w : WaitEntry) (s : State) (q : Port) :
    (dropEntry w s).session q =
      if q = w.port then { s.session q with liveWaits := (s.session q).liveWaits - 1 } else s.session q := by
  simp only [dropEntry, State.modSession_session, State.session_mk, State.sessions_get]

theorem sameOutside_dropEntry (w : WaitEntry) (s : State) : SameOutside s (dropEntry w s) :=
  ⟨rfl, rfl, rfl, rfl, rfl, rfl, rfl, rfl⟩

/-- The marker is cleared for a LOCK-WAIT and kept for any other entry. -/
theorem clearMarker_eq (w : WaitEntry) (s : State) :
    clearMarker w s =
      s.modSession w.port fun x =>
        { x with pendingAcquire := if w.wait.purpose = .lockWait then none else x.pendingAcquire } := by
  cases h : w.wait <;> simp only [clearMarker, h, Wait.purpose, if_true, reduceCtorEq, if_false]
  all_goals exact (State.modSession_same s w.port _ rfl).symm

/-- An entry that is created: what the pool's checks found, and the state it leaves. -/
theorem createEntry_ok {p : Port} {wait : Wait} {timeout : Word} {s u : State} {t : Byte}
    (h : createEntry p wait timeout s = .ok (t, u)) :
    ∃ n, freeEntry s = some n ∧ (s.session p).liveWaits < 8 ∧
      (s.session p).queue.length + (s.session p).reserved < 16 ∧ t = issuedTicket s p ∧
      u = { s with
            pool := s.pool ++ [WaitEntry.mk n p (s.session p).epoch t wait (deadlineOf timeout)]
            fresh := { s.fresh with entry := some n } }.modSession p
          fun y =>
            { y with nextTicket := ticketAfter t, liveWaits := y.liveWaits + 1, reserved := y.reserved + 1 } := by
  unfold createEntry at h
  dsimp only at h
  split at h
  · cases h
  · rename_i h1
    split at h
    · cases h
    · rename_i n hn
      split at h
      · cases h
      · rename_i h2
        simp only [Except.ok.injEq, Prod.mk.injEq] at h
        obtain ⟨rfl, rfl⟩ := h
        exact ⟨n, hn, Nat.lt_of_not_le h1, Nat.lt_of_not_le h2, rfl, rfl⟩

/-- The number of a new entry is free, and every smaller number is taken. -/
theorem freeEntry_some {s : State} {n : Fin 24} (h : freeEntry s = some n) : ∀ w ∈ s.pool, w.number ≠ n := by
  have := List.find?_some h
  simpa [List.all_eq_true] using this

/-- With no free entry every number is live. -/
theorem freeEntry_none {s : State} (h : freeEntry s = none) (n : Fin 24) : ∃ w ∈ s.pool, w.number = n := by
  have := List.find?_eq_none.mp h n (List.mem_ofFn.mpr ⟨n, rfl⟩)
  simpa [List.all_eq_true] using this

/-! ### Locks -/

theorem grantLock_lock (p : Port) (e : Byte) (l k : Fin 48) (s : State) :
    (grantLock p e l s).lock k = if k = l then ⟨.held p e, (s.lock l).generation + 1⟩ else s.lock k := by
  simp [grantLock, State.setLock_lock]

theorem grantLock_session (p : Port) (e : Byte) (l : Fin 48) (s : State) (q : Port) :
    (grantLock p e l s).session q =
      if q = p then { s.session q with stack := (s.session q).stack ++ [l] } else s.session q := by
  simp [grantLock, State.modSession_session]

theorem sameOutside_grantLock (p : Port) (e : Byte) (l : Fin 48) (s : State) : SameOutside s (grantLock p e l s) :=
  ⟨rfl, rfl, rfl, rfl, rfl, rfl, rfl, rfl⟩

theorem sameOutside_clearMarker (w : WaitEntry) (s : State) : SameOutside s (clearMarker w s) := by
  rw [clearMarker_eq]
  exact sameOutside_modSession _ _ _

theorem sameOutside_placeReserved (p : Port) (e : Event) (s : State) : SameOutside s (placeReserved p e s) := by
  rw [placeReserved_eq]
  exact sameOutside_modSession _ _ _

theorem sameOutside_offerRecord (p : Port) (e : Event) (s : State) : SameOutside s (offerRecord p e s) := by
  obtain ⟨f, h, _⟩ := offerRecord_eq p e s
  rw [h]
  exact sameOutside_modSession _ _ _

theorem sameOutside_handoff (l : Fin 48) (w : WaitEntry) (s : State) : SameOutside s (handoff l w s) :=
  sameOutside_trans (sameOutside_grantLock _ _ _ _) <| sameOutside_trans (sameOutside_dropEntry _ _) <|
    sameOutside_trans (sameOutside_clearMarker _ _) (sameOutside_placeReserved _ _ _)

@[simp] theorem handoff_cells (l : Fin 48) (w : WaitEntry) (s : State) : (handoff l w s).cells = s.cells := by
  simp [handoff, placeReserved_eq, clearMarker_eq, grantLock]

@[simp] theorem handoff_suspect (l : Fin 48) (w : WaitEntry) (s : State) : (handoff l w s).suspect = s.suspect := by
  simp [handoff, placeReserved_eq, clearMarker_eq, grantLock]

theorem handoff_pool (l : Fin 48) (w : WaitEntry) (s : State) :
    (handoff l w s).pool = s.pool.filter (fun x => x.number != w.number) := by
  simp [handoff, placeReserved_eq, clearMarker_eq, grantLock]

theorem handoff_lock (l k : Fin 48) (w : WaitEntry) (s : State) :
    (handoff l w s).lock k =
      if k = l then ⟨.held w.port w.epoch, (s.lock l).generation + 1⟩ else s.lock k := by
  have h := grantLock_lock w.port w.epoch l k s
  simpa [handoff, placeReserved_eq, clearMarker_eq, dropEntry] using h

theorem sameOutside_passOn (l : Fin 48) (s : State) : SameOutside s (passOn l s).1 := by
  unfold passOn
  split
  · exact sameOutside_handoff _ _ _
  · exact sameOutside_setLock _ _ _

@[simp] theorem passOn_cells (l : Fin 48) (s : State) : (passOn l s).1.cells = s.cells := by
  unfold passOn
  split <;> simp

@[simp] theorem passOn_suspect (l : Fin 48) (s : State) : (passOn l s).1.suspect = s.suspect := by
  unfold passOn
  split <;> simp

theorem passOn_lock_other (l k : Fin 48) (s : State) (h : k ≠ l) : (passOn l s).1.lock k = s.lock k := by
  unfold passOn
  split
  · simp [handoff_lock, h]
  · simp [State.setLock_lock, h]

theorem sameOutside_markBank (l : Fin 48) (flag : Bool) (s : State) : SameOutside s (markBank l flag s) := by
  unfold markBank
  split
  · exact sameOutside_setSuspect _ _ _
  · exact sameOutside_refl _

@[simp] theorem markBank_cells (l : Fin 48) (flag : Bool) (s : State) : (markBank l flag s).cells = s.cells := by
  unfold markBank
  split <;> rfl

@[simp] theorem markBank_locks (l : Fin 48) (flag : Bool) (s : State) : (markBank l flag s).locks = s.locks := by
  unfold markBank
  split <;> rfl

@[simp] theorem markBank_pool (l : Fin 48) (flag : Bool) (s : State) : (markBank l flag s).pool = s.pool := by
  unfold markBank
  split <;> rfl

@[simp] theorem markBank_sessions (l : Fin 48) (flag : Bool) (s : State) :
    (markBank l flag s).sessions = s.sessions := by
  unfold markBank
  split <;> rfl

/-- The lock of a bank is that bank's lock and no other bank's. -/
theorem lockBank_eq_some (l : Fin 48) (b : Fin 32) : lockBank l = some b ↔ l = bankLock b := by
  unfold lockBank bankLock
  split
  · rw [Option.some.injEq]
    constructor
    · rintro rfl
      rfl
    · rintro rfl
      rfl
  · constructor
    · intro h
      cases h
    · rintro rfl
      exact absurd b.isLt (by assumption)

theorem markBank_bankSuspect (l : Fin 48) (flag : Bool) (s : State) (b : Fin 32) :
    (markBank l flag s).bankSuspect b = if bankLock b = l then flag else s.bankSuspect b := by
  unfold markBank
  split
  · rename_i d h
    have hl := (lockBank_eq_some l d).mp h
    subst hl
    rw [State.setSuspect_bankSuspect]
    simp [bankLock, Fin.ext_iff]
  · rename_i h
    have : bankLock b ≠ l := fun e => by
      rw [(lockBank_eq_some l b).mpr e.symm] at h
      cases h
    simp [this]

/-! ### Counting cells -/

theorem sameOutside_lowerCounter (c : Fin 512) (n : Nat) (s : State) : SameOutside s (lowerCounter c n s) := by
  unfold lowerCounter
  split
  · exact sameOutside_setCell _ _ _
  · exact sameOutside_refl _
  · exact sameOutside_refl _

@[simp] theorem lowerCounter_locks (c : Fin 512) (n : Nat) (s : State) : (lowerCounter c n s).locks = s.locks := by
  unfold lowerCounter
  split <;> rfl

@[simp] theorem lowerCounter_suspect (c : Fin 512) (n : Nat) (s : State) :
    (lowerCounter c n s).suspect = s.suspect := by
  unfold lowerCounter
  split <;> rfl

@[simp] theorem lowerCounter_pool (c : Fin 512) (n : Nat) (s : State) : (lowerCounter c n s).pool = s.pool := by
  unfold lowerCounter
  split <;> rfl

@[simp] theorem lowerCounter_sessions (c : Fin 512) (n : Nat) (s : State) :
    (lowerCounter c n s).sessions = s.sessions := by
  unfold lowerCounter
  split <;> rfl

theorem lowerCounter_cell_other (c d : Fin 512) (n : Nat) (s : State) (h : d ≠ c) :
    (lowerCounter c n s).cell d = s.cell d := by
  unfold lowerCounter
  split
  · exact State.setCell_cell_other _ _ _ _ h
  · rfl
  · rfl

theorem lowerCounter_cell (c : Fin 512) (n : Nat) (s : State) (ceil v : Word) (h : s.cell c = .counter ceil v) :
    (lowerCounter c n s).cell c = .counter ceil (BitVec.ofNat 16 (v.toNat - n)) := by
  simp [lowerCounter, h]

theorem sameOutside_grantTake (c : Fin 512) (w : WaitEntry) (s : State) : SameOutside s (grantTake c w s) :=
  sameOutside_trans (sameOutside_lowerCounter _ _ _) <| sameOutside_trans (sameOutside_dropEntry _ _)
    (sameOutside_placeReserved _ _ _)

@[simp] theorem grantTake_locks (c : Fin 512) (w : WaitEntry) (s : State) : (grantTake c w s).locks = s.locks := by
  simp [grantTake, placeReserved_eq]

@[simp] theorem grantTake_suspect (c : Fin 512) (w : WaitEntry) (s : State) :
    (grantTake c w s).suspect = s.suspect := by
  simp [grantTake, placeReserved_eq]

@[simp] theorem grantTake_pool (c : Fin 512) (w : WaitEntry) (s : State) :
    (grantTake c w s).pool = s.pool.filter (fun x => x.number != w.number) := by
  simp [grantTake, placeReserved_eq]

@[simp] theorem grantTake_cell (c d : Fin 512) (w : WaitEntry) (s : State) :
    (grantTake c w s).cell d = (lowerCounter c w.amount s).cell d := by
  simp [grantTake, placeReserved_eq, dropEntry]

/-- The walk changes nothing outside the pool, the cell and the sessions. -/
theorem sameOutside_walkOver (c : Fin 512) (ws : List WaitEntry) (s : State) : SameOutside s (walkOver c ws s).1 := by
  induction ws generalizing s with
  | nil => exact sameOutside_refl s
  | cons w ws ih =>
    simp only [walkOver]
    split
    · exact sameOutside_trans (sameOutside_grantTake c w s) (ih _)
    · exact sameOutside_refl s

/-- A part of the state that a grant keeps is kept by the walk. -/
theorem walkOver_keeps {β : Type} (g : State → β) (c : Fin 512) (h : ∀ w s, g (grantTake c w s) = g s)
    (ws : List WaitEntry) (s : State) : g (walkOver c ws s).1 = g s := by
  induction ws generalizing s with
  | nil => rfl
  | cons w ws ih =>
    simp only [walkOver]
    split
    · exact (ih _).trans (h w s)
    · rfl

theorem sameOutside_grantWalk (c : Fin 512) (s : State) : SameOutside s (grantWalk c s).1 :=
  sameOutside_walkOver _ _ _

@[simp] theorem grantWalk_locks (c : Fin 512) (s : State) : (grantWalk c s).1.locks = s.locks :=
  walkOver_keeps State.locks c (grantTake_locks c) _ s

@[simp] theorem grantWalk_suspect (c : Fin 512) (s : State) : (grantWalk c s).1.suspect = s.suspect :=
  walkOver_keeps State.suspect c (grantTake_suspect c) _ s

theorem grantWalk_cell_other (c d : Fin 512) (s : State) (h : d ≠ c) : (grantWalk c s).1.cell d = s.cell d :=
  walkOver_keeps (fun t => t.cell d) c (fun w t => by simp [lowerCounter_cell_other c d w.amount t h]) _ s

/-- The walk adds no entry. -/
theorem grantWalk_pool_subset (c : Fin 512) (s : State) : (grantWalk c s).1.pool ⊆ s.pool := by
  unfold grantWalk
  generalize takeWaiters s c = ws
  induction ws generalizing s with
  | nil => exact fun _ h => h
  | cons w ws ih =>
    simp only [walkOver]
    split
    · intro x hx
      have := ih (grantTake c w s) hx
      simp only [grantTake_pool, List.mem_filter] at this
      exact this.1
    · exact fun _ h => h

/-- A cell without TAKE waiters is left as it is. -/
theorem grantWalk_of_no_waiters (c : Fin 512) (s : State) (h : takeWaiters s c = []) : grantWalk c s = (s, 0) := by
  simp [grantWalk, h, walkOver]

/-! ### Met conditions and change notices -/

theorem sameOutside_meetEntry (c : Fin 512) (r : Reported) (s : State) (w : WaitEntry) :
    SameOutside s (meetEntry c r s w) := by
  unfold meetEntry
  split
  · exact sameOutside_trans (sameOutside_dropEntry _ _) (sameOutside_placeReserved _ _ _)
  · exact sameOutside_refl s

theorem meetEntry_keeps (c : Fin 512) (r : Reported) (s : State) (w : WaitEntry) :
    (meetEntry c r s w).cells = s.cells ∧ (meetEntry c r s w).locks = s.locks ∧
      (meetEntry c r s w).suspect = s.suspect := by
  unfold meetEntry
  split <;> simp [placeReserved_eq]

theorem sameOutside_meetAwaits (s : State) (c : Fin 512) : SameOutside s (meetAwaits s c) :=
  sameOutside_foldl (fun t w => sameOutside_meetEntry c _ t w) _ s

@[simp] theorem meetAwaits_cells (s : State) (c : Fin 512) : (meetAwaits s c).cells = s.cells :=
  foldl_keeps State.cells (fun t w => (meetEntry_keeps c _ t w).1) _ s

@[simp] theorem meetAwaits_locks (s : State) (c : Fin 512) : (meetAwaits s c).locks = s.locks :=
  foldl_keeps State.locks (fun t w => (meetEntry_keeps c _ t w).2.1) _ s

@[simp] theorem meetAwaits_suspect (s : State) (c : Fin 512) : (meetAwaits s c).suspect = s.suspect :=
  foldl_keeps State.suspect (fun t w => (meetEntry_keeps c _ t w).2.2) _ s

/-- A notice to one port changes that port's session alone. -/
theorem notifyPort_eq (c : Fin 512) (v : Reported) (origin : Port) (s : State) (p : Port) :
    ∃ f : Session → Session, notifyPort c v origin s p = s.modSession p f := by
  unfold notifyPort
  split
  · exact ⟨id, (State.modSession_same s p id rfl).symm⟩
  · split
    · exact ⟨id, (State.modSession_same s p id rfl).symm⟩
    · obtain ⟨f, hf, _⟩ := offerRecord_eq p (.changed c v origin 1) s
      rw [hf]
      split
      · exact ⟨_, rfl⟩
      · split
        · exact ⟨_, State.modSession_modSession _ _ _ _⟩
        · exact ⟨f, rfl⟩

theorem sameOutside_notifyPort (c : Fin 512) (v : Reported) (origin : Port) (s : State) (p : Port) :
    SameOutside s (notifyPort c v origin s p) := by
  obtain ⟨f, hf⟩ := notifyPort_eq c v origin s p
  rw [hf]
  exact sameOutside_modSession _ _ _

theorem notifyPort_session_other (c : Fin 512) (v : Reported) (origin : Port) (s : State) (p q : Port) (h : q ≠ p) :
    (notifyPort c v origin s p).session q = s.session q := by
  obtain ⟨f, hf⟩ := notifyPort_eq c v origin s p
  rw [hf]
  exact State.modSession_session_other s p q f h

theorem notifyPort_keeps (c : Fin 512) (v : Reported) (origin : Port) (s : State) (p : Port) :
    (notifyPort c v origin s p).cells = s.cells ∧ (notifyPort c v origin s p).locks = s.locks ∧
      (notifyPort c v origin s p).suspect = s.suspect ∧ (notifyPort c v origin s p).pool = s.pool := by
  obtain ⟨f, hf⟩ := notifyPort_eq c v origin s p
  rw [hf]
  exact ⟨rfl, rfl, rfl, rfl⟩

theorem sameOutside_notifyWatchers (origin : Port) (s : State) (c : Fin 512) :
    SameOutside s (notifyWatchers origin s c) :=
  sameOutside_foldl (fun t p => sameOutside_notifyPort c _ origin t p) _ s

@[simp] theorem notifyWatchers_cells (origin : Port) (s : State) (c : Fin 512) :
    (notifyWatchers origin s c).cells = s.cells :=
  foldl_keeps State.cells (fun t p => (notifyPort_keeps c _ origin t p).1) _ s

@[simp] theorem notifyWatchers_locks (origin : Port) (s : State) (c : Fin 512) :
    (notifyWatchers origin s c).locks = s.locks :=
  foldl_keeps State.locks (fun t p => (notifyPort_keeps c _ origin t p).2.1) _ s

@[simp] theorem notifyWatchers_suspect (origin : Port) (s : State) (c : Fin 512) :
    (notifyWatchers origin s c).suspect = s.suspect :=
  foldl_keeps State.suspect (fun t p => (notifyPort_keeps c _ origin t p).2.2.1) _ s

@[simp] theorem notifyWatchers_pool (origin : Port) (s : State) (c : Fin 512) :
    (notifyWatchers origin s c).pool = s.pool :=
  foldl_keeps State.pool (fun t p => (notifyPort_keeps c _ origin t p).2.2.2) _ s

/-! ### Net change -/

theorem mem_insertCell (c d : Fin 512) (ds : List (Fin 512)) : d ∈ insertCell c ds ↔ d = c ∨ d ∈ ds := by
  induction ds with
  | nil => simp [insertCell]
  | cons e es ih =>
    simp only [insertCell]
    split
    · simp
    · split
      · rename_i h
        subst h
        simp
      · simp only [List.mem_cons, ih]
        constructor
        · rintro (h | h | h) <;> simp [h]
        · rintro (h | h | h) <;> simp [h]

theorem mem_ascending (d : Fin 512) (cs : List (Fin 512)) : d ∈ ascending cs ↔ d ∈ cs := by
  induction cs with
  | nil => simp [ascending]
  | cons c cs ih =>
    have : ascending (c :: cs) = insertCell c (ascending cs) := rfl
    rw [this, mem_insertCell, ih, List.mem_cons]

theorem insertCell_pairwise (c : Fin 512) (ds : List (Fin 512)) (h : ds.Pairwise (· < ·)) :
    (insertCell c ds).Pairwise (· < ·) := by
  induction ds with
  | nil => simp [insertCell]
  | cons e es ih =>
    obtain ⟨h1, h2⟩ := List.pairwise_cons.mp h
    simp only [insertCell]
    split
    · rename_i hlt
      refine List.pairwise_cons.mpr ⟨fun x hx => ?_, h⟩
      rcases List.mem_cons.mp hx with rfl | hx
      · exact hlt
      · have := h1 x hx
        omega
    · split
      · exact h
      · refine List.pairwise_cons.mpr ⟨fun x hx => ?_, ih h2⟩
        rcases (mem_insertCell c x es).mp hx with rfl | hx
        · omega
        · exact h1 x hx

theorem ascending_pairwise (cs : List (Fin 512)) : (ascending cs).Pairwise (· < ·) := by
  induction cs with
  | nil => exact List.Pairwise.nil
  | cons c cs ih => exact insertCell_pairwise c _ ih

/-- The handing on of net changes changes sessions and the pool alone. -/
theorem sameOutside_handOn (origin : Option Port) (before : Vector Cell 512) (touched : List (Fin 512)) (s : State) :
    SameOutside s (handOn origin before touched s) := by
  unfold handOn
  cases origin with
  | none => exact sameOutside_foldl sameOutside_meetAwaits _ s
  | some p =>
    exact sameOutside_trans (sameOutside_foldl sameOutside_meetAwaits _ s)
      (sameOutside_foldl (sameOutside_notifyWatchers p) _ _)

/-- A part of the state that met conditions and change notices keep is kept by the handing on. -/
theorem handOn_keeps {β : Type} (g : State → β) (hm : ∀ s c, g (meetAwaits s c) = g s)
    (hn : ∀ p s c, g (notifyWatchers p s c) = g s) (origin : Option Port) (before : Vector Cell 512)
    (touched : List (Fin 512)) (s : State) : g (handOn origin before touched s) = g s := by
  unfold handOn
  cases origin with
  | none => exact foldl_keeps g hm _ s
  | some p => exact (foldl_keeps g (hn p) _ _).trans (foldl_keeps g hm _ s)

@[simp] theorem handOn_cells (origin : Option Port) (before : Vector Cell 512) (touched : List (Fin 512))
    (s : State) : (handOn origin before touched s).cells = s.cells :=
  handOn_keeps State.cells meetAwaits_cells notifyWatchers_cells origin before touched s

@[simp] theorem handOn_locks (origin : Option Port) (before : Vector Cell 512) (touched : List (Fin 512))
    (s : State) : (handOn origin before touched s).locks = s.locks :=
  handOn_keeps State.locks meetAwaits_locks notifyWatchers_locks origin before touched s

@[simp] theorem handOn_suspect (origin : Option Port) (before : Vector Cell 512) (touched : List (Fin 512))
    (s : State) : (handOn origin before touched s).suspect = s.suspect :=
  handOn_keeps State.suspect meetAwaits_suspect notifyWatchers_suspect origin before touched s

/-! ### The teardown -/

theorem sameOutside_teardownLock (p : Port) (s : State) (l : Fin 48) : SameOutside s (teardownLock p s l) :=
  sameOutside_trans (sameOutside_modSession _ _ _) <| sameOutside_trans (sameOutside_markBank l true _)
    (sameOutside_passOn l _)

@[simp] theorem teardownLock_cells (p : Port) (s : State) (l : Fin 48) :
    (teardownLock p s l).cells = s.cells := by
  simp [teardownLock, popStack]

theorem sameOutside_releaseAll (p : Port) (s : State) : SameOutside s (releaseAll p s) :=
  sameOutside_foldl (sameOutside_teardownLock p) _ s

@[simp] theorem releaseAll_cells (p : Port) (s : State) : (releaseAll p s).cells = s.cells :=
  foldl_keeps State.cells (teardownLock_cells p) _ s

/-- The SESSION-ENDED record changes the port's queue and sequence number at most. -/
theorem noticeOfEnd_eq (p : Port) (s : State) :
    noticeOfEnd p s =
      if (s.session p).endCause = .lapsed ∨ (s.session p).endCause = .portReset then
        appendRecord p (.sessionEnded (s.session p).endCause) s
      else s := by
  unfold noticeOfEnd
  cases h : (s.session p).endCause <;> simp

theorem sameOutside_noticeOfEnd (p : Port) (s : State) : SameOutside s (noticeOfEnd p s) := by
  rw [noticeOfEnd_eq]
  split
  · exact sameOutside_modSession _ _ _
  · exact sameOutside_refl s

/-- A teardown changes nothing of the port interfaces and the engine. -/
theorem sameOutside_teardown (p : Port) (s : State) : SameOutside s (teardown p s) := by
  unfold teardown
  refine sameOutside_trans ?_ (sameOutside_handOn none _ _ _)
  refine sameOutside_trans ?_ (sameOutside_modSession _ _ _)
  refine sameOutside_trans ?_ (sameOutside_noticeOfEnd p _)
  refine sameOutside_trans ?_ (sameOutside_modSession _ _ _)
  refine sameOutside_trans ?_ (sameOutside_releaseAll p _)
  refine sameOutside_trans ?_ (sameOutside_foldl (fun t c => sameOutside_grantWalk c t) _ _)
  exact ⟨rfl, rfl, rfl, rfl, rfl, rfl, rfl, rfl⟩

end Sys2Proof.Machine
end

