-- ==== Sys2Proof/Laws/Engine.lean ====
section
/-!
SUPPORT. The request engine: what the arbiter, a tick, a port reset and the end of a piece of work leave as it was, and
how a command finds the engine.
-/

namespace Sys2Proof.Machine

open Sys2Proof.Safety

/-! ### The arbiter -/

theorem arbitrate_of_serving {s : State} {w : Work} (h : s.service = .serving w) : arbitrate s = s := by
  simp [arbitrate, h]

theorem arbitrate_of_none {s : State} (h : choose s = none) : arbitrate s = s := by
  unfold arbitrate
  cases s.service <;> simp [h]

theorem arbitrate_of_some {s : State} {w : Work} (h : s.service = .idle) (hc : choose s = some w) :
    arbitrate s = takeWork w s := by
  simp [arbitrate, h, hc]

/-- A part of the state that the taking of work keeps is kept by the arbiter. -/
theorem arbitrate_keeps {β : Type} (g : State → β) (h : ∀ w s, g (takeWork w s) = g s) (s : State) :
    g (arbitrate s) = g s := by
  unfold arbitrate
  split
  · rfl
  · split
    · exact h _ s
    · rfl

@[simp] theorem takeWork_cells (w : Work) (s : State) : (takeWork w s).cells = s.cells := by cases w <;> rfl
@[simp] theorem takeWork_suspect (w : Work) (s : State) : (takeWork w s).suspect = s.suspect := by cases w <;> rfl
@[simp] theorem takeWork_locks (w : Work) (s : State) : (takeWork w s).locks = s.locks := by cases w <;> rfl
@[simp] theorem takeWork_pool (w : Work) (s : State) : (takeWork w s).pool = s.pool := by cases w <;> rfl
@[simp] theorem takeWork_sessions (w : Work) (s : State) : (takeWork w s).sessions = s.sessions := by cases w <;> rfl
@[simp] theorem takeWork_deferred (w : Work) (s : State) : (takeWork w s).deferred = s.deferred := by cases w <;> rfl
@[simp] theorem takeWork_fresh (w : Work) (s : State) : (takeWork w s).fresh = s.fresh := by cases w <;> rfl
@[simp] theorem takeWork_initialised (w : Work) (s : State) : (takeWork w s).initialised = s.initialised := by
  cases w <;> rfl
@[simp] theorem takeWork_resetLow (w : Work) (s : State) : (takeWork w s).resetLow = s.resetLow := by cases w <;> rfl
@[simp] theorem takeWork_pending (w : Work) (s : State) : (takeWork w s).pending = s.pending := by cases w <;> rfl

@[simp] theorem arbitrate_cells (s : State) : (arbitrate s).cells = s.cells := arbitrate_keeps _ takeWork_cells s
@[simp] theorem arbitrate_suspect (s : State) : (arbitrate s).suspect = s.suspect :=
  arbitrate_keeps _ takeWork_suspect s
@[simp] theorem arbitrate_locks (s : State) : (arbitrate s).locks = s.locks := arbitrate_keeps _ takeWork_locks s
@[simp] theorem arbitrate_pool (s : State) : (arbitrate s).pool = s.pool := arbitrate_keeps _ takeWork_pool s
@[simp] theorem arbitrate_sessions (s : State) : (arbitrate s).sessions = s.sessions :=
  arbitrate_keeps _ takeWork_sessions s
@[simp] theorem arbitrate_deferred (s : State) : (arbitrate s).deferred = s.deferred :=
  arbitrate_keeps _ takeWork_deferred s
@[simp] theorem arbitrate_fresh (s : State) : (arbitrate s).fresh = s.fresh := arbitrate_keeps _ takeWork_fresh s
@[simp] theorem arbitrate_initialised (s : State) : (arbitrate s).initialised = s.initialised :=
  arbitrate_keeps _ takeWork_initialised s
@[simp] theorem arbitrate_resetLow (s : State) : (arbitrate s).resetLow = s.resetLow :=
  arbitrate_keeps _ takeWork_resetLow s
@[simp] theorem arbitrate_pending (s : State) : (arbitrate s).pending = s.pending :=
  arbitrate_keeps _ takeWork_pending s

/-! ### A tick -/

/-- A part of the state that a lapse and a session's change keep is kept by the tick on one lease. -/
theorem tickLease_keeps {β : Type} (g : State → β) (hm : ∀ s p f, g (State.modSession s p f) = g s)
    (hl : ∀ p s, g (lapseSession p s) = g s) (s : State) (p : Port) : g (tickLease s p) = g s := by
  unfold tickLease
  dsimp only
  split
  · split
    · exact (hl p _).trans (hm s p _)
    · split
      · unfold warnLease
        rw [hm]
        obtain ⟨f, hf, _⟩ := offerRecord_eq p
          (.leaseLow ((s.modSession p fun x => { x with leaseRemaining := x.leaseRemaining - 1 }).session p).leaseRemaining)
          (s.modSession p fun x => { x with leaseRemaining := x.leaseRemaining - 1 })
        rw [hf, hm, hm]
      · exact hm s p _
  · rfl

/-- A part of the state that the tick's parts keep is kept by the tick. -/
theorem tickActs_keeps {β : Type} (g : State → β) (hm : ∀ s p f, g (State.modSession s p f) = g s)
    (hl : ∀ p s, g (lapseSession p s) = g s) (s : State) : g (tickActs s) = g (tickDeadlines s) :=
  foldl_keeps g (tickLease_keeps g hm hl) allPorts (tickDeadlines s)

@[simp] theorem tickActs_cells (s : State) : (tickActs s).cells = s.cells :=
  tickActs_keeps State.cells (fun _ _ _ => rfl) (fun _ _ => rfl) s
@[simp] theorem tickActs_suspect (s : State) : (tickActs s).suspect = s.suspect :=
  tickActs_keeps State.suspect (fun _ _ _ => rfl) (fun _ _ => rfl) s
@[simp] theorem tickActs_locks (s : State) : (tickActs s).locks = s.locks :=
  tickActs_keeps State.locks (fun _ _ _ => rfl) (fun _ _ => rfl) s
@[simp] theorem tickActs_ports (s : State) : (tickActs s).ports = s.ports :=
  tickActs_keeps State.ports (fun _ _ _ => rfl) (fun _ _ => rfl) s
@[simp] theorem tickActs_rotation (s : State) : (tickActs s).rotation = s.rotation :=
  tickActs_keeps State.rotation (fun _ _ _ => rfl) (fun _ _ => rfl) s
@[simp] theorem tickActs_service (s : State) : (tickActs s).service = s.service :=
  tickActs_keeps State.service (fun _ _ _ => rfl) (fun _ _ => rfl) s
@[simp] theorem tickActs_deferred (s : State) : (tickActs s).deferred = s.deferred :=
  tickActs_keeps State.deferred (fun _ _ _ => rfl) (fun _ _ => rfl) s
@[simp] theorem tickActs_fresh (s : State) : (tickActs s).fresh = s.fresh :=
  tickActs_keeps State.fresh (fun _ _ _ => rfl) (fun _ _ => rfl) s
@[simp] theorem tickActs_initialised (s : State) : (tickActs s).initialised = s.initialised :=
  tickActs_keeps State.initialised (fun _ _ _ => rfl) (fun _ _ => rfl) s
@[simp] theorem tickActs_resetLow (s : State) : (tickActs s).resetLow = s.resetLow :=
  tickActs_keeps State.resetLow (fun _ _ _ => rfl) (fun _ _ => rfl) s
@[simp] theorem tickActs_pending (s : State) : (tickActs s).pending = s.pending :=
  tickActs_keeps State.pending (fun _ _ _ => rfl) (fun _ _ => rfl) s

/-- The tick lowers deadlines and does nothing else to the pool. -/
@[simp] theorem tickActs_pool (s : State) : (tickActs s).pool = s.pool.map (lowerDeadline s.fresh) :=
  tickActs_keeps State.pool (fun _ _ _ => rfl) (fun _ _ => rfl) s

theorem lowerDeadline_fields (f : Fresh) (w : WaitEntry) :
    (lowerDeadline f w).number = w.number ∧ (lowerDeadline f w).port = w.port ∧
      (lowerDeadline f w).epoch = w.epoch ∧ (lowerDeadline f w).ticket = w.ticket ∧
      (lowerDeadline f w).wait = w.wait := by
  unfold lowerDeadline
  split <;> simp

/-! ### A port reset -/

/-- A part of the state that claims and interface changes keep is kept by a port reset. -/
theorem resetPort_keeps {β : Type} (g : State → β) (hp : ∀ s p f, g (State.modPort s p f) = g s)
    (hc : ∀ p s, g (claimSession p s) = g s) (p : Port) (s : State) : g (resetPort p s) = g s :=
  (hc p _).trans (hp s p _)

theorem claimSession_keeps {β : Type} (g : State → β) (hm : ∀ s p f, g (State.modSession s p f) = g s)
    (hw : ∀ (s : State) l, g { s with workList := l } = g s) (p : Port) (s : State) : g (claimSession p s) = g s := by
  unfold claimSession
  split
  · exact (hw _ _).trans (hm s p _)
  · rfl
  · rfl

@[simp] theorem resetPort_cells (p : Port) (s : State) : (resetPort p s).cells = s.cells :=
  resetPort_keeps State.cells (fun _ _ _ => rfl) (claimSession_keeps _ (fun _ _ _ => rfl) fun _ _ => rfl) p s
@[simp] theorem resetPort_suspect (p : Port) (s : State) : (resetPort p s).suspect = s.suspect :=
  resetPort_keeps State.suspect (fun _ _ _ => rfl) (claimSession_keeps _ (fun _ _ _ => rfl) fun _ _ => rfl) p s
@[simp] theorem resetPort_locks (p : Port) (s : State) : (resetPort p s).locks = s.locks :=
  resetPort_keeps State.locks (fun _ _ _ => rfl) (claimSession_keeps _ (fun _ _ _ => rfl) fun _ _ => rfl) p s
@[simp] theorem resetPort_pool (p : Port) (s : State) : (resetPort p s).pool = s.pool :=
  resetPort_keeps State.pool (fun _ _ _ => rfl) (claimSession_keeps _ (fun _ _ _ => rfl) fun _ _ => rfl) p s
@[simp] theorem resetPort_rotation (p : Port) (s : State) : (resetPort p s).rotation = s.rotation :=
  resetPort_keeps State.rotation (fun _ _ _ => rfl) (claimSession_keeps _ (fun _ _ _ => rfl) fun _ _ => rfl) p s
@[simp] theorem resetPort_service (p : Port) (s : State) : (resetPort p s).service = s.service :=
  resetPort_keeps State.service (fun _ _ _ => rfl) (claimSession_keeps _ (fun _ _ _ => rfl) fun _ _ => rfl) p s
@[simp] theorem resetPort_deferred (p : Port) (s : State) : (resetPort p s).deferred = s.deferred :=
  resetPort_keeps State.deferred (fun _ _ _ => rfl) (claimSession_keeps _ (fun _ _ _ => rfl) fun _ _ => rfl) p s
@[simp] theorem resetPort_fresh (p : Port) (s : State) : (resetPort p s).fresh = s.fresh :=
  resetPort_keeps State.fresh (fun _ _ _ => rfl) (claimSession_keeps _ (fun _ _ _ => rfl) fun _ _ => rfl) p s
@[simp] theorem resetPort_initialised (p : Port) (s : State) : (resetPort p s).initialised = s.initialised :=
  resetPort_keeps State.initialised (fun _ _ _ => rfl) (claimSession_keeps _ (fun _ _ _ => rfl) fun _ _ => rfl) p s
@[simp] theorem resetPort_resetLow (p : Port) (s : State) : (resetPort p s).resetLow = s.resetLow :=
  resetPort_keeps State.resetLow (fun _ _ _ => rfl) (claimSession_keeps _ (fun _ _ _ => rfl) fun _ _ => rfl) p s
@[simp] theorem resetPort_pending (p : Port) (s : State) : (resetPort p s).pending = s.pending :=
  resetPort_keeps State.pending (fun _ _ _ => rfl) (claimSession_keeps _ (fun _ _ _ => rfl) fun _ _ => rfl) p s

/-! ### The end of a piece of work -/

/-- A part of the state that a tick, a port reset, the arbiter and the engine's own fields leave alone. -/
structure Untouched {β : Type} (g : State → β) : Prop where
  tick     : ∀ s, g (tickActs s) = g s
  reset    : ∀ p s, g (resetPort p s) = g s
  arbiter  : ∀ s, g (arbitrate s) = g s
  service  : ∀ (s : State) v, g { s with service := v } = g s
  deferred : ∀ (s : State) v, g { s with deferred := v } = g s
  fresh    : ∀ (s : State) v, g { s with fresh := v } = g s

theorem untouched_cells : Untouched State.cells :=
  ⟨tickActs_cells, resetPort_cells, arbitrate_cells, fun _ _ => rfl, fun _ _ => rfl, fun _ _ => rfl⟩
theorem untouched_suspect : Untouched State.suspect :=
  ⟨tickActs_suspect, resetPort_suspect, arbitrate_suspect, fun _ _ => rfl, fun _ _ => rfl, fun _ _ => rfl⟩
theorem untouched_locks : Untouched State.locks :=
  ⟨tickActs_locks, resetPort_locks, arbitrate_locks, fun _ _ => rfl, fun _ _ => rfl, fun _ _ => rfl⟩
theorem untouched_initialised : Untouched State.initialised :=
  ⟨tickActs_initialised, resetPort_initialised, arbitrate_initialised, fun _ _ => rfl, fun _ _ => rfl, fun _ _ => rfl⟩
theorem untouched_resetLow : Untouched State.resetLow :=
  ⟨tickActs_resetLow, resetPort_resetLow, arbitrate_resetLow, fun _ _ => rfl, fun _ _ => rfl, fun _ _ => rfl⟩
theorem untouched_pending : Untouched State.pending :=
  ⟨tickActs_pending, resetPort_pending, arbitrate_pending, fun _ _ => rfl, fun _ _ => rfl, fun _ _ => rfl⟩

section
variable {β : Type} {g : State → β} (h : Untouched g)
include h

theorem actTicks_keeps (l : List Claim) (s : State) : g (actTicks l s) = g s := by
  induction l generalizing s with
  | nil => exact h.deferred s []
  | cons c l ih =>
    cases c with
    | tick => exact (ih _).trans (h.tick s)
    | portReset p => exact h.deferred s _

theorem actClaim_keeps (s : State) (c : Claim) : g (actClaim s c) = g s := by
  cases c with
  | tick => exact h.tick s
  | portReset p => exact h.reset p s

theorem actThrough_keeps (p : Port) (l : List Claim) (s : State) : g (actThrough p l s) = g s := by
  induction l generalizing s with
  | nil => exact h.deferred s []
  | cons c l ih =>
    unfold actThrough
    split
    · exact (actTicks_keeps h l _).trans (h.reset p s)
    · exact (ih _).trans (actClaim_keeps h s c)

theorem chooseNext_keeps (s : State) : g (chooseNext s) = g s := by
  unfold chooseNext
  split
  · exact (h.arbiter _).trans (h.fresh s _)
  · rfl

/-- The end of a piece of work leaves it alone. -/
theorem conclude_keeps (s : State) : g (conclude s) = g s :=
  (chooseNext_keeps h _).trans ((actTicks_keeps h _ _).trans (h.service s _))

/-- The settling of an idle engine leaves it alone. -/
theorem settled_keeps (s : State) : g (settled s) = g s := by
  unfold settled
  split
  · rfl
  · exact (chooseNext_keeps h _).trans ((foldl_keeps g (actClaim_keeps h) _ _).trans (h.deferred s _))
end

/-! ### How a command finds the engine -/

@[simp] theorem settled_of_serving {s : State} {w : Work} (h : s.service = .serving w) : settled s = s := by
  simp [settled, h]

theorem settled_of_atRest {s : State} (h : AtRest s) : settled s = s := by
  obtain ⟨h1, h2, h3, h4⟩ := h
  have hs : s = { s with deferred := [], fresh := ⟨none, none⟩ } := by
    rw [← h2, ← h3]
  have hc : chooseNext { s with deferred := [] } = arbitrate s := by
    have : chooseNext { s with deferred := [] } = arbitrate { s with deferred := [], fresh := ⟨none, none⟩ } := by
      simp [chooseNext]
    rw [this, ← hs]
  unfold settled
  split
  · rfl
  · rw [h2, List.foldl_nil, hc, arbitrate_of_none h4]

theorem settled_of_ready {s : State} (h : Ready s) : settled s = s := by
  rcases h with ⟨w, hw⟩ | h
  · exact settled_of_serving hw
  · exact settled_of_atRest h

/-- An arbiter that has chosen with no claim waiting leaves the engine serving or at rest. -/
theorem ready_arbitrate {s : State} (hd : s.deferred = []) (hf : s.fresh = ⟨none, none⟩) : Ready (arbitrate s) := by
  cases hs : s.service with
  | serving w => exact Or.inl ⟨w, by rw [arbitrate_of_serving hs, hs]⟩
  | idle =>
    cases hc : choose s with
    | none => rw [arbitrate_of_none hc]; exact Or.inr ⟨hs, hd, hf, hc⟩
    | some w =>
      rw [arbitrate_of_some hs hc]
      cases w with
      | request p n => exact Or.inl ⟨.request p n, rfl⟩
      | item i => exact Or.inl ⟨.item i, rfl⟩

theorem foldl_actClaim_deferred (l : List Claim) (s : State) : (l.foldl actClaim s).deferred = s.deferred := by
  refine foldl_keeps (g := State.deferred) (fun s c => ?_) l s
  cases c <;> simp [actClaim]

/-- A settled engine serves a piece of work or is at rest. -/
theorem ready_settled (s : State) : Ready (settled s) := by
  cases hs : s.service with
  | serving w => rw [settled_of_serving hs]; exact Or.inl ⟨w, hs⟩
  | idle =>
    have hd : (s.deferred.foldl actClaim { s with deferred := [] }).deferred = [] := foldl_actClaim_deferred _ _
    have : settled s = chooseNext (s.deferred.foldl actClaim { s with deferred := [] }) := by rw [settled, hs]
    rw [this, chooseNext, if_pos hd]
    exact ready_arbitrate hd rfl

theorem settled_settled (s : State) : settled (settled s) = settled s := settled_of_ready (ready_settled s)

theorem settled_of_serves {s : State} {p : Port} {r : Request} (h : Serves s p r) : settled s = s := by
  obtain ⟨⟨n, hn⟩, _⟩ := h
  exact settled_of_serving hn

theorem requestInService_of_serves {s : State} {p : Port} {r : Request} (h : Serves s p r) :
    requestInService p s = some r := by
  obtain ⟨⟨n, hn⟩, hr⟩ := h
  simp [requestInService, hn, hr]

/-- The engine's command for a kind, with a request of that kind in service, serves it and ends the piece. -/
theorem finishRequest_of_serves {k : Kind} {own : OwnWork} {p : Port} {r : Request} {s : State} (h : Serves s p r)
    (hk : r.kind = k.code) : finishRequest k own p s = conclude (serve k own p r s) := by
  unfold finishRequest
  dsimp only
  rw [settled_of_serves h, requestInService_of_serves h]
  simp [hk]

/-! ### Kinds and common checks -/

@[simp] theorem ofCode_code (k : Kind) : Kind.ofCode k.code = some k := by cases k <;> rfl

theorem code_injective {k j : Kind} (h : k.code = j.code) : k = j := by
  have := congrArg Kind.ofCode h
  simpa using this

theorem ofCode_eq_none {b : Byte} (h : ∀ k : Kind, b ≠ k.code) : Kind.ofCode b = none := by
  unfold Kind.ofCode
  rw [List.find?_eq_none]
  intro k _ hk
  exact h k (eq_of_beq hk).symm

/-- A request that Admits names passes the common checks. -/
theorem commonCheck_of_admits {s : State} {p : Port} {k : Kind} {payload : List Byte} {e : Byte}
    (hs : payloadSuits k payload = true)
    (ho : k.needsOpen = true → (s.session p).state = .opened ∧ e = (s.session p).epoch) :
    commonCheck k ⟨e, k.code, payload⟩ (s.session p) = none := by
  unfold commonCheck
  rw [hs]
  cases hk : k.needsOpen
  · simp
  · obtain ⟨h1, h2⟩ := ho hk
    simp [h1, h2]

/-- What an engine command answers with for a request that Admits names. -/
theorem finishRequest_of_admits {k : Kind} {own : OwnWork} {p : Port} {payload : List Byte} {s : State}
    (h : Admits s p k payload) :
    finishRequest k own p s =
      conclude (placeResponse p ((own p payload s).2.response k.code k.fixedPart) (own p payload s).1) := by
  obtain ⟨e, hs, hp, ho⟩ := h
  rw [finishRequest_of_serves hs rfl]
  unfold serve
  rw [commonCheck_of_admits hp ho]

/-- The own work of a kind answers DONE. -/
theorem finishRequest_done {k : Kind} {own : OwnWork} {p : Port} {payload : List Byte} {s u : State} {f : Fields}
    (h : Admits s p k payload) (ho : own p payload s = (u, .done f)) :
    Host.Outcome.next (finishRequest k own p s) = answeredDone p k f u := by
  rw [finishRequest_of_admits h, ho]
  rfl

/-- The own work of a kind answers PENDING. -/
theorem finishRequest_pending {k : Kind} {own : OwnWork} {p : Port} {payload : List Byte} {s u : State} {f : Fields}
    (h : Admits s p k payload) (ho : own p payload s = (u, .pending f)) :
    Host.Outcome.next (finishRequest k own p s) = answeredPending p k f u := by
  rw [finishRequest_of_admits h, ho]
  rfl

/-- The own work of a kind answers REFUSED. -/
theorem finishRequest_refused {k : Kind} {own : OwnWork} {p : Port} {payload : List Byte} {s u : State} {r : Reason}
    {i : Nat} (h : Admits s p k payload) (ho : own p payload s = (u, .refused r i)) :
    Host.Outcome.next (finishRequest k own p s) = answeredRefused p k r i u := by
  rw [finishRequest_of_admits h, ho]
  rfl

end Sys2Proof.Machine
end

