-- ==== Sys2Proof/Laws/Links.lean ====
section
/-!
SUPPORT. The port links: bits on the wire, whole bytes and incomplete ones, bits that nobody follows, and the bytes
after the end of a frame.
-/

namespace Sys2Proof.Machine

open Sys2Proof.Safety

/-! ### Bits on the wire -/

@[simp] theorem byteBits_length (b : Byte) : (byteBits b).length = 8 := rfl

theorem byteBits_getElem (b : Byte) {k : Nat} (h : k < 8) :
    (byteBits b)[k]'(by simpa using h) = b.getLsbD (7 - k) := by
  match k, h with
  | 0, _ | 1, _ | 2, _ | 3, _ | 4, _ | 5, _ | 6, _ | 7, _ => rfl

theorem wire_nil : wire [] = [] := rfl

theorem wire_cons (b : Byte) (bs : List Byte) : wire (b :: bs) = byteBits b ++ wire bs := rfl

theorem wire_append (bs cs : List Byte) : wire (bs ++ cs) = wire bs ++ wire cs := List.flatMap_append

@[simp] theorem wire_length (bs : List Byte) : (wire bs).length = 8 * bs.length := by
  induction bs with
  | nil => rfl
  | cons b bs ih => simp [wire_cons, ih]; omega

/-- Eight bits that passed in their order make the byte they came from. -/
theorem byteOfBits_byteBits (b : Byte) : byteOfBits (byteBits b) = b := by
  revert b
  decide

theorem clockBits_append (p : Port) (bs cs : List Bool) (s : State) :
    clockBits p (bs ++ cs) s = clockBits p cs (clockBits p bs s) := List.foldl_append

/-- A receiver that follows no transaction ignores every bit. -/
theorem clockBits_of_idle {p : Port} {s : State} (h : (s.port p).receiver = .idle) (bits : List Bool) :
    clockBits p bits s = s := by
  induction bits with
  | nil => rfl
  | cons b bs ih =>
    have : clockBit p s b = s := by simp [clockBit, h]
    simpa [clockBits, this] using ih

/-- Bits that leave a byte incomplete are kept and answered by the bits of the byte that is being returned. -/
theorem clockBits_incomplete {p : Port} (bits : List Bool) :
    ∀ {s : State} {rx : Rx}, (s.port p).receiver = .active rx → rx.bits.length + bits.length < 8 →
      clockBits p bits s =
        s.modPort p fun x =>
          { x with
            receiver := .active { rx with bits := rx.bits ++ bits },
            out := x.out ++ ((byteBits (nextOut rx)).drop rx.bits.length).take bits.length } := by
  induction bits with
  | nil =>
    intro s rx h _
    refine (State.modPort_same s p _ ?_).symm
    simp [← h]
  | cons b bs ih =>
    intro s rx h hl
    simp only [List.length_cons] at hl
    have hstep : clockBit p s b =
        s.modPort p fun x =>
          { x with
            receiver := .active { rx with bits := rx.bits ++ [b] }, out := x.out ++ [driven rx] } := by
      have : ¬ (rx.bits.length + 1 = 8) := by omega
      simp [clockBit, h, setReceiver, this]
    have hnext : nextOut { rx with bits := rx.bits ++ [b] } = nextOut rx := rfl
    change clockBits p bs (clockBit p s b) = _
    rw [hstep, ih (rx := { rx with bits := rx.bits ++ [b] }) (by simp) (by simp; omega), State.modPort_modPort]
    refine State.modPort_congr s p _ _ ?_
    have hd : (byteBits (nextOut rx)).drop rx.bits.length =
        driven rx :: (byteBits (nextOut rx)).drop (rx.bits.length + 1) := by
      have hk : rx.bits.length < 8 := by omega
      rw [List.drop_eq_getElem_cons (by simpa using hk), byteBits_getElem _ hk, driven]
    simp [hnext, hd]

theorem setReceiver_setReceiver (p : Port) (r r' : Receiver) (s : State) :
    setReceiver p r (setReceiver p r' s) = setReceiver p r s := by
  simp [setReceiver]

/-- A byte received replaces the receiver, whatever it was. -/
theorem receiveByte_setReceiver (p : Port) (rx : Rx) (b : Byte) (r : Receiver) (s : State) :
    receiveByte p rx b (setReceiver p r s) = receiveByte p rx b s := by
  simp only [receiveByte, setReceiver_setReceiver]

/-- The eighth bit makes the byte. -/
theorem clockBit_eighth {p : Port} {s : State} {rx : Rx} (h : (s.port p).receiver = .active rx)
    (hl : rx.bits.length = 7) (bit : Bool) :
    clockBit p s bit =
      receiveByte p { rx with bits := [] } (byteOfBits (rx.bits ++ [bit]))
        (s.modPort p fun x => { x with out := x.out ++ [driven rx] }) := by
  simp [clockBit, h, hl]

/-- A whole byte is received at its eighth bit, and answered by the bits of the byte that is being returned. -/
theorem clockBits_byte {p : Port} {s : State} {rx : Rx} (h : (s.port p).receiver = .active rx) (hb : rx.bits = [])
    (b : Byte) :
    clockBits p (byteBits b) s =
      receiveByte p rx b (s.modPort p fun x => { x with out := x.out ++ byteBits (nextOut rx) }) := by
  have hsplit : byteBits b = (byteBits b).take 7 ++ [b.getLsbD 0] := rfl
  rw [hsplit, clockBits_append, clockBits_incomplete _ h (by simp [hb])]
  change clockBit p _ _ = _
  rw [clockBit_eighth (rx := { rx with bits := rx.bits ++ (byteBits b).take 7 }) (by simp) (by simp [hb])]
  have hrx : ({ rx with bits := [] } : Rx) = rx := by rw [← hb]
  simp only [hb, List.nil_append, ← hsplit, byteOfBits_byteBits, hrx, State.modPort_modPort]
  refine Eq.trans ?_ (receiveByte_setReceiver p rx b (.active { rx with bits := (byteBits b).take 7 }) _)
  congr 1
  rw [setReceiver, State.modPort_modPort]
  refine State.modPort_congr s p _ _ ?_
  simp [driven, nextOut, byteBits]

/-- The bits of whole bytes and an incomplete one, taken a byte at a time. -/
theorem clockBits_wire_cons (p : Port) (b : Byte) (bs : List Byte) (bits : List Bool) (s : State) :
    clockBits p (wire (b :: bs) ++ bits) s = clockBits p (wire bs ++ bits) (clockBits p (byteBits b) s) := by
  rw [wire_cons, List.append_assoc, clockBits_append]

/-! ### After the frame -/

/-- After the first byte of a transaction that is no POLL, the part returns zeros. -/
theorem nextOut_zero {rx : Rx} (h : rx.received ≠ []) (hp : rx.phase ≠ .poll) : nextOut rx = 0 := by
  unfold nextOut
  cases hr : rx.received with
  | nil => exact absurd hr h
  | cons b bs => simp [hp]

/-- Bits after the end of a frame are ignored and answered with zeros. -/
theorem clockBits_ended {p : Port} (bytes : List Byte) (bits : List Bool) (hl : bits.length < 8) :
    ∀ {s : State} {rx : Rx}, (s.port p).receiver = .active rx → rx.phase = .ended → rx.received ≠ [] →
      rx.bits = [] →
      clockBits p (wire bytes ++ bits) s =
        s.modPort p fun x =>
          { x with
            receiver := .active { rx with received := rx.received ++ bytes, bits := bits },
            out := x.out ++ List.replicate (8 * bytes.length + bits.length) false } := by
  have hz : ∀ n : Byte, n = 0 → byteBits n = List.replicate 8 false := fun n h => by subst h; rfl
  induction bytes with
  | nil =>
    intro s rx h hp hr hb
    rw [wire_nil, List.nil_append, clockBits_incomplete bits h (by simpa [hb] using hl)]
    refine State.modPort_congr s p _ _ ?_
    simp only [hb, hz _ (nextOut_zero hr (by simp [hp])), List.length_nil, List.drop_zero, List.take_replicate,
      List.nil_append, List.append_nil, Nat.min_eq_left (Nat.le_of_lt hl), Nat.mul_zero, Nat.zero_add]
  | cons b bs ih =>
    intro s rx h hp hr hb
    have hstep : clockBits p (byteBits b) s =
        s.modPort p fun x =>
          { x with
            receiver := .active { rx with received := rx.received ++ [b] },
            out := x.out ++ List.replicate 8 false } := by
      rw [clockBits_byte h hb]
      simp only [receiveByte, hp, hz _ (nextOut_zero hr (by simp [hp])), setReceiver, State.modPort_modPort]
    rw [clockBits_wire_cons, hstep, ih (rx := { rx with received := rx.received ++ [b] }) (by simp) hp (by simp) hb]
    rw [State.modPort_modPort]
    refine State.modPort_congr s p _ _ ?_
    simp only [List.append_assoc, List.replicate_append_replicate, List.length_cons, List.cons_append, List.nil_append]
    congr 3
    omega

/-! ### Transactions -/

theorem transact_select_first (p : Port) (type : Byte) (m : ClockMode) (bytes : List Byte) (bits : List Bool) (s : State) :
    transact p type (.first bytes bits) (transact p type (.select m) s) = transact p type (.start m bytes bits) s := rfl

/-- What two segments clock one after the other, one segment may clock. -/
theorem clockBits_clockBits {bytes bytes1 bytes2 : List Byte} {bits bits1 bits2 : List Bool}
    (h : wire bytes ++ bits = wire bytes1 ++ bits1 ++ (wire bytes2 ++ bits2)) (p : Port) (s : State) :
    clockBits p (wire bytes2 ++ bits2) (clockBits p (wire bytes1 ++ bits1) s) = clockBits p (wire bytes ++ bits) s := by
  rw [h, clockBits_append p (wire bytes1 ++ bits1)]

theorem transact_more_more {bytes bytes1 bytes2 : List Byte} {bits bits1 bits2 : List Bool}
    (h : wire bytes ++ bits = wire bytes1 ++ bits1 ++ (wire bytes2 ++ bits2)) (p : Port) (type : Byte) (s : State) :
    transact p type (.more bytes2 bits2) (transact p type (.more bytes1 bits1) s) =
      transact p type (.more bytes bits) s := clockBits_clockBits h p s

theorem transact_start_more {bytes bytes1 bytes2 : List Byte} {bits bits1 bits2 : List Bool}
    (h : wire bytes ++ bits = wire bytes1 ++ bits1 ++ (wire bytes2 ++ bits2)) (p : Port) (type : Byte) (m : ClockMode)
    (s : State) :
    transact p type (.more bytes2 bits2) (transact p type (.start m bytes1 bits1) s) =
      transact p type (.start m bytes bits) s := by
  have h' : wire (type :: bytes) ++ bits = wire (type :: bytes1) ++ bits1 ++ (wire bytes2 ++ bits2) := by
    simp only [wire_cons, List.append_assoc] at h ⊢
    rw [h]
  exact clockBits_clockBits h' p _

/-- A port that does not answer is selected and deselected without any other effect (R162). -/
theorem transact_whole_of_silent {p : Port} {s : State} (ha : answers s = false) (hs : (s.port p).selected = false)
    (type : Byte) (m : ClockMode) (bytes : List Byte) (bits : List Bool) :
    transact p type (.whole m bytes bits) s = s.modPort p fun x => { x with receiver := .idle, out := [] } := by
  have ho : openTransaction p m s =
      s.modPort p fun x => { x with selected := true, out := [], receiver := .idle } := by
    simp [openTransaction, hs, selectPort, ha]
  have hi : ((openTransaction p m s).port p).receiver = .idle := by simp [ho]
  unfold transact
  dsimp only
  rw [clockBits_of_idle hi, ho]
  unfold deselectPort
  dsimp only
  rw [State.modPort_port_same]
  dsimp only
  rw [State.modPort_modPort]
  refine State.modPort_congr s p _ _ ?_
  rw [← hs]

end Sys2Proof.Machine
end

