-- ==== Sys2Proof/Tests/Slice0.lean ====
section
/-!
SUPPORT. The model's own tests: ill-formed commands that the check refuses, single commands on small states with the
values of the spec's examples, and for every statement with hypotheses a state and operands that meet them.
-/

namespace Sys2Proof.Tests

open Sys2Proof.Machine Sys2Proof.Safety

/-! ### Well-formed commands, and an ill-formed one for each check -/

theorem test_wf_requestFrame : (Instr.requestFrame .a (.whole .mode0 [3, 1, 5, 0] [])).wf = true := by decide
theorem test_ill_requestFrame_short : (Instr.requestFrame .a (.whole .mode0 [3, 1, 5] [])).wf = false := by decide
theorem test_ill_requestFrame_length : (Instr.requestFrame .a (.whole .mode0 [2, 1, 5] [])).wf = false := by decide
theorem test_wf_portReset : (Instr.portResetFrame .a (.whole .mode3 [0x3C] [true, false])).wf = true := by decide
theorem test_ill_portReset : (Instr.portResetFrame .a (.whole .mode3 [0x3D] [])).wf = false := by decide
theorem test_wf_unknownType : (Instr.unknownFrameType .b 0xC4 (.more [] [])).wf = true := by decide
theorem test_ill_unknownType : (Instr.unknownFrameType .b 0xC2 (.more [] [])).wf = false := by decide
theorem test_wf_damagedRequest : (Instr.damagedRequestFrame .c (.whole .mode0 [61, 1, 5] [])).wf = true := by decide
theorem test_ill_damagedRequest : (Instr.damagedRequestFrame .c (.whole .mode0 [3, 1, 5, 0] [])).wf = false := by decide
theorem test_wf_damagedReset : (Instr.damagedPortReset .d (.whole .mode0 [] [true])).wf = true := by decide
theorem test_ill_poll_bits : (Instr.pollFrame .d (.more [] (List.replicate 8 true))).wf = false := by decide
theorem test_wf_select : (Instr.pollFrame .d (.select .mode0)).wf = true := by decide
theorem test_ill_damagedReset : (Instr.damagedPortReset .d (.whole .mode0 [0x3C, 1] [])).wf = false := by decide

/-! ### Small states -/

/-- The part after power-on with its initialisation complete. -/
def ready : State := { State.reset with initialised := true }

/-- The port has an OPEN session with epoch 1 and this much left of a lease of 200 ms. -/
def opened (p : Port) (lease : Nat) (s : State) : State :=
  s.modSession p fun x =>
    { x with state := .opened, epoch := 1, leasePeriod := some 200, leaseRemaining := lease }

/-- The engine serves a request of the port with its session's epoch. -/
def asking (p : Port) (k : Kind) (payload : List Byte) (s : State) : State :=
  { s.modPort p fun x => { x with slot := .serving ⟨(s.session p).epoch, k.code, payload⟩ } with
    service := .serving (.request p 0) }

/-- The engine serves an item. -/
def working (i : Item) (s : State) : State := { s with service := .serving (.item i) }

/-- The port holds the lock under epoch 1. -/
def holding (p : Port) (l : Fin 48) (s : State) : State :=
  (s.setLock l ⟨.held p 1, 1⟩).modSession p fun x => { x with stack := x.stack ++ [l] }

/-- The port has one more live entry with ticket n + 1 under entry number n. -/
def waiting (n : Fin 24) (p : Port) (w : Wait) (deadline : Option Nat) (s : State) : State :=
  { s.modSession p fun x =>
      { x with
        liveWaits := x.liveWaits + 1, reserved := x.reserved + 1, nextTicket := BitVec.ofNat 8 (n.val + 2),
        pendingAcquire := match w with
          | .lock l => some (l, BitVec.ofNat 8 (n.val + 1))
          | .take _ _ | .await _ _ _ => x.pendingAcquire } with
    pool := s.pool ++ [⟨n, p, 1, BitVec.ofNat 8 (n.val + 1), w, deadline⟩] }

/-- The next state of a command. -/
def go (c : Instr) (s : State) : State :=
  match exec c s with
  | .next t => t
  | .fault _ => s
  | .refused _ => s

/-- Ports A and B with OPEN sessions. -/
def two : State := opened .b 100 (opened .a 100 ready)

/-- The response in the port's slot. -/
def answer (p : Port) (s : State) : Option Response :=
  match (s.port p).slot with
  | .ready r => some r
  | .idle | .held _ | .serving _ => none

/-! ### The CRC and the request of 10.4 -/

/-- The request of B with epoch 7 for lock 40 with timeout 500: its frame is accepted and its kind named. -/
theorem test_requestFrame :
    let body : List Byte := [6, 7, 0x20, 0x28, 0x01, 0xF4]
    let s := go (.requestFrame .b (.whole .mode0 (body ++ [crc (0xC1 :: body)]) [])) ready
    (s.port .b).slot = .serving ⟨7, 0x20, [0x28, 0x01, 0xF4]⟩ ∧ s.service = .serving (.request .b 0) ∧
      s.rotation = .b := by decide +kernel

/-- The check value of the CRC: one byte 0x01 leaves the polynomial. -/
theorem test_crc : crc [0x01] = 0x07 ∧ crc [0x00] = 0 ∧ crc [0x80] = 0x89 := by decide

/-! ### Sessions -/

theorem test_open :
    let s := go (.openSession .a) (asking .a .openSession [10] ready)
    s.session .a = { Session.powerOn with state := .opened, epoch := 1, leasePeriod := some 200, leaseRemaining := 200 } ∧
      answer .a s = some ⟨.done, 0x01, none, 0, .opened 1 10⟩ ∧ s.service = .idle := by decide

theorem test_open_after_255 :
    ((go (.openSession .a) (asking .a .openSession [1] (ready.modSession .a fun x => { x with epoch := 255 }))).session
      .a).epoch = 1 := by decide

theorem test_renewEven :
    let s := go (.renewEven .a) (asking .a .renewEven [] (opened .a 20 ready))
    (s.session .a).leaseRemaining = 200 ∧ (s.session .a).expected = .odd ∧
      answer .a s = some ⟨.done, 0x03, none, 0, .renewed true .odd 200⟩ := by decide

theorem test_renewOdd_not_expected :
    let s := go (.renewOdd .a) (asking .a .renewOdd [] (opened .a 20 ready))
    (s.session .a).leaseRemaining = 20 ∧ answer .a s = some ⟨.done, 0x04, none, 0, .renewed false .even 20⟩ := by
  decide

theorem test_status :
    ((answer .a (go (.status .a) (asking .a .status [] (holding .a 40 two)))).map fun r => r.bytes.take 27) =
      some [27, 1, 5, 0, 0, 1, 1, 0, 10, 0, 100, 0, 1, 40, 255, 255, 255, 255, 255, 255, 0, 0, 0, 0, 0, 0, 0] := by
  decide

theorem test_close :
    let s := go (.closeSession .a) (asking .a .closeSession [] (holding .a 5 two))
    (s.session .a).state = .closed ∧ (s.session .a).endCause = .closed ∧ s.lock 5 = ⟨.free, 1⟩ ∧
      s.bankSuspect 5 = true ∧ answer .a s = some ⟨.done, 0x02, none, 0, .closed 1 0⟩ := by decide

/-- The teardown of 11.4: lock 40 becomes FREE, lock 5 goes to its waiter with its bank suspect. -/
theorem test_teardown :
    let s := waiting 0 .b (.lock 5) (some 2000) (holding .a 40 (holding .a 5 two))
    let s := s.modSession .a fun x => { x with state := .ending, endCause := .lapsed, leaseRemaining := 0 }
    let t := go (.teardownItem .a) (working (.teardown .a) s)
    t.lock 5 = ⟨.held .b 1, 2⟩ ∧ t.lock 40 = ⟨.free, 1⟩ ∧ t.bankSuspect 5 = true ∧ t.pool = [] ∧
      (t.session .a).state = .closed ∧ (t.session .a).queue = [⟨0, .sessionEnded .lapsed⟩] ∧
      (t.session .b).queue = [⟨0, .granted 1 5 2 (some true)⟩] ∧ (t.session .b).stack = [5] := by decide

/-! ### Cells and chains -/

theorem test_format :
    let s := go (.formatCell .a) (asking .a .formatCell [0x01, 0x40, 2, 0, 8, 0, 0] two)
    s.cell 320 = .counter 8 0 ∧
      answer .a s = some ⟨.done, 0x12, none, 0, .formatted 320 (.plain 0) (.counter 8 0)⟩ := by decide

theorem test_gather :
    (answer .a (go (.gather .a) (asking .a .gather [0x00, 0x0F, 2] (two.setCell 16 (.members 3))))).map Response.fields =
      some (.gather 15 0 false (some (1, false)) [.plain 0, .members 3]) := by decide

/-- LOAD 1, WRITE cell 96, with an AWAIT of B met by it (11.1). -/
theorem test_chain :
    let s := waiting 0 .b (.await 96 .equal 1) none two
    let t := go (.chain .a) (asking .a .chain [2, 0x02, 0, 0, 0, 1, 0x03, 0, 96, 0, 0] s)
    t.cell 96 = .plain 1 ∧ t.pool = [] ∧ (t.session .b).queue = [⟨0, .met 1 96 ⟨.plain, 1⟩⟩] ∧
      answer .a t = some ⟨.done, 0x10, none, 0, .chain 1 false false false 2 0⟩ := by decide

/-- The chain of C that 11.2 refuses: GUARDED at step 2. -/
theorem test_chain_guarded :
    answer .b (go (.chain .b) (asking .b .chain [2, 0x02, 0, 0, 0, 5, 0x03, 0, 64, 0, 0] (holding .a 4 two))) =
      some ⟨.refused, 0x10, some .guarded, 2, .zeros 5⟩ := by decide

/-! ### Locks -/

theorem test_acquire_free :
    let s := go (.acquire .a) (asking .a .acquire [4, 0, 200] two)
    s.lock 4 = ⟨.held .a 1, 1⟩ ∧ (s.session .a).stack = [4] ∧
      answer .a s = some ⟨.done, 0x20, none, 0, .acquire 4 1 (some false) 1 0⟩ := by decide

/-- The cycle of 11.5. -/
theorem test_acquire_cycle :
    answer .b (go (.acquire .b) (asking .b .acquire [41, 1, 44]
      (waiting 0 .a (.lock 42) (some 300) (holding .b 42 (holding .a 41 two))))) =
      some ⟨.refused, 0x20, some .cycle, 0, .zeros 6⟩ := by decide

theorem test_release_handed :
    let s := waiting 0 .a (.lock 42) (some 300) (holding .b 42 two)
    let t := go (.release .b) (asking .b .release [42] s)
    t.lock 42 = ⟨.held .a 1, 2⟩ ∧ (t.session .a).pendingAcquire = none ∧ (t.session .b).stack = [] ∧
      answer .b t = some ⟨.done, 0x21, none, 0, .release 42 0 true⟩ := by decide

/-! ### Counting cells and waits -/

/-- A COUNTER with two waiters (11.3). -/
def flow : State :=
  waiting 1 .b (.take 320 1) none (waiting 0 .a (.take 320 2) (some 1000) (two.setCell 320 (.counter 8 0)))

theorem test_take_waits :
    let s := two.setCell 320 (.counter 8 0)
    let t := go (.take .a) (asking .a .take [0x01, 0x40, 2, 0x03, 0xE8] s)
    t.pool = [⟨0, .a, 1, 1, .take 320 2, some 1000⟩] ∧ (t.session .a).reserved = 1 ∧
      answer .a t = some ⟨.pending, 0x28, none, 0, .take 320 2 0 1 0⟩ := by decide

theorem test_give_walks :
    let t := go (.give .b) (asking .b .give [0x01, 0x40, 3] flow)
    t.cell 320 = .counter 8 0 ∧ t.pool = [] ∧ (t.session .a).queue = [⟨0, .taken 1 320 1⟩] ∧
      (t.session .b).queue = [⟨0, .taken 2 320 0⟩] ∧
      answer .b t = some ⟨.done, 0x29, none, 0, .give 320 3 0 2⟩ := by decide

theorem test_await_holds :
    answer .a (go (.await .a) (asking .a .await [0, 96, 4, 0, 0, 0, 9] two)) =
      some ⟨.done, 0x30, none, 0, .await 96 ⟨.plain, 0⟩ 0⟩ := by decide

/-- The cancelled head waiter lets the walk serve the next one, with origin none. -/
theorem test_cancel_walks :
    let s := flow.setCell 320 (.counter 8 1)
    let t := go (.cancel .a) (asking .a .cancel [1] s)
    t.cell 320 = .counter 8 0 ∧ t.pool = [] ∧ (t.session .a).reserved = 0 ∧
      (t.session .b).queue = [⟨0, .taken 2 320 0⟩] := by decide

theorem test_expiry :
    let t := go (.expiryItem 0) (working (.expiry 0 .a 1) flow)
    (t.session .a).queue = [⟨0, .timedOut 1 .takeWait 320⟩] ∧ t.pool.length = 1 ∧ t.service = .idle := by decide

/-! ### Watches and events -/

/-- A watches cell 82 and hears of a change by B. -/
def watching : State := two.modSession .a fun x => { x with watches := [⟨82, false⟩] }

theorem test_watch :
    let t := go (.watch .b) (asking .b .watch [0, 82] watching)
    (t.session .b).watches = [⟨82, false⟩] ∧
      answer .b t = some ⟨.done, 0x38, none, 0, .watch 82 ⟨.plain, 0⟩ 1⟩ := by decide

theorem test_changed :
    let s := watching.setCell 82 (.members 0)
    let t := go (.chain .b) (asking .b .chain [1, 0x20, 0, 82, 0, 1] s)
    (t.session .a).queue = [⟨0, .changed 82 ⟨.members, 2⟩ .b 1⟩] ∧ (t.session .a).watches = [⟨82, true⟩] := by decide

/-- The queue of A holds a CHANGED record of the watched cell. -/
def told : State :=
  two.modSession .a fun x =>
    { x with watches := [⟨82, true⟩], queue := [⟨0, .changed 82 ⟨.members, 2⟩ .b 1⟩], sequence := 1 }

theorem test_unwatch :
    let t := go (.unwatch .a) (asking .a .unwatch [0, 82] told)
    (t.session .a).watches = [] ∧ (t.session .a).queue = [] ∧
      answer .a t = some ⟨.done, 0x39, none, 0, .unwatch 82 true 0⟩ := by decide

theorem test_fetch :
    let t := go (.fetch .a) (asking .a .fetch [4] told)
    (t.session .a).watches = [⟨82, false⟩] ∧ (t.session .a).queue = [] ∧
      answer .a t = some ⟨.done, 0x3A, none, 0, .fetch 0 0 [⟨0, .changed 82 ⟨.members, 2⟩ .b 1⟩]⟩ := by decide

/-! ### Ticks -/

theorem test_tick :
    let t := go .timebaseTick (waiting 0 .a (.lock 5) (some 2) two)
    (t.session .a).leaseRemaining = 99 ∧ t.pool.map WaitEntry.deadline = [some 1] ∧ t.service = .idle := by decide

theorem test_deadlineZero :
    let t := go (.deadlineZero 0) (waiting 0 .a (.lock 5) (some 1) two)
    t.pool.map WaitEntry.deadline = [some 0] ∧ t.service = .serving (.item (.expiry 0 .a 1)) := by decide

theorem test_leaseLow :
    (((go (.leaseLow .a) (opened .a 51 ready)).session .a).queue) = [⟨0, .leaseLow 50⟩] := by decide

theorem test_lapse :
    let t := go (.lapse .a) (opened .a 1 ready)
    (t.session .a).state = .ending ∧ t.service = .serving (.item (.teardown .a)) := by decide

/-! ### Links and resets -/

theorem test_poll :
    let s := ready.modPort .a fun x => { x with slot := .ready ⟨.refused, 0x77, some .malformed, 0, .zeros 0⟩ }
    let t := go (.pollFrame .a (.whole .mode3 (List.replicate 7 0) [])) s
    (t.port .a).slot = .idle ∧ (t.port .a).out.take 48 = wire [0x40, 5, 3, 0x77, 1, 0] := by decide +kernel

/-- A POLL in two segments: the slot is emptied at the deselect only. -/
theorem test_poll_segments :
    let s := ready.modPort .a fun x => { x with slot := .ready ⟨.refused, 0x77, some .malformed, 0, .zeros 0⟩ }
    let t := go (.pollFrame .a (.start .mode0 (List.replicate 6 0) [])) s
    let u := go (.pollFrame .a (.finish [] [])) t
    (t.port .a).slot.respReady = true ∧ (u.port .a).slot = .idle := by decide +kernel

theorem test_requestFrame_bad_crc :
    let t := go (.requestFrame .a (.whole .mode0 [3, 1, 5, 0xEE] [])) ready
    (t.port .a).linkErrors = 1 ∧ (t.port .a).slot = .idle := by decide +kernel

theorem test_portReset_idle :
    let t := go (.portResetFrame .a (.whole .mode0 [0x3C] [])) two
    (t.session .a).endCause = .portReset ∧ t.service = .serving (.item (.teardown .a)) := by decide

theorem test_portReset_waits :
    let t := go (.portResetFrame .a (.whole .mode0 [0x3C] [])) (asking .b .status [] two)
    (t.port .a).resetPending = true ∧ (t.session .a).state = .opened := by decide

theorem test_portResetActs :
    let s := go (.portResetFrame .a (.whole .mode0 [0x3C] [])) (asking .b .status [] two)
    let t := go (.portResetActs .a) (go (.status .b) s)
    (t.session .a).state = .ending ∧ t.deferred = [] := by decide

theorem test_unknownType :
    ((go (.unknownFrameType .a 0xC4 (.whole .mode0 [0] [])) ready).port .a).linkErrors = 1 := by decide

theorem test_damagedRequest :
    ((go (.damagedRequestFrame .a (.whole .mode0 [2] [])) ready).port .a).linkErrors = 1 := by decide

theorem test_damagedReset :
    ((go (.damagedPortReset .a (.whole .mode0 [] [true, true, true])) ready).port .a).linkError = true := by decide

/-- Seven bits of a first byte are no link error; they found seven bits of the status byte. -/
theorem test_aborted :
    let t := go (.requestFrame .a (.aborted .mode0 [true, true, false, false, false, false, false])) two
    (t.port .a).linkErrors = 0 ∧ (t.port .a).receiver = .idle ∧
      (t.port .a).out = [false, false, false, true, false, false, false] := by decide

/-- A port reset that acts between the select and an unknown frame type: the error is counted after it, on a status byte
that shows the port as it stood at the select. -/
theorem test_reset_between_select_and_type :
    let s := two.modPort .a fun x => { x with linkErrors := 9 }
    let s := go (.portResetFrame .a (.whole .mode0 [0x3C] [])) (asking .b .status [] s)
    let s := go (.portResetActs .a) (go (.status .b) (go (.unknownFrameType .a 0x55 (.select .mode0)) s))
    let t := go (.unknownFrameType .a 0x55 (.first [] [])) s
    (s.port .a).linkErrors = 0 ∧ (t.port .a).linkErrors = 1 ∧ (t.port .a).out = wire [0x10] := by decide

/-- A RESET line in the middle of a byte: the bits before it were driven, and those after it are ignored. -/
theorem test_reset_inside_byte :
    let s := go .resetLine (go (.pollFrame .a (.start .mode3 [] [true, true])) two)
    let t := go (.pollFrame .a (.finish [0, 0] [])) (go .resetReturnsHigh s)
    (s.port .a).selected = true ∧ (t.port .a).selected = false ∧ (t.port .a).out.length = 10 ∧ sdo s .a = none := by
  decide

theorem test_unknownKind :
    let s := { ready.modPort .a fun x => { x with slot := .serving ⟨0, 0x77, []⟩ } with
      service := .serving (.request .a 0) }
    answer .a (go (.unknownKindCode .a) s) = some ⟨.refused, 0x77, some .malformed, 0, .zeros 0⟩ := by decide

theorem test_resetLine :
    let t := go .resetLine (holding .a 5 two)
    t.bankSuspect 5 = true ∧ t.lock 5 = ⟨.free, 0⟩ ∧ (t.session .a).epoch = 1 ∧
      (t.session .a).endCause = .deviceReset ∧ t.resetLow = true := by decide

theorem test_resetReturnsHigh : (go .resetReturnsHigh (go .resetLine two)).resetLow = false := by decide
theorem test_initComplete : (go .initComplete State.reset).initialised = true := by decide
theorem test_powerOn : ((go .powerOn two).session .a).epoch = 0 := by decide

/-- A command whose event does not take place leaves the state (log entry 2). -/
theorem test_not_in_service : answer .a (go (.status .b) (asking .a .status [] two)) = none := by decide

/-! ### States that meet the hypotheses of the statements -/

theorem serves_asking (p : Port) (k : Kind) (payload : List Byte) (s : State) :
    Serves (asking p k payload s) p ⟨(s.session p).epoch, k.code, payload⟩ := by
  exact ⟨⟨0, rfl⟩, by simp [asking]⟩

theorem admits_asking {p : Port} {k : Kind} {payload : List Byte} {s : State} (hp : payloadSuits k payload = true)
    (ho : (s.session p).state = .opened) : Admits (asking p k payload s) p k payload :=
  ⟨_, serves_asking p k payload s, hp, fun _ => ⟨ho, rfl⟩⟩

theorem admits_asking_closed {p : Port} {k : Kind} {payload : List Byte} {s : State}
    (hp : payloadSuits k payload = true) (hk : k.needsOpen = false) : Admits (asking p k payload s) p k payload :=
  ⟨_, serves_asking p k payload s, hp, fun h => by rw [hk] at h; cases h⟩

theorem ready_atRest : AtRest ready := by unfold AtRest; decide
theorem two_atRest : AtRest two := by unfold AtRest; decide

theorem test_hyp_StepRunsTheFrontCommand :
    ({ two with pending := [.timebaseTick, .resetLine] } : State).pending = .timebaseTick :: [.resetLine] := rfl

theorem test_hyp_ResetLineValues :
    (Serves (asking .a .give [1, 64, 3] two) .a ⟨1, 0x29, [1, 64, 3]⟩ ∧ (0x29 : Byte) = Kind.give.code) ∧
    (∃ s, Serves s .a ⟨0, 0x77, []⟩ ∧ ∀ k : Kind, (0x77 : Byte) ≠ k.code) ∧
    (working (.expiry 23 .d 255) two).service = .serving (.item (.expiry 23 .d 255)) ∧
    (working (.teardown .a) two).service = .serving (.item (.teardown .a)) ∧ AtRest two :=
  ⟨⟨serves_asking .a .give _ two, rfl⟩,
    ⟨{ ready.modPort .a fun x => { x with slot := .serving ⟨0, 0x77, []⟩ } with service := .serving (.request .a 0) },
      ⟨⟨0, rfl⟩, rfl⟩, fun k => by cases k <;> decide⟩, rfl, rfl, two_atRest⟩

theorem test_hyp_NoAnswerBeforeInitialisation :
    (AtRest State.reset ∧ State.reset.initialised = false ∧ (State.reset.port .a).selected = false) ∧
    (∃ s : State, AtRest s ∧ s.resetLow = true ∧ s.initialised = true ∧ (s.port .d).selected = false) ∧
    (∃ s : State, AtRest s ∧ s.resetLow = true ∧ (s.port .d).selected = true ∧ (s.port .d).receiver = .idle) ∧
    (∃ w, (asking .a .status [] State.reset).service = .serving w) :=
  ⟨by unfold AtRest; decide, ⟨{ ready with resetLow := true }, by unfold AtRest; decide⟩,
    ⟨{ ready.modPort .d fun x => { x with selected := true } with resetLow := true }, by unfold AtRest; decide⟩, ⟨_, rfl⟩⟩

/-- Port B has a HELD request, and the pointer is at D. -/
def heldAt (p : Port) (s : State) : State := s.modPort p fun x => { x with slot := .held ⟨1, 0x05, []⟩ }

theorem test_hyp_ArbiterChoice :
    (∃ s : State, s.workList = [.teardown .a] ++ .expiry 23 .d 255 :: [.teardown .b]) ∧
    (∃ s : State, (∀ i ∈ s.workList, ∃ q, i = .teardown q) ∧ .teardown s.rotation ∈ s.workList) ∧
    (∃ s : State, (∀ i ∈ s.workList, ∃ q, i = .teardown q) ∧ .teardown s.rotation ∉ s.workList ∧
      rotationFrom s.rotation = [.a, .b, .c] ++ .d :: [] ∧
      (∀ q ∈ [Port.a, .b, .c], holdsRequest s q = false ∧ .teardown q ∉ s.workList) ∧ holdsRequest s .d = true) ∧
    (∃ s : State, (∀ i ∈ s.workList, ∃ q, i = .teardown q) ∧ .teardown s.rotation ∉ s.workList ∧
      rotationFrom s.rotation = [] ++ .a :: [.b, .c, .d] ∧ holdsRequest s .a = false ∧ .teardown .a ∈ s.workList) ∧
    ready.workList = [] ∧ ∀ q, holdsRequest ready q = false :=
  ⟨⟨{ ready with workList := [.teardown .a, .expiry 23 .d 255, .teardown .b] }, rfl⟩,
    ⟨{ ready with workList := [.teardown .d] }, by simp, by decide⟩,
    ⟨heldAt .d ready, by simp [heldAt, ready, State.reset], by decide, by decide, by decide, by decide⟩,
    ⟨{ ready with workList := [.teardown .a] }, by simp, by decide, by decide, by decide, by decide⟩,
    rfl, fun q => by cases q <;> rfl⟩

theorem test_hyp_TakingAndEndingWork :
    ((heldAt .b ready).service = .idle ∧ choose (heldAt .b ready) = some (.request .b 0) ∧
      ((heldAt .b ready).port .b).slot = .held ⟨1, 0x05, []⟩) ∧
    choose { ready with workList := [.teardown .a] } = some (.item (.teardown .a)) ∧
    choose ready = none ∧ (working (.teardown .a) two).service = .serving (.item (.teardown .a)) ∧
    ({ two with deferred := [.tick, .tick] } : State).deferred = List.replicate 2 .tick ∧
    ({ two with deferred := [.portReset .a, .tick] } : State).deferred = List.replicate 0 .tick ++ .portReset .a :: [.tick] ∧
    ({ two with deferred := [.tick, .tick, .portReset .a, .portReset .b] } : State).deferred =
      List.replicate 2 .tick ++ .portReset .a :: [.portReset .b] ∧
    two.service = .idle ∧ (∀ p, Instr.timebaseTick ≠ .portResetActs p) ∧ Instr.timebaseTick ≠ .initComplete ∧
    Instr.timebaseTick ≠ .resetReturnsHigh := by
  refine ⟨by decide, by decide, by decide, by decide, by decide, by decide, by decide, by decide, ?_, by decide, by decide⟩
  intro p h
  cases h

theorem test_hyp_CommonChecks :
    (Serves (asking .a .chain [1] two) .a ⟨1, 0x10, [1]⟩ ∧ payloadSuits .chain [1] = false) ∧
    (Serves (asking .c .give [1, 64, 1] two) .c ⟨0, 0x29, [1, 64, 1]⟩ ∧ payloadSuits .give [1, 64, 1] = true ∧
      Kind.give.needsOpen = true ∧ ((asking .c .give [1, 64, 1] two).session .c).state = .closed) ∧
    (∃ s r, Serves s .a r ∧ r.kind = Kind.give.code ∧ payloadSuits .give r.payload = true ∧
      (s.session .a).state = .ending) ∧
    ∃ s r, Serves s .a r ∧ r.kind = Kind.give.code ∧ payloadSuits .give r.payload = true ∧
      (s.session .a).state = .opened ∧ r.epoch ≠ (s.session .a).epoch :=
  ⟨⟨serves_asking .a .chain _ two, rfl⟩, ⟨serves_asking .c .give _ two, rfl, rfl, rfl⟩,
    ⟨asking .a .give [1, 64, 1] (two.modSession .a fun x => { x with state := .ending }), _,
      serves_asking .a .give _ _, rfl, rfl, rfl⟩,
    ⟨(asking .a .give [1, 64, 1] two).modSession .a (fun x => { x with epoch := 2 }), ⟨1, 0x29, [1, 64, 1]⟩,
      ⟨⟨0, rfl⟩, rfl⟩, rfl, rfl, rfl, by decide⟩⟩

theorem test_hyp_UnknownKindRefused : ∃ s, Serves s .a ⟨0, 0x06, [9]⟩ ∧ ∀ k : Kind, (0x06 : Byte) ≠ k.code :=
  ⟨{ ready.modPort .a fun x => { x with slot := .serving ⟨0, 0x06, [9]⟩ } with service := .serving (.request .a 0) },
    ⟨⟨0, rfl⟩, rfl⟩, fun k => by cases k <;> decide⟩

theorem test_hyp_OneResponsePerRequest :
    Serves (asking .d .fetch [4] two) .d ⟨0, 0x3A, [4]⟩ ∧ (0x3A : Byte) = Kind.fetch.code :=
  ⟨serves_asking .d .fetch _ two, rfl⟩

theorem test_hyp_OpenSession :
    (Admits (asking .a .openSession [5] two) .a .openSession [5] ∧
      ((asking .a .openSession [5] two).session .a).state = .opened) ∧
    (∃ s, Admits s .a .openSession [5] ∧ (s.session .a).state = .ending) ∧
    (Admits (asking .c .openSession [0] two) .c .openSession [0] ∧
      ((asking .c .openSession [0] two).session .c).state = .closed) ∧
    Admits (asking .c .openSession [255] two) .c .openSession [255] ∧
      ((asking .c .openSession [255] two).session .c).state = .closed ∧ (255 : Byte) ≠ 0 :=
  ⟨⟨admits_asking rfl rfl, rfl⟩,
    ⟨asking .a .openSession [5] (two.modSession .a fun x => { x with state := .ending }), admits_asking_closed rfl rfl, rfl⟩,
    ⟨admits_asking_closed rfl rfl, rfl⟩, admits_asking_closed rfl rfl, rfl, by decide⟩

/-- B's next renewal is RENEW-ODD. -/
def odd : State := two.modSession .b fun x => { x with expected := .odd }

theorem test_hyp_Renewals :
    (two.session .a).leasePeriod = some 200 ∧
    (Admits (asking .a .renewEven [] odd) .a .renewEven [] ∧ (odd.session .a).expected = .even) ∧
    (Admits (asking .b .renewEven [] odd) .b .renewEven [] ∧ (odd.session .b).expected = .odd) ∧
    (Admits (asking .b .renewOdd [] odd) .b .renewOdd [] ∧ (odd.session .b).expected = .odd) ∧
    Admits (asking .a .renewOdd [] odd) .a .renewOdd [] ∧ (odd.session .a).expected = .even :=
  ⟨rfl, ⟨admits_asking rfl rfl, rfl⟩, ⟨admits_asking rfl rfl, rfl⟩, ⟨admits_asking rfl rfl, rfl⟩,
    admits_asking rfl rfl, rfl⟩

theorem test_hyp_StatusReports :
    (asking .c .status [] two).service = .serving (.request .c 0) ∧
      ((asking .c .status [] two).port .c).slot = .serving ⟨0, 0x05, []⟩ := ⟨rfl, rfl⟩

theorem test_hyp_CloseSession : Admits (asking .a .closeSession [] two) .a .closeSession [] := admits_asking rfl rfl

/-- A holds six locks. -/
def six : State := holding .a 47 (holding .a 46 (holding .a 45 (holding .a 44 (holding .a 43 (holding .a 42 two)))))

theorem test_hyp_Teardown :
    (working (.teardown .a) two).service = .serving (.item (.teardown .a)) ∧
    (∃ s : State, 31 ∈ (s.session .a).stack ∧ lockBank 31 = some 31 ∧ 32 ∈ (s.session .a).stack ∧
      lockBank 32 = none ∧ bankLock 30 ∉ (s.session .a).stack ∧ 33 ∉ (s.session .a).stack) ∧
    (320 ∈ headedCells .a flow ∧ 511 ∉ headedCells .a flow ∧ (flow.pool.map WaitEntry.number).Nodup) ∧
    (lockWaiters two 47 = [] ∧
      lockWaiters (waiting 0 .b (.lock 47) none six) 47 = ⟨0, .b, 1, 1, .lock 47, none⟩ :: []) ∧
    (((waiting 0 .b (.lock 47) none six).pool.map WaitEntry.number).Nodup ∧ (six.session .a).stack.Nodup ∧
      47 ∈ (six.session .a).stack ∧
      ((lockWaiters (waiting 0 .b (.lock 47) none six) 47).filter fun w => w.port ≠ .a) =
        ⟨0, .b, 1, 1, .lock 47, none⟩ :: []) ∧
    46 ∈ (six.session .a).stack ∧ ((lockWaiters six 46).filter fun w => w.port ≠ .a) = [] :=
  ⟨rfl, ⟨holding .a 32 (holding .a 31 two), by decide⟩, by decide, by decide, by decide, by decide⟩

theorem test_hyp_FormatSetsTheCell :
    (Admits (asking .a .formatCell (formatPayload 512 (.plain 1)) two) .a .formatCell (formatPayload 512 (.plain 1)) ∧
      512 ≤ (512 : Word).toNat) ∧
    (Admits (asking .a .formatCell (formatPayload 511 (.counter 0 0)) two) .a .formatCell
        (formatPayload 511 (.counter 0 0)) ∧ Cell.fits (.counter 0 0) = false) ∧
    (∃ s, Admits s .a .formatCell (formatPayload 511 (.counter 1 1)) ∧ Cell.fits (.counter 1 1) = true ∧
      guardedAgainst s .a 511 = true) ∧
    (∃ s, Admits s .a .formatCell (formatPayload 320 (.members 3)) ∧ guardedAgainst s .a 320 = false ∧
      cellBusy s 320 = true) ∧
    ∃ s, Admits s .a .formatCell (formatPayload 511 (.counter 1 1)) ∧ (511 : Word).toNat = (511 : Fin 512).val ∧
      guardedAgainst s .a 511 = false ∧ cellBusy s 511 = false :=
  ⟨⟨admits_asking rfl rfl, by decide⟩, ⟨admits_asking rfl rfl, by decide⟩,
    ⟨asking .a .formatCell _ (holding .b 31 two), admits_asking rfl rfl, by decide, by decide⟩,
    ⟨asking .a .formatCell _ flow, admits_asking rfl rfl, by decide, by decide⟩,
    ⟨asking .a .formatCell _ two, admits_asking rfl rfl, by decide, by decide, by decide⟩⟩

theorem test_hyp_BankGuarding :
    (two.lock (bankLock (bankOf 511))).state = .free ∧
      ((holding .b 31 two).lock (bankLock (bankOf 511))).state = .held .b 1 := by decide

theorem test_hyp_GatherReadsTheRun :
    (∀ first n, Admits (asking .a .gather (wordBytes first ++ [n]) two) .a .gather (wordBytes first ++ [n])) ∧
    8 < (9 : Byte).toNat ∧ 512 < (511 : Word).toNat + (2 : Byte).toNat ∧
      0 < (8 : Byte).toNat ∧ (8 : Byte).toNat ≤ 8 ∧ (504 : Word).toNat + (8 : Byte).toNat ≤ 512 :=
  ⟨fun _ _ => admits_asking rfl rfl, by decide⟩

theorem test_hyp_OnlyNetChangesAreHandedOn :
    ∀ c ∈ [(0 : Fin 512), 511], (two.cells[c]).reported = (two.cell c).reported := fun _ _ => rfl

theorem test_hyp_StepCodes :
    512 ≤ (512 : Word).toNat ∧ 16 ≤ (16 : Word).toNat ∧
      (0x1C : Byte) ∉ [0x01, 0x02, 0x03, 0x04, 0x10, 0x11, 0x12, 0x13, 0x14, 0x15, 0x16, 0x18, 0x19, 0x1A, 0x1B, 0x20,
        0x21, 0x30, 0x31, 0x32, 0x33, 0x34, 0x35] := by decide

/-- A chain in progress over cells of each kind, with W 5. -/
def midway : ChainRun :=
  { ChainRun.start ((two.setCell 0 (.members 0x8001)).setCell 511 (.plain 5)).cells with w := 5 }

theorem test_hyp_MovingSteps :
    midway.cells[(0 : Fin 512)] = .members 0x8001 ∧ midway.cells[(511 : Fin 512)] = .plain midway.w := by decide +kernel

theorem test_hyp_StoringSteps :
    midway.cells[(511 : Fin 512)] = .plain 5 ∧ midway.cells[(0 : Fin 512)] = .members 0x8001 ∧
      (0x8001 : Word).getLsbD 15 = true ∧ (0x8001 : Word).getLsbD 1 = false := by decide +kernel

theorem test_hyp_GuardsAndPassingOver :
    midway.cells[(0 : Fin 512)] = .members 0x8001 ∧ [ChainStep.whenZero] ≠ [] ∧
      [ChainStep.whenNonzero, .load 1, .whenNonzero, .load 1, .whenNonzero, .load 1].length ≤ 6 ∧
      (runSteps [.whenNonzero, .load 1, .whenNonzero, .load 1, .whenNonzero, .load 1] false
        (ChainRun.start two.cells)).passed = 3 := by decide

/-- Two steps with their readings: LOAD 5 and WRITE cell 511. -/
def rawPair : List RawStep := [⟨0x02, 0, 5⟩, ⟨0x03, 511, 0⟩]

theorem test_passAll : PassAll two .a rawPair [.load 5, .write 511] := by
  refine ⟨rfl, fun x hx => ?_⟩
  simp only [rawPair, List.zip_cons_cons, List.zip_nil_right, List.mem_cons, List.not_mem_nil, or_false] at hx
  rcases hx with rfl | rfl
  · exact ⟨rfl, fun c hc => by cases hc⟩
  · refine ⟨rfl, fun c hc => ?_⟩
    cases hc
    exact ⟨by decide +kernel, fun _ => by decide +kernel⟩

theorem test_hyp_ChainRuns :
    Admits (asking .a .chain (chainPayload 2 rawPair) two) .a .chain (chainPayload 2 rawPair) ∧
      (2 : Byte).toNat = rawPair.length ∧ 1 ≤ (2 : Byte).toNat ∧ (2 : Byte).toNat ≤ 6 ∧
      PassAll (asking .a .chain (chainPayload 2 rawPair) two) .a rawPair [.load 5, .write 511] :=
  ⟨admits_asking rfl rfl, rfl, by decide, by decide, test_passAll⟩

theorem test_hyp_ChainIsRefusedWhole :
    (Admits (asking .a .chain (chainPayload 0 []) two) .a .chain (chainPayload 0 []) ∧ (0 : Byte).toNat = 0) ∧
    (Admits (asking .a .chain (chainPayload 7 (List.replicate 7 ⟨0x30, 0, 0⟩)) two) .a .chain
        (chainPayload 7 (List.replicate 7 ⟨0x30, 0, 0⟩)) ∧ 6 < (7 : Byte).toNat) ∧
    (∀ raw : RawStep,
      Admits (asking .a .chain (chainPayload 3 (rawPair ++ raw :: [])) (holding .b 4 two)) .a .chain
        (chainPayload 3 (rawPair ++ raw :: []))) ∧
    ChainStep.ofRaw ⟨0x1C, 0, 0⟩ = .error .malformed ∧ ChainStep.ofRaw ⟨0x03, 512, 0⟩ = .error .range ∧
    (ChainStep.ofRaw ⟨0x20, 64, 15⟩ = .ok (.insert 64 15) ∧
      (ChainStep.insert 64 15).accepts ((holding .b 4 two).cell 64).kind = false) ∧
    ChainStep.ofRaw ⟨0x03, 64, 0⟩ = .ok (.write 64) ∧
      (ChainStep.write 64).accepts ((holding .b 4 two).cell 64).kind = true ∧
      (ChainStep.write 64).modifies = true ∧ guardedAgainst (holding .b 4 two) .a 64 = true :=
  ⟨⟨admits_asking rfl rfl, rfl⟩, ⟨admits_asking rfl rfl, by decide⟩, fun _ => admits_asking rfl rfl, rfl, rfl,
    ⟨rfl, by decide⟩, rfl, by decide⟩

/-- A port whose eight live entries are all taken. -/
def busy : State := two.modSession .a fun x => { x with liveWaits := 8 }

theorem test_hyp_AcquireALock :
    (∀ b t s, (s.session .a).state = .opened →
      Admits (asking .a .acquire (b :: wordBytes t) s) .a .acquire (b :: wordBytes t)) ∧
    48 ≤ (48 : Byte).toNat ∧ (47 : Byte).toNat = (47 : Fin 48).val ∧
    (six.session .a).state = .opened ∧ 47 ∈ (six.session .a).stack ∧
    ((waiting 0 .a (.lock 5) none two).session .a).pendingAcquire ≠ none ∧
    (6 ≤ (six.session .a).stack.length ∧ 41 ∉ (six.session .a).stack ∧ (six.session .a).pendingAcquire = none) ∧
    (two.lock 47).state = .free ∧ ((holding .b 47 two).lock 47).state = .held .b 1 ∧
    cycleFrom (waiting 0 .b (.lock 41) none (holding .b 42 (holding .a 41 two))) .a 4 .b = true ∧
    cycleFrom (holding .b 47 two) .a 4 .b = false ∧
    (∃ r, createEntry .a (.lock 47) 1 (holding .b 47 busy) = .error r) ∧
    ∃ t u, createEntry .a (.lock 47) 1 (holding .b 47 two) = .ok (t, u) :=
  ⟨fun _ _ _ h => admits_asking rfl h, by decide, by decide, by decide, by decide, by decide, by decide, by decide,
    by decide, by decide, by decide, ⟨.portWaits, rfl⟩, _, _, rfl⟩

theorem test_hyp_ReleaseTheTopLock :
    (∀ b s, (s.session .a).state = .opened → Admits (asking .a .release [b] s) .a .release [b]) ∧
    48 ≤ (48 : Byte).toNat ∧ ((waiting 0 .a (.lock 5) none two).session .a).pendingAcquire ≠ none ∧
    (¬((six.lock 46).state = .held .a (six.session .a).epoch ∧ (six.session .a).stack.getLast? = some 46)) ∧
    ((six.session .a).pendingAcquire = none ∧ (six.lock 47).state = .held .a (six.session .a).epoch ∧
      (six.session .a).stack.getLast? = some 47 ∧ lockWaiters six 47 = []) ∧
    lockWaiters (waiting 0 .b (.lock 47) none six) 47 = ⟨0, .b, 1, 1, .lock 47, none⟩ :: [] :=
  ⟨fun _ _ h => admits_asking rfl h, by decide⟩

theorem test_hyp_HandoffToTheHeadWaiter :
    (⟨0, .b, 1, 1, .lock 47, none⟩ : WaitEntry).wait = .lock 47 := rfl

theorem test_hyp_TakeUnits :
    (∀ w a t s, (s.session .a).state = .opened →
      Admits (asking .a .take (wordBytes w ++ a :: wordBytes t) s) .a .take (wordBytes w ++ a :: wordBytes t)) ∧
    512 ≤ (512 : Word).toNat ∧ (two.cell 320).kind ≠ .counter ∧ flow.cell 320 = .counter 8 0 ∧
    (8 : Word).toNat < (9 : Byte).toNat ∧ (8 : Byte).toNat ≤ (8 : Word).toNat ∧
    guardedAgainst (holding .b 20 flow) .a 320 = true ∧ guardedAgainst flow .a 320 = false ∧
    takeWaiters (two.setCell 320 (.counter 8 8)) 320 = [] ∧ takeWaiters flow 320 ≠ [] ∧
    (∃ r, createEntry .a (.take 320 8) 1 (busy.setCell 320 (.counter 8 7)) = .error r) ∧
    ∃ t u, createEntry .a (.take 320 8) 65535 (two.setCell 320 (.counter 8 7)) = .ok (t, u) :=
  ⟨fun _ _ _ _ h => admits_asking rfl h, by decide, by decide, by decide, by decide, by decide, by decide, by decide,
    by decide, by decide, ⟨.portWaits, rfl⟩, _, _, rfl⟩

theorem test_hyp_GiveUnits :
    (∀ w a s, (s.session .a).state = .opened →
      Admits (asking .a .give (wordBytes w ++ [a]) s) .a .give (wordBytes w ++ [a])) ∧
    512 ≤ (512 : Word).toNat ∧ (two.cell 320).kind ≠ .counter ∧ flow.cell 320 = .counter 8 0 ∧
    guardedAgainst (holding .b 20 flow) .a 320 = true ∧ guardedAgainst flow .a 320 = false ∧
    (8 : Word).toNat < (0 : Word).toNat + (9 : Byte).toNat ∧ (0 : Word).toNat + (8 : Byte).toNat ≤ (8 : Word).toNat ∧
    takeWaiters (two.setCell 320 (.counter 8 8)) 320 = [] :=
  ⟨fun _ _ _ h => admits_asking rfl h, by decide⟩

theorem test_hyp_GrantWalkServesInOrder : NumbersDistinct flow ∧ flow.cell 320 = .counter 8 0 := by
  unfold NumbersDistinct
  decide

/-- All 24 entries are live, and none is port A's by its count. -/
def full : State :=
  { two with pool := List.ofFn fun n : Fin 24 => ⟨n, .d, 1, BitVec.ofNat 8 (n.val + 1), .lock 5, none⟩ }

theorem test_hyp_WaitEntryIsCreated :
    8 ≤ (busy.session .a).liveWaits ∧
    ((full.session .a).liveWaits < 8 ∧ ∀ n, ∃ w ∈ full.pool, w.number = n) ∧
    ((two.session .a).liveWaits < 8 ∧ ∀ w ∈ flow.pool, w.number ≠ (2 : Fin 24)) ∧
    (∃ s : State, (∀ w ∈ s.pool, w.number ≠ (0 : Fin 24)) ∧ (s.session .a).liveWaits < 8 ∧
      16 ≤ (s.session .a).queue.length + (s.session .a).reserved) ∧
    ((flow.session .a).queue.length + (flow.session .a).reserved < 16 ∧
      ∀ m, m < (2 : Fin 24) → ∃ w ∈ flow.pool, w.number = m) ∧
    flow.pool.length ≤ 24 ∧ (flow.session .a).nextTicket ≠ 0 :=
  ⟨by decide, by decide, by decide, ⟨two.modSession .a fun x => { x with reserved := 16 }, by decide⟩, by decide,
    by decide, by decide⟩

theorem test_hyp_AwaitACondition :
    (∀ w c o t s cond, Condition.ofCode c = some cond → (s.session .a).state = .opened →
      Admits (asking .a .await (wordBytes w ++ c :: (wordBytes o ++ wordBytes t)) s) .a .await
        (wordBytes w ++ c :: (wordBytes o ++ wordBytes t))) ∧
    Condition.ofCode 5 = some .contains ∧ Condition.ofCode 3 = some .atLeast ∧
    512 ≤ (512 : Word).toNat ∧ 16 ≤ (16 : Word).toNat ∧ (15 : Word).toNat < 16 ∧
    (two.cell 82).reported.kind ≠ .members ∧ ((two.setCell 82 (.members 2)).cell 82).reported.kind = .members ∧
    Condition.contains.holds 1 ((two.setCell 82 (.members 2)).cell 82).reported = true ∧
    Condition.atLeast.holds 1 (two.cell 82).reported = false ∧
    (∃ r, createEntry .a (.await 82 .atLeast 1) 1 busy = .error r) ∧
    ∃ t u, createEntry .a (.await 82 .atLeast 1) 1 two = .ok (t, u) :=
  ⟨fun _ _ _ _ _ _ hc h => admits_asking (by simp [payloadSuits, wordBytes_eq, hc]) h, by decide, by decide, by decide,
    by decide, by decide, by decide, by decide, by decide, by decide, ⟨.portWaits, rfl⟩, _, _, rfl⟩

theorem test_hyp_CancelAndExpiry :
    (∀ t s, (s.session .a).state = .opened → Admits (asking .a .cancel [t] s) .a .cancel [t]) ∧
    (∀ w ∈ flow.pool, w.port = .a → w.ticket ≠ 9) ∧
    flow.pool.find? (fun v => v.port == .a && v.ticket == 1) = some ⟨0, .a, 1, 1, .take 320 2, some 1000⟩ ∧
    headOf ⟨0, .a, 1, 1, .take 320 2, some 1000⟩ flow = some 320 ∧
    headOf ⟨1, .b, 1, 2, .take 320 1, none⟩ flow = none ∧
    (working (.expiry 23 .a 9) flow).service = .serving (.item (.expiry 23 .a 9)) ∧
    (∀ w ∈ flow.pool, w.number ≠ (23 : Fin 24)) ∧ NumbersDistinct flow ∧
    ⟨0, .a, 1, 1, .take 320 2, some 1000⟩ ∈ flow.pool :=
  ⟨fun _ _ h => admits_asking rfl h, by decide, by decide, by decide, by decide, by decide, by decide,
    test_hyp_GrantWalkServesInOrder.1, by decide⟩

theorem test_hyp_AwaitsAreMet : NumbersDistinct (waiting 0 .b (.await 96 .equal 0) none two) := by
  unfold NumbersDistinct
  decide

/-- A watches eight cells. -/
def eight : State :=
  two.modSession .a fun x =>
    { x with watches := [⟨504, false⟩, ⟨505, false⟩, ⟨506, false⟩, ⟨507, false⟩, ⟨508, false⟩, ⟨509, false⟩,
      ⟨510, false⟩, ⟨511, false⟩] }

theorem test_hyp_WatchACell :
    (∀ w s, (s.session .a).state = .opened →
      Admits (asking .a .watch (wordBytes w) s) .a .watch (wordBytes w)) ∧
    512 ≤ (512 : Word).toNat ∧ 8 ≤ (eight.session .a).watches.length ∧
    ((told.session .a).watches.length < 8 ∧ ∃ v ∈ (told.session .a).watches, v.cell = 82) ∧
    ∀ v ∈ (told.session .a).watches, v.cell ≠ 511 :=
  ⟨fun _ _ h => admits_asking rfl h, by decide⟩

theorem test_hyp_UnwatchACell :
    (∀ w s, (s.session .a).state = .opened →
      Admits (asking .a .unwatch (wordBytes w) s) .a .unwatch (wordBytes w)) ∧
    512 ≤ (512 : Word).toNat ∧ (∀ v ∈ (told.session .a).watches, v.cell ≠ 511) ∧
    ∃ v ∈ (told.session .a).watches, v.cell = 82 :=
  ⟨fun _ _ h => admits_asking rfl h, by decide⟩

theorem test_hyp_FetchTheOldestRecords :
    (∀ n s, Admits (asking .c .fetch [n] s) .c .fetch [n]) ∧ 4 < (5 : Byte).toNat ∧ (4 : Byte) ≠ 0 ∧
      (4 : Byte).toNat ≤ 4 :=
  ⟨fun _ _ => admits_asking_closed rfl rfl, by decide⟩

theorem test_hyp_NoticesAreOfferedAndMerged :
    (told.session .a).queue.length + (told.session .a).reserved < 16 ∧
    16 ≤ ((two.modSession .a fun x => { x with reserved := 16 }).session .a).queue.length +
      ((two.modSession .a fun x => { x with reserved := 16 }).session .a).reserved ∧
    (∀ w ∈ (told.session .a).watches, w.cell ≠ 511) ∧
    (told.session .a).watches.find? (fun u => u.cell == 82) = some ⟨82, true⟩ ∧
    (watching.session .a).watches.find? (fun u => u.cell == 82) = some ⟨82, false⟩ := by decide

/-- B's work has set A's lease and entry 0, and items wait: entry 1 of B is due, B's lease is at its quarter and C's at
its end. -/
def ending : State :=
  { opened .c 1 (opened .b 51 flow) with
    fresh := ⟨some .a, some 0⟩, workList := [.teardown .d, .expiry 5 .a 7]
    pool := [⟨0, .a, 1, 1, .take 320 2, some 1⟩, ⟨1, .b, 1, 2, .take 320 1, some 1⟩] }

/-- The tick at the end of a piece spares what the piece set and appends its items after those that wait. -/
theorem test_tick_at_end :
    let t := tickActs ending
    t.pool.map WaitEntry.deadline = [some 1, some 0] ∧
      t.workList = [.teardown .d, .expiry 5 .a 7, .expiry 1 .b 2, .teardown .c] ∧
      (t.session .a).leaseRemaining = 100 ∧ (t.session .b).queue = [⟨0, .leaseLow 50⟩] ∧
      (t.session .c).state = .ending := by decide

theorem test_hyp_TickActs :
    ((ending.session .d).state ≠ .opened ∧ ending.fresh.lease = some .a) ∧
    ((ending.session .c).state = .opened ∧ (ending.session .c).leaseRemaining = 0 + 1 ∧
      ending.fresh.lease ≠ some .c) ∧
    ((ending.session .b).state = .opened ∧ (ending.session .b).leaseRemaining = 50 + 1 ∧
      ending.fresh.lease ≠ some .b ∧ 50 = (ending.session .b).leasePeriod.getD 0 / 4 ∧
      (ending.session .b).lowReported = false ∧
      (ending.session .b).queue.length + (ending.session .b).reserved < 16) ∧
    (∃ s : State, (s.session .b).state = .opened ∧ (s.session .b).leaseRemaining = 50 + 1 ∧
      s.fresh.lease ≠ some .b ∧ 50 = (s.session .b).leasePeriod.getD 0 / 4 ∧ (s.session .b).lowReported = false ∧
      16 ≤ (s.session .b).queue.length + (s.session .b).reserved) ∧
    ((two.session .a).state = .opened ∧ (two.session .a).leaseRemaining = 99 + 1 ∧ two.fresh.lease ≠ some .a ∧
      ¬(99 = (two.session .a).leasePeriod.getD 0 / 4 ∧ (two.session .a).lowReported = false)) ∧
    AtRest two ∧ (asking .a .status [] two).service = .serving (.request .a 0) :=
  ⟨by decide, by decide, by decide, ⟨ending.modSession .b fun x => { x with reserved := 16 }, by decide⟩, by decide,
    two_atRest, rfl⟩

theorem test_hyp_TicksNamedByTheirEffect :
    (AtRest (waiting 0 .a (.lock 5) (some 1) two) ∧
      (waiting 0 .a (.lock 5) (some 1) two).pool.find? (fun v => v.number == 0) =
        some ⟨0, .a, 1, 1, .lock 5, some 1⟩) ∧
    (AtRest (opened .a 51 ready) ∧ ((opened .a 51 ready).session .a).state = .opened ∧
      ((opened .a 51 ready).session .a).leasePeriod = some 200 ∧ 20 ≤ 200 ∧
      ((opened .a 51 ready).session .a).leaseRemaining = 200 / 4 + 1 ∧
      ((opened .a 51 ready).session .a).lowReported = false ∧
      ((opened .a 51 ready).session .a).queue.length + ((opened .a 51 ready).session .a).reserved < 16) ∧
    (∃ s, AtRest s ∧ (s.session .a).state = .opened ∧ (s.session .a).leasePeriod = some 20 ∧
      (s.session .a).leaseRemaining = 20 / 4 + 1 ∧ (s.session .a).lowReported = false ∧
      16 ≤ (s.session .a).queue.length + (s.session .a).reserved) ∧
    (AtRest (opened .a 1 ready) ∧ ((opened .a 1 ready).session .a).state = .opened ∧
      ((opened .a 1 ready).session .a).leaseRemaining = 1) ∧
    (∃ s : State, s.service = .serving (.item (.teardown .c)) ∧ s.deferred.count .tick = 1 ∧
      s.pool.find? (fun v => v.number == 0) = some ⟨0, .a, 1, 1, .lock 5, some 2⟩ ∧
      (s.session .a).state = .opened ∧ (s.session .a).leasePeriod = some 200 ∧
      (s.session .a).leaseRemaining = 200 / 4 + 1 + 1 ∧ (s.session .a).lowReported = false ∧
      (s.session .b).state = .opened ∧ (s.session .b).leaseRemaining = 1 + 1) ∧
    AtRest two ∧ (∀ v, two.pool.find? (fun v => v.number == 23) = some v → v.deadline ≠ some (0 + 1)) ∧
      (two.session .a).leasePeriod = some 200 ∧ (two.session .a).leaseRemaining ≠ 200 / 4 + 0 + 1 ∧
      (two.session .a).leaseRemaining ≠ 0 + 1 ∧
    (ending.pool.find? (fun v => v.number == 1) = some ⟨1, .b, 1, 2, .take 320 1, some 1⟩ ∧
      ending.fresh.entry ≠ some 1 ∧ (ending.session .b).leaseRemaining = 200 / 4 + 1 ∧ ending.fresh.lease ≠ some .b ∧
      (ending.session .c).leaseRemaining = 1 ∧ ending.fresh.lease ≠ some .c) := by
  unfold AtRest
  refine ⟨by decide, by decide, ⟨(opened .a 6 ready).modSession .a fun x =>
    { x with leasePeriod := some 20, reserved := 16 }, by decide⟩, by decide,
    ⟨{ working (.teardown .c) (waiting 0 .a (.lock 5) (some 2) (opened .b 2 (opened .a 52 ready))) with
      deferred := [.tick] }, by decide⟩, by decide, fun v h => (by cases h), by decide, by decide, by decide, by decide⟩

theorem test_hyp_RequestFrameIsAccepted :
    (AtRest two ∧ answers two = true ∧ (two.port .a).selected = false ∧ (two.port .a).slot = .idle ∧
      two.service = .idle) ∧
    (answers (asking .b .status [] two) = true ∧ ((asking .b .status [] two).port .a).selected = false ∧
      ((asking .b .status [] two).port .a).slot = .idle ∧
      (asking .b .status [] two).service = .serving (.request .b 0) ∧
      ((asking .b .status [] two).port .b).slot ≠ .idle) ∧
    ((List.replicate 57 (0 : Byte)).length ≤ 57 ∧ (List.replicate 7 true).length < 8) ∧
    ([3, 1, 5, 0] : List Byte) = [] ++ [3, 1, 5, 0] ∧ ([3, 1, 5, 0] : List Byte) = [3, 1, 5] ++ [0] ∧ ([0] : List Byte) ≠ [] ∧
    ∃ s : State, AtRest s ∧ (s.port .a).slot = .idle ∧
      (s.port .a).receiver = .active ⟨.mode0, 0x10, none, 0xC1 :: [3, 1, 5], [], .request⟩ :=
  ⟨⟨two_atRest, by decide⟩, by decide, by decide, by decide, by decide, by decide,
    two.modPort .a fun x => { x with receiver := .active ⟨.mode0, 0x10, none, 0xC1 :: [3, 1, 5], [], .request⟩ },
    by unfold AtRest; decide, rfl, rfl⟩

theorem test_hyp_LinkErrors :
    (AtRest two ∧ answers two = true ∧ (two.port .d).selected = false) ∧
    ((0xC4 : Byte) ≠ 0xC1 ∧ (0xC4 : Byte) ≠ 0xC2 ∧ (0xC4 : Byte) ≠ 0xC3) ∧
    requestCompletes [61] = false ∧ requestCompletes [3, 1, 5] = false ∧ [(0x3D : Byte)].head? ≠ some 0x3C ∧
    ([] : List Byte).head? ≠ some 0x3C ∧
    (3 ≤ (3 : Byte).toNat ∧ (3 : Byte).toNat ≤ 60 ∧ [(1 : Byte), 5].length + 1 = (3 : Byte).toNat ∧
      (0 : Byte) ≠ crc (0xC1 :: 3 :: [1, 5])) ∧
    (∃ s : State, AtRest s ∧ (s.port .d).receiver = .active ⟨.mode3, 0x10, none, [], [], .frameType⟩) ∧
    (List.replicate 7 true).length < 8 :=
  ⟨⟨two_atRest, by decide⟩, by decide, by decide, by decide, by decide, by decide,
    ⟨by decide, by decide, by decide, by decide +kernel⟩,
    ⟨two.modPort .d fun x => { x with receiver := .active ⟨.mode3, 0x10, none, [], [], .frameType⟩ },
      by unfold AtRest; decide, rfl⟩, by decide⟩

theorem test_hyp_PollReturnsTheResponse :
    (∃ s r, AtRest s ∧ answers s = true ∧ (s.port .a).selected = false ∧ (s.port .a).slot = .ready r) ∧
    (AtRest two ∧ ∀ r, (two.port .a).slot ≠ .ready r) ∧ (List.replicate 7 true).length < 8 ∧
    (∃ s resp, AtRest s ∧ (s.port .a).slot = .ready resp ∧
      (s.port .a).receiver = .active ⟨.mode0, 0x50, some [5, 3, 0x77, 1, 0, 9], 0xC2 :: [0, 0], [], .poll⟩) ∧
    [5, 3, 0x77, 1, 0, (9 : Byte)].length ≤ [0, (0 : Byte)].length + [0, 0, 0, (0 : Byte)].length ∧
    [0, (0 : Byte)].length + [0, 0, (0 : Byte)].length < [5, 3, 0x77, 1, 0, (9 : Byte)].length ∧
    ∃ s, AtRest s ∧ (s.port .a).receiver = .active ⟨.mode0, 0x10, none, 0xC2 :: [], [], .poll⟩ :=
  ⟨⟨two.modPort .a fun x => { x with slot := .ready ⟨.done, 0x05, none, 0, .zeros 0⟩ }, _, by unfold AtRest; decide, rfl,
    rfl, rfl⟩, ⟨two_atRest, fun r h => by cases h⟩, by decide,
    ⟨two.modPort .a fun x =>
      { x with
        slot := .ready ⟨.refused, 0x77, some .malformed, 0, .zeros 0⟩
        receiver := .active ⟨.mode0, 0x50, some [5, 3, 0x77, 1, 0, 9], 0xC2 :: [0, 0], [], .poll⟩ },
      _, by unfold AtRest; decide, rfl, rfl⟩, by decide, by decide,
    two.modPort .a fun x => { x with receiver := .active ⟨.mode0, 0x10, none, 0xC2 :: [], [], .poll⟩ },
    by unfold AtRest; decide, rfl⟩

theorem test_hyp_PortReset :
    ((two.session .a).state = .opened ∧ (two.session .c).state ≠ .opened) ∧
    (AtRest two ∧ answers two = true ∧ (two.port .a).selected = false) ∧
    ((asking .b .status [] two).service = .serving (.request .b 0) ∧
      answers (asking .b .status [] two) = true ∧ ((asking .b .status [] two).port .a).resetPending = false) ∧
    (∃ s : State, s.service = .serving (.request .b 0) ∧ answers s = true ∧ (s.port .a).selected = false ∧
      (s.port .a).resetPending = true) ∧
    (List.replicate 7 true).length < 8 ∧
    (∃ s : State, s.service = .idle ∧ Claim.portReset .a ∉ [] ∧
      s.deferred = [] ++ .portReset .a :: (List.replicate 0 .tick ++ [])) ∧
    ∃ s : State, s.service = .idle ∧ Claim.portReset .a ∉ [.tick, .portReset .c] ∧
      s.deferred = [.tick, .portReset .c] ++ .portReset .a :: (List.replicate 2 .tick ++ [.portReset .b, .tick]) :=
  ⟨by decide, ⟨two_atRest, by decide⟩, by decide,
    ⟨(asking .b .status [] two).modPort .a fun x => { x with resetPending := true }, by decide⟩,
    by decide, ⟨{ two with deferred := [.portReset .a] }, by decide⟩,
    { two with deferred := [.tick, .portReset .c, .portReset .a, .tick, .tick, .portReset .b, .tick] }, by decide⟩

theorem test_hyp_StatusByteAndAttention :
    (AtRest two ∧ answers two = true ∧ (two.port .a).selected = false) ∧
    ∃ s t, Ready s ∧ (s.port .a).receiver = .active ⟨.mode3, 0x10, none, [], [], .frameType⟩ ∧
      exec (.pollFrame .a (.more [] [true])) s = .next t :=
  ⟨⟨two_atRest, by decide⟩,
    two.modPort .a fun x => { x with receiver := .active ⟨.mode3, 0x10, none, [], [], .frameType⟩ }, _,
    Or.inr (by unfold AtRest; decide), rfl, rfl⟩

theorem test_hyp_ChecksumAndRecords : ([42, 43, 44, 45, 46, 47] : List (Fin 48)).length ≤ 6 := by decide

theorem test_hyp_FramesOfRequests : ∃ t, exec (commandOf .status .a) (asking .a .status [] two) = .next t := ⟨_, rfl⟩

theorem test_hyp_LinksActOnTheirOwnPort :
    Ready two ∧ (∃ t, exec (.pollFrame .a (.start .mode3 [0, 0] [true])) two = .next t) ∧
    (∃ t, exec (.pollFrame .a (.select .mode3)) two = .next t) ∧ (∃ t, exec (.pollFrame .a (.more [1] [true])) two = .next t) ∧
    wire [0x81, 0x3C] ++ [true] =
      wire [] ++ [true, false, false] ++ (wire [0x09] ++ [true, true, true, false, false, true]) :=
  ⟨Or.inr two_atRest, ⟨_, rfl⟩, ⟨_, rfl⟩, ⟨_, rfl⟩, by decide⟩

/-! ### States that meet the laws, with a command waiting -/

/-- The two waiters of a counting cell, and a tick to come. -/
def ticking : State := { flow with pending := [.timebaseTick] }

theorem test_hyp_steps : ∃ t, step ticking = .next t := ⟨_, rfl⟩

theorem test_hyp_CellLawIsKept : CellLaw ticking := by
  intro c
  simp only [ticking, flow, waiting, State.cell_mk, State.cells_at, State.modSession_cell, State.setCell_cell, two,
    opened, ready, State.reset, Vector.getElem_replicate]
  split <;> rfl

theorem test_hyp_PoolLawIsKept : PoolLaw ticking := by
  unfold PoolLaw NumbersDistinct CountsAgree
  exact ⟨by decide, fun p => by cases p <;> decide⟩

theorem test_hyp_TicketLawIsKept : TicketLaw ticking := by
  unfold TicketLaw NumbersDistinct
  exact ⟨by decide, fun p => by cases p <;> decide⟩

theorem test_hyp_WatchLawIsKept : WatchLaw { told with pending := [.timebaseTick] } := by
  intro p
  cases p
  · refine ⟨fun h => (by cases h), by decide, by decide, fun c => ?_⟩
    by_cases h : c = 82
    · subst h
      decide
    · have h' : ¬((82 : Fin 512) = c) := fun e => h e.symm
      simp [noticesOf, told, Record.reports, h, h']
  all_goals exact ⟨fun _ => rfl, by decide, by decide, fun c => rfl⟩

/-- A holds lock 5 and B waits for it, and a tick is to come. -/
def queueing : State := { waiting 0 .b (.lock 5) none (holding .a 5 two) with pending := [.timebaseTick] }

theorem test_hyp_LockLawIsKept :
    NumbersDistinct queueing ∧ EntryLaw queueing ∧ StackLaw queueing ∧ MarkerLaw queueing ∧ HolderLaw queueing := by
  refine ⟨by unfold NumbersDistinct; decide, by unfold EntryLaw; decide, fun p => ?_, fun p => ?_, fun l p e h => ?_⟩
  · cases p <;> decide
  · cases p
    · exact ⟨rfl, fun l t h => by cases h⟩
    · refine ⟨rfl, fun l t h => ?_⟩
      cases h
      exact ⟨⟨.a, by decide, by decide⟩, by decide⟩
    · exact ⟨rfl, fun l t h => by cases h⟩
    · exact ⟨rfl, fun l t h => by cases h⟩
  · change ((State.setLock two 5 ⟨.held .a 1, 1⟩).lock l).state = _ at h
    rw [State.setLock_lock] at h
    split at h
    · cases h
      decide
    · change ((Vector.replicate 48 (Lock.mk .free 0))[l.val]).state = _ at h
      rw [Vector.getElem_replicate] at h
      cases h

theorem test_hyp_WaiterLawIsKept : NumbersDistinct queueing ∧ TakeLaw queueing ∧ AwaitLaw queueing := by
  refine ⟨by unfold NumbersDistinct; decide, fun c w ws h => ?_, fun w hw c cond o h => ?_⟩
  · cases h
  · have : w = ⟨0, .b, 1, 1, .lock 5, none⟩ := by simpa [queueing, waiting, holding, two, ready, opened, State.reset] using hw
    subst this
    cases h

theorem test_hyp_SessionLawIsKept : TeardownLaw queueing ∧ LeaseLaw queueing := by
  refine ⟨fun p => by cases p <;> decide, fun p => ?_⟩
  cases p
  · exact ⟨by decide, 10, by decide, by decide, by decide, by decide⟩
  · exact ⟨by decide, 10, by decide, by decide, by decide, by decide⟩
  · rfl
  · rfl

theorem test_hyp_EngineLawIsKept : SlotLaw queueing ∧ ResetMarkerLaw queueing ∧ IdleLaw queueing := by
  refine ⟨fun p => ?_, fun p => by cases p <;> decide, fun _ _ => by unfold AtRest; decide⟩
  constructor
  · rintro ⟨r, h⟩
    cases p <;> cases h
  · rintro ⟨n, h⟩
    cases h

end Sys2Proof.Tests
end

section
/-!
PROOFS. The cell store: the values POWER_ON gives, and the run of cells a GATHER reads.
-/

namespace Sys2Proof.Machine

open Sys2Proof.Safety

/-! ### The state after POWER_ON -/

theorem exec_powerOn (s : State) : exec .powerOn s = .next (powerUp s) := rfl

@[simp] theorem powerUp_cell (s : State) (c : Fin 512) : (powerUp s).cell c = .plain 0 :=
  Vector.getElem_replicate _

@[simp] theorem powerUp_bankSuspect (s : State) (b : Fin 32) : (powerUp s).bankSuspect b = false :=
  Vector.getElem_replicate _

@[simp] theorem powerUp_lock (s : State) (l : Fin 48) : (powerUp s).lock l = ⟨.free, 0⟩ :=
  Vector.getElem_replicate _

@[simp] theorem powerUp_pool (s : State) : (powerUp s).pool = [] := rfl
@[simp] theorem powerUp_workList (s : State) : (powerUp s).workList = [] := rfl

@[simp] theorem powerUp_session (s : State) (p : Port) : (powerUp s).session p = Session.powerOn := by
  cases p <;> rfl

/-- A port with an empty event queue does not ask for attention (R113). -/
theorem attention_of_queue_nil {s : State} {p : Port} (h : (s.session p).queue = []) : attention s p = false := by
  simp [attention, h]

/-- The fourth field byte of a STATUS response is the lease period in units, 0 where it is absent (R134, R169). -/
theorem statusReport_leaseByte (p : Port) (s : State) (d : Byte) :
    (statusReport p s).bytes.getD 3 d = byteOf ((s.session p).leasePeriod.getD 0 / Config.leaseUnit) := rfl

/-- Settles O3: every part of the state after POWER_ON is read off by its own lemma. -/
theorem powerOnValues : Obligations.PowerOnValues := by
  intro s
  refine ⟨powerUp s, exec_powerOn s, powerUp_cell s, powerUp_bankSuspect s, powerUp_lock s, powerUp_pool s,
    powerUp_workList s, fun p => ⟨powerUp_session s p, attention_of_queue_nil ?_, ?_⟩⟩
  · rw [powerUp_session]
    rfl
  · rw [statusReport_leaseByte, powerUp_session]
    rfl

/-! ### The run of a GATHER -/

theorem exec_gather (p : Port) (s : State) : exec (.gather p) s = .next (finishRequest .gather serveGather p s) := rfl

/-- A run grows by the cell at its end (R10). -/
theorem runCells_succ (s : State) {first count : Nat} (h : first + count < 512) :
    runCells s first (count + 1) = runCells s first count ++ [s.cell ⟨first + count, h⟩] := by
  simp only [runCells, List.range_succ, List.filterMap_append, List.filterMap_cons, List.filterMap_nil, dif_pos h]

/-- A run that lies in the cells 0 to 511 is read whole and in order (R10). -/
theorem runCells_eq_ofFn (s : State) {first count : Nat} (h : first + count ≤ 512) :
    runCells s first count = List.ofFn fun i : Fin count => s.cell ⟨first + i.val, by omega⟩ := by
  induction count with
  | zero => rw [List.ofFn_zero, runCells, List.range_zero, List.filterMap_nil]
  | succ count ih =>
    have hlast : first + count < 512 := by omega
    rw [runCells_succ s hlast, ih (Nat.le_of_lt hlast), List.ofFn_succ_last]
    rfl

/-- GATHER refuses a run of no cells, of more than 8, or that ends above cell 511, and changes nothing (R9). -/
theorem serveGather_of_bad_run (p : Port) (s : State) {first : Word} {n : Byte}
    (h : n = 0 ∨ 8 < n.toNat ∨ 512 < first.toNat + n.toNat) :
    serveGather p (wordBytes first ++ [n]) s = (s, .refused .range 0) := by
  rw [wordBytes_eq]
  simp only [serveGather, List.cons_append, List.nil_append, word_of_halves]
  by_cases hc : first.toNat < 512
  · rw [cellOf_of_lt (c := ⟨first.toNat, hc⟩) rfl]
    by_cases hn : n = 0 ∨ 8 < n.toNat
    · exact if_pos hn
    · obtain ⟨h0, h8⟩ := not_or.mp hn
      have hover : 512 < first.toNat + n.toNat := (h.resolve_left h0).resolve_left h8
      have hend : ¬ first.toNat + n.toNat - 1 < 512 := by omega
      exact (if_neg hn).trans (dif_neg hend)
  · rw [cellOf_of_le (Nat.le_of_not_lt hc)]

/-- GATHER answers a run of 1 to 8 cells in the cells 0 to 511 with its cells and the flags of the banks of its first
and last cell (R10). -/
theorem serveGather_of_good_run (p : Port) (s : State) {first : Word} {n : Byte} (hpos : 0 < n.toNat)
    (hle : n.toNat ≤ 8) (h : first.toNat + n.toNat ≤ 512) :
    let c : Fin 512 := ⟨first.toNat, by omega⟩
    let last : Fin 512 := ⟨first.toNat + n.toNat - 1, by omega⟩
    serveGather p (wordBytes first ++ [n]) s =
      (s, .done (.gather c (bankOf c) (s.bankSuspect (bankOf c))
        (if bankOf last = bankOf c then none else some (bankOf last, s.bankSuspect (bankOf last)))
        (List.ofFn fun i : Fin n.toNat => s.cell ⟨first.toNat + i.val, by omega⟩))) := by
  intro c last
  have hn : ¬ (n = 0 ∨ Config.gatherSize < n.toNat) := by
    rintro (rfl | h8)
    · exact absurd hpos (by decide)
    · exact Nat.not_lt.mpr hle h8
  rw [wordBytes_eq]
  simp only [serveGather, List.cons_append, List.nil_append, word_of_halves]
  rw [cellOf_of_lt (c := c) rfl, ← runCells_eq_ofFn s h]
  exact (if_neg hn).trans (dif_pos last.isLt)

/-- Settles O20: the request passes the common checks, and the run decides between the refusal and the answer. -/
theorem gatherReadsTheRun : Obligations.GatherReadsTheRun := by
  intro s p first n hadm
  constructor
  · intro hbad
    rw [exec_gather]
    exact finishRequest_refused hadm (serveGather_of_bad_run p s hbad)
  · intro hpos hle h
    rw [exec_gather]
    exact finishRequest_done hadm (serveGather_of_good_run p s hpos hle h)

end Sys2Proof.Machine
end

section
/-!
PROOFS. The chain steps that move, compute and store (chapter 2): what each writes to W, the flags and the cells.
-/

namespace Sys2Proof.Machine

open Sys2Proof.Safety

/-! ### The writes of a step to W, the flags and the cells -/

section Writes

variable (r : ChainRun) (c : Fin 512) (w : Word) (carry overflow : Bool)

@[simp] theorem setW_w : (r.setW w).w = w := rfl
@[simp] theorem setW_cells : (r.setW w).cells = r.cells := rfl
@[simp] theorem setC_w : (r.setC carry).w = r.w := rfl
@[simp] theorem setC_cells : (r.setC carry).cells = r.cells := rfl
@[simp] theorem setC_flags : (r.setC carry).flags = ⟨r.flags.z, carry, r.flags.v⟩ := rfl
@[simp] theorem setCV_w : (r.setCV carry overflow).w = r.w := rfl
@[simp] theorem setCV_cells : (r.setCV carry overflow).cells = r.cells := rfl
@[simp] theorem setCV_flags : (r.setCV carry overflow).flags = ⟨r.flags.z, carry, overflow⟩ := rfl
@[simp] theorem store_w : (r.store c w).w = r.w := rfl
@[simp] theorem store_cells : (r.store c w).cells = r.cells.set c (.plain w) := rfl
@[simp] theorem store_flags : (r.store c w).flags = r.flags := rfl
@[simp] theorem storeSet_w : (r.storeSet c w).w = r.w := rfl
@[simp] theorem storeSet_cells : (r.storeSet c w).cells = r.cells.set c (.members w) := rfl
@[simp] theorem storeSet_flags : (r.storeSet c w).flags = r.flags := rfl
@[simp] theorem storeBack_w : (r.storeBack c w).w = w := rfl
@[simp] theorem storeBack_cells : (r.storeBack c w).cells = r.cells.set c (.plain w) := rfl

theorem zeroFlag_eq : zeroFlag w = decide (w = 0) := rfl

/-- A new value of W sets Z and leaves C and V (R21). -/
@[simp] theorem setW_flags : (r.setW w).flags = ⟨decide (w = 0), r.flags.c, r.flags.v⟩ := by
  rw [← zeroFlag_eq]
  rfl

@[simp] theorem storeBack_flags : (r.storeBack c w).flags = ⟨decide (w = 0), r.flags.c, r.flags.v⟩ :=
  setW_flags (r.store c w) w

end Writes

theorem number_of_plain {r : ChainRun} {c : Fin 512} {x : Word} (h : r.cells[c] = .plain x) : r.number c = x :=
  congrArg Cell.number h

theorem set_of_members {r : ChainRun} {c : Fin 512} {x : Word} (h : r.cells[c] = .members x) : r.set c = x :=
  congrArg Cell.set h

/-- Writing to a cell the value it holds leaves every cell as it was. -/
theorem cells_set_of_eq {cells : Vector Cell 512} {c : Fin 512} {x : Cell} (h : cells[c] = x) :
    cells.set c x = cells := by
  subst h
  exact Vector.set_getElem_self c.isLt

/-- No step counts itself; `perform` counts it (R34). -/
theorem effect_performed (st : ChainStep) (r : ChainRun) : (st.effect r).performed = r.performed := by
  cases st <;> rfl

theorem perform_performed (st : ChainStep) (r : ChainRun) : (r.perform st).performed = r.performed + 1 :=
  congrArg (· + 1) (effect_performed st r)

/-! ### The cell kinds a step accepts (R35) -/

/-- The modifying steps on numbers accept PLAIN cells alone. -/
theorem storing_modifies_plain (c : Fin 512) :
    ∀ st ∈ [ChainStep.write c, .exchange c, .accum c, .deduct c, .stepUp c, .stepDown c],
      ChainStep.modifies st = true ∧ ∀ k, ChainStep.accepts st k = true ↔ k = .plain := by
  simp only [List.forall_mem_cons]
  refine ⟨?_, ?_, ?_, ?_, ?_, ?_, List.forall_mem_nil _⟩ <;>
    exact ⟨rfl, fun k => by cases k <;> simp [ChainStep.accepts]⟩

/-- The computing steps modify no cell and accept PLAIN and COUNTER cells. -/
theorem computing_reads_numbers (c : Fin 512) :
    ∀ st ∈ [ChainStep.add c, .addc c, .sub c, .subb c, .and c, .or c, .xor c],
      ChainStep.modifies st = false ∧ ∀ k, ChainStep.accepts st k = true ↔ k = .plain ∨ k = .counter := by
  simp only [List.forall_mem_cons]
  refine ⟨?_, ?_, ?_, ?_, ?_, ?_, ?_, List.forall_mem_nil _⟩ <;>
    exact ⟨rfl, fun k => by cases k <;> simp [ChainStep.accepts]⟩

/-- INSERT and REMOVE are modifying steps and accept MEMBERS cells alone. -/
theorem memberWriting_modifies_members (c : Fin 512) (m : Fin 16) :
    ∀ st ∈ [ChainStep.insert c m, .remove c m],
      ChainStep.modifies st = true ∧ ∀ k, ChainStep.accepts st k = true ↔ k = .members := by
  simp only [List.forall_mem_cons]
  refine ⟨?_, ?_, List.forall_mem_nil _⟩ <;>
    exact ⟨rfl, fun k => by cases k <;> simp [ChainStep.accepts]⟩

/-! ### Results, carries and overflows -/

/-- V of an addition is clear when the signed sum fits (R25). -/
theorem addOverflow_eq_false (x y : Word) (carry : Bool) :
    addOverflow x y carry = false ↔
      -32768 ≤ signed x + signed y + bit carry ∧ signed x + signed y + bit carry ≤ 32767 := by
  rw [signed_eq_toInt, signed_eq_toInt]
  exact outside_eq_false _

/-- V of a subtraction is clear when the signed difference fits (R26). -/
theorem subOverflow_eq_false (x y : Word) (borrow : Bool) :
    subOverflow x y borrow = false ↔
      -32768 ≤ signed x - signed y - bit borrow ∧ signed x - signed y - bit borrow ≤ 32767 := by
  rw [signed_eq_toInt, signed_eq_toInt]
  exact outside_eq_false _

theorem bit_false : bit false = 0 := rfl

theorem bit_false_int : (bit false : Int) = 0 := rfl

theorem addResult_one (x : Word) : addResult x 1 false = x + 1 :=
  BitVec.eq_of_toNat_eq ((addResult_toNat x 1 false).trans (BitVec.toNat_add x 1).symm)

theorem subResult_one (x : Word) : subResult x 1 false = x - 1 := by
  have h := subResult_toNat x 1 false
  rw [bit_false_int] at h
  bv_omega

/-- STEP-UP carries out of the largest word alone (R30). -/
theorem addCarry_one (x : Word) : addCarry x 1 false = decide (x = 65535) := by
  refine decide_eq_decide.mpr ?_
  rw [bit_false]
  bv_omega

/-- STEP-DOWN borrows from 0 alone (R30). -/
theorem subBorrow_one (x : Word) : subBorrow x 1 false = decide (x = 0) := by
  refine decide_eq_decide.mpr ?_
  rw [bit_false]
  bv_omega

/-! ### Member counts -/

/-- W holds the number of members of a set without loss. -/
theorem memberCount_word (m : Word) :
    (BitVec.ofNat 16 (memberCount m)).toNat = ((List.range 16).filter fun i => m.getLsbD i).length := by
  have hlt : memberCount m < 2 ^ 16 := Nat.lt_of_le_of_lt (memberCount_le m) (by decide)
  rw [BitVec.toNat_ofNat, Nat.mod_eq_of_lt hlt]
  exact List.countP_eq_length_filter

/-- Writing to a member the value it has leaves the set as it was. -/
theorem eq_of_member_written {x y : Word} {m : Fin 16} {flag : Bool}
    (hy : ∀ i : Fin 16, y.getLsbD i.val = if i = m then flag else x.getLsbD i.val) (h : x.getLsbD m.val = flag) :
    y = x := by
  refine BitVec.eq_of_getLsbD_eq fun i hi => (hy ⟨i, hi⟩).trans ?_
  split
  · next him => rw [← h, ← him]
  · rfl

/-! ### READ, LOAD, WRITE and EXCHANGE -/

/-- Settles O23: each step is a write to W or to the cell, and says so by the lemmas of these writes. -/
theorem movingSteps : Obligations.MovingSteps := by
  intro r c n
  refine ⟨⟨rfl, setW_flags _ _, rfl⟩, fun m hm => ?_, ⟨rfl, setW_flags _ _, rfl⟩, ⟨rfl, rfl, rfl⟩,
    fun v hv => ?_, fun st hst => storing_modifies_plain c st (List.mem_append_left _ hst), fun _ => rfl, rfl, rfl,
    rfl, fun st => perform_performed st r⟩
  · have hnumber : r.number c = BitVec.ofNat 16 (memberCount m) := congrArg Cell.number hm
    exact (congrArg BitVec.toNat hnumber).trans (memberCount_word m)
  · have hnumber := number_of_plain hv
    simp only [ChainStep.effect, hnumber, setW_w, setW_cells, setW_flags, store_cells, store_flags, true_and]
    rintro rfl
    exact ⟨cells_set_of_eq hv, rfl⟩

/-! ### ADD, ADDC, SUB, SUBB, AND, OR and XOR -/

/-- ADD and ADDC are one addition step, whose carry in is 0 or C (R25). -/
theorem effect_of_adding {r : ChainRun} {c : Fin 512} {st : ChainStep} {carry : Nat}
    (h : (st, carry) ∈ [(ChainStep.add c, 0), (.addc c, if r.flags.c then 1 else 0)]) :
    ∃ b, carry = bit b ∧ st.effect r = r.addStep c b := by
  simp only [List.mem_cons, Prod.mk.injEq, List.not_mem_nil, or_false] at h
  obtain ⟨rfl, rfl⟩ | ⟨rfl, rfl⟩ := h
  · exact ⟨false, rfl, rfl⟩
  · exact ⟨r.flags.c, rfl, rfl⟩

/-- SUB and SUBB are one subtraction step, whose borrow in is 0 or C (R26). -/
theorem effect_of_subtracting {r : ChainRun} {c : Fin 512} {st : ChainStep} {borrow : Nat}
    (h : (st, borrow) ∈ [(ChainStep.sub c, 0), (.subb c, if r.flags.c then 1 else 0)]) :
    ∃ b, borrow = bit b ∧ st.effect r = r.subStep c b := by
  simp only [List.mem_cons, Prod.mk.injEq, List.not_mem_nil, or_false] at h
  obtain ⟨rfl, rfl⟩ | ⟨rfl, rfl⟩ := h
  · exact ⟨false, rfl, rfl⟩
  · exact ⟨r.flags.c, rfl, rfl⟩

/-- AND, OR and XOR give W their result and leave C and V (R27). -/
theorem effect_of_logic {r : ChainRun} {c : Fin 512} {st : ChainStep} {y : Word}
    (h : (st, y) ∈ [(ChainStep.and c, r.w &&& r.number c), (.or c, r.w ||| r.number c),
      (.xor c, r.w ^^^ r.number c)]) : st.effect r = r.setW y := by
  simp only [List.mem_cons, Prod.mk.injEq, List.not_mem_nil, or_false] at h
  obtain ⟨rfl, rfl⟩ | ⟨rfl, rfl⟩ | ⟨rfl, rfl⟩ := h <;> rfl

/-- Settles O24: an addition, a subtraction or a logical result goes to W, and the cells stay. -/
theorem computingSteps : Obligations.ComputingSteps := by
  intro r c x
  refine ⟨fun st carry h => ?_, fun st borrow h => ?_, fun st y h => ?_, computing_reads_numbers c⟩
  · obtain ⟨b, rfl, heff⟩ := effect_of_adding h
    rw [heff]
    exact ⟨addResult_toNat r.w x b, rfl, zeroFlag_eq _, rfl, addOverflow_eq_false r.w x b⟩
  · obtain ⟨b, rfl, heff⟩ := effect_of_subtracting h
    rw [heff]
    exact ⟨subResult_toNat r.w x b, rfl, zeroFlag_eq _, rfl, subOverflow_eq_false r.w x b⟩
  · rw [effect_of_logic h]
    exact ⟨rfl, rfl, setW_flags r y⟩

/-! ### ACCUM, DEDUCT, STEP-UP, STEP-DOWN, INSERT and REMOVE -/

section OnPlain

variable {r : ChainRun} {c : Fin 512} {x : Word}

theorem effect_accum (h : r.cells[c] = .plain x) : (ChainStep.accum c).effect r =
    (r.storeBack c (addResult x r.w false)).setCV (addCarry x r.w false) (addOverflow x r.w false) := by
  simp only [ChainStep.effect, number_of_plain h]

theorem effect_deduct (h : r.cells[c] = .plain x) : (ChainStep.deduct c).effect r =
    (r.storeBack c (subResult x r.w false)).setCV (subBorrow x r.w false) (subOverflow x r.w false) := by
  simp only [ChainStep.effect, number_of_plain h]

theorem effect_stepUp (h : r.cells[c] = .plain x) :
    (ChainStep.stepUp c).effect r = (r.storeBack c (x + 1)).setC (decide (x = 65535)) := by
  simp only [ChainStep.effect, number_of_plain h, addResult_one, addCarry_one]

theorem effect_stepDown (h : r.cells[c] = .plain x) :
    (ChainStep.stepDown c).effect r = (r.storeBack c (x - 1)).setC (decide (x = 0)) := by
  simp only [ChainStep.effect, number_of_plain h, subResult_one, subBorrow_one]

end OnPlain

/-- INSERT and REMOVE write one member of the set, and W takes the number of members (R31). -/
theorem effect_of_memberWriting {r : ChainRun} {c : Fin 512} {m : Fin 16} {x : Word} {st : ChainStep} {flag : Bool}
    (hx : r.cells[c] = .members x) (h : (st, flag) ∈ [(ChainStep.insert c m, true), (.remove c m, false)]) :
    ∃ y : Word, (∀ i : Fin 16, y.getLsbD i.val = if i = m then flag else x.getLsbD i.val) ∧
      st.effect r = (r.storeSet c y).setW (BitVec.ofNat 16 (memberCount y)) := by
  simp only [List.mem_cons, Prod.mk.injEq, List.not_mem_nil, or_false] at h
  obtain ⟨rfl, rfl⟩ | ⟨rfl, rfl⟩ := h
  · exact ⟨_, getLsbD_insert x m, by simp only [ChainStep.effect, set_of_members hx]⟩
  · exact ⟨_, getLsbD_remove x m, by simp only [ChainStep.effect, set_of_members hx]⟩

/-- Settles O25: the steps on a PLAIN cell store their result back; the others write one member of the set. -/
theorem storingSteps : Obligations.StoringSteps := by
  refine ⟨fun r c x hx => ⟨?_, ?_, ?_, ?_, fun st hst => ?_⟩, fun r c m x hx st flag h => ⟨?_, ?_, ?_⟩⟩
  · have hv := addOverflow_eq_false x r.w false
    rw [bit_false_int, Int.add_zero] at hv
    rw [effect_accum hx]
    exact ⟨addResult_toNat x r.w false, rfl, zeroFlag_eq _, rfl, hv⟩
  · have hw := subResult_toNat x r.w false
    have hv := subOverflow_eq_false x r.w false
    rw [bit_false_int, Int.sub_zero] at hw hv
    rw [effect_deduct hx]
    exact ⟨hw, rfl, zeroFlag_eq _, rfl, hv⟩
  · rw [effect_stepUp hx]
    exact ⟨rfl, rfl, by rw [setC_flags, storeBack_flags, setC_w, storeBack_w]⟩
  · rw [effect_stepDown hx]
    exact ⟨rfl, rfl, by rw [setC_flags, storeBack_flags, setC_w, storeBack_w]⟩
  · exact storing_modifies_plain c st (List.mem_append_right [ChainStep.write c, .exchange c] hst)
  · obtain ⟨y, hy, heff⟩ := effect_of_memberWriting hx h
    rw [heff]
    exact ⟨y, rfl, hy, eq_of_member_written hy, memberCount_word y⟩
  · obtain ⟨y, -, heff⟩ := effect_of_memberWriting hx h
    rw [heff, setW_flags, setW_w, storeSet_flags]
  · have hst : st ∈ [ChainStep.insert c m, .remove c m] := List.mem_map_of_mem (f := Prod.fst) h
    exact memberWriting_modifies_members c m st hst

end Sys2Proof.Machine
end

section
/-!
PROOFS. The locks: what a popped lock, its bank's suspect flag and its waiters do to the state, and RELEASE.
-/

namespace Sys2Proof.Machine

open Sys2Proof.Safety

/-! ### The pop and the mark of a bank -/

@[simp] theorem popStack_lock (p : Port) (s : State) (l : Fin 48) : (popStack p s).lock l = s.lock l := rfl

@[simp] theorem popStack_bankSuspect (p : Port) (s : State) (b : Fin 32) :
    (popStack p s).bankSuspect b = s.bankSuspect b := rfl

@[simp] theorem popStack_pool (p : Port) (s : State) : (popStack p s).pool = s.pool := rfl

@[simp] theorem popStack_session_same (p : Port) (s : State) :
    (popStack p s).session p = { s.session p with stack := (s.session p).stack.dropLast } :=
  State.modSession_session_same s p _

@[simp] theorem markBank_session (l : Fin 48) (flag : Bool) (s : State) (p : Port) :
    (markBank l flag s).session p = s.session p :=
  congrArg (fun sessions => sessions.get p) (markBank_sessions l flag s)

@[simp] theorem markBank_lock (l k : Fin 48) (flag : Bool) (s : State) :
    (markBank l flag s).lock k = s.lock k :=
  congrArg (fun locks => locks[k.val]) (markBank_locks l flag s)

/-! ### The passing on of a lock -/

theorem lockWaiters_of_pool {s t : State} (h : t.pool = s.pool) (l : Fin 48) : lockWaiters t l = lockWaiters s l :=
  congrArg (List.filter (WaitEntry.onLock l)) h

theorem passOn_of_no_waiter {l : Fin 48} {s : State} (h : lockWaiters s l = []) :
    passOn l s = (s.setLock l ⟨.free, (s.lock l).generation⟩, false) := by
  simp only [passOn, h]

theorem passOn_of_waiter {l : Fin 48} {s : State} {w : WaitEntry} {ws : List WaitEntry}
    (h : lockWaiters s l = w :: ws) : passOn l s = (handoff l w s, true) := by
  simp only [passOn, h]

/-- A handoff changes no session but the waiter's (R57). -/
theorem handoff_session_other (l : Fin 48) {w : WaitEntry} (s : State) {q : Port} (h : q ≠ w.port) :
    (handoff l w s).session q = s.session q := by
  simp only [handoff, placeReserved_eq, clearMarker_eq]
  rw [State.modSession_session_other _ _ _ _ h, State.modSession_session_other _ _ _ _ h, dropEntry_session, if_neg h,
    grantLock_session, if_neg h]

/-! ### The own work of RELEASE -/

theorem exec_release (p : Port) (s : State) : exec (.release p) s = .next (finishRequest .release serveRelease p s) :=
  rfl

theorem heldBy_iff (s : State) (p : Port) (l : Fin 48) :
    heldBy s p l = true ↔ (s.lock l).state = .held p (s.session p).epoch := beq_iff_eq

section Serve

variable {s : State} {p : Port} {b : Byte} {l : Fin 48}

/-- RELEASE refuses a lock number above 47 with RANGE (R55). -/
theorem serveRelease_of_range (h : 48 ≤ b.toNat) : serveRelease p [b] s = (s, .refused .range 0) := by
  simp only [serveRelease, lockOf_of_le h]

/-- The checks of RELEASE on an existing lock: the marker, then the holder and the top of the stack (R55). -/
theorem serveRelease_of_lock (h : b.toNat = l.val) :
    serveRelease p [b] s =
      if (s.session p).pendingAcquire ≠ none then (s, .refused .lockPending 0)
      else if (s.lock l).state = .held p (s.session p).epoch ∧ (s.session p).stack.getLast? = some l then
        releaseTop p l s
      else (s, .refused .order 0) := by
  simp only [serveRelease, lockOf_of_lt h, Bool.and_eq_true, heldBy_iff, beq_iff_eq, Option.isSome_iff_ne_none]

end Serve

/-- The waiters of a lock are the same before and after the pop and the clearing of the bank's flag. -/
theorem lockWaiters_of_popped (s : State) (p : Port) (l : Fin 48) :
    lockWaiters (markBank l false (popStack p s)) l = lockWaiters s l :=
  lockWaiters_of_pool ((markBank_pool l false _).trans (popStack_pool p s)) l

section ReleaseTop

variable {s : State} {p : Port} {l : Fin 48}

/-- A top lock without waiters becomes FREE and keeps its generation (R56). -/
theorem releaseTop_of_no_waiter (h : lockWaiters s l = []) :
    releaseTop p l s =
      ((markBank l false (popStack p s)).setLock l ⟨.free, (s.lock l).generation⟩,
        .done (.release l ((s.session p).stack.length - 1) false)) := by
  have hpass := passOn_of_no_waiter ((lockWaiters_of_popped s p l).trans h)
  simp [releaseTop, hpass]

/-- A top lock with waiters goes to the first of them; another port's waiter leaves the releasing port's stack as the
pop left it (R56, R57). -/
theorem releaseTop_of_waiter {w : WaitEntry} {ws : List WaitEntry} (h : lockWaiters s l = w :: ws) (hw : w.port ≠ p) :
    releaseTop p l s =
      (handoff l w (markBank l false (popStack p s)),
        .done (.release l ((s.session p).stack.length - 1) true)) := by
  have hpass := passOn_of_waiter ((lockWaiters_of_popped s p l).trans h)
  simp [releaseTop, hpass, handoff_session_other l _ hw.symm]

end ReleaseTop

/-- Settles O30: the checks of RELEASE decide between the refusals and the release of the top lock, and the lock's
waiters decide where it goes. -/
theorem releaseTheTopLock : Obligations.ReleaseTheTopLock := by
  intro s p b hadm
  rw [exec_release]
  refine ⟨fun hrange => finishRequest_refused hadm (serveRelease_of_range hrange), fun l hl => ?_⟩
  have hserve := serveRelease_of_lock (s := s) (p := p) hl
  refine ⟨fun hpending => ?_, fun hfree horder => ?_, fun hfree hheld htop => ⟨fun k => ?_, fun hnone => ?_, ?_⟩⟩
  · rw [if_pos hpending] at hserve
    exact finishRequest_refused hadm hserve
  · rw [if_neg (not_not_intro hfree), if_neg horder] at hserve
    exact finishRequest_refused hadm hserve
  · exact markBank_bankSuspect l false (popStack p s) k
  · rw [if_neg (not_not_intro hfree), if_pos ⟨hheld, htop⟩, releaseTop_of_no_waiter hnone] at hserve
    exact finishRequest_done hadm hserve
  · intro w ws hwaiters hother
    rw [if_neg (not_not_intro hfree), if_pos ⟨hheld, htop⟩, releaseTop_of_waiter hwaiters hother] at hserve
    exact finishRequest_done hadm hserve

end Sys2Proof.Machine
end

section
/-!
PROOFS. The counting cells: what the checks of TAKE and GIVE find, the immediate grant, the wait, and the raised value.
-/

namespace Sys2Proof.Machine

open Sys2Proof.Safety

/-! ### The value and the waiters of a COUNTER cell -/

theorem number_of_counter {s : State} {c : Fin 512} {ceil v : Word} (h : s.cell c = .counter ceil v) :
    (s.cell c).number = v :=
  congrArg Cell.number h

theorem lowerCounter_of_counter {s : State} {c : Fin 512} {ceil v : Word} (h : s.cell c = .counter ceil v) (n : Nat) :
    lowerCounter c n s = s.setCell c (.counter ceil (BitVec.ofNat 16 (v.toNat - n))) := by
  simp only [lowerCounter, h]

theorem takeWaiters_of_pool {s t : State} (h : t.pool = s.pool) (c : Fin 512) : takeWaiters t c = takeWaiters s c :=
  congrArg (List.filter (WaitEntry.takes c)) h

/-! ### What the first checks of TAKE and GIVE find -/

/-- A request that check 1 or 2 of R66 and R69 refuses names no cell, or names one with the amount 0. -/
theorem cellOf_of_range {w : Word} {amount : Byte} (h : 512 ≤ w.toNat ∨ amount = 0) :
    cellOf w = none ∨ amount = 0 ∧ ∃ c, cellOf w = some c := by
  by_cases hw : 512 ≤ w.toNat
  · exact .inl (cellOf_of_le hw)
  · exact .inr ⟨h.resolve_left hw, ⟨w.toNat, Nat.lt_of_not_le hw⟩, cellOf_of_lt rfl⟩

/-- A cell that is not a COUNTER is PLAIN or MEMBERS (R1). -/
theorem plain_or_members_of_kind {x : Cell} (h : x.kind ≠ .counter) :
    (∃ v, x = .plain v) ∨ ∃ set, x = .members set := by
  cases x with
  | plain v => exact .inl ⟨v, rfl⟩
  | members set => exact .inr ⟨set, rfl⟩
  | counter ceil v => exact absurd rfl h

/-! ### The own work of TAKE -/

theorem exec_take (p : Port) (s : State) : exec (.take p) s = .next (finishRequest .take serveTake p s) := rfl

section ServeTake

variable {s : State} {p : Port} {w timeout : Word} {amount : Byte} {c : Fin 512}

/-- TAKE refuses a cell number above 511 and the amount 0 with RANGE (R66, checks 1 and 2). -/
theorem serveTake_of_range (h : 512 ≤ w.toNat ∨ amount = 0) :
    serveTake p (wordBytes w ++ amount :: wordBytes timeout) s = (s, .refused .range 0) := by
  simp only [wordBytes_eq, serveTake, List.cons_append, List.nil_append, word_of_halves]
  obtain hnone | ⟨hzero, c, hsome⟩ := cellOf_of_range h
  · rw [hnone]
  · rw [hsome]
    exact if_pos hzero

/-- TAKE refuses a cell that is not a COUNTER with KIND (R66, check 3). -/
theorem serveTake_of_kind (hw : w.toNat = c.val) (ha : amount ≠ 0) (h : (s.cell c).kind ≠ .counter) :
    serveTake p (wordBytes w ++ amount :: wordBytes timeout) s = (s, .refused .kind 0) := by
  simp only [wordBytes_eq, serveTake, List.cons_append, List.nil_append, word_of_halves, cellOf_of_lt hw, if_neg ha]
  obtain ⟨v, hc⟩ | ⟨set, hc⟩ := plain_or_members_of_kind h
  · rw [hc]
  · rw [hc]

/-- The checks of TAKE on a COUNTER cell: the ceiling, then the bank's guard, then the decision (R66). -/
theorem serveTake_of_counter {ceil v : Word} (hw : w.toNat = c.val) (ha : amount ≠ 0)
    (h : s.cell c = .counter ceil v) :
    serveTake p (wordBytes w ++ amount :: wordBytes timeout) s =
      if ceil.toNat < amount.toNat then (s, .refused .range 0)
      else if guardedAgainst s p c then (s, .refused .guarded 0)
      else decideTake p c amount timeout s := by
  simp only [wordBytes_eq, serveTake, List.cons_append, List.nil_append, word_of_halves, cellOf_of_lt hw, if_neg ha, h]

end ServeTake

section DecideTake

variable {s : State} {p : Port} {c : Fin 512} {amount : Byte} {timeout : Word}

/-- A TAKE that no waiter precedes and the value covers is granted at once, whatever its timeout (R67). -/
theorem decideTake_of_covered {ceil v : Word} (h : s.cell c = .counter ceil v) (hnone : takeWaiters s c = [])
    (hv : amount.toNat ≤ v.toNat) :
    decideTake p c amount timeout s =
      (handOn (some p) s.cells [c] (s.setCell c (.counter ceil (BitVec.ofNat 16 (v.toNat - amount.toNat)))),
        .done (.take c amount (BitVec.ofNat 16 (v.toNat - amount.toNat)) 0 0)) := by
  have hgrant : takeWaiters s c = [] ∧ amount.toNat ≤ (s.cell c).number.toNat :=
    ⟨hnone, (number_of_counter h).symm ▸ hv⟩
  rw [decideTake, if_pos hgrant, takeNow, lowerCounter_of_counter h, State.setCell_cell_same]
  rfl

/-- A TAKE behind a waiter or above the value is decided by its timeout: without one it is refused, with one it asks
the pool for an entry (R67, R68). -/
theorem decideTake_of_blocked {ceil v : Word} (h : s.cell c = .counter ceil v)
    (hblocked : takeWaiters s c ≠ [] ∨ v.toNat < amount.toNat) :
    decideTake p c amount timeout s =
      if timeout = 0 then (s, .refused .unavailable 0) else takeLater p c amount timeout s := by
  refine if_neg ?_
  rw [number_of_counter h]
  rintro ⟨hnone, hcovered⟩
  rcases hblocked with hwaiters | hshort
  · exact hwaiters hnone
  · exact Nat.not_lt.mpr hcovered hshort

/-- A wait that the pool refuses refuses the TAKE with the pool's reason (R68). -/
theorem takeLater_of_error {r : Reason} (h : createEntry p (.take c amount) timeout s = .error r) :
    takeLater p c amount timeout s = (s, .refused r 0) := by
  simp only [takeLater, h]

/-- A wait that the pool creates is answered with the value, the ticket and the number of waiters ahead (R68). -/
theorem takeLater_of_ok {ceil v : Word} {t : Byte} {u : State} (hc : s.cell c = .counter ceil v)
    (h : createEntry p (.take c amount) timeout s = .ok (t, u)) :
    takeLater p c amount timeout s = (u, .pending (.take c amount v t (takeWaiters s c).length)) := by
  simp only [takeLater, h, number_of_counter hc]

end DecideTake

/-- Settles O32: the checks of TAKE lead to its decision, and the value, the waiters and the timeout decide between the
grant, the refusal and the wait. -/
theorem takeUnits : Obligations.TakeUnits := by
  intro s p w amount timeout hadm
  rw [exec_take]
  refine ⟨fun hrange => finishRequest_refused hadm (serveTake_of_range hrange), fun c hw ha =>
    ⟨fun hkind => finishRequest_refused hadm (serveTake_of_kind hw ha hkind), fun ceil v hc => ?_⟩⟩
  have hserve := serveTake_of_counter (p := p) (timeout := timeout) hw ha hc
  refine ⟨fun hover => ?_, fun hfits hguarded => ?_, fun hfits hfree => ?_⟩
  · rw [if_pos hover] at hserve
    exact finishRequest_refused hadm hserve
  · rw [if_neg (Nat.not_lt.mpr hfits), if_pos hguarded] at hserve
    exact finishRequest_refused hadm hserve
  rw [if_neg (Nat.not_lt.mpr hfits), if_neg (Bool.eq_false_iff.mp hfree)] at hserve
  refine ⟨fun hnone hcovered => ?_, fun hblocked => ?_⟩
  · rw [decideTake_of_covered hc hnone hcovered] at hserve
    exact finishRequest_done hadm hserve
  rw [decideTake_of_blocked hc hblocked] at hserve
  refine ⟨fun hzero => ?_, fun hwait => ?_⟩
  · rw [if_pos hzero] at hserve
    exact finishRequest_refused hadm hserve
  rw [if_neg hwait] at hserve
  exact ⟨fun r herror => finishRequest_refused hadm (hserve.trans (takeLater_of_error herror)),
    fun t u hok => finishRequest_pending hadm (hserve.trans (takeLater_of_ok hc hok))⟩

/-! ### The own work of GIVE -/

theorem exec_give (p : Port) (s : State) : exec (.give p) s = .next (finishRequest .give serveGive p s) := rfl

section ServeGive

variable {s : State} {p : Port} {w : Word} {amount : Byte} {c : Fin 512}

/-- GIVE refuses a cell number above 511 and the amount 0 with RANGE (R69, checks 1 and 2). -/
theorem serveGive_of_range (h : 512 ≤ w.toNat ∨ amount = 0) :
    serveGive p (wordBytes w ++ [amount]) s = (s, .refused .range 0) := by
  simp only [wordBytes_eq, serveGive, List.cons_append, List.nil_append, word_of_halves]
  obtain hnone | ⟨hzero, c, hsome⟩ := cellOf_of_range h
  · rw [hnone]
  · rw [hsome]
    exact if_pos hzero

/-- GIVE refuses a cell that is not a COUNTER with KIND (R69, check 3). -/
theorem serveGive_of_kind (hw : w.toNat = c.val) (ha : amount ≠ 0) (h : (s.cell c).kind ≠ .counter) :
    serveGive p (wordBytes w ++ [amount]) s = (s, .refused .kind 0) := by
  simp only [wordBytes_eq, serveGive, List.cons_append, List.nil_append, word_of_halves, cellOf_of_lt hw, if_neg ha]
  obtain ⟨v, hc⟩ | ⟨set, hc⟩ := plain_or_members_of_kind h
  · rw [hc]
  · rw [hc]

/-- The checks of GIVE on a COUNTER cell: the bank's guard, then the ceiling, then the units are given (R69, R70). -/
theorem serveGive_of_counter {ceil v : Word} (hw : w.toNat = c.val) (ha : amount ≠ 0)
    (h : s.cell c = .counter ceil v) :
    serveGive p (wordBytes w ++ [amount]) s =
      if guardedAgainst s p c then (s, .refused .guarded 0)
      else if ceil.toNat < v.toNat + amount.toNat then (s, .refused .ceiling 0)
      else giveUnits p c ceil v amount s := by
  simp only [wordBytes_eq, serveGive, List.cons_append, List.nil_append, word_of_halves, cellOf_of_lt hw, if_neg ha, h]

end ServeGive

/-- Settles O33: the checks of GIVE lead to the raised value and its grant walk, which grants nothing where no TAKE
waits for the cell. (The plain name `giveUnits` is the model's own.) -/
theorem giveUnits_spec : Obligations.GiveUnits := by
  intro s p w amount hadm
  rw [exec_give]
  refine ⟨fun hrange => finishRequest_refused hadm (serveGive_of_range hrange), fun c hw ha =>
    ⟨fun hkind => finishRequest_refused hadm (serveGive_of_kind hw ha hkind), fun ceil v hc => ?_⟩⟩
  have hserve := serveGive_of_counter (p := p) hw ha hc
  refine ⟨fun hguarded => ?_, fun hfree hover => ?_, fun hfree hfits => ⟨fun hnone => ?_, ?_⟩⟩
  · rw [if_pos hguarded] at hserve
    exact finishRequest_refused hadm hserve
  · rw [if_neg (Bool.eq_false_iff.mp hfree), if_pos hover] at hserve
    exact finishRequest_refused hadm hserve
  · exact grantWalk_of_no_waiters c _ ((takeWaiters_of_pool (State.setCell_pool s c _) c).trans hnone)
  · rw [if_neg (Bool.eq_false_iff.mp hfree), if_neg (Nat.not_lt.mpr hfits)] at hserve
    exact finishRequest_done hadm hserve

end Sys2Proof.Machine
end

section
/-!
PROOFS. Watches and event queues: the checks of WATCH and UNWATCH, the watches and records they leave, and the records a
FETCH takes with their markers.
-/

namespace Sys2Proof.Machine

open Sys2Proof.Safety

/-! ### The cells of a watch list -/

theorem watches_iff (x : Session) (c : Fin 512) : watches x c = true ↔ ∃ v ∈ x.watches, v.cell = c := by
  simp only [watches, List.any_eq_true, beq_iff_eq]

theorem not_watches_iff (x : Session) (c : Fin 512) : ¬ watches x c = true ↔ ∀ v ∈ x.watches, v.cell ≠ c := by
  simp only [watches_iff, not_exists, not_and, ne_eq]

/-! ### The own work of WATCH -/

theorem exec_watch (p : Port) (s : State) : exec (.watch p) s = .next (finishRequest .watch serveWatch p s) := rfl

section ServeWatch

variable {s : State} {p : Port} {w : Word} {c : Fin 512}

/-- WATCH refuses a cell number above 511 with RANGE (R101, check 1). -/
theorem serveWatch_of_range (h : 512 ≤ w.toNat) : serveWatch p (wordBytes w) s = (s, .refused .range 0) := by
  simp only [wordBytes_eq, serveWatch, word_of_halves, cellOf_of_le h]

/-- The checks of WATCH on an existing cell: the length of the list, then the cell's own watch (R101, checks 2 and
3). -/
theorem serveWatch_of_cell (hw : w.toNat = c.val) :
    serveWatch p (wordBytes w) s =
      if 8 ≤ (s.session p).watches.length then (s, .refused .watchFull 0)
      else if watches (s.session p) c then (s, .refused .duplicate 0)
      else
        (s.modSession p fun x => { x with watches := x.watches ++ [⟨c, false⟩] },
          .done (.watch c (s.cell c).reported ((s.session p).watches.length + 1))) := by
  simp only [wordBytes_eq, serveWatch, word_of_halves, cellOf_of_lt hw] <;> rfl

end ServeWatch

/-- Settles O39: the checks of WATCH decide between the refusals and the new watch. -/
theorem watchACell : Obligations.WatchACell := by
  intro s p w hadm
  rw [exec_watch]
  refine ⟨fun hrange => finishRequest_refused hadm (serveWatch_of_range hrange), fun c hw => ?_⟩
  have hserve := serveWatch_of_cell (s := s) (p := p) hw
  refine ⟨fun hfull => ?_, fun hroom hwatched => ?_, fun hroom hunwatched => ?_⟩
  · rw [if_pos hfull] at hserve
    exact finishRequest_refused hadm hserve
  · rw [if_neg (Nat.not_le.mpr hroom), if_pos ((watches_iff _ c).mpr hwatched)] at hserve
    exact finishRequest_refused hadm hserve
  · rw [if_neg (Nat.not_le.mpr hroom), if_neg ((not_watches_iff _ c).mpr hunwatched)] at hserve
    exact finishRequest_done hadm hserve

/-! ### The own work of UNWATCH -/

theorem exec_unwatch (p : Port) (s : State) : exec (.unwatch p) s = .next (finishRequest .unwatch serveUnwatch p s) :=
  rfl

/-- The watches of the other cells and the records that do not report the cell stay, in their order (R102). -/
theorem dropWatch_eq (p : Port) (c : Fin 512) (s : State) :
    dropWatch p c s = s.modSession p fun x =>
      { x with watches := x.watches.filter fun v => v.cell ≠ c, queue := x.queue.filter fun r => !r.reports c } := by
  have hkeep : ∀ v : Watch, (v.cell != c) = decide (v.cell ≠ c) := fun v =>
    Bool.eq_iff_iff.mpr (bne_iff_ne.trans decide_eq_true_iff.symm)
  simp only [dropWatch, hkeep]

section ServeUnwatch

variable {s : State} {p : Port} {w : Word} {c : Fin 512}

/-- UNWATCH refuses a cell number above 511 with RANGE (R102). -/
theorem serveUnwatch_of_range (h : 512 ≤ w.toNat) : serveUnwatch p (wordBytes w) s = (s, .refused .range 0) := by
  simp only [wordBytes_eq, serveUnwatch, word_of_halves, cellOf_of_le h]

/-- UNWATCH on an existing cell is decided by the cell's watch (R102). -/
theorem serveUnwatch_of_cell (hw : w.toNat = c.val) :
    serveUnwatch p (wordBytes w) s =
      if watches (s.session p) c then
        (dropWatch p c s,
          .done (.unwatch c (hasNotice (s.session p) c) ((dropWatch p c s).session p).watches.length))
      else (s, .refused .notWatched 0) := by
  simp only [wordBytes_eq, serveUnwatch, word_of_halves, cellOf_of_lt hw]

end ServeUnwatch

/-- Settles O40: the watch list decides between the refusal and the removal of the watch with its record. -/
theorem unwatchACell : Obligations.UnwatchACell := by
  intro s p w hadm
  rw [exec_unwatch]
  refine ⟨fun hrange => finishRequest_refused hadm (serveUnwatch_of_range hrange), fun c hw => ?_⟩
  have hserve := serveUnwatch_of_cell (s := s) (p := p) hw
  refine ⟨fun hunwatched => ?_, fun hwatched => ?_⟩
  · rw [if_neg ((not_watches_iff _ c).mpr hunwatched)] at hserve
    exact finishRequest_refused hadm hserve
  · rw [if_pos ((watches_iff _ c).mpr hwatched), dropWatch_eq, State.modSession_session_same] at hserve
    exact finishRequest_done hadm hserve

/-! ### The markers of the records that leave a queue -/

/-- A watch after these records have left the queue: its marker is clear when one of them reports its cell (R111). -/
def Watch.clearedBy (rs : List Record) (v : Watch) : Watch :=
  if rs.any (fun r => r.reports v.cell) then { v with pending := false } else v

/-- Records that leave one after another clear what they clear together. -/
theorem clearedBy_cons (r : Record) (rs : List Record) (v : Watch) :
    v.clearedBy (r :: rs) = (v.clearedBy [r]).clearedBy rs := by
  cases hr : r.reports v.cell
  · simp only [Watch.clearedBy, List.any_cons, List.any_nil, hr, Bool.false_or, Bool.false_eq_true, ↓reduceIte]
  · simp only [Watch.clearedBy, List.any_cons, List.any_nil, hr, Bool.true_or, ↓reduceIte, ite_self]

/-- Clearing the marker for one record: a CHANGED record clears the watch on its cell, any other record none (R111). -/
theorem clearFor_eq_map (ws : List Watch) (r : Record) : clearFor ws r = ws.map (Watch.clearedBy [r]) := by
  obtain ⟨q, e⟩ := r
  cases e with
  | changed d value origin count =>
    refine List.map_congr_left fun v _ => ?_
    simp only [Watch.clearedBy, Record.reports, List.any_cons, List.any_nil, Bool.or_false, beq_iff_eq,
      eq_comm (a := d)]
  | granted | taken | met | timedOut | leaseLow | sessionEnded => exact (List.map_id ws).symm

/-- The markers after all the records that leave (R111). -/
theorem foldl_clearFor (rs : List Record) (ws : List Watch) :
    rs.foldl clearFor ws = ws.map (Watch.clearedBy rs) := by
  induction rs generalizing ws with
  | nil => exact (List.map_id ws).symm
  | cons r rs ih =>
    rw [List.foldl_cons, ih, clearFor_eq_map, List.map_map]
    exact List.map_congr_left fun v _ => (clearedBy_cons r rs v).symm

/-! ### The own work of FETCH -/

theorem exec_fetch (p : Port) (s : State) : exec (.fetch p) s = .next (finishRequest .fetch serveFetch p s) := rfl

theorem fetchRecords_eq (p : Port) (n : Nat) (s : State) :
    fetchRecords p n s = s.modSession p fun x =>
      { x with
        queue := x.queue.drop n, lost := 0,
        watches := x.watches.map (Watch.clearedBy ((s.session p).queue.take n)) } := by
  refine State.modSession_congr s p _ _ ?_
  rw [foldl_clearFor]

/-- FETCH is decided by its count alone: refused RANGE outside 1 to 4, and otherwise answered with the lost count, the
length left and the oldest records (R111). -/
theorem serveFetch_eq (p : Port) (n : Byte) (s : State) :
    serveFetch p [n] s =
      if n = 0 ∨ 4 < n.toNat then (s, .refused .range 0)
      else
        (fetchRecords p n.toNat s,
          .done (.fetch (s.session p).lost ((s.session p).queue.length - n.toNat)
            ((s.session p).queue.take n.toNat))) := by
  simp only [serveFetch, Config.fetchSize, fetchRecords, State.modSession_session_same, List.length_drop]

/-- Settles O41: the count decides between the refusal and the fetch, and the records that leave clear their markers. -/
theorem fetchTheOldestRecords : Obligations.FetchTheOldestRecords := by
  intro s p n hadm
  rw [exec_fetch]
  have hserve := serveFetch_eq p n s
  refine ⟨fun hrange => ?_, fun hpos hle => ?_⟩
  · rw [if_pos hrange] at hserve
    exact finishRequest_refused hadm hserve
  · rw [if_neg (not_or.mpr ⟨hpos, Nat.not_lt.mpr hle⟩), fetchRecords_eq] at hserve
    exact finishRequest_done hadm hserve

end Sys2Proof.Machine
end

section
/-!
PROOFS. One induction over everything a step can do. A law of the cells, locks, entries and sessions holds after a step
when a tick, a claim, the work of each kind, an expiry, a teardown and the two resets keep it.
-/

namespace Sys2Proof.Machine

open Sys2Proof.Safety

/-! ### Lists -/

/-- A list whose images are pairwise different has one element for each image. -/
theorem eq_of_nodup_map {α β : Type} {f : α → β} {l : List α} (h : (l.map f).Nodup) {a b : α} (ha : a ∈ l) (hb : b ∈ l)
    (hf : f a = f b) : a = b := by
  induction l with
  | nil => exact nomatch ha
  | cons c l ih =>
    obtain ⟨hnot, hnodup⟩ := List.nodup_cons.mp h
    rcases List.mem_cons.mp ha with hac | hal
    · rcases List.mem_cons.mp hb with hbc | hbl
      · exact hac.trans hbc.symm
      · exact absurd (List.mem_map.mpr ⟨b, hbl, hf.symm.trans (congrArg f hac)⟩) hnot
    · rcases List.mem_cons.mp hb with hbc | hbl
      · exact absurd (List.mem_map.mpr ⟨a, hal, hf.trans (congrArg f hbc)⟩) hnot
      · exact ih hnodup hal hbl

/-- A member of a list counts once more than in the list without it. -/
theorem countP_of_mem {α : Type} [DecidableEq α] {l : List α} {a : α} (h : a ∈ l) (f : α → Bool) :
    l.countP f = (l.erase a).countP f + if f a then 1 else 0 := by
  rw [(List.perm_cons_erase h).countP_eq f, List.countP_cons]

/-! ### The commands as functions of the state -/

theorem exec_commandOf (k : Kind) (p : Port) (s : State) :
    exec (commandOf k p) s = .next (finishRequest k k.work p s) := by
  cases k <;> rfl

theorem exec_expiryItem (n : Fin 24) (s : State) : exec (.expiryItem n) s = execExpiryItem n s := rfl
theorem exec_teardownItem (p : Port) (s : State) : exec (.teardownItem p) s = execTeardownItem p s := rfl
theorem exec_unknownKindCode (p : Port) (s : State) : exec (.unknownKindCode p) s = execUnknownKindCode p s := rfl
theorem exec_portResetActs (p : Port) (s : State) : exec (.portResetActs p) s = execPortResetActs p s := rfl
theorem exec_resetLine (s : State) : exec .resetLine s = .next (lineReset (completeWork (settled s))) := rfl
theorem exec_timebaseTick (s : State) : exec .timebaseTick s = .next (tickComes (settled s)) := rfl

/-- DEADLINE_ZERO, LEASE_LOW and LAPSE are the tick or leave the settled state (log entry 5). -/
theorem exec_namedTick {c : Instr} (h : (∃ n, c = .deadlineZero n) ∨ ∃ p, c = .leaseLow p ∨ c = .lapse p) (s : State) :
    exec c s = .next (tickComes (settled s)) ∨ exec c s = .next (settled s) := by
  obtain ⟨n, rfl⟩ | ⟨p, rfl | rfl⟩ := h
  · change Host.Outcome.next (ite _ _ _) = _ ∨ Host.Outcome.next (ite _ _ _) = _
    split <;> simp
  · change Host.Outcome.next (ite _ _ _) = _ ∨ Host.Outcome.next (ite _ _ _) = _
    split <;> simp
  · change Host.Outcome.next (ite _ _ _) = _ ∨ Host.Outcome.next (ite _ _ _) = _
    split <;> simp

/-- The frame commands run their segment on the settled state. -/
theorem exec_frame {p : Port} {type : Byte} {f : Segment → Instr} (hf : f ∈ frameCommands p type) :
    ∃ type', ∀ seg s, exec (f seg) s = .next (transact p type' seg (settled s)) := by
  simp only [frameCommands, List.mem_cons, List.not_mem_nil, or_false] at hf
  obtain rfl | rfl | rfl | rfl | rfl | rfl := hf
  · exact ⟨Config.requestType, fun _ _ => rfl⟩
  · exact ⟨Config.pollType, fun _ _ => rfl⟩
  · exact ⟨Config.portResetType, fun _ _ => rfl⟩
  · exact ⟨type, fun _ _ => rfl⟩
  · exact ⟨Config.requestType, fun _ _ => rfl⟩
  · exact ⟨Config.portResetType, fun _ _ => rfl⟩

/-- The forms of commands. -/
inductive Form : Instr → Prop
  | request (k : Kind) (p : Port) : Form (commandOf k p)
  | frame (p : Port) (type : Byte) (seg : Segment) (f : Segment → Instr) : f ∈ frameCommands p type → Form (f seg)
  | namedTick (c : Instr) : ((∃ n, c = .deadlineZero n) ∨ ∃ p, c = .leaseLow p ∨ c = .lapse p) → Form c
  | timebaseTick : Form .timebaseTick
  | expiryItem (n : Fin 24) : Form (.expiryItem n)
  | teardownItem (p : Port) : Form (.teardownItem p)
  | portResetActs (p : Port) : Form (.portResetActs p)
  | unknownKindCode (p : Port) : Form (.unknownKindCode p)
  | powerOn : Form .powerOn
  | initComplete : Form .initComplete
  | resetLine : Form .resetLine
  | resetReturnsHigh : Form .resetReturnsHigh

theorem form_of (c : Instr) : Form c := by
  cases c with
  | openSession p => exact .request .openSession p
  | closeSession p => exact .request .closeSession p
  | renewEven p => exact .request .renewEven p
  | renewOdd p => exact .request .renewOdd p
  | status p => exact .request .status p
  | chain p => exact .request .chain p
  | gather p => exact .request .gather p
  | formatCell p => exact .request .formatCell p
  | acquire p => exact .request .acquire p
  | release p => exact .request .release p
  | take p => exact .request .take p
  | give p => exact .request .give p
  | await p => exact .request .await p
  | cancel p => exact .request .cancel p
  | watch p => exact .request .watch p
  | unwatch p => exact .request .unwatch p
  | fetch p => exact .request .fetch p
  | requestFrame p seg => exact .frame p 0 seg (.requestFrame p) (by simp [frameCommands])
  | pollFrame p seg => exact .frame p 0 seg (.pollFrame p) (by simp [frameCommands])
  | portResetFrame p seg => exact .frame p 0 seg (.portResetFrame p) (by simp [frameCommands])
  | unknownFrameType p type seg => exact .frame p type seg (.unknownFrameType p type) (by simp [frameCommands])
  | damagedRequestFrame p seg => exact .frame p 0 seg (.damagedRequestFrame p) (by simp [frameCommands])
  | damagedPortReset p seg => exact .frame p 0 seg (.damagedPortReset p) (by simp [frameCommands])
  | deadlineZero n => exact .namedTick _ (.inl ⟨n, rfl⟩)
  | leaseLow p => exact .namedTick _ (.inr ⟨p, .inl rfl⟩)
  | lapse p => exact .namedTick _ (.inr ⟨p, .inr rfl⟩)
  | timebaseTick => exact .timebaseTick
  | expiryItem n => exact .expiryItem n
  | teardownItem p => exact .teardownItem p
  | portResetActs p => exact .portResetActs p
  | unknownKindCode p => exact .unknownKindCode p
  | powerOn => exact .powerOn
  | initComplete => exact .initComplete
  | resetLine => exact .resetLine
  | resetReturnsHigh => exact .resetReturnsHigh

/-! ### What a transaction can do -/

/-- A predicate that folds of its steps keep. -/
theorem foldl_kept {α : Type} {L : State → Prop} {f : State → α → State} (h : ∀ s a, L s → L (f s a)) (l : List α)
    {s : State} (hs : L s) : L (l.foldl f s) := by
  induction l generalizing s with
  | nil => exact hs
  | cons a l ih => exact ih (h s a hs)

/-- A predicate that each effect of a transaction on the port keeps. -/
structure LinkLaw (p : Port) (L : State → Prop) : Prop where
  plain : ∀ s (f : PortLink → PortLink), (∀ x, (f x).slot = x.slot ∧ (f x).resetPending = x.resetPending) → L s →
    L (s.modPort p f)
  poll : ∀ rx s, L s → L (endPoll p rx s)
  accept : ∀ r s, L s → L (acceptRequest p r s)
  reset : ∀ s, L s → L (receivePortReset p s)

section
variable {p : Port} {L : State → Prop} (h : LinkLaw p L)
include h

theorem setReceiver_kept (r : Receiver) {s : State} (hs : L s) : L (setReceiver p r s) :=
  h.plain s _ (fun _ => ⟨rfl, rfl⟩) hs

theorem countLinkError_kept {s : State} (hs : L s) : L (countLinkError p s) :=
  h.plain s _ (fun _ => ⟨rfl, rfl⟩) hs

theorem receiveByte_kept (rx : Rx) (b : Byte) {s : State} (hs : L s) : L (receiveByte p rx b s) := by
  have hr : ∀ r, L (setReceiver p r s) := fun r => setReceiver_kept h r hs
  unfold receiveByte completeRequest
  dsimp only
  split
  · split
    · exact hr _
    · exact countLinkError_kept h (hr _)
  · split
    · exact hr _
    · exact countLinkError_kept h (hr _)
    · split
      · exact h.accept _ _ (hr _)
      · exact countLinkError_kept h (hr _)
  · exact hr _
  · split
    · exact h.reset _ (hr _)
    · exact countLinkError_kept h (hr _)
  · exact hr _

theorem clockBit_kept (s : State) (bit : Bool) (hs : L s) : L (clockBit p s bit) := by
  unfold clockBit
  split
  · exact hs
  · next rx _ =>
    have ho := h.plain s (fun x => { x with out := x.out ++ [driven rx] }) (fun _ => ⟨rfl, rfl⟩) hs
    dsimp only
    split
    · exact receiveByte_kept h _ _ ho
    · exact setReceiver_kept h _ ho

theorem clockBits_kept (bits : List Bool) {s : State} (hs : L s) : L (clockBits p bits s) :=
  foldl_kept (clockBit_kept h) bits hs

theorem deselectPort_kept {s : State} (hs : L s) : L (deselectPort p s) := by
  have ht := h.plain s (fun x => { x with selected := false, receiver := .idle }) (fun _ => ⟨rfl, rfl⟩) hs
  unfold deselectPort
  dsimp only
  split
  · exact ht
  · split
    · exact countLinkError_kept h ht
    · exact countLinkError_kept h ht
    · exact h.poll _ _ ht
    · exact ht
    · exact ht

theorem openTransaction_kept (m : ClockMode) {s : State} (hs : L s) : L (openTransaction p m s) := by
  unfold openTransaction selectPort
  refine h.plain _ _ (fun _ => ⟨rfl, rfl⟩) ?_
  split
  · exact deselectPort_kept h hs
  · exact hs

/-- A transaction, whole or in segments, keeps what each of its effects keeps. -/
theorem transact_kept (type : Byte) (seg : Segment) {s : State} (hs : L s) : L (transact p type seg s) := by
  cases seg with
  | whole m bytes bits => exact deselectPort_kept h (clockBits_kept h _ (openTransaction_kept h m hs))
  | start m bytes bits => exact clockBits_kept h _ (openTransaction_kept h m hs)
  | select m => exact openTransaction_kept h m hs
  | first bytes bits => exact clockBits_kept h _ hs
  | more bytes bits => exact clockBits_kept h _ hs
  | finish bytes bits => exact deselectPort_kept h (clockBits_kept h _ hs)
  | aborted m bits => exact deselectPort_kept h (clockBits_kept h _ (openTransaction_kept h m hs))
end

/-! ### The arbiter's choice is work that waits -/

theorem listsTeardown_iff (s : State) (p : Port) : listsTeardown s p = true ↔ Item.teardown p ∈ s.workList := by
  simp [listsTeardown]

theorem portWork_cases {s : State} {p : Port} {w : Work} (h : portWork s p = some w) :
    (holdsRequest s p = true ∧ w = .request p (s.port p).linkErrors) ∨
      (Item.teardown p ∈ s.workList ∧ w = .item (.teardown p)) := by
  unfold portWork at h
  split at h
  · next hh => exact .inl ⟨hh, (Option.some.inj h).symm⟩
  · split at h
    · next ht => exact .inr ⟨(listsTeardown_iff s p).mp ht, (Option.some.inj h).symm⟩
    · cases h

/-- The arbiter chooses a request that is HELD or an item of the list (R141). -/
theorem choose_cases {s : State} {w : Work} (h : choose s = some w) :
    (∃ p, holdsRequest s p = true ∧ w = .request p (s.port p).linkErrors) ∨ ∃ i ∈ s.workList, w = .item i := by
  unfold choose at h
  split at h
  · next i hi => exact .inr ⟨i, List.mem_of_find?_eq_some hi, (Option.some.inj h).symm⟩
  · split at h
    · next ht => exact .inr ⟨_, (listsTeardown_iff _ _).mp ht, (Option.some.inj h).symm⟩
    · obtain ⟨p, -, hp⟩ := List.exists_of_findSome?_eq_some h
      rcases portWork_cases hp with ⟨hh, rfl⟩ | ⟨ht, rfl⟩
      · exact .inl ⟨p, hh, rfl⟩
      · exact .inr ⟨_, ht, rfl⟩

theorem holdsRequest_iff (s : State) (p : Port) : holdsRequest s p = true ↔ ∃ r, (s.port p).slot = .held r := by
  unfold holdsRequest
  cases (s.port p).slot <;> simp

/-! ### What the work of a kind can do -/

/-- What the own work of a request kind can leave, said once: the state after it and its reply. A refusal and an answer
without effect leave the state; every other case carries the checks that led to it. -/
inductive Served (p : Port) (s : State) : Kind → State → Reply → Prop
  | refused (k : Kind) (r : Reason) (i : Nat) : (k ≠ .chain → i = 0) → Served p s k s (.refused r i)
  | answered (k : Kind) (f : Fields) : Served p s k s (.done f)
  | opened (units : Byte) (f : Fields) : (s.session p).state = .closed → units ≠ 0 →
      Served p s .openSession (markFresh p (s.modSession p fun x => x.opening units)) (.done f)
  | closed (f : Fields) :
      Served p s .closeSession
        (teardown p (s.modSession p fun x => { x with endCause := .closed, leaseRemaining := 0 })) (.done f)
  | renewed (k : Kind) (f : Fields) : k = .renewEven ∨ k = .renewOdd → Served p s k (restartLease p s) (.done f)
  | chained (steps : List ChainStep) (r : ChainRun) (f : Fields) : (∀ st ∈ steps, checkStep p s st = none) →
      r = runSteps steps false (ChainRun.start s.cells) →
      Served p s .chain (handOn (some p) s.cells r.touched { s with cells := r.cells }) (.done f)
  | formatted (c : Fin 512) (x : Cell) (f : Fields) : x.fits = true → cellBusy s c = false →
      Served p s .formatCell (handOn (some p) s.cells [c] (s.setCell c x)) (.done f)
  | granted (l : Fin 48) (f : Fields) : acquireCheck (s.session p) l = none → holderOf s l = none →
      Served p s .acquire (grantLock p (s.session p).epoch l s) (.done f)
  | waitsForLock (l : Fin 48) (q : Port) (timeout : Word) (t : Byte) (u : State) (f : Fields) :
      acquireCheck (s.session p) l = none → holderOf s l = some q → createEntry p (.lock l) timeout s = .ok (t, u) →
      Served p s .acquire (u.modSession p fun x => { x with pendingAcquire := some (l, t) }) (.pending f)
  | released (l : Fin 48) (f : Fields) : (s.session p).pendingAcquire = none → heldBy s p l = true →
      (s.session p).stack.getLast? = some l →
      Served p s .release (passOn l (markBank l false (popStack p s))).1 (.done f)
  | taken (c : Fin 512) (ceil v : Word) (amount : Byte) (f : Fields) : s.cell c = .counter ceil v →
      takeWaiters s c = [] → amount.toNat ≤ v.toNat →
      Served p s .take (handOn (some p) s.cells [c] (lowerCounter c amount.toNat s)) (.done f)
  | waitsToTake (c : Fin 512) (ceil v : Word) (amount : Byte) (timeout : Word) (t : Byte) (u : State) (f : Fields) :
      s.cell c = .counter ceil v → (takeWaiters s c = [] → v.toNat < amount.toNat) →
      createEntry p (.take c amount) timeout s = .ok (t, u) → Served p s .take u (.pending f)
  | given (c : Fin 512) (ceil v : Word) (amount : Byte) (f : Fields) : s.cell c = .counter ceil v →
      v.toNat + amount.toNat ≤ ceil.toNat →
      Served p s .give
        (handOn (some p) s.cells [c]
          (grantWalk c (s.setCell c (.counter ceil (BitVec.ofNat 16 (v.toNat + amount.toNat))))).1) (.done f)
  | awaits (c : Fin 512) (cond : Condition) (operand timeout : Word) (t : Byte) (u : State) (f : Fields) :
      cond.holds operand (s.cell c).reported = false → createEntry p (.await c cond operand) timeout s = .ok (t, u) →
      Served p s .await u (.pending f)
  | cancelled (t : Byte) (w : WaitEntry) (f : Fields) : entryTicketed s p t = some w →
      Served p s .cancel (cancelEntry w s) (.done f)
  | watched (c : Fin 512) (f : Fields) : (s.session p).watches.length < 8 → watches (s.session p) c = false →
      Served p s .watch (s.modSession p fun x => { x with watches := x.watches ++ [⟨c, false⟩] }) (.done f)
  | unwatched (c : Fin 512) (f : Fields) : Served p s .unwatch (dropWatch p c s) (.done f)
  | fetched (n : Nat) (f : Fields) : Served p s .fetch (fetchRecords p n s) (.done f)

/-- A pair of state and reply is one of the cases. -/
abbrev ServedPair (p : Port) (s : State) (k : Kind) (a : State × Reply) : Prop := Served p s k a.1 a.2

section
variable (p : Port) (payload : List Byte) (s : State)

theorem served_refused (k : Kind) (r : Reason) : ServedPair p s k (s, .refused r 0) := Served.refused k r 0 fun _ => rfl

theorem served_open : ServedPair p s .openSession (serveOpen p payload s) := by
  unfold serveOpen
  split
  · split
    · exact served_refused p s _ _
    · exact served_refused p s _ _
    · next hstate =>
      split
      · exact served_refused p s _ _
      · next hu => exact Served.opened _ _ hstate hu
  · exact served_refused p s _ _

theorem served_renew {k : Kind} {x : Renewal} (hk : k = .renewEven ∨ k = .renewOdd) :
    ServedPair p s k (serveRenew x p payload s) := by
  unfold serveRenew
  dsimp only
  split
  · exact Served.renewed k _ hk
  · exact Served.answered k _

theorem validateSteps_ok {raws : List RawStep} {steps : List ChainStep} {i : Nat}
    (h : validateSteps p s i raws = .ok steps) : ∀ st ∈ steps, checkStep p s st = none := by
  induction raws generalizing i steps with
  | nil =>
    cases h
    exact List.forall_mem_nil _
  | cons raw rest ih =>
    unfold validateSteps at h
    split at h
    · cases h
    · next step _ =>
      split at h
      · cases h
      · next hcheck =>
        split at h
        · cases h
        · next hrest =>
          cases h
          exact List.forall_mem_cons.mpr ⟨hcheck, ih hrest⟩

theorem served_chain : ServedPair p s .chain (serveChain p payload s) := by
  unfold serveChain
  split
  · exact served_refused p s _ _
  · split
    · exact served_refused p s _ _
    · split
      · exact Served.refused _ _ _ fun h => absurd rfl h
      · next h => exact Served.chained _ _ _ (validateSteps_ok p s h) rfl

theorem served_gather : ServedPair p s .gather (serveGather p payload s) := by
  unfold serveGather
  split
  · split
    · exact served_refused p s _ _
    · split
      · exact served_refused p s _ _
      · split
        · exact Served.answered _ _
        · exact served_refused p s _ _
  · exact served_refused p s _ _

theorem served_format : ServedPair p s .formatCell (serveFormat p payload s) := by
  unfold serveFormat
  split
  · exact served_refused p s _ _
  · split
    · exact served_refused p s _ _
    · split
      · exact served_refused p s _ _
      · next hfits =>
        split
        · exact served_refused p s _ _
        · split
          · exact served_refused p s _ _
          · next hbusy => exact Served.formatted _ _ _ (by simpa using hfits) (by simpa using hbusy)

theorem served_acquire : ServedPair p s .acquire (serveAcquire p payload s) := by
  unfold serveAcquire
  split
  · split
    · exact served_refused p s _ _
    · split
      · exact served_refused p s _ _
      · next hcheck =>
        unfold decideAcquire
        split
        · next hfree => exact Served.granted _ _ hcheck hfree
        · next q hheld =>
          split
          · exact served_refused p s _ _
          · split
            · exact served_refused p s _ _
            · unfold waitForLock
              split
              · exact served_refused p s _ _
              · next hcreate => exact Served.waitsForLock _ q _ _ _ _ hcheck hheld hcreate
  · exact served_refused p s _ _

theorem served_release : ServedPair p s .release (serveRelease p payload s) := by
  unfold serveRelease
  split
  · split
    · exact served_refused p s _ _
    · split
      · exact served_refused p s _ _
      · next hpending =>
        split
        · next h =>
          obtain ⟨hheld, htop⟩ := (Bool.and_eq_true_iff).mp h
          exact Served.released _ _ (by simpa using hpending) hheld (by simpa using htop)
        · exact served_refused p s _ _
  · exact served_refused p s _ _

theorem served_decideTake {c : Fin 512} {ceil v : Word} (amount : Byte) (timeout : Word)
    (hc : s.cell c = .counter ceil v) : ServedPair p s .take (decideTake p c amount timeout s) := by
  have hv := number_of_counter hc
  unfold decideTake
  split
  · next h => exact Served.taken c ceil v amount _ hc h.1 (hv ▸ h.2)
  · next h =>
    rw [hv] at h
    split
    · exact served_refused p s _ _
    · unfold takeLater
      split
      · exact served_refused p s _ _
      · next hcreate =>
        exact Served.waitsToTake c ceil v amount timeout _ _ _ hc (fun hnone => by simpa [hnone] using h) hcreate

theorem served_take : ServedPair p s .take (serveTake p payload s) := by
  unfold serveTake
  split
  · split
    · exact served_refused p s _ _
    · split
      · exact served_refused p s _ _
      · split
        · exact served_refused p s _ _
        · exact served_refused p s _ _
        · next hc =>
          split
          · exact served_refused p s _ _
          · split
            · exact served_refused p s _ _
            · exact served_decideTake p s _ _ hc
  · exact served_refused p s _ _

theorem served_give : ServedPair p s .give (serveGive p payload s) := by
  unfold serveGive
  split
  · split
    · exact served_refused p s _ _
    · split
      · exact served_refused p s _ _
      · split
        · exact served_refused p s _ _
        · exact served_refused p s _ _
        · next hc =>
          split
          · exact served_refused p s _ _
          · split
            · exact served_refused p s _ _
            · next hceil => exact Served.given _ _ _ _ _ hc (Nat.le_of_not_lt hceil)
  · exact served_refused p s _ _

theorem served_await : ServedPair p s .await (serveAwait p payload s) := by
  unfold serveAwait
  split
  · split
    · exact served_refused p s _ _
    · split
      · exact served_refused p s _ _
      · split
        · exact served_refused p s _ _
        · split
          · exact served_refused p s _ _
          · unfold decideAwait
            dsimp only
            split
            · exact Served.answered _ _
            · next hholds =>
              split
              · exact served_refused p s _ _
              · split
                · exact served_refused p s _ _
                · next hcreate => exact Served.awaits _ _ _ _ _ _ _ (Bool.eq_false_iff.mpr hholds) hcreate
  · exact served_refused p s _ _

theorem served_cancel : ServedPair p s .cancel (serveCancel p payload s) := by
  unfold serveCancel
  split
  · split
    · exact served_refused p s _ _
    · next hw => exact Served.cancelled _ _ _ hw
  · exact served_refused p s _ _

theorem served_watch : ServedPair p s .watch (serveWatch p payload s) := by
  unfold serveWatch
  split
  · split
    · exact served_refused p s _ _
    · dsimp only
      split
      · exact served_refused p s _ _
      · next hlen =>
        split
        · exact served_refused p s _ _
        · next hnot => exact Served.watched _ _ (Nat.lt_of_not_le hlen) (Bool.eq_false_iff.mpr hnot)
  · exact served_refused p s _ _

theorem served_unwatch : ServedPair p s .unwatch (serveUnwatch p payload s) := by
  unfold serveUnwatch
  split
  · split
    · exact served_refused p s _ _
    · split
      · exact Served.unwatched _ _
      · exact served_refused p s _ _
  · exact served_refused p s _ _

theorem served_fetch : ServedPair p s .fetch (serveFetch p payload s) := by
  unfold serveFetch
  split
  · split
    · exact served_refused p s _ _
    · exact Served.fetched _ _
  · exact served_refused p s _ _

/-- Every kind's work is one of the cases. -/
theorem served_work (k : Kind) : ServedPair p s k (k.work p payload s) := by
  cases k with
  | openSession => exact served_open p payload s
  | closeSession => exact Served.closed _
  | renewEven => exact served_renew p payload s (.inl rfl)
  | renewOdd => exact served_renew p payload s (.inr rfl)
  | status => exact Served.answered _ _
  | chain => exact served_chain p payload s
  | gather => exact served_gather p payload s
  | formatCell => exact served_format p payload s
  | acquire => exact served_acquire p payload s
  | release => exact served_release p payload s
  | take => exact served_take p payload s
  | give => exact served_give p payload s
  | await => exact served_await p payload s
  | cancel => exact served_cancel p payload s
  | watch => exact served_watch p payload s
  | unwatch => exact served_unwatch p payload s
  | fetch => exact served_fetch p payload s
end

/-! ### What the work of a kind leaves as it was -/

theorem sameOutside_createEntry {p : Port} {wait : Wait} {timeout : Word} {s u : State} {t : Byte}
    (h : createEntry p wait timeout s = .ok (t, u)) : SameOutside s u := by
  obtain ⟨n, -, -, -, -, rfl⟩ := createEntry_ok h
  exact ⟨rfl, rfl, rfl, rfl, rfl, rfl, rfl, rfl⟩

theorem sameOutside_cancelEntry (w : WaitEntry) (s : State) : SameOutside s (cancelEntry w s) := by
  have ht : SameOutside s (clearMarker w ((dropEntry w s).modSession w.port fun x =>
      { x with reserved := x.reserved - 1 })) :=
    sameOutside_trans (sameOutside_dropEntry w s) <| sameOutside_trans (sameOutside_modSession _ _ _)
      (sameOutside_clearMarker w _)
  unfold cancelEntry walkAfter
  dsimp only
  split
  · exact ht
  · exact sameOutside_trans ht (sameOutside_trans (sameOutside_grantWalk _ _) (sameOutside_handOn _ _ _ _))

theorem sameOutside_expireEntry (w : WaitEntry) (s : State) : SameOutside s (expireEntry w s) := by
  have ht : SameOutside s (clearMarker w (placeReserved w.port (.timedOut w.ticket w.wait.purpose w.wait.target)
      (dropEntry w s))) :=
    sameOutside_trans (sameOutside_dropEntry w s) <| sameOutside_trans (sameOutside_placeReserved _ _ _)
      (sameOutside_clearMarker w _)
  unfold expireEntry walkAfter
  dsimp only
  split
  · exact ht
  · exact sameOutside_trans ht (sameOutside_trans (sameOutside_grantWalk _ _) (sameOutside_handOn _ _ _ _))

theorem sameOutside_serveExpiry (n : Fin 24) (p : Port) (t : Byte) (s : State) :
    SameOutside s (serveExpiry n p t s) := by
  unfold serveExpiry
  split
  · exact sameOutside_refl s
  · exact sameOutside_expireEntry _ s

/-- The work of a kind changes neither the port interfaces nor the engine (R146). -/
theorem sameOutside_served {p : Port} {s : State} {k : Kind} {u : State} {a : Reply} (h : Served p s k u a) :
    SameOutside s u := by
  cases h with
  | refused | answered => exact sameOutside_refl s
  | opened | renewed => exact ⟨rfl, rfl, rfl, rfl, rfl, rfl, rfl, rfl⟩
  | closed => exact sameOutside_trans (sameOutside_modSession _ _ _) (sameOutside_teardown p _)
  | chained steps r =>
    exact sameOutside_trans (t := { s with cells := r.cells }) ⟨rfl, rfl, rfl, rfl, rfl, rfl, rfl, rfl⟩
      (sameOutside_handOn _ _ _ _)
  | formatted => exact sameOutside_trans (sameOutside_setCell _ _ _) (sameOutside_handOn _ _ _ _)
  | granted => exact sameOutside_grantLock _ _ _ _
  | waitsForLock l q timeout t u' f _ _ hcreate =>
    exact sameOutside_trans (sameOutside_createEntry hcreate) (sameOutside_modSession _ _ _)
  | released =>
    exact sameOutside_trans (sameOutside_modSession _ _ _) <| sameOutside_trans (sameOutside_markBank _ _ _)
      (sameOutside_passOn _ _)
  | taken => exact sameOutside_trans (sameOutside_lowerCounter _ _ _) (sameOutside_handOn _ _ _ _)
  | waitsToTake c ceil v amount timeout t u f _ _ hcreate => exact sameOutside_createEntry hcreate
  | given =>
    exact sameOutside_trans (sameOutside_setCell _ _ _) <| sameOutside_trans (sameOutside_grantWalk _ _)
      (sameOutside_handOn _ _ _ _)
  | awaits c cond operand timeout t u f _ hcreate => exact sameOutside_createEntry hcreate
  | cancelled t w => exact sameOutside_cancelEntry w s
  | watched | unwatched | fetched => exact sameOutside_modSession _ _ _

/-- A request served leaves the service state to the end of the piece. -/
theorem service_serve (k : Kind) (p : Port) (r : Request) (s : State) :
    (serve k k.work p r s).service = s.service := by
  unfold serve
  split
  · rfl
  · exact (sameOutside_served (served_work p r.payload s k)).service

theorem service_of_requestInService {p : Port} {s : State} {r : Request} (h : requestInService p s = some r) :
    ∃ n, s.service = .serving (.request p n) := by
  unfold requestInService at h
  split at h
  · next q n _ hs _ =>
    split at h
    · next hq => exact ⟨n, hq ▸ hs⟩
    · cases h
  · cases h

/-- A request of a kind that needs an OPEN session passes the common checks in such a session alone (R145). -/
theorem opened_of_commonCheck {k : Kind} {r : Request} {x : Session} (h : commonCheck k r x = none)
    (hk : k.needsOpen = true) : x.state = .opened := by
  unfold commonCheck at h
  rw [hk] at h
  cases hstate : x.state with
  | opened => rfl
  | closed => split at h <;> simp [hstate] at h
  | ending => split at h <;> simp [hstate] at h

/-! ### The data that the laws speak of -/

/-- The parts that the laws of cells, locks, entries and sessions speak of are the same, and each port has as many
teardown items on the list and in service. -/
structure SameData (s t : State) : Prop where
  cells     : t.cells = s.cells
  locks     : t.locks = s.locks
  pool      : t.pool = s.pool
  sessions  : t.sessions = s.sessions
  teardowns : ∀ p, teardownsOf t p = teardownsOf s p

theorem sameData_modPort (s : State) (p : Port) (f : PortLink → PortLink) : SameData s (s.modPort p f) :=
  ⟨rfl, rfl, rfl, rfl, fun _ => rfl⟩

theorem sameData_deferred (s : State) (l : List Claim) : SameData s { s with deferred := l } :=
  ⟨rfl, rfl, rfl, rfl, fun _ => rfl⟩

theorem sameData_fresh (s : State) (f : Fresh) : SameData s { s with fresh := f } := ⟨rfl, rfl, rfl, rfl, fun _ => rfl⟩

/-- A piece of work that is no teardown leaves service without a change of the data. -/
theorem sameData_idle {s : State} (h : ∀ p, s.service ≠ .serving (.item (.teardown p))) :
    SameData s { s with service := .idle } :=
  ⟨rfl, rfl, rfl, rfl, fun p => by simp [teardownsOf, h p]⟩

/-- The taking of an item moves it from the list into service. -/
theorem teardownsOf_takeItem {s : State} {i : Item} (hs : s.service = .idle) (hi : i ∈ s.workList) (p : Port) :
    teardownsOf (takeWork (.item i) s) p = teardownsOf s p := by
  simp only [teardownsOf, takeWork, hs, reduceCtorEq, if_false, Service.serving.injEq, Work.item.injEq]
  rw [countP_of_mem hi, Nat.add_zero]
  simp only [beq_iff_eq]

theorem sameData_arbitrate (s : State) : SameData s (arbitrate s) := by
  refine ⟨arbitrate_cells s, arbitrate_locks s, arbitrate_pool s, arbitrate_sessions s, fun p => ?_⟩
  cases hs : s.service with
  | serving w => rw [arbitrate_of_serving hs]
  | idle =>
    cases hc : choose s with
    | none => rw [arbitrate_of_none hc]
    | some w =>
      rw [arbitrate_of_some hs hc]
      rcases choose_cases hc with ⟨q, -, rfl⟩ | ⟨i, hi, rfl⟩
      · simp [teardownsOf, takeWork, hs]
      · exact teardownsOf_takeItem hs hi p

/-! ### Laws that every step keeps -/

/-- What a law of the data must survive: each effect that a step can have on the data. -/
structure StepLaw (L : State → Prop) : Prop where
  data     : ∀ {s t}, SameData s t → L s → L t
  tick     : ∀ s, L s → L (tickActs s)
  claim    : ∀ p s, L s → L (claimSession p s)
  work     : ∀ {k p s u a}, L s → (k.needsOpen = true → (s.session p).state = .opened) → Served p s k u a → L u
  expiry   : ∀ n p t s, L s → L (serveExpiry n p t s)
  teardown : ∀ p s, L s → s.service = .serving (.item (.teardown p)) → L { teardown p s with service := .idle }
  powerUp  : ∀ s, L (powerUp s)
  lineReset : ∀ s, L s → L (lineReset s)

section
variable {L : State → Prop} (h : StepLaw L)
include h

theorem StepLaw.keeps_resetPort (p : Port) {s : State} (hs : L s) : L (resetPort p s) :=
  h.claim p _ (h.data (sameData_modPort s p _) hs)

theorem StepLaw.keeps_arbitrate {s : State} (hs : L s) : L (arbitrate s) := h.data (sameData_arbitrate s) hs

theorem StepLaw.keeps_actClaim (s : State) (c : Claim) (hs : L s) : L (actClaim s c) := by
  cases c with
  | tick => exact h.tick s hs
  | portReset p => exact h.keeps_resetPort p hs

theorem StepLaw.keeps_actTicks (l : List Claim) {s : State} (hs : L s) : L (actTicks l s) := by
  induction l generalizing s with
  | nil => exact h.data (sameData_deferred s _) hs
  | cons c l ih =>
    cases c with
    | tick => exact ih (h.tick s hs)
    | portReset p => exact h.data (sameData_deferred s _) hs

theorem StepLaw.keeps_actThrough (p : Port) (l : List Claim) {s : State} (hs : L s) : L (actThrough p l s) := by
  induction l generalizing s with
  | nil => exact h.data (sameData_deferred s _) hs
  | cons c l ih =>
    unfold actThrough
    split
    · exact h.keeps_actTicks l (h.keeps_resetPort p hs)
    · exact ih (h.keeps_actClaim s c hs)

theorem StepLaw.keeps_chooseNext {s : State} (hs : L s) : L (chooseNext s) := by
  unfold chooseNext
  split
  · exact h.keeps_arbitrate (h.data (sameData_fresh s _) hs)
  · exact hs

theorem StepLaw.keeps_settled {s : State} (hs : L s) : L (settled s) := by
  unfold settled
  split
  · exact hs
  · exact h.keeps_chooseNext (foldl_kept h.keeps_actClaim _ (h.data (sameData_deferred s _) hs))

/-- The end of a piece of work, from the state that the piece leaves with the engine idle. -/
theorem StepLaw.keeps_conclude {s : State} (hs : L { s with service := .idle }) : L (conclude s) :=
  h.keeps_chooseNext (h.keeps_actTicks _ hs)

theorem StepLaw.keeps_tickComes {s : State} (hs : L s) : L (tickComes s) := by
  unfold tickComes
  split
  · exact h.keeps_arbitrate (h.tick s hs)
  · exact h.data (sameData_deferred s _) hs

theorem StepLaw.keeps_linkLaw (p : Port) : LinkLaw p L where
  plain s f _ hs := h.data (sameData_modPort s p f) hs
  poll rx s hs := h.data (sameData_modPort s p _) hs
  accept r s hs := by
    unfold acceptRequest
    split
    · exact h.keeps_arbitrate (h.data (sameData_modPort s p _) hs)
    all_goals exact h.data (sameData_modPort s p _) hs
  reset s hs := by
    unfold receivePortReset
    split
    · exact h.keeps_arbitrate (h.keeps_resetPort p hs)
    · split
      · exact hs
      · exact h.data (sameData_deferred _ _) (h.data (sameData_modPort s p _) hs)

theorem StepLaw.keeps_placeResponse (p : Port) (r : Response) {s : State} (hs : L s) : L (placeResponse p r s) :=
  h.data (sameData_modPort s p _) hs

/-- A request served: the common checks let a kind that needs an OPEN session work in such a session alone. -/
theorem StepLaw.keeps_serve (k : Kind) (p : Port) (r : Request) {s : State} (hs : L s) : L (serve k k.work p r s) := by
  unfold serve
  split
  · exact h.data (sameData_modPort s p _) hs
  · next hc =>
    exact h.data (sameData_modPort _ p _) (h.work hs (opened_of_commonCheck hc) (served_work p r.payload s k))

theorem StepLaw.keeps_serveAny (p : Port) (r : Request) {s : State} (hs : L s) : L (serveAny p r s) := by
  unfold serveAny
  split
  · exact h.keeps_serve _ p r hs
  · exact h.keeps_placeResponse p _ hs

/-- The end of a piece of work that was no teardown. -/
theorem StepLaw.keeps_conclude_of_serving {w : Work} (hw : ∀ p, w ≠ .item (.teardown p)) {s : State}
    (hservice : s.service = .serving w) (hs : L s) : L (conclude s) := by
  refine StepLaw.keeps_conclude h (h.data (sameData_idle fun p => ?_) hs)
  rw [hservice]
  exact fun e => hw p (Service.serving.inj e)

theorem StepLaw.keeps_finishRequest (k : Kind) (p : Port) {s : State} (hs : L s) : L (finishRequest k k.work p s) := by
  have hset := h.keeps_settled hs
  unfold finishRequest
  dsimp only
  split
  · next r hr =>
    split
    · obtain ⟨n, hservice⟩ := service_of_requestInService hr
      exact h.keeps_conclude_of_serving (w := .request p n) (fun _ e => by cases e)
        ((service_serve k p r _).trans hservice) (h.keeps_serve k p r hset)
    · exact hset
  · exact hset

theorem StepLaw.keeps_unknownKindCode (p : Port) {s t : State} (hs : L s) (ht : execUnknownKindCode p s = .next t) :
    L t := by
  have hset := h.keeps_settled hs
  unfold execUnknownKindCode at ht
  dsimp only at ht
  split at ht
  · next r hr =>
    cases ht
    split
    · obtain ⟨n, hservice⟩ := service_of_requestInService hr
      exact h.keeps_conclude_of_serving (w := .request p n) (fun _ e => by cases e) hservice
        (h.keeps_placeResponse p _ hset)
    · exact hset
  · cases ht
    exact hset

theorem StepLaw.keeps_expiryItem (n : Fin 24) {s t : State} (hs : L s) (ht : execExpiryItem n s = .next t) : L t := by
  have hset := h.keeps_settled hs
  unfold execExpiryItem at ht
  dsimp only at ht
  split at ht
  · next m p k hservice =>
    cases ht
    split
    · exact h.keeps_conclude_of_serving (w := .item (.expiry m p k)) (fun _ e => by cases e)
        ((sameOutside_serveExpiry m p k _).service.trans hservice) (h.expiry m p k _ hset)
    · exact hset
  all_goals
    cases ht
    exact hset

theorem StepLaw.keeps_teardownItem (p : Port) {s t : State} (hs : L s) (ht : execTeardownItem p s = .next t) : L t := by
  have hset := h.keeps_settled hs
  unfold execTeardownItem at ht
  dsimp only at ht
  split at ht
  · next q hservice =>
    cases ht
    split
    · exact h.keeps_conclude (h.teardown q _ hset hservice)
    · exact hset
  all_goals
    cases ht
    exact hset

theorem StepLaw.keeps_portResetActs (p : Port) {s t : State} (hs : L s) (ht : execPortResetActs p s = .next t) : L t := by
  unfold execPortResetActs at ht
  split at ht
  · cases ht
    exact hs
  · cases ht
    split
    · exact h.keeps_chooseNext (h.keeps_actThrough p _ hs)
    · exact hs

/-- The RESET line: the piece in service is carried to its end, and the line acts whatever the service state. -/
theorem StepLaw.keeps_resetLine {s : State} (hs : L s) : L (Machine.lineReset (completeWork s)) := by
  unfold completeWork
  split
  · exact h.lineReset _ hs
  · exact h.lineReset _ (h.expiry _ _ _ _ hs)
  · next p hservice => exact h.lineReset { Machine.teardown p s with service := .idle } (h.teardown p _ hs hservice)
  · split
    · exact h.lineReset _ (h.keeps_serveAny _ _ hs)
    all_goals exact h.lineReset _ hs

/-- A command keeps a law that survives each of its effects. -/
theorem StepLaw.keeps_exec (c : Instr) {s t : State} (hs : L s) (ht : exec c s = .next t) : L t := by
  have hset := h.keeps_settled hs
  cases form_of c with
  | request k p =>
    rw [exec_commandOf] at ht
    cases ht
    exact h.keeps_finishRequest k p hs
  | frame p type seg f hf =>
    obtain ⟨type', hexec⟩ := exec_frame hf
    rw [hexec] at ht
    cases ht
    exact transact_kept (h.keeps_linkLaw p) type' seg hset
  | namedTick c hc =>
    rcases exec_namedTick hc s with he | he <;> rw [he] at ht <;> cases ht
    · exact h.keeps_tickComes hset
    · exact hset
  | timebaseTick =>
    cases ht
    exact h.keeps_tickComes hset
  | expiryItem n => exact h.keeps_expiryItem n hs ht
  | teardownItem p => exact h.keeps_teardownItem p hs ht
  | portResetActs p => exact h.keeps_portResetActs p hs ht
  | unknownKindCode p => exact h.keeps_unknownKindCode p hs ht
  | powerOn =>
    cases ht
    exact h.powerUp s
  | initComplete =>
    cases ht
    exact h.data (s := s) ⟨rfl, rfl, rfl, rfl, fun _ => rfl⟩ hs
  | resetLine =>
    cases ht
    exact h.keeps_resetLine hset
  | resetReturnsHigh =>
    cases ht
    exact h.data (s := s) ⟨rfl, rfl, rfl, rfl, fun _ => rfl⟩ hs

/-- A step keeps a law that survives each of its effects. -/
theorem StepLaw.keeps_step {s t : State} (hs : L s) (ht : step s = .next t) : L t := by
  unfold step at ht
  split at ht
  · cases ht
    exact hs
  · next c rest _ =>
    have hrest : SameData s { s with pending := rest } := ⟨rfl, rfl, rfl, rfl, fun _ => rfl⟩
    exact h.keeps_exec c (h.data hrest hs) ht
end

end Sys2Proof.Machine
end

section
/-!
PROOFS. The law of the cells: no step lets a COUNTER exceed its ceiling.
-/

namespace Sys2Proof.Machine

open Sys2Proof.Safety

/-! ### Cells through walks and the handing on -/

/-- A predicate of states that reads the cells alone. -/
theorem cellLaw_of_cells {s t : State} (h : t.cells = s.cells) (hs : CellLaw s) : CellLaw t := by
  intro c
  rw [← State.cells_at, h]
  exact hs c

theorem cellLaw_setCell {s : State} (c : Fin 512) {x : Cell} (hx : x.fits = true) (hs : CellLaw s) :
    CellLaw (s.setCell c x) := by
  intro d
  rw [State.setCell_cell]
  split
  · exact hx
  · exact hs d

theorem fits_counter (n v : Word) : (Cell.counter n v).fits = true ↔ n ≠ 0 ∧ v.toNat ≤ n.toNat := by
  simp [Cell.fits]

/-- A COUNTER that is lowered stays within its ceiling. -/
theorem cellLaw_lowerCounter (c : Fin 512) (n : Nat) {s : State} (hs : CellLaw s) : CellLaw (lowerCounter c n s) := by
  unfold lowerCounter
  split
  · next ceil v hc =>
    obtain ⟨hceil, hv⟩ := (fits_counter ceil v).mp (hc ▸ hs c)
    have hlt := v.isLt
    refine cellLaw_setCell c ((fits_counter _ _).mpr ⟨hceil, ?_⟩) hs
    rw [BitVec.toNat_ofNat, Nat.mod_eq_of_lt (by omega)]
    omega
  · exact hs
  · exact hs

theorem grantTake_cells (c : Fin 512) (w : WaitEntry) (s : State) :
    (grantTake c w s).cells = (lowerCounter c w.amount s).cells := by
  simp [grantTake, placeReserved_eq]

/-- A predicate that every grant keeps is kept by the walk. -/
theorem grantWalk_kept {L : State → Prop} (c : Fin 512) (h : ∀ w s, L s → L (grantTake c w s)) {s : State} (hs : L s) :
    L (grantWalk c s).1 := by
  unfold grantWalk
  generalize takeWaiters s c = ws
  induction ws generalizing s with
  | nil => exact hs
  | cons w ws ih =>
    unfold walkOver
    split
    · exact ih (h w s hs)
    · exact hs

theorem cellLaw_grantWalk (c : Fin 512) {s : State} (hs : CellLaw s) : CellLaw (grantWalk c s).1 :=
  grantWalk_kept c (fun w s h => cellLaw_of_cells (grantTake_cells c w s) (cellLaw_lowerCounter c w.amount h)) hs

@[simp] theorem clearMarker_cells (w : WaitEntry) (s : State) : (clearMarker w s).cells = s.cells := by
  rw [clearMarker_eq]
  rfl

@[simp] theorem placeReserved_cells (p : Port) (e : Event) (s : State) : (placeReserved p e s).cells = s.cells := by
  rw [placeReserved_eq]
  rfl

theorem cellLaw_walkAfter (head : Option (Fin 512)) (before : Vector Cell 512) {s : State} (hs : CellLaw s) :
    CellLaw (walkAfter head before s) := by
  unfold walkAfter
  split
  · exact hs
  · exact cellLaw_of_cells (handOn_cells _ _ _ _) (cellLaw_grantWalk _ hs)

@[simp] theorem noticeOfEnd_cells (p : Port) (s : State) : (noticeOfEnd p s).cells = s.cells := by
  rw [noticeOfEnd_eq]
  split <;> rfl

/-- A teardown changes cells by the grant walks of the cells it heads, and in no other way. -/
theorem teardown_cells (p : Port) (s : State) :
    (teardown p s).cells = ((headedCells p s).foldl (fun t c => (grantWalk c t).1) (dropAllEntries p s)).cells := by
  simp [teardown, clearNotices]

theorem cellLaw_teardown (p : Port) {s : State} (hs : CellLaw s) : CellLaw (teardown p s) := by
  refine cellLaw_of_cells (teardown_cells p s) (foldl_kept (fun t c h => cellLaw_grantWalk c h) _ ?_)
  exact cellLaw_of_cells (s := s) rfl hs

/-! ### Cells through a chain -/

/-- Every cell of a chain in progress fits. -/
def ChainRun.Fits (r : ChainRun) : Prop := ∀ c : Fin 512, r.cells[c].fits = true

/-- What a step does to the cells: nothing, or one cell becomes PLAIN or MEMBERS. -/
theorem effect_cells (st : ChainStep) (r : ChainRun) :
    (st.effect r).cells = r.cells ∨
      ∃ c x, st.modifies = true ∧ st.cell? = some c ∧ (st.effect r).cells = r.cells.set c x ∧
        ((st.accepts = fun k => k == .plain) ∧ x.kind = .plain ∨
          (st.accepts = fun k => k == .members) ∧ x.kind = .members) := by
  cases st with
  | read | load | add | addc | sub | subb | and | or | xor | whenZero | whenNonzero | whenEqual | whenBelow | whenMember
  | whenAbsent => exact .inl rfl
  | write c | exchange c | accum c | deduct c | stepUp c | stepDown c =>
    exact .inr ⟨c, .plain _, rfl, rfl, rfl, .inl ⟨funext fun k => by cases k <;> rfl, rfl⟩⟩
  | insert c m | remove c m =>
    exact .inr ⟨c, .members _, rfl, rfl, rfl, .inr ⟨funext fun k => by cases k <;> rfl, rfl⟩⟩

theorem fits_of_kind {x : Cell} (h : x.kind ≠ .counter) : x.fits = true := by
  obtain ⟨v, rfl⟩ | ⟨set, rfl⟩ := plain_or_members_of_kind h <;> rfl

theorem fits_effect (st : ChainStep) {r : ChainRun} (h : r.Fits) : (st.effect r).Fits := by
  intro d
  obtain he | ⟨c, x, -, -, he, hx⟩ := effect_cells st r
  · rw [he]
    exact h d
  · have hkind : x.kind ≠ .counter := by rcases hx with ⟨-, hx⟩ | ⟨-, hx⟩ <;> simp [hx]
    change ((st.effect r).cells)[d.val].fits = true
    rw [he, Vector.getElem_set]
    split
    · exact fits_of_kind hkind
    · exact h d

/-- A predicate of chains in progress that performed and passed steps keep. -/
theorem runSteps_kept {R : ChainRun → Prop} {steps : List ChainStep} (hperform : ∀ st ∈ steps, ∀ r, R r → R (r.perform st))
    (hpass : ∀ r, R r → R { r with passed := r.passed + 1 }) (skip : Bool) {r : ChainRun} (h : R r) :
    R (runSteps steps skip r) := by
  induction steps generalizing skip r with
  | nil => exact h
  | cons st rest ih =>
    obtain ⟨hst, hrest⟩ := List.forall_mem_cons.mp hperform
    cases skip with
    | true => exact ih hrest false (hpass r h)
    | false => exact ih hrest _ (hst r h)

theorem fits_runSteps (steps : List ChainStep) {cells : Vector Cell 512} (h : ∀ c : Fin 512, cells[c].fits = true) :
    (runSteps steps false (ChainRun.start cells)).Fits :=
  runSteps_kept (R := ChainRun.Fits) (fun st _ _ hr => fits_effect st hr) (fun _ hr => hr) false h

/-! ### The law -/

theorem cellLaw_served {k : Kind} {p : Port} {s u : State} {a : Reply} (hs : CellLaw s) (h : Served p s k u a) :
    CellLaw u := by
  have handed : ∀ {t : State} cs, CellLaw t → CellLaw (handOn (some p) s.cells cs t) :=
    fun cs ht => cellLaw_of_cells (handOn_cells _ _ cs _) ht
  cases h with
  | refused | answered => exact hs
  | opened | renewed | granted | watched | unwatched | fetched => exact cellLaw_of_cells (s := s) rfl hs
  | closed => exact cellLaw_teardown p (cellLaw_of_cells (s := s) rfl hs)
  | chained steps r f _ hr =>
    subst hr
    exact handed _ (fits_runSteps steps hs)
  | formatted c x f hx => exact handed _ (cellLaw_setCell c hx hs)
  | waitsForLock l q timeout t u' f _ _ hcreate =>
    obtain ⟨n, -, -, -, -, rfl⟩ := createEntry_ok hcreate
    exact cellLaw_of_cells (s := s) rfl hs
  | waitsToTake c ceil v amount timeout t u' f _ _ hcreate | awaits c cond operand timeout t u' f _ hcreate =>
    obtain ⟨n, -, -, -, -, rfl⟩ := createEntry_ok hcreate
    exact cellLaw_of_cells (s := s) rfl hs
  | released l => exact cellLaw_of_cells (s := s) (by simp [popStack]) hs
  | taken c ceil v amount => exact handed _ (cellLaw_lowerCounter c _ hs)
  | given c ceil v amount f hc hle =>
    have hceil := ((fits_counter ceil v).mp (hc ▸ hs c)).1
    refine handed _ (cellLaw_grantWalk c (cellLaw_setCell c ((fits_counter _ _).mpr ⟨hceil, ?_⟩) hs))
    have := ceil.isLt
    rw [BitVec.toNat_ofNat, Nat.mod_eq_of_lt (by omega)]
    exact hle
  | cancelled t w => exact cellLaw_walkAfter _ _ (cellLaw_of_cells (s := s) (clearMarker_cells _ _) hs)

theorem cellLaw_serveExpiry (n : Fin 24) (p : Port) (t : Byte) {s : State} (hs : CellLaw s) :
    CellLaw (serveExpiry n p t s) := by
  unfold serveExpiry expireEntry
  split
  · exact hs
  · refine cellLaw_walkAfter _ _ (cellLaw_of_cells (s := s) ?_ hs)
    rw [clearMarker_cells, placeReserved_cells, dropEntry_cells]

theorem lineReset_cells (s : State) : (lineReset s).cells = s.cells := by simp only [lineReset]

theorem stepLaw_cells : StepLaw CellLaw where
  data h hs := cellLaw_of_cells h.cells hs
  tick s hs := cellLaw_of_cells (tickActs_cells s) hs
  claim p s hs := cellLaw_of_cells (claimSession_keeps State.cells (fun _ _ _ => rfl) (fun _ _ => rfl) p s) hs
  work hs _ h := cellLaw_served hs h
  expiry n p t s hs := cellLaw_serveExpiry n p t hs
  teardown p s hs _ := cellLaw_of_cells (s := teardown p s) rfl (cellLaw_teardown p hs)
  powerUp s c := by
    rw [powerUp_cell]
    rfl
  lineReset s hs := cellLaw_of_cells (lineReset_cells s) hs

/-- Settles O53: every effect of a step on the cells keeps them within their ceilings. -/
theorem cellLawIsKept : Obligations.CellLawIsKept := fun _ _ hs ht => stepLaw_cells.keeps_step hs ht

end Sys2Proof.Machine
end

section
/-!
PROOFS. Event queues and handoffs: what an offered record, a change notice and a handoff leave of a session.
-/

namespace Sys2Proof.Machine

open Sys2Proof.Safety

/-! ### Offered records -/

/-- A session to which an unreserved record is offered (R107). -/
def Session.offered (e : Event) (x : Session) : Session :=
  if hasRoom x then { x with queue := x.queue ++ [⟨x.sequence, e⟩], sequence := x.sequence + 1 }
  else { x with lost := min 255 (x.lost + 1) }

theorem offerRecord_eq_modSession (p : Port) (e : Event) (s : State) :
    offerRecord p e s = s.modSession p (Session.offered e) := by
  cases hroom : hasRoom (s.session p)
  · rw [offerRecord_of_full p e s hroom]
    exact State.modSession_congr s p _ _ (by simp [Session.offered, hroom])
  · rw [offerRecord_of_room p e s hroom]
    exact State.modSession_congr s p _ _ (by simp [Session.offered, hroom])

theorem offered_of_room {e : Event} {x : Session} (h : x.queue.length + x.reserved < 16) :
    x.offered e = { x with queue := x.queue ++ [⟨x.sequence, e⟩], sequence := x.sequence + 1 } :=
  if_pos ((hasRoom_iff x).mpr h)

theorem not_hasRoom {x : Session} (h : 16 ≤ x.queue.length + x.reserved) : hasRoom x = false :=
  Bool.eq_false_iff.mpr fun hroom => absurd ((hasRoom_iff x).mp hroom) (Nat.not_lt.mpr h)

/-- A count that stays at 255. -/
theorem min_255 (n : Nat) : min 255 (n + 1) = if n < 255 then n + 1 else 255 := by
  split <;> omega

theorem offered_of_full {e : Event} {x : Session} (h : 16 ≤ x.queue.length + x.reserved) :
    x.offered e = { x with lost := if x.lost < 255 then x.lost + 1 else 255 } := by
  simp [Session.offered, not_hasRoom h, min_255]

/-! ### Change notices -/

/-- A session that is told of a net change of another port (R103, R104): its queued record is updated, or a new one is
offered and the marker set when it is queued. -/
def Session.notified (c : Fin 512) (v : Reported) (origin : Port) (x : Session) : Session :=
  match x.watches.find? (fun w => w.cell == c) with
  | none => x
  | some w =>
    if w.pending then { x with queue := x.queue.map (Record.update c v origin) }
    else if hasRoom x then
      { x.offered (.changed c v origin 1) with watches := setMarker c true x.watches }
    else x.offered (.changed c v origin 1)

theorem offered_watches (e : Event) (x : Session) : (x.offered e).watches = x.watches := by
  unfold Session.offered
  split <;> rfl

/-- A notice to a port is a change of its session alone, by its own session alone (R103). -/
theorem notifyPort_eq_modSession (c : Fin 512) (v : Reported) (origin : Port) (s : State) (p : Port) :
    notifyPort c v origin s p = if p = origin then s else s.modSession p (Session.notified c v origin) := by
  unfold notifyPort
  split
  · rfl
  split
  · next hnone =>
    refine (State.modSession_same s p _ ?_).symm
    simp only [Session.notified, hnone]
  · next w hsome =>
    simp only [offerRecord_eq_modSession, State.modSession_modSession]
    split
    · next hp =>
      refine State.modSession_congr s p _ _ ?_
      simp only [Session.notified, hsome, if_pos hp]
    · next hp =>
      split
      · next hroom =>
        refine State.modSession_congr s p _ _ ?_
        simp only [Session.notified, hsome, if_neg hp, if_pos hroom, offered_watches]
      · next hroom =>
        refine State.modSession_congr s p _ _ ?_
        simp only [Session.notified, hsome, if_neg hp, if_neg hroom]

theorem notifyPort_session (c : Fin 512) (v : Reported) (origin : Port) (s : State) (p q : Port) :
    (notifyPort c v origin s p).session q =
      if q = p ∧ p ≠ origin then (s.session q).notified c v origin else s.session q := by
  rw [notifyPort_eq_modSession]
  by_cases ho : p = origin
  · simp [ho]
  · rw [if_neg ho, State.modSession_session]
    simp [ho]

/-- Each port is told once, whatever the ports before it were told. -/
theorem notifyWatchers_session (origin : Port) (s : State) (c : Fin 512) (p : Port) :
    (notifyWatchers origin s c).session p =
      if p = origin then s.session p else (s.session p).notified c (s.cell c).reported origin := by
  simp only [notifyWatchers, allPorts, List.foldl_cons, List.foldl_nil, notifyPort_session]
  by_cases ho : p = origin
  · subst ho
    cases p <;> simp
  · cases p <;> simp [ho, eq_comm]

theorem record_update_eq (c : Fin 512) (v : Reported) (origin : Port) (r : Record) :
    Record.update c v origin r =
      match r.event with
      | .changed d _ _ n =>
        if d = c then ⟨r.sequence, .changed c v origin (if n < 255 then n + 1 else 255)⟩ else r
      | .granted .. | .taken .. | .met .. | .timedOut .. | .leaseLow .. | .sessionEnded .. => r := by
  obtain ⟨q, e⟩ := r
  cases e <;> simp [Record.update, min_255]

theorem setMarker_eq (c : Fin 512) (ws : List Watch) :
    setMarker c true ws = ws.map fun u => if u.cell = c then ⟨c, true⟩ else u := by
  refine List.map_congr_left fun u _ => ?_
  split
  · next h => rw [← h]
  · rfl

/-- Settles O42: an offer and a notice are changes of one session, read off in each case. -/
theorem noticesAreOfferedAndMerged : Obligations.NoticesAreOfferedAndMerged := by
  refine ⟨fun s p e => ⟨fun hroom => ?_, fun hfull => ?_⟩, fun s c v origin p => ?_⟩
  · rw [offerRecord_eq_modSession]
    exact State.modSession_congr s p _ _ (offered_of_room hroom)
  · rw [offerRecord_eq_modSession]
    exact State.modSession_congr s p _ _ (offered_of_full hfull)
  dsimp only
  rw [notifyPort_eq_modSession]
  refine ⟨fun ho => if_pos ho, fun hnone => ?_, fun w ho hsome => ?_, ?_⟩
  · have hfind : (s.session p).watches.find? (fun w => w.cell == c) = none :=
      List.find?_eq_none.mpr fun w hw => by simpa using hnone w hw
    split
    · rfl
    · exact State.modSession_same s p _ (by simp only [Session.notified, hfind])
  · rw [if_neg ho]
    refine ⟨fun hp => ?_, fun hp hroom => ?_, fun hp hfull => ?_⟩
    · refine State.modSession_congr s p _ _ ?_
      simp only [Session.notified, hsome, if_pos hp]
      congr 1
      exact List.map_congr_left fun r _ => record_update_eq c v origin r
    · refine State.modSession_congr s p _ _ ?_
      simp only [Session.notified, hsome, hp, (hasRoom_iff _).mpr hroom, offered_of_room hroom, setMarker_eq,
        Bool.false_eq_true, if_false, if_true]
    · refine State.modSession_congr s p _ _ ?_
      simp only [Session.notified, hsome, hp, not_hasRoom hfull, offered_of_full hfull, Bool.false_eq_true, if_false]
  · rw [notifyWatchers_session, notifyPort_session]
    by_cases ho : p = origin <;> simp [ho]

/-! ### The freed entry and the handoff -/

/-- The two ways of writing that a number differs. -/
theorem filter_number_ne (pool : List WaitEntry) (n : Fin 24) :
    pool.filter (fun x => x.number != n) = pool.filter fun v => v.number ≠ n :=
  List.filter_congr fun _ _ => Bool.eq_iff_iff.mpr (bne_iff_ne.trans decide_eq_true_iff.symm)

/-- The session of the waiter after a handoff (R57). -/
theorem handoff_session_same (l : Fin 48) (w : WaitEntry) (s : State) (hw : w.wait = .lock l) :
    (handoff l w s).session w.port =
      { s.session w.port with
        stack := (s.session w.port).stack ++ [l], liveWaits := (s.session w.port).liveWaits - 1,
        pendingAcquire := none, reserved := (s.session w.port).reserved - 1,
        queue := (s.session w.port).queue ++
          [⟨(s.session w.port).sequence,
            .granted w.ticket l ((s.lock l).generation + 1) ((lockBank l).map s.bankSuspect)⟩],
        sequence := (s.session w.port).sequence + 1 } := by
  have hpurpose : w.wait.purpose = .lockWait := by rw [hw]; rfl
  simp only [handoff, placeReserved_eq, clearMarker_eq, if_pos hpurpose, State.modSession_modSession,
    State.modSession_session_same, dropEntry_session, grantLock_session, if_true]
  congr 4
  simp [dropEntry, grantLock, lockSuspect]
  rfl

/-- Settles O31: the lock, the waiter's session and the pool are read off, and nothing else changes. -/
theorem handoffToTheHeadWaiter : Obligations.HandoffToTheHeadWaiter := by
  intro s l w hw
  refine ⟨?_, fun k hk => ?_, handoff_session_same l w s hw, fun q hq => handoff_session_other l s hq, ?_,
    handoff_cells l w s, handoff_suspect l w s, sameOutside_handoff l w s⟩
  · rw [handoff_lock, if_pos rfl]
  · rw [handoff_lock, if_neg hk]
  · rw [handoff_pool, filter_number_ne]

end Sys2Proof.Machine
end

section
/-!
PROOFS. The wait pool: the new entry with its ticket, and what the ends of entries, one after another, leave of the pool
and of each session.
-/

namespace Sys2Proof.Machine

open Sys2Proof.Safety

/-! ### Entries and their numbers -/

/-- With distinct numbers, the number tells the entry. -/
theorem eq_of_number {s : State} (h : NumbersDistinct s) {v w : WaitEntry} (hv : v ∈ s.pool) (hw : w ∈ s.pool)
    (hn : v.number = w.number) : v = w :=
  eq_of_nodup_map h hv hw hn

/-- Distinct numbers stay distinct in a pool that only loses entries. -/
theorem numbersDistinct_of_sublist {s t : State} (h : NumbersDistinct s) (hp : t.pool.Sublist s.pool) :
    NumbersDistinct t := h.sublist (hp.map _)

theorem pool_length_le {s : State} (h : NumbersDistinct s) : s.pool.length ≤ 24 := by
  have hle := h.length_le_of_subset (fun n _ => List.mem_finRange n)
  rwa [List.length_map, List.length_finRange] at hle

/-! ### Ended entries -/

/-- A session in which these entries of its own ended, each with its record in its reserved place (R106, R109). -/
def Session.ended (es : List Event) (x : Session) : Session :=
  { x with
    liveWaits := x.liveWaits - es.length, reserved := x.reserved - es.length,
    queue := x.queue ++ numbered x.sequence es, sequence := x.sequence + BitVec.ofNat 8 es.length }

theorem ended_nil (x : Session) : x.ended [] = x := by
  simp [Session.ended, numbered]

theorem ended_ended (es fs : List Event) (x : Session) : (x.ended es).ended fs = x.ended (es ++ fs) := by
  simp [Session.ended, numbered_append, Nat.sub_add_eq, BitVec.ofNat_add, BitVec.add_assoc]

/-- The entry's end, with its record (R106). -/
theorem endEntry_session (w : WaitEntry) (e : Event) (s : State) (p : Port) :
    (placeReserved w.port e (dropEntry w s)).session p =
      (s.session p).ended (if w.port = p then [e] else []) := by
  rw [placeReserved_eq, State.modSession_session]
  by_cases hp : p = w.port
  · subst hp
    simp [dropEntry_session, Session.ended, numbered]
  · rw [if_neg hp, if_neg (Ne.symm hp), dropEntry_session, if_neg hp, ended_nil]

@[simp] theorem placeReserved_pool (p : Port) (e : Event) (s : State) : (placeReserved p e s).pool = s.pool := by
  rw [placeReserved_eq]
  rfl

/-- Entries of these numbers leave the pool one after another. -/
theorem filter_number_cons (pool : List WaitEntry) (w : WaitEntry) (ws : List WaitEntry) :
    (pool.filter fun x => x.number != w.number).filter (fun x => x.number ∉ ws.map WaitEntry.number) =
      pool.filter fun x => x.number ∉ (w :: ws).map WaitEntry.number := by
  rw [List.filter_filter]
  refine List.filter_congr fun x _ => ?_
  by_cases h : x.number = w.number <;> simp [h]

theorem filter_number_nil (pool : List WaitEntry) :
    pool.filter (fun x => x.number ∉ ([] : List WaitEntry).map WaitEntry.number) = pool :=
  List.filter_eq_self.mpr fun _ _ => decide_eq_true List.not_mem_nil

/-- With distinct numbers, what is filtered by the numbers of entries is filtered by the entries. -/
theorem filter_not_mem {s : State} (h : NumbersDistinct s) {ws : List WaitEntry} (hws : ws ⊆ s.pool) :
    s.pool.filter (fun x => x.number ∉ ws.map WaitEntry.number) = s.pool.filter fun x => x ∉ ws := by
  refine List.filter_congr fun x hx => decide_eq_decide.mpr (not_congr ?_)
  rw [List.mem_map]
  constructor
  · rintro ⟨w, hw, hn⟩
    rwa [← eq_of_number h (hws hw) hx hn]
  · exact fun hw => ⟨x, hw, rfl⟩

/-! ### Met conditions -/

theorem meetEntry_session (c : Fin 512) (r : Reported) (s : State) (w : WaitEntry) (p : Port) :
    (meetEntry c r s w).session p =
      (s.session p).ended (if w.metBy r ∧ w.port = p then [.met w.ticket c r] else []) := by
  unfold meetEntry
  by_cases hm : w.metBy r = true
  · rw [if_pos hm, endEntry_session]
    simp only [hm, true_and]
  · rw [if_neg hm, if_neg (fun h => hm h.1), ended_nil]

theorem meetEntry_pool (c : Fin 512) (r : Reported) (s : State) (w : WaitEntry) :
    (meetEntry c r s w).pool = s.pool.filter fun x => x.number ∉ ([w].filter (·.metBy r)).map WaitEntry.number := by
  unfold meetEntry
  by_cases hm : w.metBy r = true
  · rw [if_pos hm, placeReserved_pool, dropEntry_pool, filter_number_ne]
    simp [hm]
  · rw [if_neg hm, List.filter_cons_of_neg hm, List.filter_nil, filter_number_nil]

/-- What the check of some entries leaves: those whose condition holds are gone, with their records in order. -/
theorem foldl_meetEntry (c : Fin 512) (r : Reported) (ws : List WaitEntry) (s : State) :
    (ws.foldl (meetEntry c r) s).pool =
        s.pool.filter (fun x => x.number ∉ (ws.filter (·.metBy r)).map WaitEntry.number) ∧
      ∀ p, (ws.foldl (meetEntry c r) s).session p =
        (s.session p).ended
          (((ws.filter (·.metBy r)).filter (·.port == p)).map fun w => Event.met w.ticket c r) := by
  induction ws generalizing s with
  | nil => exact ⟨(filter_number_nil s.pool).symm, fun p => (ended_nil _).symm⟩
  | cons w ws ih =>
    obtain ⟨hpool, hsession⟩ := ih (meetEntry c r s w)
    refine ⟨?_, fun p => ?_⟩
    · rw [List.foldl_cons, hpool, meetEntry_pool, List.filter_filter]
      refine List.filter_congr fun x _ => ?_
      rw [Bool.eq_iff_iff]
      by_cases hm : w.metBy r = true <;> simp [hm, and_comm]
    · rw [List.foldl_cons, hsession, meetEntry_session, ended_ended]
      by_cases hm : w.metBy r = true <;> by_cases hp : w.port = p <;> simp [hm, hp]

/-- The AWAIT entries of a cell that the check of its conditions ends. -/
theorem met_eq_filter (s : State) (c : Fin 512) (r : Reported) :
    (awaitEntries s c).filter (·.metBy r) = s.pool.filter fun w => w.awaits c && w.metBy r := by
  rw [awaitEntries, List.filter_filter]
  exact List.filter_congr fun x _ => Bool.and_comm _ _

theorem meetAwaits_pool {s : State} (h : NumbersDistinct s) (c : Fin 512) :
    (meetAwaits s c).pool = s.pool.filter fun w => !(w.awaits c && w.metBy (s.cell c).reported) := by
  rw [meetAwaits, (foldl_meetEntry c _ _ s).1, met_eq_filter, filter_not_mem h List.filter_sublist.subset]
  refine List.filter_congr fun x hx => ?_
  simp [List.mem_filter, hx]

theorem meetAwaits_session (s : State) (c : Fin 512) (p : Port) :
    (meetAwaits s c).session p =
      (s.session p).ended
        (((s.pool.filter fun w => w.awaits c && w.metBy (s.cell c).reported).filter (·.port == p)).map
          fun w => Event.met w.ticket c (s.cell c).reported) := by
  rw [meetAwaits, (foldl_meetEntry c _ _ s).2 p, met_eq_filter]

/-- Settles O38: the entries are checked in the order of creation, and each that is met ends with its record. -/
theorem awaitsAreMet : Obligations.AwaitsAreMet := by
  intro s c h
  exact ⟨meetAwaits_pool h c, fun p => meetAwaits_session s c p, meetAwaits_cells s c, meetAwaits_locks s c,
    meetAwaits_suspect s c, sameOutside_meetAwaits s c⟩

/-! ### The grant walk -/

theorem lowerCounter_session (c : Fin 512) (n : Nat) (s : State) (p : Port) :
    (lowerCounter c n s).session p = s.session p :=
  congrArg (fun t => t.get p) (lowerCounter_sessions c n s)

/-- A grant ends the entry with a TAKEN record that carries the value after it (R71). -/
theorem grantTake_session {c : Fin 512} {ceil v : Word} {s : State} (hc : s.cell c = .counter ceil v) (w : WaitEntry)
    (p : Port) :
    (grantTake c w s).session p =
      (s.session p).ended
        (if w.port = p then [.taken w.ticket c (BitVec.ofNat 16 (v.toNat - w.amount))] else []) := by
  have hcell : ((dropEntry w (lowerCounter c w.amount s)).cell c).number = BitVec.ofNat 16 (v.toNat - w.amount) :=
    congrArg Cell.number (lowerCounter_cell c w.amount s ceil v hc)
  simp only [grantTake, hcell, endEntry_session, lowerCounter_session]

theorem toNat_sub_amount (v : Word) (n : Nat) : (BitVec.ofNat 16 (v.toNat - n)).toNat = v.toNat - n := by
  have := v.isLt
  rw [BitVec.toNat_ofNat, Nat.mod_eq_of_lt (by omega)]

/-- The walk over a list of waiters: a first part of it is served, as far as the value covers (R72). -/
theorem walkOver_spec (c : Fin 512) (ws : List WaitEntry) {s : State} {ceil v : Word} (hc : s.cell c = .counter ceil v) :
    ∃ served rest, ws = served ++ rest ∧ served.length = (walkOver c ws s).2 ∧
      (served.map WaitEntry.amount).sum ≤ v.toNat ∧
      (walkOver c ws s).1.cell c =
        .counter ceil (BitVec.ofNat 16 (v.toNat - (served.map WaitEntry.amount).sum)) ∧
      (∀ w ws, rest = w :: ws → v.toNat - (served.map WaitEntry.amount).sum < w.amount) ∧
      (walkOver c ws s).1.pool = s.pool.filter (fun x => x.number ∉ served.map WaitEntry.number) ∧
      ∀ p, (walkOver c ws s).1.session p = (s.session p).ended (takenEvents p c v.toNat served) := by
  induction ws generalizing s v with
  | nil => exact ⟨[], [], rfl, rfl, Nat.zero_le _, by simpa [walkOver] using hc, by simp,
      (filter_number_nil s.pool).symm, fun p => by rw [takenEvents, ended_nil, walkOver]⟩
  | cons w ws ih =>
    have hv := number_of_counter hc
    unfold walkOver
    rw [hv]
    by_cases hle : w.amount ≤ v.toNat
    · have hcell : (grantTake c w s).cell c = .counter ceil (BitVec.ofNat 16 (v.toNat - w.amount)) := by
        rw [grantTake_cell, lowerCounter_cell c w.amount s ceil v hc]
      obtain ⟨served, rest, hsplit, hlen, hsum, hend, hstop, hpool, hsession⟩ := ih hcell
      rw [toNat_sub_amount] at hsum hend hstop hsession
      rw [if_pos hle]
      refine ⟨w :: served, rest, by rw [hsplit, List.cons_append], by rw [List.length_cons, hlen], ?_, ?_, ?_, ?_,
        fun p => ?_⟩
      · rw [List.map_cons, List.sum_cons]
        omega
      · rw [List.map_cons, List.sum_cons, Nat.sub_add_eq]
        exact hend
      · rw [List.map_cons, List.sum_cons, Nat.sub_add_eq]
        exact hstop
      · rw [hpool, grantTake_pool, filter_number_cons]
      · rw [hsession, grantTake_session hc, ended_ended, takenEvents]
    · rw [if_neg hle]
      refine ⟨[], w :: ws, rfl, rfl, Nat.zero_le _, by simpa using hc, ?_,
        (filter_number_nil s.pool).symm, fun p => by rw [takenEvents, ended_nil]⟩
      intro w' ws' h
      obtain ⟨rfl, -⟩ := List.cons_eq_cons.mp h
      simpa using hle

theorem takenEvents_length (p : Port) (c : Fin 512) (v : Nat) (ws : List WaitEntry) :
    (takenEvents p c v ws).length = (ws.filter fun w => w.port == p).length := by
  induction ws generalizing v with
  | nil => rfl
  | cons w ws ih =>
    rw [takenEvents, List.length_append, ih]
    by_cases hp : w.port = p <;> simp [hp, Nat.add_comm]

/-- Settles O34: the walk over the cell's waiters, with numbers read as entries. -/
theorem grantWalkServesInOrder : Obligations.GrantWalkServesInOrder := by
  intro s c ceil v h hc
  obtain ⟨served, rest, hsplit, hlen, hsum, hcell, hstop, hpool, hsession⟩ := walkOver_spec c (takeWaiters s c) hc
  have hserved : served ⊆ s.pool := fun w hw =>
    (List.mem_filter.mp (hsplit ▸ List.mem_append_left rest hw : w ∈ takeWaiters s c)).1
  refine ⟨served, rest, hsplit, hlen, hsum, hcell, hstop, hpool.trans (filter_not_mem h hserved),
    fun p => ⟨takenEvents_length p c _ served, hsession p⟩, fun d hd => grantWalk_cell_other c d s hd,
    grantWalk_locks c s, grantWalk_suspect c s, sameOutside_grantWalk c s⟩

/-! ### The ticket search -/

theorem repeat_ticketAfter (k : Nat) (t : Byte) :
    Nat.repeat ticketAfter k (ticketAfter t) = Nat.repeat ticketAfter (k + 1) t := by
  induction k with
  | zero => rfl
  | succ k ih => exact congrArg ticketAfter ih

theorem ticketAfter_toNat (t : Byte) (_ : t ≠ 0) : (ticketAfter t).toNat = t.toNat % 255 + 1 := by
  unfold ticketAfter
  split <;> bv_omega

theorem ticketAfter_ne_zero (t : Byte) : ticketAfter t ≠ 0 := by
  unfold ticketAfter
  split <;> bv_omega

/-- The tickets run through 1 to 255 in a ring (R84). -/
theorem repeat_ticketAfter_toNat {t : Byte} (hz : t ≠ 0) (k : Nat) :
    (Nat.repeat ticketAfter k t).toNat = (t.toNat - 1 + k) % 255 + 1 := by
  induction k with
  | zero =>
    have := t.isLt
    have : t.toNat ≠ 0 := fun e => hz (BitVec.eq_of_toNat_eq e)
    change t.toNat = _
    omega
  | succ k ih =>
    have hne : Nat.repeat ticketAfter k t ≠ 0 := fun e => by
      rw [e] at ih
      simp at ih
    change (ticketAfter (Nat.repeat ticketAfter k t)).toNat = _
    rw [ticketAfter_toNat _ hne, ih]
    omega

theorem ticketHeld_iff (s : State) (p : Port) (t : Byte) :
    ticketHeld s p t = true ↔ ∃ w ∈ s.pool, w.port = p ∧ w.ticket = t := by
  simp [ticketHeld]

/-- The search stops at the first ticket that is free, or has passed over as many held tickets as it had steps. -/
theorem findTicket_spec (s : State) (p : Port) (fuel : Nat) (t : Byte) :
    ∃ k ≤ fuel, findTicket s p fuel t = Nat.repeat ticketAfter k t ∧
      (∀ j < k, ticketHeld s p (Nat.repeat ticketAfter j t) = true) ∧
      (k < fuel → ticketHeld s p (Nat.repeat ticketAfter k t) = false) := by
  induction fuel generalizing t with
  | zero => exact ⟨0, Nat.le_refl 0, rfl, by simp, by simp⟩
  | succ fuel ih =>
    unfold findTicket
    by_cases hheld : ticketHeld s p t = true
    · obtain ⟨k, hk, hfind, hall, hfree⟩ := ih (ticketAfter t)
      rw [if_pos hheld]
      refine ⟨k + 1, Nat.succ_le_succ hk, hfind.trans (repeat_ticketAfter k t), fun j hj => ?_, fun hlt => ?_⟩
      · cases j with
        | zero => exact hheld
        | succ j =>
          rw [← repeat_ticketAfter]
          exact hall j (Nat.lt_of_succ_lt_succ hj)
      · rw [← repeat_ticketAfter]
        exact hfree (Nat.lt_of_succ_lt_succ hlt)
    · rw [if_neg hheld]
      exact ⟨0, Nat.zero_le _, rfl, by simp, fun _ => Bool.eq_false_iff.mpr hheld⟩

/-- A pool of 24 entries cannot hold 25 tickets of the ring. -/
theorem not_all_held {s : State} {p : Port} {t : Byte} (h : t ≠ 0) (hlen : s.pool.length ≤ 24) {k : Nat}
    (hall : ∀ j < k, ticketHeld s p (Nat.repeat ticketAfter j t) = true) : k ≤ 24 := by
  refine Classical.byContradiction fun hk => ?_
  have hnodup : ((List.range 25).map fun j => Nat.repeat ticketAfter j t).Nodup := by
    refine List.pairwise_map.mpr (List.pairwise_lt_range.imp_of_mem fun {i j} hi hj hlt hij => ?_)
    have hring := congrArg BitVec.toNat hij
    rw [repeat_ticketAfter_toNat h, repeat_ticketAfter_toNat h] at hring
    rw [List.mem_range] at hi hj
    omega
  have hsub : ((List.range 25).map fun j => Nat.repeat ticketAfter j t) ⊆ s.pool.map WaitEntry.ticket := by
    intro x hx
    obtain ⟨j, hj, rfl⟩ := List.mem_map.mp hx
    obtain ⟨w, hw, -, ht⟩ := (ticketHeld_iff s p _).mp (hall j (by rw [List.mem_range] at hj; omega))
    exact List.mem_map.mpr ⟨w, hw, ht⟩
  have := hnodup.length_le_of_subset hsub
  simp at this
  omega

theorem issuedTicket_spec {s : State} {p : Port} (hlen : s.pool.length ≤ 24) (h : (s.session p).nextTicket ≠ 0) :
    issuedTicket s p ≠ 0 ∧ (∀ w ∈ s.pool, w.port = p → w.ticket ≠ issuedTicket s p) ∧
      ∃ k, issuedTicket s p = Nat.repeat ticketAfter k (s.session p).nextTicket ∧
        ∀ j, j < k → ∃ w ∈ s.pool, w.port = p ∧ w.ticket = Nat.repeat ticketAfter j (s.session p).nextTicket := by
  obtain ⟨k, -, hfind, hall, hfree⟩ := findTicket_spec s p 255 (s.session p).nextTicket
  have hk := not_all_held h hlen hall
  have hissued : issuedTicket s p = Nat.repeat ticketAfter k (s.session p).nextTicket := hfind
  refine ⟨fun e => ?_, fun w hw hp ht => ?_, k, hissued, fun j hj => (ticketHeld_iff s p _).mp (hall j hj)⟩
  · have hring := repeat_ticketAfter_toNat h k
    rw [← hissued, e] at hring
    simp at hring
  · have hheld := (ticketHeld_iff s p _).mpr ⟨w, hw, hp, ht.trans hissued⟩
    rw [hfree (by omega)] at hheld
    cases hheld

/-! ### The new entry -/

theorem freeEntry_eq_some {s : State} {n : Fin 24} (hfree : ∀ w ∈ s.pool, w.number ≠ n)
    (hlow : ∀ m, m < n → ∃ w ∈ s.pool, w.number = m) : freeEntry s = some n := by
  cases hf : freeEntry s with
  | none =>
    obtain ⟨w, hw, hn⟩ := freeEntry_none hf n
    exact absurd hn (hfree w hw)
  | some m =>
    refine congrArg some ?_
    have hm := freeEntry_some hf
    rcases Nat.lt_trichotomy m.val n.val with hlt | heq | hgt
    · obtain ⟨w, hw, hn⟩ := hlow m hlt
      exact absurd hn (hm w hw)
    · exact Fin.ext heq
    · obtain ⟨pre, post, hsplit, hpre⟩ := (List.find?_eq_some_iff_append.mp hf).2
      have hsorted : (pre ++ m :: post).Pairwise (· < ·) := by
        rw [← hsplit]
        refine List.pairwise_iff_getElem.mpr fun i j hi hj hij => ?_
        simp only [entryNumbers, List.getElem_ofFn]
        exact hij
      have hn : n ∈ pre ++ m :: post := by
        rw [← hsplit]
        exact List.mem_ofFn.mpr ⟨n, rfl⟩
      rcases List.mem_append.mp hn with hn | hn
      · have := hpre n hn
        simp only [Bool.not_eq_true', List.all_eq_false] at this
        obtain ⟨w, hw, hn'⟩ := this
        exact absurd (by simpa using hn') (hfree w hw)
      · rcases List.mem_cons.mp hn with rfl | hn
        · rfl
        · have := (List.pairwise_cons.mp (List.pairwise_append.mp hsorted).2.1).1 n hn
          omega

/-- Past the check of the port's live waits, the free numbers and then the queue's places decide (R83). -/
theorem createEntry_of_room {p : Port} {wait : Wait} {timeout : Word} {s : State} (h : (s.session p).liveWaits < 8) :
    createEntry p wait timeout s =
      match freeEntry s with
      | none => .error .poolFull
      | some n =>
        if Config.queueSize ≤ (s.session p).queue.length + (s.session p).reserved then .error .noEventSlot
        else
          .ok (issuedTicket s p,
            { s with
              pool := s.pool ++
                [WaitEntry.mk n p (s.session p).epoch (issuedTicket s p) wait (deadlineOf timeout)]
              fresh := { s.fresh with entry := some n } }.modSession p
              fun y =>
                { y with
                  nextTicket := ticketAfter (issuedTicket s p), liveWaits := y.liveWaits + 1,
                  reserved := y.reserved + 1 }) := by
  have hwaits : ¬ Config.portWaits ≤ (s.session p).liveWaits := Nat.not_le.mpr h
  unfold createEntry
  exact if_neg hwaits

/-- Settles O35: the pool's checks in their order, the new entry, and the ticket that the search finds. -/
theorem waitEntryIsCreated : Obligations.WaitEntryIsCreated := by
  intro s p wait timeout
  refine ⟨fun hfull => if_pos hfull, fun hroom hall => ?_, fun n hfree hroom => ⟨fun hslots => ?_, fun hslot hlow => ?_⟩,
    fun hlen h => issuedTicket_spec hlen h⟩
  · have hnone : freeEntry s = none := by
      cases hf : freeEntry s with
      | none => rfl
      | some n =>
        obtain ⟨w, hw, hn⟩ := hall n
        exact absurd hn (freeEntry_some hf w hw)
    rw [createEntry_of_room hroom, hnone]
  · cases hf : freeEntry s with
    | none =>
      obtain ⟨w, hw, hn⟩ := freeEntry_none hf n
      exact absurd hn (hfree w hw)
    | some m =>
      rw [createEntry_of_room hroom, hf]
      exact if_pos hslots
  · rw [createEntry_of_room hroom, freeEntry_eq_some hfree hlow]
    exact (if_neg (Nat.not_le.mpr hslot)).trans rfl

end Sys2Proof.Machine
end

section
/-!
PROOFS. The timebase: what a tick leaves of the deadlines, the leases and the work list, and the commands that name a tick
by its effect.
-/

namespace Sys2Proof.Machine

open Sys2Proof.Safety

/-! ### The tick on one lease -/

/-- An OPEN session after the tick that lowers its lease (R124, R126, R127). -/
def Session.leaseTicked (x : Session) : Session :=
  if x.leaseRemaining - 1 = 0 then
    { x with leaseRemaining := x.leaseRemaining - 1, state := .ending, endCause := .lapsed }
  else if x.leaseRemaining - 1 = quarter x ∧ x.lowReported = false then
    { Session.offered (.leaseLow (x.leaseRemaining - 1)) { x with leaseRemaining := x.leaseRemaining - 1 } with
      lowReported := true }
  else { x with leaseRemaining := x.leaseRemaining - 1 }

/-- The tick brings this port's lease to 0. -/
def lapses (s : State) (p : Port) : Bool :=
  (s.session p).state == .opened && (s.session p).leaseRemaining == 1 && s.fresh.lease != some p

theorem lapses_iff (s : State) (p : Port) :
    lapses s p = true ↔ leaseCounts s p = true ∧ (s.session p).leaseRemaining - 1 = 0 := by
  simp only [lapses, leaseCounts, Bool.and_eq_true, bne_iff_ne, beq_iff_eq, ne_eq]
  constructor
  · rintro ⟨⟨ho, hn⟩, hf⟩
    exact ⟨⟨⟨ho, by omega⟩, hf⟩, by omega⟩
  · rintro ⟨⟨⟨ho, hn⟩, hf⟩, hz⟩
    exact ⟨⟨ho, by omega⟩, hf⟩

/-- The teardown item of a session that lapses with this tick. -/
def lapseItems (s : State) (p : Port) : List Item := if lapses s p then [.teardown p] else []

/-- The tick on one port's lease is a change of its session, and of the work list where it lapses. -/
theorem tickLease_eq (s : State) (p : Port) :
    tickLease s p =
      { s.modSession p fun x => if leaseCounts s p then x.leaseTicked else x with
        workList := s.workList ++ lapseItems s p } := by
  unfold tickLease lapseItems
  by_cases hc : leaseCounts s p = true
  · have hlapse : lapses s p = true ↔ (s.session p).leaseRemaining - 1 = 0 := by rw [lapses_iff, hc, eq_self, true_and]
    simp only [hc, if_true, hlapse, State.modSession_session_same]
    by_cases hz : (s.session p).leaseRemaining - 1 = 0
    · rw [if_pos hz, if_pos hz]
      simp only [lapseSession, State.modSession_modSession, State.modSession_workList]
      rw [State.modSession_congr s p _ Session.leaseTicked]
      simp only [Session.leaseTicked, if_pos hz]
    · rw [if_neg hz, if_neg hz, List.append_nil]
      have hquarter : quarter { s.session p with leaseRemaining := (s.session p).leaseRemaining - 1 } =
          quarter (s.session p) := rfl
      rw [hquarter]
      by_cases hw : (s.session p).leaseRemaining - 1 = quarter (s.session p) ∧ (s.session p).lowReported = false
      · rw [if_pos (by simpa using hw)]
        simp only [warnLease, offerRecord_eq_modSession, State.modSession_modSession, State.modSession_session_same]
        refine State.modSession_congr s p _ _ ?_
        simp only [Session.leaseTicked, if_neg hz, if_pos hw]
      · rw [if_neg (by simpa using hw)]
        refine State.modSession_congr s p _ _ ?_
        simp only [Session.leaseTicked, if_neg hz, if_neg hw]
  · have hlapse : ¬ lapses s p = true := fun h => hc ((lapses_iff s p).mp h).1
    rw [if_neg hc, if_neg hlapse, List.append_nil]
    simp only [if_neg hc]
    exact (State.modSession_same s p (fun x => x) rfl).symm

theorem tickLease_session (s : State) (p q : Port) :
    (tickLease s p).session q = if q = p ∧ leaseCounts s p = true then (s.session q).leaseTicked else s.session q := by
  rw [tickLease_eq]
  change (s.modSession p _).session q = _
  rw [State.modSession_session]
  by_cases hq : q = p <;> by_cases hc : leaseCounts s p = true <;> simp [hq, hc]

theorem tickLease_workList (s : State) (p : Port) : (tickLease s p).workList = s.workList ++ lapseItems s p := by
  rw [tickLease_eq]

theorem tickLease_fresh (s : State) (p : Port) : (tickLease s p).fresh = s.fresh := by
  rw [tickLease_eq]
  rfl

/-- Whether a tick lowers a lease is read from that port's session and the fresh field. -/
theorem leaseCounts_congr {s t : State} {p : Port} (hs : t.session p = s.session p) (hf : t.fresh = s.fresh) :
    leaseCounts t p = leaseCounts s p := by
  simp only [leaseCounts, hs, hf]

/-- The ticks on the leases of different ports do not meet. -/
theorem foldl_tickLease {ps : List Port} (hps : ps.Nodup) (s : State) :
    (∀ q, (ps.foldl tickLease s).session q =
        if q ∈ ps ∧ leaseCounts s q = true then (s.session q).leaseTicked else s.session q) ∧
      (ps.foldl tickLease s).workList = s.workList ++ ps.flatMap (lapseItems s) := by
  induction ps generalizing s with
  | nil => simp
  | cons p ps ih =>
    obtain ⟨hp, hrest⟩ := List.nodup_cons.mp hps
    obtain ⟨hsession, hlist⟩ := ih hrest (tickLease s p)
    have hother : ∀ q ∈ ps, (tickLease s p).session q = s.session q := fun q hq => by
      rw [tickLease_session, if_neg fun (h : q = p ∧ _) => hp (h.1 ▸ hq)]
    have hcounts : ∀ q ∈ ps, leaseCounts (tickLease s p) q = leaseCounts s q := fun q hq =>
      leaseCounts_congr (hother q hq) (tickLease_fresh s p)
    refine ⟨fun q => ?_, ?_⟩
    · rw [List.foldl_cons, hsession]
      by_cases hq : q ∈ ps
      · rw [hcounts q hq, hother q hq]
        simp [hq]
      · rw [if_neg fun h => hq h.1, tickLease_session]
        by_cases hqp : q = p <;> simp [hqp, hq, hp]
    · rw [List.foldl_cons, hlist, tickLease_workList, List.flatMap_cons, List.append_assoc]
      congr 2
      rw [List.flatMap_def, List.flatMap_def]
      refine congrArg List.flatten (List.map_congr_left fun q hq => ?_)
      have hsame : lapses (tickLease s p) q = lapses s q := by
        simp only [lapses, hother q hq, tickLease_fresh]
      rw [lapseItems, lapseItems, hsame]

/-! ### The tick -/

theorem nodup_allPorts : allPorts.Nodup := by decide

theorem mem_allPorts (p : Port) : p ∈ allPorts := by cases p <;> decide

theorem tickDeadlines_session (s : State) (p : Port) : (tickDeadlines s).session p = s.session p := rfl

theorem leaseCounts_tickDeadlines (s : State) (p : Port) : leaseCounts (tickDeadlines s) p = leaseCounts s p := rfl

theorem tickActs_session (s : State) (p : Port) :
    (tickActs s).session p = if leaseCounts s p = true then (s.session p).leaseTicked else s.session p := by
  have h := (foldl_tickLease nodup_allPorts (tickDeadlines s)).1 p
  rw [leaseCounts_tickDeadlines, tickDeadlines_session] at h
  simpa only [tickActs, mem_allPorts, true_and] using h

theorem tickActs_workList (s : State) :
    (tickActs s).workList = s.workList ++ expiryItems s ++ allPorts.flatMap (lapseItems s) :=
  (foldl_tickLease nodup_allPorts (tickDeadlines s)).2

theorem lowerDeadline_eq (f : Fresh) (w : WaitEntry) :
    lowerDeadline f w = if f.entry = some w.number then w else { w with deadline := w.deadline.map (· - 1) } := by
  obtain ⟨n, p, e, t, wait, d⟩ := w
  unfold lowerDeadline counts
  cases d with
  | none => simp
  | some d =>
    by_cases hf : f.entry = some n
    · simp [hf]
    · by_cases hz : d = 0 <;> simp [hf, hz]

theorem entryNumbered_number {s : State} {n : Fin 24} {w : WaitEntry} (h : entryNumbered s n = some w) :
    w.number = n := eq_of_beq (List.find?_some h :)

theorem reachesZero_iff (f : Fresh) (w : WaitEntry) :
    reachesZero f w = true ↔ w.deadline = some 1 ∧ f.entry ≠ some w.number := by
  unfold reachesZero counts
  cases w.deadline with
  | none => simp
  | some d => by_cases hd : d = 1 <;> simp [hd]

theorem expiryItems_eq (s : State) :
    expiryItems s = (List.ofFn id).filterMap fun n : Fin 24 =>
      (s.pool.find? fun w => w.number == n).bind fun w =>
        if w.deadline = some 1 ∧ s.fresh.entry ≠ some n then some (.expiry n w.port w.ticket) else none := by
  refine congrArg (fun f => (List.ofFn id).filterMap f) (funext fun n => ?_)
  cases hw : entryNumbered s n with
  | none => rw [show s.pool.find? (fun w => w.number == n) = none from hw, Option.bind_none]
  | some w =>
    rw [show s.pool.find? (fun w => w.number == n) = some w from hw, Option.bind_some, ← entryNumbered_number hw]
    simp only [reachesZero_iff]

theorem flatMap_lapseItems (s : State) (ps : List Port) :
    ps.flatMap (lapseItems s) = (ps.filter (lapses s)).map Item.teardown := by
  induction ps with
  | nil => rfl
  | cons p ps ih =>
    rw [List.flatMap_cons, ih, lapseItems]
    by_cases hp : lapses s p = true <;> simp [hp]

theorem leaseCounts_iff (s : State) (p : Port) :
    leaseCounts s p = true ↔
      (s.session p).state = .opened ∧ (s.session p).leaseRemaining ≠ 0 ∧ s.fresh.lease ≠ some p := by
  simp [leaseCounts, and_assoc]

section
variable {s : State} {p : Port}

/-- A lease that the tick does not lower leaves its session as it is (R124). -/
theorem tickActs_session_spared
    (h : (s.session p).state ≠ .opened ∨ (s.session p).leaseRemaining = 0 ∨ s.fresh.lease = some p) :
    (tickActs s).session p = s.session p := by
  rw [tickActs_session, if_neg]
  rw [leaseCounts_iff]
  rintro ⟨ho, hz, hf⟩
  rcases h with h | h | h
  · exact h ho
  · exact hz h
  · exact hf h

variable {n : Nat} (ho : (s.session p).state = .opened) (hn : (s.session p).leaseRemaining = n + 1)
  (hf : s.fresh.lease ≠ some p)
include ho hn hf

theorem tickActs_session_lowered : (tickActs s).session p = (s.session p).leaseTicked := by
  rw [tickActs_session, if_pos]
  exact (leaseCounts_iff s p).mpr ⟨ho, by omega, hf⟩

/-- A lease that reaches 0 lapses (R127). -/
theorem tickActs_session_lapses (hz : n = 0) :
    (tickActs s).session p = { s.session p with leaseRemaining := 0, state := .ending, endCause := .lapsed } := by
  rw [tickActs_session_lowered ho hn hf, Session.leaseTicked, if_pos (by omega), hn, hz]

/-- A lease above 0 that is not to be warned of falls by 1 (R124). -/
theorem tickActs_session_falls (hz : n ≠ 0)
    (hw : ¬ (n = (s.session p).leasePeriod.getD 0 / 4 ∧ (s.session p).lowReported = false)) :
    (tickActs s).session p = { s.session p with leaseRemaining := n } := by
  rw [tickActs_session_lowered ho hn hf, Session.leaseTicked, if_neg (by omega), if_neg, hn]
  · rfl
  · rw [hn]
    exact hw

theorem tickActs_session_warned (hz : n ≠ 0)
    (hw : n = (s.session p).leasePeriod.getD 0 / 4 ∧ (s.session p).lowReported = false) :
    (tickActs s).session p =
      { Session.offered (.leaseLow n) { s.session p with leaseRemaining := n } with lowReported := true } := by
  rw [tickActs_session_lowered ho hn hf, Session.leaseTicked, if_neg (by omega), if_pos, hn]
  · rfl
  · rw [hn]
    exact hw

/-- A warning for which the queue has room is queued (R126, R107). -/
theorem tickActs_session_warned_of_room (hz : n ≠ 0)
    (hw : n = (s.session p).leasePeriod.getD 0 / 4 ∧ (s.session p).lowReported = false)
    (hroom : (s.session p).queue.length + (s.session p).reserved < 16) :
    (tickActs s).session p =
      { s.session p with
        leaseRemaining := n, lowReported := true,
        queue := (s.session p).queue ++ [⟨(s.session p).sequence, .leaseLow n⟩],
        sequence := (s.session p).sequence + 1 } := by
  rw [tickActs_session_warned ho hn hf hz hw, offered_of_room (x := { s.session p with leaseRemaining := n }) hroom]

/-- A warning for which the queue has no room is counted as lost (R126, R107). -/
theorem tickActs_session_warned_of_full (hz : n ≠ 0)
    (hw : n = (s.session p).leasePeriod.getD 0 / 4 ∧ (s.session p).lowReported = false)
    (hfull : 16 ≤ (s.session p).queue.length + (s.session p).reserved) :
    (tickActs s).session p =
      { s.session p with
        leaseRemaining := n, lowReported := true,
        lost := if (s.session p).lost < 255 then (s.session p).lost + 1 else 255 } := by
  rw [tickActs_session_warned ho hn hf hz hw, offered_of_full (x := { s.session p with leaseRemaining := n }) hfull]
end

/-! ### When a tick acts -/

theorem tickComes_of_idle {s : State} (h : s.service = .idle) : tickComes s = arbitrate (tickActs s) := by
  simp only [tickComes, h]

theorem tickComes_of_serving {s : State} {w : Work} (h : s.service = .serving w) :
    tickComes s = { s with deferred := s.deferred ++ [.tick] } := by
  simp only [tickComes, h]

/-- Settles O43: the deadlines with their items, then the leases of the four ports, each read off from the tick's own
lemmas. -/
theorem tickActs_spec : Obligations.TickActs := by
  refine ⟨fun s => ⟨?_, ?_, fun p => ⟨tickActs_session_spared, fun n ho hn hf => ?_⟩, tickActs_cells s, tickActs_locks s,
    tickActs_suspect s, tickActs_ports s, tickActs_rotation s, tickActs_service s, tickActs_deferred s, tickActs_fresh s,
    tickActs_initialised s, tickActs_resetLow s, tickActs_pending s⟩, fun s hrest => ?_, fun s w hw => ?_⟩
  · rw [tickActs_pool]
    exact List.map_congr_left fun w _ => lowerDeadline_eq s.fresh w
  · rw [tickActs_workList, expiryItems_eq, flatMap_lapseItems]
    rfl
  · exact ⟨tickActs_session_lapses ho hn hf, tickActs_session_falls ho hn hf,
      tickActs_session_warned_of_room ho hn hf, tickActs_session_warned_of_full ho hn hf⟩
  · rw [exec_timebaseTick, settled_of_atRest hrest, tickComes_of_idle hrest.1]
  · rw [exec_timebaseTick, settled_of_serving hw, tickComes_of_serving hw]

/-! ### Ticks named by their effect -/

theorem exec_deadlineZero (n : Fin 24) {s : State} (h : Ready s) :
    exec (.deadlineZero n) s = .next (if deadlineDue n s then tickComes s else s) := by
  change execDeadlineZero n s = _
  simp only [execDeadlineZero, settled_of_ready h]

theorem exec_leaseLow (p : Port) {s : State} (h : Ready s) :
    exec (.leaseLow p) s =
      .next (if leaseComesTo p (quarter (s.session p)) s && !(s.session p).lowReported then tickComes s else s) := by
  change execLeaseLow p s = _
  simp only [execLeaseLow, settled_of_ready h]

theorem exec_lapse (p : Port) {s : State} (h : Ready s) :
    exec (.lapse p) s = .next (if leaseComesTo p 0 s then tickComes s else s) := by
  change execLapse p s = _
  simp only [execLapse, settled_of_ready h]

theorem waitingTicks_eq_count (s : State) : waitingTicks s = s.deferred.count .tick := rfl

/-- A tick brings a deadline to 0 where it stands one above the ticks that wait. -/
theorem deadlineDue_iff (n : Fin 24) (s : State) :
    deadlineDue n s = true ↔
      ∃ w, s.pool.find? (fun v => v.number == n) = some w ∧ w.deadline = some (s.deferred.count .tick + 1) := by
  unfold deadlineDue entryNumbered
  rw [waitingTicks_eq_count, Nat.add_comm]
  cases s.pool.find? (fun v => v.number == n) <;> simp

theorem leaseComesTo_iff (p : Port) (n : Nat) (s : State) :
    leaseComesTo p n s = true ↔
      (s.session p).state = .opened ∧ (s.session p).leaseRemaining = n + s.deferred.count .tick + 1 := by
  unfold leaseComesTo
  rw [waitingTicks_eq_count, Bool.and_eq_true, beq_iff_eq, beq_iff_eq, Nat.add_right_comm]

theorem quarter_of_period {x : Session} {period : Nat} (h : x.leasePeriod = some period) : quarter x = period / 4 := by
  rw [quarter, h, Option.getD_some]

/-- LEASE_LOW is due where the lease stands one above its quarter and the ticks that wait, not yet warned of. -/
theorem leaseLowDue_iff {p : Port} {s : State} {period : Nat} (h : (s.session p).leasePeriod = some period) :
    (leaseComesTo p (quarter (s.session p)) s && !(s.session p).lowReported) = true ↔
      ((s.session p).state = .opened ∧ (s.session p).leaseRemaining = period / 4 + s.deferred.count .tick + 1) ∧
        (s.session p).lowReported = false := by
  rw [Bool.and_eq_true, leaseComesTo_iff, quarter_of_period h, Bool.not_eq_true']

theorem count_tick_of_atRest {s : State} (h : AtRest s) : s.deferred.count .tick = 0 := by
  rw [h.2.1]
  rfl

/-- Settles O44: each named tick is due by its own count, and a tick that is due is the tick of O43. -/
theorem ticksNamedByTheirEffect : Obligations.TicksNamedByTheirEffect := by
  refine ⟨fun s => ⟨fun n w hw hd hf => ⟨fun hrest => ?_, ?_, ?_⟩, fun p period ho hperiod hge hn hlow hf =>
    ⟨fun hrest => ?_, fun hroom => ?_, fun hfull => ?_⟩, fun p ho hn hf => ⟨fun hrest => ?_, ?_, ?_⟩⟩,
    fun s w hw => ⟨fun n v hv hd => ?_, fun p => ⟨fun period ho hperiod hn hlow => ?_, fun ho hn => ?_⟩⟩,
    fun s hready => ⟨fun n hnot => ?_, fun p => ⟨fun period hperiod hnot => ?_, fun hnot => ?_⟩⟩⟩
  · have hdue : deadlineDue n s = true :=
      (deadlineDue_iff n s).mpr ⟨w, hw, by rw [count_tick_of_atRest hrest, hd]⟩
    rw [exec_deadlineZero n (.inr hrest), if_pos hdue, tickComes_of_idle hrest.1]
  · rw [tickActs_workList, expiryItems_eq]
    refine List.mem_append_left _ (List.mem_append_right _ (List.mem_filterMap.mpr ⟨n, List.mem_ofFn.mpr ⟨n, rfl⟩, ?_⟩))
    rw [hw, Option.bind_some, if_pos ⟨hd, hf⟩]
  · have hnumber : w.number = n := entryNumbered_number hw
    rw [tickActs_pool]
    refine List.mem_map.mpr ⟨w, List.mem_of_find?_eq_some hw, ?_⟩
    rw [lowerDeadline_eq, if_neg (by rwa [hnumber]), hd]
    rfl
  · have hdue := (leaseLowDue_iff hperiod).mpr ⟨⟨ho, by rw [count_tick_of_atRest hrest, hn]⟩, hlow⟩
    rw [exec_leaseLow p (.inr hrest), if_pos hdue, tickComes_of_idle hrest.1]
  · exact tickActs_session_warned_of_room ho hn hf (by omega) ⟨by rw [hperiod, Option.getD_some], hlow⟩ hroom
  · exact tickActs_session_warned_of_full ho hn hf (by omega) ⟨by rw [hperiod, Option.getD_some], hlow⟩ hfull
  · have hdue := (leaseComesTo_iff p 0 s).mpr ⟨ho, by rw [count_tick_of_atRest hrest, hn]⟩
    rw [exec_lapse p (.inr hrest), if_pos hdue, tickComes_of_idle hrest.1]
  · rw [tickActs_workList, flatMap_lapseItems]
    refine List.mem_append_right _ (List.mem_map.mpr ⟨p, List.mem_filter.mpr ⟨mem_allPorts p, ?_⟩, rfl⟩)
    simp [lapses, ho, hn, hf]
  · exact tickActs_session_lapses (n := 0) ho hn hf rfl
  · rw [exec_deadlineZero n (.inl ⟨w, hw⟩), if_pos ((deadlineDue_iff n s).mpr ⟨v, hv, hd⟩), tickComes_of_serving hw]
  · rw [exec_leaseLow p (.inl ⟨w, hw⟩), if_pos ((leaseLowDue_iff hperiod).mpr ⟨⟨ho, hn⟩, hlow⟩), tickComes_of_serving hw]
  · rw [exec_lapse p (.inl ⟨w, hw⟩), if_pos ((leaseComesTo_iff p 0 s).mpr ⟨ho, by omega⟩), tickComes_of_serving hw]
  · rw [exec_deadlineZero n hready, if_neg]
    rw [deadlineDue_iff]
    rintro ⟨v, hv, hd⟩
    exact hnot v hv hd
  · rw [exec_leaseLow p hready, if_neg]
    rw [leaseLowDue_iff hperiod]
    rintro ⟨⟨ho, hn⟩, hlow⟩
    rcases hnot with h | h | h
    · exact h ho
    · exact h hn
    · exact absurd (h.symm.trans hlow) (by decide)
  · rw [exec_lapse p hready, if_neg]
    rw [leaseComesTo_iff]
    rintro ⟨ho, hn⟩
    rcases hnot with h | h
    · exact h ho
    · exact h (by omega)

end Sys2Proof.Machine
end

section
/-!
PROOFS. The teardown (R131): what its walks, handoffs and met conditions leave of the session it ends, of the other
sessions, and of the locks and cells.
-/

namespace Sys2Proof.Machine

open Sys2Proof.Safety

/-! ### A port without entries -/

/-- The port has no live entry. -/
def Absent (p : Port) (s : State) : Prop := ∀ w ∈ s.pool, w.port ≠ p

theorem absent_of_subset {p : Port} {s t : State} (h : Absent p s) (hp : t.pool ⊆ s.pool) : Absent p t :=
  fun w hw => h w (hp hw)

theorem filter_port_ne (pool : List WaitEntry) (p : Port) :
    pool.filter (fun w => w.port != p) = pool.filter fun w => w.port ≠ p :=
  List.filter_congr fun _ _ => Bool.eq_iff_iff.mpr (bne_iff_ne.trans decide_eq_true_iff.symm)

/-- Step 1 of R131: the entries go, and the port's session forgets them. -/
theorem dropAllEntries_eq (p : Port) (s : State) :
    dropAllEntries p s =
      { s.modSession p fun y => { y with liveWaits := 0, pendingAcquire := none } with
        pool := s.pool.filter fun w => w.port ≠ p } := by
  rw [← filter_port_ne]
  rfl

theorem dropAllEntries_pool (p : Port) (s : State) : (dropAllEntries p s).pool = s.pool.filter fun w => w.port ≠ p := by
  rw [dropAllEntries_eq]

theorem absent_dropAllEntries (p : Port) (s : State) : Absent p (dropAllEntries p s) := fun w hw => by
  rw [dropAllEntries_pool] at hw
  simpa using (List.mem_filter.mp hw).2

theorem dropAllEntries_session (p q : Port) (s : State) :
    (dropAllEntries p s).session q =
      if q = p then { s.session q with liveWaits := 0, pendingAcquire := none } else s.session q :=
  State.modSession_session _ p q _

/-! ### Grant walks -/

/-- A walk takes a first part of its waiters out of the pool. -/
theorem walkOver_pool (c : Fin 512) (ws : List WaitEntry) (s : State) :
    ∃ served, served <+: ws ∧
      (walkOver c ws s).1.pool = s.pool.filter fun x => x.number ∉ served.map WaitEntry.number := by
  induction ws generalizing s with
  | nil => exact ⟨[], by simp, (filter_number_nil s.pool).symm⟩
  | cons w ws ih =>
    unfold walkOver
    split
    · obtain ⟨served, hpre, hpool⟩ := ih (grantTake c w s)
      refine ⟨w :: served, by simpa using hpre, ?_⟩
      rw [hpool, grantTake_pool, filter_number_cons]
    · exact ⟨[], by simp, (filter_number_nil s.pool).symm⟩

theorem grantTake_session_other (c : Fin 512) {w : WaitEntry} (s : State) {p : Port} (h : w.port ≠ p) :
    (grantTake c w s).session p = s.session p := by
  simp only [grantTake, endEntry_session, if_neg h, ended_nil, lowerCounter_session]

theorem walkOver_session_other (c : Fin 512) {ws : List WaitEntry} (s : State) {p : Port} (h : ∀ w ∈ ws, w.port ≠ p) :
    (walkOver c ws s).1.session p = s.session p := by
  induction ws generalizing s with
  | nil => rfl
  | cons w ws ih =>
    obtain ⟨hw, hws⟩ := List.forall_mem_cons.mp h
    unfold walkOver
    split
    · exact (ih _ hws).trans (grantTake_session_other c s hw)
    · rfl

/-- A port without entries gets no record from a walk. -/
theorem grantWalk_session_of_absent (c : Fin 512) {s : State} {p : Port} (h : Absent p s) :
    (grantWalk c s).1.session p = s.session p :=
  walkOver_session_other c s fun w hw => h w (List.mem_filter.mp hw).1

/-- What a walk does to its cell is decided by that cell and the waiters. -/
theorem walkOver_cell_congr (c : Fin 512) (ws : List WaitEntry) {s t : State} (h : t.cell c = s.cell c) :
    (walkOver c ws t).1.cell c = (walkOver c ws s).1.cell c := by
  induction ws generalizing s t with
  | nil => exact h
  | cons w ws ih =>
    have hlower : (grantTake c w t).cell c = (grantTake c w s).cell c := by
      rw [grantTake_cell, grantTake_cell]
      unfold lowerCounter
      rw [h]
      split <;> simp [h]
    unfold walkOver
    rw [h]
    split
    · exact ih hlower
    · exact h

/-- With distinct numbers, a walk takes out entries that take its own cell alone. -/
theorem grantWalk_pool_filter {s : State} (h : NumbersDistinct s) (c : Fin 512) {f : WaitEntry → Bool}
    (hf : ∀ w, w.takes c = true → f w = false) : (grantWalk c s).1.pool.filter f = s.pool.filter f := by
  obtain ⟨served, hpre, hpool⟩ := walkOver_pool c (takeWaiters s c) s
  have hserved : ∀ w ∈ served, w ∈ s.pool ∧ w.takes c = true := fun w hw => List.mem_filter.mp (hpre.subset hw)
  have hpool' := hpool.trans (filter_not_mem h fun w hw => (hserved w hw).1)
  rw [grantWalk, hpool', List.filter_filter]
  refine List.filter_congr fun x _ => ?_
  by_cases hx : x ∈ served
  · simp [hf x (hserved x hx).2]
  · simp [hx]

theorem numbersDistinct_grantWalk {s : State} (h : NumbersDistinct s) (c : Fin 512) :
    NumbersDistinct (grantWalk c s).1 := by
  obtain ⟨served, -, hpool⟩ := walkOver_pool c (takeWaiters s c) s
  exact numbersDistinct_of_sublist h (by rw [grantWalk, hpool]; exact List.filter_sublist)

/-! ### Met conditions -/

theorem meetAwaits_pool_sublist (s : State) (c : Fin 512) : (meetAwaits s c).pool.Sublist s.pool := by
  rw [meetAwaits, (foldl_meetEntry c _ _ s).1]
  exact List.filter_sublist

theorem meetAwaits_session_of_absent (s : State) (c : Fin 512) {p : Port} (h : Absent p s) :
    (meetAwaits s c).session p = s.session p := by
  rw [meetAwaits_session, List.filter_eq_nil_iff.mpr, List.map_nil, ended_nil]
  intro w hw
  simpa using h w (List.mem_filter.mp hw).1

/-- The handing on with origin none is the meeting of the changed cells in order. -/
theorem handOn_none (before : Vector Cell 512) (touched : List (Fin 512)) (s : State) :
    handOn none before touched s = (netChanges before touched s).foldl meetAwaits s := rfl

theorem foldl_meetAwaits_sublist (cs : List (Fin 512)) (s : State) : (cs.foldl meetAwaits s).pool.Sublist s.pool :=
  foldl_kept (L := fun t => t.pool.Sublist s.pool) (fun t c ht => (meetAwaits_pool_sublist t c).trans ht) cs
    (List.Sublist.refl _)

theorem foldl_meetAwaits_session_of_absent (cs : List (Fin 512)) {s : State} {p : Port} (h : Absent p s) :
    (cs.foldl meetAwaits s).session p = s.session p := by
  induction cs generalizing s with
  | nil => rfl
  | cons c cs ih =>
    rw [List.foldl_cons, ih (absent_of_subset h (meetAwaits_pool_sublist s c).subset), meetAwaits_session_of_absent s c h]

/-! ### Locks passed on -/

theorem mem_lockWaiters {s : State} {l : Fin 48} {w : WaitEntry} :
    w ∈ lockWaiters s l ↔ w ∈ s.pool ∧ w.wait = .lock l := by
  rw [lockWaiters, List.mem_filter]
  refine and_congr_right fun _ => ?_
  unfold WaitEntry.onLock
  cases w.wait <;> simp

theorem passOn_pool_sublist (l : Fin 48) (s : State) : (passOn l s).1.pool.Sublist s.pool := by
  unfold passOn
  split
  · rw [handoff_pool]
    exact List.filter_sublist
  · exact List.Sublist.refl _

theorem passOn_session_of_absent (l : Fin 48) {s : State} {p : Port} (h : Absent p s) :
    (passOn l s).1.session p = s.session p := by
  unfold passOn
  split
  · next w ws hw =>
    exact handoff_session_other l s (h w (mem_lockWaiters.mp (hw ▸ List.mem_cons_self)).1).symm
  · rfl

/-- The state in which a popped lock is passed on. -/
def popped (p : Port) (l : Fin 48) (s : State) : State := markBank l true (popStack p s)

theorem teardownLock_eq (p : Port) (s : State) (l : Fin 48) : teardownLock p s l = (passOn l (popped p l s)).1 := rfl

theorem popped_pool (p : Port) (l : Fin 48) (s : State) : (popped p l s).pool = s.pool :=
  (markBank_pool l true _).trans (popStack_pool p s)

theorem popped_lock (p : Port) (l k : Fin 48) (s : State) : (popped p l s).lock k = s.lock k := by
  rw [popped, markBank_lock, popStack_lock]

theorem popped_bankSuspect (p : Port) (l : Fin 48) (s : State) (b : Fin 32) :
    (popped p l s).bankSuspect b = if bankLock b = l then true else s.bankSuspect b := by
  rw [popped, markBank_bankSuspect, popStack_bankSuspect]

theorem popped_session (p q : Port) (l : Fin 48) (s : State) :
    (popped p l s).session q =
      if q = p then { s.session q with stack := (s.session q).stack.dropLast } else s.session q := by
  rw [popped, markBank_session]
  exact State.modSession_session s p q _

theorem lockWaiters_popped (p : Port) (l k : Fin 48) (s : State) : lockWaiters (popped p l s) k = lockWaiters s k :=
  lockWaiters_of_pool (popped_pool p l s) k

section
variable {p : Port} {s : State} {l : Fin 48}

/-- A lock that nobody waits for becomes FREE with its generation (R60). -/
theorem teardownLock_of_no_waiter (h : lockWaiters s l = []) :
    teardownLock p s l = (popped p l s).setLock l ⟨.free, (s.lock l).generation⟩ := by
  rw [teardownLock_eq, passOn_of_no_waiter ((lockWaiters_popped p l l s).trans h), popped_lock]

/-- A lock with waiters goes to the first of them (R60, R57). -/
theorem teardownLock_of_waiter {w : WaitEntry} {ws : List WaitEntry} (h : lockWaiters s l = w :: ws) :
    teardownLock p s l = handoff l w (popped p l s) := by
  rw [teardownLock_eq, passOn_of_waiter ((lockWaiters_popped p l l s).trans h)]

theorem teardownLock_pool_sublist : (teardownLock p s l).pool.Sublist s.pool := by
  have h := passOn_pool_sublist l (popped p l s)
  rwa [popped_pool] at h

theorem teardownLock_bankSuspect (b : Fin 32) :
    (teardownLock p s l).bankSuspect b = if bankLock b = l then true else s.bankSuspect b := by
  rw [← popped_bankSuspect p l s b, teardownLock_eq]
  exact congrArg (fun v => v[b.val]) (passOn_suspect l (popped p l s))

theorem teardownLock_lock_other {k : Fin 48} (h : k ≠ l) : (teardownLock p s l).lock k = s.lock k := by
  rw [teardownLock_eq, passOn_lock_other l k _ h, popped_lock]

theorem teardownLock_session_same (h : Absent p s) :
    (teardownLock p s l).session p = { s.session p with stack := (s.session p).stack.dropLast } := by
  have hpopped : Absent p (popped p l s) := fun w hw => h w (popped_pool p l s ▸ hw)
  rw [teardownLock_eq, passOn_session_of_absent l hpopped, popped_session, if_pos rfl]

/-- A lock torn down is not the port's any more. -/
theorem teardownLock_not_held (h : Absent p s) (e : Byte) : ((teardownLock p s l).lock l).state ≠ .held p e := by
  cases hw : lockWaiters s l with
  | nil => simp [teardownLock_of_no_waiter hw]
  | cons w ws =>
    have hport := h w (mem_lockWaiters.mp (hw ▸ List.mem_cons_self)).1
    simp [teardownLock_of_waiter hw, handoff_lock, hport]
end

section
variable {p : Port}

theorem foldl_teardownLock_sublist (ls : List (Fin 48)) (s : State) :
    (ls.foldl (teardownLock p) s).pool.Sublist s.pool :=
  foldl_kept (L := fun t => t.pool.Sublist s.pool) (fun _ _ ht => teardownLock_pool_sublist.trans ht) ls
    (List.Sublist.refl _)

theorem foldl_teardownLock_session (ls : List (Fin 48)) {s : State} (h : Absent p s) :
    (ls.foldl (teardownLock p) s).session p =
      { s.session p with stack := (s.session p).stack.take ((s.session p).stack.length - ls.length) } := by
  induction ls generalizing s with
  | nil => simp
  | cons l ls ih =>
    rw [List.foldl_cons, ih (absent_of_subset h teardownLock_pool_sublist.subset), teardownLock_session_same h]
    have hlen : min ((s.session p).stack.length - 1 - ls.length) ((s.session p).stack.length - 1) =
        (s.session p).stack.length - (ls.length + 1) := by omega
    rw [List.length_cons, List.length_dropLast, List.dropLast_eq_take, List.take_take, hlen]

theorem foldl_teardownLock_not_held (ls : List (Fin 48)) {s : State} (h : Absent p s) {l : Fin 48}
    (hl : l ∈ ls ∨ ∀ e, (s.lock l).state ≠ .held p e) (e : Byte) :
    ((ls.foldl (teardownLock p) s).lock l).state ≠ .held p e := by
  induction ls generalizing s with
  | nil => exact hl.resolve_left (List.not_mem_nil) e
  | cons k ls ih =>
    refine ih (absent_of_subset h teardownLock_pool_sublist.subset) ?_
    by_cases hk : l = k
    · subst hk
      exact .inr fun e => teardownLock_not_held h e
    · rw [teardownLock_lock_other hk]
      exact hl.imp_left fun hl => (List.mem_cons.mp hl).resolve_left hk

theorem foldl_teardownLock_lock_other (ls : List (Fin 48)) (s : State) {l : Fin 48} (hl : l ∉ ls) :
    (ls.foldl (teardownLock p) s).lock l = s.lock l := by
  induction ls generalizing s with
  | nil => rfl
  | cons k ls ih =>
    rw [List.mem_cons, not_or] at hl
    rw [List.foldl_cons, ih _ hl.2, teardownLock_lock_other hl.1]

theorem foldl_teardownLock_bankSuspect (ls : List (Fin 48)) (s : State) (b : Fin 32) :
    (ls.foldl (teardownLock p) s).bankSuspect b = if bankLock b ∈ ls then true else s.bankSuspect b := by
  induction ls generalizing s with
  | nil => simp
  | cons k ls ih =>
    rw [List.foldl_cons, ih, teardownLock_bankSuspect]
    by_cases h : bankLock b ∈ ls <;> by_cases hk : bankLock b = k <;> simp [h, hk]
end

/-! ### The states of a teardown -/

/-- After the grant walks of R131. -/
def walked (p : Port) (s : State) : State := (headedCells p s).foldl (fun t c => (grantWalk c t).1) (dropAllEntries p s)

/-- After the handing on of the locks. -/
def released (p : Port) (s : State) : State := (s.session p).stack.reverse.foldl (teardownLock p) (walked p s)

/-- The records that tell of the end of a session (R108, log entry 17). -/
def endNotice (y : Session) : List Event :=
  if y.endCause = .lapsed ∨ y.endCause = .portReset then [.sessionEnded y.endCause] else []

/-- The session that a teardown has ended, before the handing on. -/
def Session.closing (y : Session) : Session :=
  { y with
    state := .closed, reserved := 0, watches := [], queue := (endNotice y).map (fun e => ⟨y.sequence, e⟩),
    sequence := y.sequence + BitVec.ofNat 8 (endNotice y).length }

theorem foldl_grantWalk_subset (cs : List (Fin 512)) (s : State) :
    (cs.foldl (fun t c => (grantWalk c t).1) s).pool ⊆ s.pool :=
  foldl_kept (L := fun t => t.pool ⊆ s.pool) (fun t c ht _ hw => ht (grantWalk_pool_subset c t hw)) cs
    (List.Subset.refl _)

theorem absent_walked (p : Port) (s : State) : Absent p (walked p s) :=
  absent_of_subset (absent_dropAllEntries p s) (foldl_grantWalk_subset _ _)

theorem foldl_grantWalk_session (cs : List (Fin 512)) {s : State} {p : Port} (h : Absent p s) :
    (cs.foldl (fun t c => (grantWalk c t).1) s).session p = s.session p := by
  induction cs generalizing s with
  | nil => rfl
  | cons c cs ih =>
    rw [List.foldl_cons, ih (absent_of_subset h (grantWalk_pool_subset c s)), grantWalk_session_of_absent c h]

theorem walked_session (p : Port) (s : State) :
    (walked p s).session p = { s.session p with liveWaits := 0, pendingAcquire := none } := by
  rw [walked, foldl_grantWalk_session _ (absent_dropAllEntries p s), dropAllEntries_session, if_pos rfl]

theorem absent_released (p : Port) (s : State) : Absent p (released p s) :=
  absent_of_subset (absent_walked p s) (foldl_teardownLock_sublist _ _).subset

theorem released_session (p : Port) (s : State) :
    (released p s).session p = { s.session p with liveWaits := 0, pendingAcquire := none, stack := [] } := by
  rw [released, foldl_teardownLock_session _ (absent_walked p s), walked_session]
  simp

/-- Steps 4 to 6 of R131 are one change of the ended session. -/
theorem closing_eq (p : Port) (t : State) :
    (noticeOfEnd p (clearNotices p t)).modSession p (fun x => { x with state := .closed }) =
      t.modSession p Session.closing := by
  rw [noticeOfEnd_eq]
  by_cases hc : (t.session p).endCause = .lapsed ∨ (t.session p).endCause = .portReset
  · rw [if_pos (by simpa [clearNotices] using hc)]
    simp only [appendRecord, clearNotices, State.modSession_modSession, State.modSession_session_same]
    refine State.modSession_congr t p _ _ ?_
    simp only [Session.closing, endNotice, if_pos hc]
    rfl
  · rw [if_neg (by simpa [clearNotices] using hc)]
    simp only [clearNotices, State.modSession_modSession]
    refine State.modSession_congr t p _ _ ?_
    simp only [Session.closing, endNotice, if_neg hc, List.length_nil, List.map_nil, BitVec.add_zero]

theorem teardown_eq (p : Port) (s : State) :
    teardown p s = handOn none s.cells (headedCells p s) ((released p s).modSession p Session.closing) := by
  have hstack : (walked p s).session p = { s.session p with liveWaits := 0, pendingAcquire := none } :=
    walked_session p s
  have hreleased : releaseAll p (walked p s) = released p s := by
    rw [releaseAll, hstack]
    rfl
  rw [← closing_eq, ← hreleased]
  rfl

/-- The state that the teardown hands on. -/
theorem absent_closing (p : Port) (s : State) : Absent p ((released p s).modSession p Session.closing) :=
  absent_released p s

theorem teardown_pool_sublist (p : Port) (s : State) : (teardown p s).pool.Sublist (released p s).pool := by
  rw [teardown_eq, handOn_none]
  exact foldl_meetAwaits_sublist _ _

theorem absent_teardown (p : Port) (s : State) : Absent p (teardown p s) :=
  absent_of_subset (absent_released p s) (teardown_pool_sublist p s).subset

theorem teardown_session (p : Port) (s : State) :
    (teardown p s).session p =
      { s.session p with
        state := .closed, liveWaits := 0, pendingAcquire := none, stack := [], reserved := 0, watches := [],
        queue := (endNotice (s.session p)).map (fun e => ⟨(s.session p).sequence, e⟩),
        sequence := (s.session p).sequence + BitVec.ofNat 8 (endNotice (s.session p)).length } := by
  rw [teardown_eq, handOn_none, foldl_meetAwaits_session_of_absent _ (absent_closing p s),
    State.modSession_session_same, released_session]
  rfl

/-! ### Locks, flags and cells after a teardown -/

theorem walked_locks (p : Port) (s : State) : (walked p s).locks = s.locks :=
  foldl_keeps State.locks (fun t c => grantWalk_locks c t) _ _

theorem walked_suspect (p : Port) (s : State) : (walked p s).suspect = s.suspect :=
  foldl_keeps State.suspect (fun t c => grantWalk_suspect c t) _ _

theorem walked_lock (p : Port) (s : State) (l : Fin 48) : (walked p s).lock l = s.lock l :=
  congrArg (fun v => v[l.val]) (walked_locks p s)

theorem walked_bankSuspect (p : Port) (s : State) (b : Fin 32) : (walked p s).bankSuspect b = s.bankSuspect b :=
  congrArg (fun v => v[b.val]) (walked_suspect p s)

theorem teardown_lock (p : Port) (s : State) (l : Fin 48) : (teardown p s).lock l = (released p s).lock l := by
  rw [teardown_eq]
  exact congrArg (fun v => v[l.val]) (handOn_locks none _ _ _)

theorem teardown_bankSuspect (p : Port) (s : State) (b : Fin 32) :
    (teardown p s).bankSuspect b = (released p s).bankSuspect b := by
  rw [teardown_eq]
  exact congrArg (fun v => v[b.val]) (handOn_suspect none _ _ _)

theorem released_bankSuspect (p : Port) (s : State) (b : Fin 32) :
    (released p s).bankSuspect b = if bankLock b ∈ (s.session p).stack then true else s.bankSuspect b := by
  rw [released, foldl_teardownLock_bankSuspect, walked_bankSuspect]
  simp only [List.mem_reverse]

/-- A walk over other cells leaves a cell as it was. -/
theorem foldl_grantWalk_cell_other (cs : List (Fin 512)) (s : State) {c : Fin 512} (hc : c ∉ cs) :
    (cs.foldl (fun t c => (grantWalk c t).1) s).cell c = s.cell c := by
  induction cs generalizing s with
  | nil => rfl
  | cons d cs ih =>
    rw [List.mem_cons, not_or] at hc
    rw [List.foldl_cons, ih _ hc.2, grantWalk_cell_other d c s hc.1]

theorem teardown_cell (p : Port) (s : State) (c : Fin 512) : (teardown p s).cell c = (walked p s).cell c :=
  congrArg (fun v => v[c.val]) (teardown_cells p s)

/-! ### The cells a port heads -/

theorem headOf_iff (s : State) (w : WaitEntry) (c : Fin 512) :
    headOf w s = some c ↔
      (∃ n, w.wait = .take c n) ∧ ∃ h hs, takeWaiters s c = h :: hs ∧ h.number = w.number := by
  unfold headOf
  cases hw : w.wait with
  | lock l => simp
  | await d cond operand => simp
  | take d n =>
    dsimp only
    constructor
    · intro h
      split at h
      · next k ks hk =>
        split at h
        · next hn =>
          obtain rfl := Option.some.inj h
          exact ⟨⟨n, rfl⟩, k, ks, hk, hn⟩
        · cases h
      · cases h
    · rintro ⟨⟨m, hm⟩, k, ks, hk, hn⟩
      obtain ⟨rfl, rfl⟩ := Wait.take.inj hm
      rw [hk]
      exact if_pos hn

theorem mem_takeWaiters {s : State} {c : Fin 512} {w : WaitEntry} :
    w ∈ takeWaiters s c ↔ w ∈ s.pool ∧ ∃ n, w.wait = .take c n := by
  rw [takeWaiters, List.mem_filter]
  refine and_congr_right fun _ => ?_
  unfold WaitEntry.takes
  cases w.wait <;> simp

/-- With distinct numbers, a port heads the cells whose first waiter is its own (R73). -/
theorem mem_headedCells {s : State} (h : NumbersDistinct s) (p : Port) (c : Fin 512) :
    c ∈ headedCells p s ↔ ∃ w ws, takeWaiters s c = w :: ws ∧ w.port = p := by
  rw [headedCells, mem_ascending, List.mem_filterMap]
  constructor
  · rintro ⟨w, hw, hhead⟩
    obtain ⟨hpool, hport⟩ := List.mem_filter.mp hw
    obtain ⟨-, k, ks, hk, hn⟩ := (headOf_iff s w c).mp hhead
    have hkpool := (mem_takeWaiters.mp (hk ▸ List.mem_cons_self : k ∈ takeWaiters s c)).1
    exact ⟨k, ks, hk, eq_of_number h hkpool hpool hn ▸ eq_of_beq hport⟩
  · rintro ⟨w, ws, hw, hport⟩
    obtain ⟨hpool, hwait⟩ := mem_takeWaiters.mp (hw ▸ List.mem_cons_self : w ∈ takeWaiters s c)
    exact ⟨w, List.mem_filter.mpr ⟨hpool, beq_iff_eq.mpr hport⟩, (headOf_iff s w c).mpr ⟨hwait, w, ws, hw, rfl⟩⟩

theorem headedCells_pairwise (p : Port) (s : State) : (headedCells p s).Pairwise (· < ·) := ascending_pairwise _

/-! ### A walk does not meet another cell's waiters -/

theorem takes_other {c d : Fin 512} (h : d ≠ c) (w : WaitEntry) (hw : w.takes c = true) : w.takes d = false := by
  unfold WaitEntry.takes at *
  cases hwait : w.wait <;> simp_all
  exact fun e => h e.symm

theorem onLock_of_takes {c : Fin 512} (l : Fin 48) (w : WaitEntry) (hw : w.takes c = true) : w.onLock l = false := by
  unfold WaitEntry.takes WaitEntry.onLock at *
  cases hwait : w.wait <;> simp_all

theorem numbersDistinct_dropAllEntries {s : State} (h : NumbersDistinct s) (p : Port) :
    NumbersDistinct (dropAllEntries p s) :=
  numbersDistinct_of_sublist h (by rw [dropAllEntries_pool]; exact List.filter_sublist)

theorem numbersDistinct_foldl_grantWalk (cs : List (Fin 512)) {s : State} (h : NumbersDistinct s) :
    NumbersDistinct (cs.foldl (fun t c => (grantWalk c t).1) s) :=
  foldl_kept (L := NumbersDistinct) (fun _ c ht => numbersDistinct_grantWalk ht c) cs h

/-- Walks over other cells, in a list without repeats, leave a cell's own walk as it is. -/
theorem foldl_grantWalk_cell (cs : List (Fin 512)) {s : State} (h : NumbersDistinct s) (hcs : cs.Nodup) {c : Fin 512}
    (hc : c ∈ cs) : (cs.foldl (fun t c => (grantWalk c t).1) s).cell c = (grantWalk c s).1.cell c := by
  induction cs generalizing s with
  | nil => cases hc
  | cons d cs ih =>
    obtain ⟨hd, hcs⟩ := List.nodup_cons.mp hcs
    rw [List.foldl_cons]
    rcases List.mem_cons.mp hc with rfl | hc
    · exact foldl_grantWalk_cell_other cs _ hd
    · have hne : c ≠ d := fun e => hd (e ▸ hc)
      have hwaiters : takeWaiters (grantWalk d s).1 c = takeWaiters s c :=
        grantWalk_pool_filter h d fun w hw => takes_other hne w hw
      rw [ih (numbersDistinct_grantWalk h d) hcs hc, grantWalk, hwaiters]
      exact walkOver_cell_congr c _ (grantWalk_cell_other d c s hne)

theorem lockWaiters_foldl_grantWalk (cs : List (Fin 512)) {s : State} (h : NumbersDistinct s) (l : Fin 48) :
    lockWaiters (cs.foldl (fun t c => (grantWalk c t).1) s) l = lockWaiters s l := by
  induction cs generalizing s with
  | nil => rfl
  | cons d cs ih =>
    rw [List.foldl_cons, ih (numbersDistinct_grantWalk h d)]
    exact grantWalk_pool_filter h d fun w hw => onLock_of_takes l w hw

/-- The waiters of a lock that the teardown finds are those of the other ports. -/
theorem lockWaiters_walked {s : State} (h : NumbersDistinct s) (p : Port) (l : Fin 48) :
    lockWaiters (walked p s) l = (lockWaiters s l).filter fun w => w.port ≠ p := by
  rw [walked, lockWaiters_foldl_grantWalk _ (numbersDistinct_dropAllEntries h p), lockWaiters, dropAllEntries_pool,
    List.filter_filter, lockWaiters, List.filter_filter]
  exact List.filter_congr fun w _ => Bool.and_comm _ _

/-! ### The handoffs of a teardown -/

/-- The handing on of another lock leaves a lock's waiters as they are. -/
theorem lockWaiters_teardownLock_other {s : State} (h : NumbersDistinct s) (p : Port) {l k : Fin 48} (hk : k ≠ l) :
    lockWaiters (teardownLock p s l) k = lockWaiters s k := by
  cases hw : lockWaiters s l with
  | nil =>
    rw [teardownLock_of_no_waiter hw]
    exact lockWaiters_of_pool (popped_pool p l s) k
  | cons w ws =>
    obtain ⟨hpool, hwait⟩ := mem_lockWaiters.mp (hw ▸ List.mem_cons_self : w ∈ lockWaiters s l)
    rw [teardownLock_of_waiter hw, lockWaiters, handoff_pool, popped_pool, List.filter_filter]
    refine List.filter_congr fun x hx => ?_
    by_cases hn : x.number = w.number
    · have hne : l ≠ k := Ne.symm hk
      simp [eq_of_number h hx hpool hn, WaitEntry.onLock, hwait, hne]
    · simp [hn]

theorem numbersDistinct_teardownLock {s : State} (h : NumbersDistinct s) (p : Port) (l : Fin 48) :
    NumbersDistinct (teardownLock p s l) :=
  numbersDistinct_of_sublist h teardownLock_pool_sublist

/-- A port's queue keeps its records. -/
def QueueGrows (q : Port) (s t : State) : Prop := ∀ r ∈ (s.session q).queue, r ∈ (t.session q).queue

theorem queueGrows_foldl {α : Type} {q : Port} {f : State → α → State} (h : ∀ s a, QueueGrows q s (f s a)) (l : List α)
    (s : State) : QueueGrows q s (l.foldl f s) :=
  foldl_kept (L := QueueGrows q s) (fun t a ht r hr => h t a r (ht r hr)) l fun _ hr => hr

theorem queueGrows_handoff (l : Fin 48) {w : WaitEntry} (hw : w.wait = .lock l) (q : Port) (s : State) :
    QueueGrows q s (handoff l w s) := by
  intro r hr
  by_cases hq : q = w.port
  · subst hq
    rw [handoff_session_same l w s hw]
    exact List.mem_append_left _ hr
  · rwa [handoff_session_other l s hq]

theorem queueGrows_popped (p : Port) (l : Fin 48) (q : Port) (s : State) : QueueGrows q s (popped p l s) := by
  intro r hr
  rw [popped_session]
  split <;> exact hr

theorem queueGrows_teardownLock (p : Port) (q : Port) (s : State) (l : Fin 48) :
    QueueGrows q s (teardownLock p s l) := by
  intro r hr
  have hp := queueGrows_popped p l q s r hr
  cases hw : lockWaiters s l with
  | nil =>
    rw [teardownLock_of_no_waiter hw]
    exact hp
  | cons w ws =>
    have hwait := (mem_lockWaiters.mp (hw ▸ List.mem_cons_self : w ∈ lockWaiters s l)).2
    rw [teardownLock_of_waiter hw]
    exact queueGrows_handoff l hwait q _ r hp

theorem queueGrows_meetAwaits (q : Port) (s : State) (c : Fin 512) : QueueGrows q s (meetAwaits s c) := by
  intro r hr
  rw [meetAwaits_session]
  exact List.mem_append_left _ hr

/-- What becomes of one lock in the fold over different locks. -/
theorem foldl_teardownLock_lock {ls : List (Fin 48)} (hls : ls.Nodup) {s : State} (h : NumbersDistinct s) {p : Port}
    {l : Fin 48} (hl : l ∈ ls) :
    (lockWaiters s l = [] → (ls.foldl (teardownLock p) s).lock l = ⟨.free, (s.lock l).generation⟩) ∧
      ∀ w ws, lockWaiters s l = w :: ws →
        (ls.foldl (teardownLock p) s).lock l = ⟨.held w.port w.epoch, (s.lock l).generation + 1⟩ ∧
        ∃ r ∈ ((ls.foldl (teardownLock p) s).session w.port).queue,
          r.event = .granted w.ticket l ((s.lock l).generation + 1) ((lockBank l).map fun _ => true) := by
  induction ls generalizing s with
  | nil => cases hl
  | cons k ls ih =>
    obtain ⟨hk, hrest⟩ := List.nodup_cons.mp hls
    rcases List.mem_cons.mp hl with rfl | hl
    · refine ⟨fun hw => ?_, fun w ws hw => ⟨?_, ?_⟩⟩
      · rw [List.foldl_cons, foldl_teardownLock_lock_other ls _ hk, teardownLock_of_no_waiter hw,
          State.setLock_lock_same]
      · rw [List.foldl_cons, foldl_teardownLock_lock_other ls _ hk, teardownLock_of_waiter hw, handoff_lock, if_pos rfl,
          popped_lock]
      · have hwait := (mem_lockWaiters.mp (hw ▸ List.mem_cons_self : w ∈ lockWaiters s l)).2
        have hsuspect : (lockBank l).map (popped p l s).bankSuspect = (lockBank l).map fun _ => true := by
          cases hb : lockBank l with
          | none => rfl
          | some b => simp [popped_bankSuspect, (lockBank_eq_some l b).mp hb]
        refine ⟨⟨((popped p l s).session w.port).sequence,
          .granted w.ticket l ((s.lock l).generation + 1) ((lockBank l).map fun _ => true)⟩,
          queueGrows_foldl (queueGrows_teardownLock p w.port) ls _ _ ?_, rfl⟩
        rw [teardownLock_of_waiter hw, handoff_session_same l w _ hwait, popped_lock, hsuspect]
        exact List.mem_append_right _ List.mem_cons_self
    · have hne : l ≠ k := fun e => hk (e ▸ hl)
      have hstep := ih hrest (numbersDistinct_teardownLock h p k) hl
      rwa [lockWaiters_teardownLock_other h p hne, teardownLock_lock_other hne] at hstep

/-! ### The obligation -/

theorem exec_teardownItem_of_service {p : Port} {s : State} (h : s.service = .serving (.item (.teardown p))) :
    exec (.teardownItem p) s = .next (conclude (teardown p s)) := by
  rw [exec_teardownItem]
  unfold execTeardownItem
  dsimp only
  rw [settled_of_serving h]
  split
  · next q hq =>
    obtain rfl : p = q := by simpa [h] using hq
    rw [if_pos rfl]
  all_goals simp_all

theorem queueGrows_closing {p q : Port} (h : q ≠ p) (s : State) : QueueGrows q s (s.modSession p Session.closing) := by
  intro r hr
  rwa [State.modSession_session_other _ _ _ _ h]

/-- Settles O17: the states of the teardown one after another, each read off from its own lemmas. -/
theorem teardown_spec : Obligations.Teardown := by
  refine ⟨fun s p => ⟨exec_teardownItem_of_service, teardown_session p s, absent_teardown p s, sameOutside_teardown p s⟩,
    fun s p => ⟨fun l hl => ⟨fun e => ?_, fun b hb => ?_⟩, fun l hl => ?_, fun b hb => ?_, fun c hc => ?_⟩,
    fun s p => ⟨headedCells_pairwise p s, fun h c => mem_headedCells h p c, ?_⟩,
    fun s p l => ⟨fun b => popped_bankSuspect p l s b, fun hw => teardownLock_of_no_waiter hw,
      fun w ws hw => teardownLock_of_waiter hw⟩,
    fun s p h => ⟨fun c hc => ?_, fun hnodup l hl => ⟨fun hw => ?_, fun w ws hw => ⟨?_, ?_⟩⟩⟩⟩
  · rw [teardown_lock]
    exact foldl_teardownLock_not_held _ (absent_walked p s) (.inl (List.mem_reverse.mpr hl)) e
  · rw [teardown_bankSuspect, released_bankSuspect, if_pos]
    rwa [← (lockBank_eq_some l b).mp hb]
  · rw [teardown_lock, released, foldl_teardownLock_lock_other _ _ (by rwa [List.mem_reverse]), walked_lock]
  · rw [teardown_bankSuspect, released_bankSuspect, if_neg hb]
  · rw [teardown_cell, walked, foldl_grantWalk_cell_other _ _ hc]
    rfl
  · dsimp only
    rw [teardown_eq, released, walked, dropAllEntries_eq]
    rfl
  · rw [teardown_cell, walked, foldl_grantWalk_cell _ (numbersDistinct_dropAllEntries h p)
      ((headedCells_pairwise p s).imp fun hlt => Fin.ne_of_lt hlt) hc, grantWalk, grantWalk, takeWaiters, dropAllEntries_pool]
    exact walkOver_cell_congr c _ rfl
  all_goals
    have hfold := foldl_teardownLock_lock (p := p) (s := walked p s) (List.pairwise_reverse.mpr (hnodup.imp Ne.symm))
      (numbersDistinct_foldl_grantWalk _ (numbersDistinct_dropAllEntries h p)) (List.mem_reverse.mpr hl)
    rw [lockWaiters_walked h, walked_lock] at hfold
  · rw [teardown_lock]
    exact hfold.1 hw
  · rw [teardown_lock]
    exact (hfold.2 w ws hw).1
  · obtain ⟨r, hr, hevent⟩ := (hfold.2 w ws hw).2
    have hport : w.port ≠ p := by
      have hmem := List.mem_filter.mp (hw ▸ List.mem_cons_self : w ∈ (lockWaiters s l).filter fun w => w.port ≠ p)
      simpa using hmem.2
    refine ⟨r, ?_, hevent⟩
    rw [teardown_eq, handOn_none]
    exact queueGrows_foldl (queueGrows_meetAwaits w.port) _ _ r (queueGrows_closing hport _ r hr)

end Sys2Proof.Machine
end

section
/-!
PROOFS. One induction for the laws of the entries' ports, queues and watches: which changes of the pool and of a session a
step is made of, as far as these laws see it.
-/

namespace Sys2Proof.Machine

open Sys2Proof.Safety

/-! ### What the laws of queues see of a state -/

/-- The record of this event reports no cell's change. -/
def Quiet (e : Event) : Prop := ∀ q c, Record.reports c ⟨q, e⟩ = false

/-- A session keeps what the laws of queues read, and is closed only if it was. -/
structure Session.SameQueue (x y : Session) : Prop where
  closed     : y.state = .closed → x.state = .closed
  liveWaits  : y.liveWaits = x.liveWaits
  nextTicket : y.nextTicket = x.nextTicket
  reserved   : y.reserved = x.reserved
  watches    : y.watches = x.watches
  queue      : y.queue = x.queue

/-- The pool and what the laws of queues read of the sessions are the same. -/
structure SameQueues (s t : State) : Prop where
  pool    : t.pool = s.pool
  session : ∀ p, (s.session p).SameQueue (t.session p)

theorem sameQueue_refl (x : Session) : x.SameQueue x := ⟨fun h => h, rfl, rfl, rfl, rfl, rfl⟩

theorem sameQueues_of_sessions {s t : State} (hp : t.pool = s.pool) (hs : t.sessions = s.sessions) : SameQueues s t :=
  ⟨hp, fun p => by
    rw [← State.sessions_get, ← State.sessions_get, hs]
    exact sameQueue_refl _⟩

theorem sameQueues_modSession (s : State) (p : Port) {f : Session → Session}
    (hf : (s.session p).SameQueue (f (s.session p))) : SameQueues s (s.modSession p f) := by
  refine ⟨rfl, fun q => ?_⟩
  rw [State.modSession_session]
  split
  · next h =>
    subst h
    exact hf
  · exact sameQueue_refl _

/-- A session after a reset. -/
structure Session.Blank (x : Session) : Prop where
  liveWaits  : x.liveWaits = 0
  nextTicket : x.nextTicket = 1
  reserved   : x.reserved = 0
  watches    : x.watches = []
  queue      : x.queue = []

/-! ### Laws of queues -/

/-- A law of queues: it sees the same parts alone, and survives the end of an entry and a change notice. A loose law
survives the end of any entry; any other knows that numbers are distinct, and survives the end of a live entry. -/
structure QueueLaw (loose : Prop) (L : State → Prop) : Prop where
  knows    : loose ∨ ∀ s, L s → NumbersDistinct s
  same     : ∀ {s t}, SameQueues s t → L s → L t
  ended    : ∀ {s w e}, Quiet e → (loose ∨ w ∈ s.pool) → L s → L (placeReserved w.port e (dropEntry w s))
  notified : ∀ {s} c v o p, L s → L (s.modSession p (Session.notified c v o))

theorem sublist_dropEntry {s : State} (h : NumbersDistinct s) {w : WaitEntry} {ws : List WaitEntry}
    (hws : (w :: ws).Sublist s.pool) : ws.Sublist (dropEntry w s).pool := by
  have hnodup : ((w :: ws).map WaitEntry.number).Nodup := h.sublist (hws.map _)
  have hne : ∀ x ∈ ws, x.number ≠ w.number := fun x hx e =>
    (List.nodup_cons.mp hnodup).1 (List.mem_map.mpr ⟨x, hx, e⟩)
  have hkeep : ws.filter (fun x => x.number != w.number) = ws :=
    List.filter_eq_self.mpr fun x hx => bne_iff_ne.mpr (hne x hx)
  rw [dropEntry_pool, ← hkeep]
  exact ((List.sublist_cons_self w ws).trans hws).filter _

theorem mem_of_sublist_cons {loose : Prop} {s : State} {w : WaitEntry} {ws : List WaitEntry}
    (hws : loose ∨ (w :: ws).Sublist s.pool) : loose ∨ w ∈ s.pool :=
  hws.imp_right fun hws => hws.subset List.mem_cons_self

section
variable {loose : Prop} {L : State → Prop} (h : QueueLaw loose L)
include h

/-- The rest of a list of live entries is live after the end of the first. -/
theorem QueueLaw.rest {s t : State} {w : WaitEntry} {ws : List WaitEntry} (hs : L s)
    (ht : t.pool = (dropEntry w s).pool) (hws : loose ∨ (w :: ws).Sublist s.pool) : loose ∨ ws.Sublist t.pool := by
  rcases hws with hl | hws
  · exact .inl hl
  · rcases h.knows with hl | hk
    · exact .inl hl
    · rw [ht]
      exact .inr (sublist_dropEntry (hk s hs) hws)

theorem QueueLaw.grantTake {c : Fin 512} {w : WaitEntry} {s : State} (hw : loose ∨ w ∈ s.pool) (hs : L s) :
    L (grantTake c w s) := by
  have hlow : L (lowerCounter c w.amount s) :=
    h.same (sameQueues_of_sessions (lowerCounter_pool c _ s) (lowerCounter_sessions c _ s)) hs
  refine h.ended (fun _ _ => rfl) ?_ hlow
  rwa [lowerCounter_pool]

theorem QueueLaw.walkOver {c : Fin 512} {ws : List WaitEntry} {s : State} (hws : loose ∨ ws.Sublist s.pool)
    (hs : L s) : L (walkOver c ws s).1 := by
  induction ws generalizing s with
  | nil => exact hs
  | cons w ws ih =>
    unfold Machine.walkOver
    split
    · exact ih (h.rest hs (by rw [grantTake_pool, dropEntry_pool]) hws) (h.grantTake (mem_of_sublist_cons hws) hs)
    · exact hs

theorem QueueLaw.grantWalk (c : Fin 512) {s : State} (hs : L s) : L (grantWalk c s).1 :=
  h.walkOver (.inr List.filter_sublist) hs

theorem QueueLaw.foldl_meetEntry {c : Fin 512} {r : Reported} {ws : List WaitEntry} {s : State}
    (hws : loose ∨ ws.Sublist s.pool) (hs : L s) : L (ws.foldl (meetEntry c r) s) := by
  induction ws generalizing s with
  | nil => exact hs
  | cons w ws ih =>
    rw [List.foldl_cons]
    unfold meetEntry
    split
    · exact ih (h.rest hs (by rw [placeReserved_pool]) hws)
        (h.ended (fun _ _ => rfl) (mem_of_sublist_cons hws) hs)
    · exact ih (hws.imp_right fun hws => (List.sublist_cons_self w ws).trans hws) hs

theorem QueueLaw.meetAwaits (s : State) (c : Fin 512) (hs : L s) : L (meetAwaits s c) :=
  h.foldl_meetEntry (.inr List.filter_sublist) hs

theorem QueueLaw.notifyWatchers (o : Port) (s : State) (c : Fin 512) (hs : L s) : L (notifyWatchers o s c) := by
  refine foldl_kept (fun t p ht => ?_) allPorts hs
  rw [notifyPort_eq_modSession]
  split
  · exact ht
  · exact h.notified c _ o p ht

theorem QueueLaw.handOn (origin : Option Port) (before : Vector Cell 512) (touched : List (Fin 512)) {s : State}
    (hs : L s) : L (handOn origin before touched s) := by
  unfold Machine.handOn
  cases origin with
  | none => exact foldl_kept h.meetAwaits _ hs
  | some o => exact foldl_kept (h.notifyWatchers o) _ (foldl_kept h.meetAwaits _ hs)

theorem QueueLaw.walkAfter (head : Option (Fin 512)) (before : Vector Cell 512) {s : State} (hs : L s) :
    L (walkAfter head before s) := by
  unfold Machine.walkAfter
  split
  · exact hs
  · exact h.handOn none before _ (h.grantWalk _ hs)

theorem QueueLaw.clearMarker (w : WaitEntry) {s : State} (hs : L s) : L (clearMarker w s) := by
  rw [clearMarker_eq]
  exact h.same (sameQueues_modSession s w.port ⟨fun hc => hc, rfl, rfl, rfl, rfl, rfl⟩) hs

/-- To these laws a handoff is the end of an entry. -/
theorem QueueLaw.handoff {l : Fin 48} {w : WaitEntry} {s : State} (hwait : w.wait = .lock l)
    (hw : loose ∨ w ∈ s.pool) (hs : L s) : L (handoff l w s) := by
  refine h.same ⟨?_, fun p => ?_⟩ (h.ended (e := .granted w.ticket l ((s.lock l).generation + 1)
    ((lockBank l).map s.bankSuspect)) (fun _ _ => rfl) hw hs)
  · rw [handoff_pool, placeReserved_pool, dropEntry_pool]
  · rw [endEntry_session]
    by_cases hp : p = w.port
    · subst hp
      rw [handoff_session_same l w s hwait, if_pos rfl]
      exact ⟨fun hc => hc, rfl, rfl, rfl, rfl, rfl⟩
    · rw [handoff_session_other l s hp, if_neg (Ne.symm hp), ended_nil]
      exact sameQueue_refl _

theorem QueueLaw.passOn (l : Fin 48) {s : State} (hs : L s) : L (passOn l s).1 := by
  unfold Machine.passOn
  split
  · next w ws hw =>
    obtain ⟨hpool, hwait⟩ := mem_lockWaiters.mp (hw ▸ List.mem_cons_self : w ∈ lockWaiters s l)
    exact h.handoff hwait (.inr hpool) hs
  · exact h.same (s := s) (sameQueues_of_sessions rfl rfl) hs

theorem QueueLaw.markPopped (p : Port) (l : Fin 48) (flag : Bool) {s : State} (hs : L s) :
    L (markBank l flag (popStack p s)) :=
  h.same (sameQueues_of_sessions (markBank_pool l flag _) (markBank_sessions l flag _))
    (h.same (sameQueues_modSession s p ⟨fun hc => hc, rfl, rfl, rfl, rfl, rfl⟩) hs)

theorem QueueLaw.teardownLock (p : Port) (s : State) (l : Fin 48) (hs : L s) : L (teardownLock p s l) :=
  h.passOn l (h.markPopped p l true hs)

/-- A teardown, from the state in which the port's entries are gone, to the end of the session. -/
theorem QueueLaw.teardown {p : Port} {s : State} (hdrop : L (dropAllEntries p s))
    (hclose : ∀ t, L t → L (t.modSession p Session.closing)) : L (teardown p s) := by
  rw [teardown_eq]
  refine h.handOn none _ _ (hclose _ (foldl_kept (h.teardownLock p) _ ?_))
  exact foldl_kept (fun t c ht => h.grantWalk c ht) _ hdrop

theorem QueueLaw.expireEntry {w : WaitEntry} {s : State} (hw : loose ∨ w ∈ s.pool) (hs : L s) : L (expireEntry w s) :=
  h.walkAfter _ _ (h.clearMarker w (h.ended (fun _ _ => rfl) hw hs))

theorem QueueLaw.serveExpiry (n : Fin 24) (p : Port) (t : Byte) {s : State} (hs : L s) : L (serveExpiry n p t s) := by
  unfold Machine.serveExpiry
  split
  · exact hs
  · next w hw => exact h.expireEntry (.inr (List.mem_of_find?_eq_some hw)) hs
end

/-! ### Laws of queues that every step keeps -/

/-- What a law of queues must survive besides. -/
structure QueueStepLaw (loose : Prop) (L : State → Prop) : Prop extends QueueLaw loose L where
  lowered   : ∀ {s} f, L s → L { s with pool := s.pool.map (lowerDeadline f) }
  cancelled : ∀ {s w}, (loose ∨ w ∈ s.pool) → L s →
    L ((dropEntry w s).modSession w.port fun x => { x with reserved := x.reserved - 1 })
  created   : ∀ {s u p wait timeout t}, createEntry p wait timeout s = .ok (t, u) → L s → L u
  offered   : ∀ {s e} p, Quiet e → L s → L (s.modSession p (Session.offered e))
  opened    : ∀ {s p} units, (s.session p).state = .closed → L s → L (s.modSession p fun x => x.opening units)
  watched   : ∀ {s p} c, (s.session p).state = .opened → (s.session p).watches.length < 8 →
    watches (s.session p) c = false → L s →
    L (s.modSession p fun x => { x with watches := x.watches ++ [⟨c, false⟩] })
  unwatched : ∀ {s} p c, L s → L (dropWatch p c s)
  fetched   : ∀ {s} p n, L s → L (fetchRecords p n s)
  tornDown  : ∀ {s} p, L s → L (teardown p s)
  blank     : ∀ {t}, t.pool = [] → (∀ p, (t.session p).Blank) → L t

section
variable {loose : Prop} {L : State → Prop} (h : QueueStepLaw loose L)
include h

theorem QueueStepLaw.tickLease (s : State) (p : Port) (hs : L s) : L (tickLease s p) := by
  have hlower : ∀ {t : State}, L t → ∀ n, L (t.modSession p fun x => { x with leaseRemaining := n }) := fun ht n =>
    h.same (sameQueues_modSession _ p ⟨fun hc => hc, rfl, rfl, rfl, rfl, rfl⟩) ht
  rw [tickLease_eq]
  refine h.same (s := s.modSession p fun x => if leaseCounts s p then x.leaseTicked else x)
    (sameQueues_of_sessions rfl rfl) ?_
  by_cases hc : leaseCounts s p = true
  · simp only [hc, if_true]
    obtain ⟨ho, -⟩ := (leaseCounts_iff s p).mp hc
    by_cases hz : (s.session p).leaseRemaining - 1 = 0
    · refine h.same (sameQueues_modSession s p ?_) hs
      rw [Session.leaseTicked, if_pos hz]
      exact ⟨fun hc => (nomatch hc), rfl, rfl, rfl, rfl, rfl⟩
    · by_cases hw : (s.session p).leaseRemaining - 1 = quarter (s.session p) ∧ (s.session p).lowReported = false
      · have hoffer := h.offered (e := .leaseLow ((s.session p).leaseRemaining - 1)) p (fun _ _ => rfl)
          (hlower hs ((s.session p).leaseRemaining - 1))
        have hmark := h.same (sameQueues_modSession _ p (f := fun x => { x with lowReported := true })
          ⟨fun hc => hc, rfl, rfl, rfl, rfl, rfl⟩) hoffer
        simp only [State.modSession_modSession] at hmark
        rwa [State.modSession_congr s p _ _ ?_]
        rw [Session.leaseTicked, if_neg hz, if_pos hw]
      · have hfall := hlower hs ((s.session p).leaseRemaining - 1)
        rwa [State.modSession_congr s p _ _ ?_]
        rw [Session.leaseTicked, if_neg hz, if_neg hw]
  · simp only [hc, if_false, Bool.false_eq_true]
    exact h.same (sameQueues_modSession s p (f := fun x => x) (sameQueue_refl _)) hs

theorem QueueStepLaw.tickActs (s : State) (hs : L s) : L (tickActs s) :=
  foldl_kept h.tickLease allPorts
    (h.same (s := { s with pool := s.pool.map (lowerDeadline s.fresh) }) (sameQueues_of_sessions rfl rfl)
      (h.lowered s.fresh hs))

theorem QueueStepLaw.claimSession (p : Port) (s : State) (hs : L s) : L (claimSession p s) := by
  unfold Machine.claimSession
  split
  · refine h.same (s := s.modSession p fun x => { x with state := .ending, endCause := .portReset, leaseRemaining := 0 })
      (sameQueues_of_sessions rfl rfl) ?_
    exact h.same (sameQueues_modSession s p ⟨fun hc => (nomatch hc), rfl, rfl, rfl, rfl, rfl⟩) hs
  · exact hs
  · exact hs

theorem QueueStepLaw.served {k : Kind} {p : Port} {s u : State} {a : Reply} (hs : L s)
    (ho : k.needsOpen = true → (s.session p).state = .opened) (hserved : Served p s k u a) : L u := by
  have hq := h.toQueueLaw
  cases hserved with
  | refused | answered => exact hs
  | opened units f hclosed => 
    exact h.same (s := s.modSession p fun x => x.opening units) (sameQueues_of_sessions rfl rfl) (h.opened units hclosed hs)
  | closed => exact h.tornDown p (h.same (sameQueues_modSession s p ⟨fun hc => hc, rfl, rfl, rfl, rfl, rfl⟩) hs)
  | renewed =>
    refine h.same (s := s.modSession p fun x =>
      { x with leaseRemaining := x.leasePeriod.getD 0, expected := x.expected.other, lowReported := false })
      (sameQueues_of_sessions rfl rfl) ?_
    exact h.same (sameQueues_modSession s p ⟨fun hc => hc, rfl, rfl, rfl, rfl, rfl⟩) hs
  | chained steps r => exact hq.handOn _ _ _ (h.same (s := s) (sameQueues_of_sessions rfl rfl) hs)
  | formatted c x => exact hq.handOn _ _ _ (h.same (s := s) (sameQueues_of_sessions rfl rfl) hs)
  | granted l =>
    exact h.same (sameQueues_modSession (s.setLock l _) p ⟨fun hc => hc, rfl, rfl, rfl, rfl, rfl⟩)
      (h.same (s := s) (sameQueues_of_sessions rfl rfl) hs)
  | waitsForLock l q timeout t u' f _ _ hcreate =>
    exact h.same (sameQueues_modSession u' p ⟨fun hc => hc, rfl, rfl, rfl, rfl, rfl⟩) (h.created hcreate hs)
  | released l => exact hq.passOn l (hq.markPopped p l false hs)
  | taken c ceil v amount =>
    exact hq.handOn _ _ _ (h.same (sameQueues_of_sessions (lowerCounter_pool c _ s) (lowerCounter_sessions c _ s)) hs)
  | waitsToTake c ceil v amount timeout t u' f _ _ hcreate => exact h.created hcreate hs
  | given c ceil v amount =>
    exact hq.handOn _ _ _ (hq.grantWalk c (h.same (s := s) (sameQueues_of_sessions rfl rfl) hs))
  | awaits c cond operand timeout t u' f _ hcreate => exact h.created hcreate hs
  | cancelled t w f hw =>
    exact hq.walkAfter _ _ (hq.clearMarker w (h.cancelled (.inr (List.mem_of_find?_eq_some hw)) hs))
  | watched c f hlen hnot => exact h.watched c (ho rfl) hlen hnot hs
  | unwatched c => exact h.unwatched p c hs
  | fetched n => exact h.fetched p n hs

/-- A law of queues that survives these changes is kept by every step. -/
theorem QueueStepLaw.stepLaw : StepLaw L where
  data hd hs := h.same (sameQueues_of_sessions hd.pool hd.sessions) hs
  tick := h.tickActs
  claim := h.claimSession
  work hs ho hserved := h.served hs ho hserved
  expiry n p t s hs := h.toQueueLaw.serveExpiry n p t hs
  teardown p s hs _ := h.same (s := Machine.teardown p s) (sameQueues_of_sessions rfl rfl) (h.tornDown p hs)
  powerUp s := h.blank (powerUp_pool s) fun p => by
    rw [powerUp_session]
    exact ⟨rfl, rfl, rfl, rfl, rfl⟩
  lineReset s _ := by
    refine h.blank (by simp only [lineReset]) fun p => ?_
    cases p <;> exact ⟨rfl, rfl, rfl, rfl, rfl⟩
end

end Sys2Proof.Machine
end

section
/-!
PROOFS. The counts of entries, reservations and queues agree after every step (O54), and live tickets stay different and
not 0 (O55).
-/

namespace Sys2Proof.Machine

open Sys2Proof.Safety

/-! ### The entries of a port -/

theorem filter_number_eq_erase {s : State} (h : NumbersDistinct s) {w : WaitEntry} (hw : w ∈ s.pool) :
    s.pool.filter (fun x => x.number != w.number) = s.pool.erase w := by
  have hnodup : s.pool.Nodup := List.Pairwise.of_map WaitEntry.number (fun a b hne e => hne (congrArg _ e)) h
  rw [hnodup.erase_eq_filter]
  refine List.filter_congr fun x hx => Bool.eq_iff_iff.mpr ?_
  rw [bne_iff_ne, bne_iff_ne]
  exact ⟨fun hne e => hne (congrArg _ e), fun hne e => hne (eq_of_number h hx hw e)⟩

/-- The end of a live entry takes one from its port's entries, and none from another's. -/
theorem entriesOf_length_drop {s t : State} (h : NumbersDistinct s) {w : WaitEntry} (hw : w ∈ s.pool)
    (ht : t.pool = s.pool.filter fun x => x.number != w.number) (q : Port) :
    (entriesOf s q).length = (entriesOf t q).length + if w.port = q then 1 else 0 := by
  simp only [entriesOf, ← List.countP_eq_length_filter]
  rw [ht, filter_number_eq_erase h hw, countP_of_mem hw]
  simp only [beq_iff_eq]

theorem entriesOf_append {s t : State} {w : WaitEntry} (ht : t.pool = s.pool ++ [w]) (q : Port) :
    entriesOf t q = entriesOf s q ++ if w.port = q then [w] else [] := by
  rw [entriesOf, ht, List.filter_append]
  by_cases hq : w.port = q <;> simp [entriesOf, hq]

theorem entriesOf_of_absent {p : Port} {s : State} (h : Absent p s) : entriesOf s p = [] :=
  List.filter_eq_nil_iff.mpr fun w hw => by simpa using h w hw

/-- The entries of the other ports stay when one port's are dropped. -/
theorem entriesOf_dropAllEntries {p q : Port} (hq : q ≠ p) (s : State) :
    entriesOf (dropAllEntries p s) q = entriesOf s q := by
  rw [entriesOf, dropAllEntries_pool, List.filter_filter, entriesOf]
  refine List.filter_congr fun w _ => ?_
  by_cases hw : w.port = q
  · simp [hw, hq]
  · simp [hw]

theorem map_number_lowerDeadline (f : Fresh) (ws : List WaitEntry) :
    (ws.map (lowerDeadline f)).map WaitEntry.number = ws.map WaitEntry.number := by
  rw [List.map_map]
  exact List.map_congr_left fun w _ => (lowerDeadline_fields f w).1

/-- A filter that sees no deadline commutes with the lowering of the deadlines. -/
theorem filter_lowerDeadline (f : Fresh) (ws : List WaitEntry) {g : WaitEntry → Bool}
    (hg : ∀ w, g (lowerDeadline f w) = g w) :
    (ws.map (lowerDeadline f)).filter g = (ws.filter g).map (lowerDeadline f) := by
  rw [List.filter_map]
  exact congrArg _ (List.filter_congr fun w _ => hg w)

theorem entriesOf_lowerDeadline (f : Fresh) (s : State) (q : Port) :
    entriesOf { s with pool := s.pool.map (lowerDeadline f) } q = (entriesOf s q).map (lowerDeadline f) :=
  filter_lowerDeadline f s.pool fun w => by rw [(lowerDeadline_fields f w).2.1]

theorem numbersDistinct_lowerDeadline {f : Fresh} {s : State} (h : NumbersDistinct s) :
    NumbersDistinct { s with pool := s.pool.map (lowerDeadline f) } := by
  rw [NumbersDistinct, map_number_lowerDeadline]
  exact h

/-- The entry that is created, and what its port's session counts. -/
theorem createEntry_entry {p : Port} {wait : Wait} {timeout : Word} {s u : State} {t : Byte}
    (hc : createEntry p wait timeout s = .ok (t, u)) :
    ∃ w : WaitEntry, u.pool = s.pool ++ [w] ∧ w.port = p ∧ w.ticket = t ∧ w.wait = wait ∧
      w.epoch = (s.session p).epoch ∧ ∀ v ∈ s.pool, v.number ≠ w.number := by
  obtain ⟨n, hn, -, -, -, rfl⟩ := createEntry_ok hc
  exact ⟨⟨n, p, _, t, wait, _⟩, rfl, rfl, rfl, rfl, rfl, freeEntry_some hn⟩

theorem createEntry_session {p : Port} {wait : Wait} {timeout : Word} {s u : State} {t : Byte}
    (hc : createEntry p wait timeout s = .ok (t, u)) (q : Port) :
    u.session q =
      if q = p then
        { s.session q with
          nextTicket := ticketAfter t, liveWaits := (s.session q).liveWaits + 1,
          reserved := (s.session q).reserved + 1 }
      else s.session q := by
  obtain ⟨n, -, -, -, -, rfl⟩ := createEntry_ok hc
  rw [State.modSession_session]
  rfl

theorem numbersDistinct_append {s t : State} {w : WaitEntry} (ht : t.pool = s.pool ++ [w])
    (hw : ∀ v ∈ s.pool, v.number ≠ w.number) (h : NumbersDistinct s) : NumbersDistinct t := by
  rw [NumbersDistinct, ht, List.map_append, List.nodup_append]
  refine ⟨h, List.pairwise_singleton _ _, fun a ha b hb => ?_⟩
  obtain ⟨v, hv, rfl⟩ := List.mem_map.mp ha
  rw [List.map_singleton, List.mem_singleton] at hb
  subst hb
  exact hw v hv

theorem numbersDistinct_createEntry {p : Port} {wait : Wait} {timeout : Word} {s u : State} {t : Byte}
    (hc : createEntry p wait timeout s = .ok (t, u)) (h : NumbersDistinct s) : NumbersDistinct u := by
  obtain ⟨w, hpool, -, -, -, -, hnumber⟩ := createEntry_entry hc
  exact numbersDistinct_append hpool hnumber h

theorem numbersDistinct_dropEntry {s t : State} (h : NumbersDistinct s) {w : WaitEntry}
    (ht : t.pool = s.pool.filter fun x => x.number != w.number) : NumbersDistinct t :=
  numbersDistinct_of_sublist h (ht ▸ List.filter_sublist)

theorem numbersDistinct_of_empty {t : State} (ht : t.pool = []) : NumbersDistinct t := by
  rw [NumbersDistinct, ht]
  exact List.nodup_nil

theorem numbersDistinct_released (p : Port) {s : State} (h : NumbersDistinct s) : NumbersDistinct (released p s) := by
  refine foldl_kept (L := NumbersDistinct) (fun t l ht => numbersDistinct_teardownLock ht p l) _ ?_
  exact numbersDistinct_foldl_grantWalk _ (numbersDistinct_dropAllEntries h p)

theorem numbersDistinct_teardown (p : Port) {s : State} (h : NumbersDistinct s) : NumbersDistinct (teardown p s) :=
  numbersDistinct_of_sublist (numbersDistinct_released p h) (teardown_pool_sublist p s)

/-! ### The queue of a session -/

theorem offered_kept (e : Event) (x : Session) :
    (x.offered e).liveWaits = x.liveWaits ∧ (x.offered e).reserved = x.reserved ∧
      (x.offered e).nextTicket = x.nextTicket ∧ (x.offered e).state = x.state := by
  unfold Session.offered
  split <;> exact ⟨rfl, rfl, rfl, rfl⟩

theorem offered_queue_le {e : Event} {x : Session} (h : x.queue.length + x.reserved ≤ 16) :
    (x.offered e).queue.length + (x.offered e).reserved ≤ 16 := by
  by_cases hroom : x.queue.length + x.reserved < 16
  · rw [offered_of_room hroom]
    simp only [List.length_append, List.length_singleton]
    omega
  · rw [offered_of_full (Nat.le_of_not_lt hroom)]
    exact h

/-- A change notice leaves a session as it is, updates records in place, or offers a record. -/
theorem notified_cases (c : Fin 512) (v : Reported) (o : Port) (x : Session) :
    (∃ f : Record → Record, x.notified c v o = { x with queue := x.queue.map f }) ∨
      ∃ ws, x.notified c v o = { x.offered (.changed c v o 1) with watches := ws } := by
  unfold Session.notified
  split
  · exact .inl ⟨id, by rw [List.map_id]⟩
  · split
    · exact .inl ⟨_, rfl⟩
    · split
      · exact .inr ⟨_, rfl⟩
      · exact .inr ⟨_, rfl⟩

theorem notified_kept (c : Fin 512) (v : Reported) (o : Port) (x : Session) :
    (x.notified c v o).liveWaits = x.liveWaits ∧ (x.notified c v o).reserved = x.reserved ∧
      (x.notified c v o).nextTicket = x.nextTicket := by
  obtain ⟨f, he⟩ | ⟨ws, he⟩ := notified_cases c v o x
  · rw [he]
    exact ⟨rfl, rfl, rfl⟩
  · obtain ⟨hl, hr, ht, -⟩ := offered_kept (.changed c v o 1) x
    rw [he]
    exact ⟨hl, hr, ht⟩

theorem notified_queue_le {c : Fin 512} {v : Reported} {o : Port} {x : Session}
    (h : x.queue.length + x.reserved ≤ 16) :
    (x.notified c v o).queue.length + (x.notified c v o).reserved ≤ 16 := by
  obtain ⟨f, he⟩ | ⟨ws, he⟩ := notified_cases c v o x
  · rw [he, List.length_map]
    exact h
  · rw [he]
    exact offered_queue_le h

/-! ### The counts of one port -/

/-- Distinct numbers, and the counts of one port. -/
def PoolAt (q : Port) (s : State) : Prop := NumbersDistinct s ∧ CountsAgree s q

theorem poolLaw_iff (s : State) : PoolLaw s ↔ ∀ q, PoolAt q s :=
  ⟨fun ⟨hn, hc⟩ q => ⟨hn, hc q⟩, fun h => ⟨(h .a).1, fun q => (h q).2⟩⟩

/-- The counts see the number of entries, the live waits, the reservations and the length of the queue. -/
theorem countsAgree_of_same {s t : State} {q : Port} (hp : (entriesOf t q).length = (entriesOf s q).length)
    (hl : (t.session q).liveWaits = (s.session q).liveWaits) (hr : (t.session q).reserved = (s.session q).reserved)
    (hq : (s.session q).queue.length + (s.session q).reserved ≤ 16 →
      (t.session q).queue.length + (t.session q).reserved ≤ 16) (h : CountsAgree s q) : CountsAgree t q := by
  obtain ⟨hlive, hres, hle, hqueue⟩ := h
  exact ⟨by rw [hl, hp, hlive], by rw [hr, hp, hres], hp ▸ hle, hq hqueue⟩

/-- The counts after a change of one session that keeps live waits and reservations. -/
theorem countsAgree_modSession {s : State} {p q : Port} {f : Session → Session}
    (hl : (f (s.session p)).liveWaits = (s.session p).liveWaits)
    (hr : (f (s.session p)).reserved = (s.session p).reserved)
    (hq : (s.session p).queue.length + (s.session p).reserved ≤ 16 →
      (f (s.session p)).queue.length + (f (s.session p)).reserved ≤ 16) (h : CountsAgree s q) :
    CountsAgree (s.modSession p f) q := by
  by_cases hqp : q = p
  · subst hqp
    refine countsAgree_of_same (s := s) rfl ?_ ?_ ?_ h <;> rw [State.modSession_session_same]
    · exact hl
    · exact hr
    · exact hq
  · refine countsAgree_of_same (s := s) rfl ?_ ?_ ?_ h <;> rw [State.modSession_session_other _ _ _ _ hqp]
    exact id

/-- The counts after the end of a live entry, with or without a record. -/
theorem countsAgree_drop {s t : State} (hn : NumbersDistinct s) {w : WaitEntry} (hw : w ∈ s.pool)
    (hpool : t.pool = s.pool.filter fun x => x.number != w.number) {q : Port}
    (hother : q ≠ w.port → t.session q = s.session q)
    (hl : (t.session w.port).liveWaits = (s.session w.port).liveWaits - 1)
    (hr : (t.session w.port).reserved = (s.session w.port).reserved - 1)
    (hq : (t.session w.port).queue.length ≤ (s.session w.port).queue.length + 1) (h : CountsAgree s q) :
    CountsAgree t q := by
  have hlen := entriesOf_length_drop hn hw hpool q
  obtain ⟨hlive, hres, hle, hqueue⟩ := h
  by_cases hqw : q = w.port
  · subst hqw
    rw [if_pos rfl] at hlen
    refine ⟨by omega, by omega, by omega, ?_⟩
    have hqueue' : (s.session w.port).queue.length + (s.session w.port).reserved ≤ 16 := hqueue
    change (t.session w.port).queue.length + (t.session w.port).reserved ≤ 16
    omega
  · rw [if_neg (Ne.symm hqw), Nat.add_zero] at hlen
    refine countsAgree_of_same hlen.symm ?_ ?_ ?_ ⟨hlive, hres, hle, hqueue⟩ <;> rw [hother hqw]
    exact id

theorem countsAgree_createEntry {p q : Port} {wait : Wait} {timeout : Word} {s u : State} {t : Byte}
    (hc : createEntry p wait timeout s = .ok (t, u)) (h : CountsAgree s q) : CountsAgree u q := by
  obtain ⟨w, hpool, hport, -⟩ := createEntry_entry hc
  obtain ⟨-, -, hlive8, hroom, -⟩ := createEntry_ok hc
  have hsession := createEntry_session hc q
  have hent := entriesOf_append hpool q
  rw [hport] at hent
  by_cases hq : q = p
  · subst hq
    obtain ⟨hlive, hres, -, -⟩ := h
    rw [if_pos rfl] at hent hsession
    have hlen := congrArg List.length hent
    rw [List.length_append, List.length_singleton] at hlen
    rw [CountsAgree, hlen, hsession]
    exact ⟨congrArg (· + 1) hlive, congrArg (· + 1) hres, hlive ▸ hlive8, hroom⟩
  · rw [if_neg (Ne.symm hq), List.append_nil] at hent
    rw [if_neg hq] at hsession
    rw [CountsAgree, hent, hsession]
    exact h

theorem countsAgree_teardown (p : Port) (s : State) : CountsAgree (teardown p s) p := by
  have hnone := entriesOf_of_absent (absent_teardown p s)
  refine ⟨?_, ?_, ?_, ?_⟩
  · rw [hnone, teardown_session]
    rfl
  · rw [hnone, teardown_session]
    rfl
  · rw [hnone]
    exact Nat.zero_le _
  · rw [teardown_session, endNotice]
    change (List.map _ _).length + 0 ≤ 16
    split <;> simp

theorem poolAt_queueLaw (q : Port) : QueueLaw False (PoolAt q) where
  knows := .inr fun _ h => h.1
  same {s t} hsame h := by
    obtain ⟨-, hl, -, hr, -, hq⟩ := hsame.session q
    refine ⟨numbersDistinct_of_sublist h.1 (hsame.pool ▸ List.Sublist.refl _), ?_⟩
    refine countsAgree_of_same (by rw [entriesOf, hsame.pool]; rfl) hl hr ?_ h.2
    rw [hq, hr]
    exact id
  ended {s w e} _ hw h := by
    have hpool : (placeReserved w.port e (dropEntry w s)).pool = s.pool.filter fun x => x.number != w.number := by
      rw [placeReserved_pool, dropEntry_pool]
    have hsame := endEntry_session w e s w.port
    rw [if_pos rfl] at hsame
    refine ⟨numbersDistinct_dropEntry h.1 hpool, countsAgree_drop h.1 (hw.resolve_left id) hpool ?_ ?_ ?_ ?_ h.2⟩
    · intro hq
      rw [endEntry_session, if_neg (Ne.symm hq), ended_nil]
    · rw [hsame]
      rfl
    · rw [hsame]
      rfl
    · rw [hsame]
      simp [Session.ended]
  notified {s} c v o p h := by
    obtain ⟨hl, hr, -⟩ := notified_kept c v o (s.session p)
    exact ⟨h.1, countsAgree_modSession hl hr notified_queue_le h.2⟩

theorem poolAt_teardown (p q : Port) {s : State} (h : PoolAt q s) : PoolAt q (teardown p s) := by
  by_cases hq : q = p
  · subst hq
    exact ⟨numbersDistinct_teardown q h.1, countsAgree_teardown q s⟩
  · refine (poolAt_queueLaw q).teardown ⟨numbersDistinct_dropAllEntries h.1 p, ?_⟩ fun t ht => ⟨ht.1, ?_⟩
    · refine countsAgree_of_same (s := s) (by rw [entriesOf_dropAllEntries hq]) ?_ ?_ ?_ h.2 <;>
        rw [dropAllEntries_session, if_neg hq]
      exact id
    · refine countsAgree_of_same (s := t) rfl ?_ ?_ ?_ ht.2 <;> rw [State.modSession_session_other _ _ _ _ hq]
      exact id

theorem poolAt_queueStepLaw (q : Port) : QueueStepLaw False (PoolAt q) where
  toQueueLaw := poolAt_queueLaw q
  lowered {s} f h := by
    refine ⟨numbersDistinct_lowerDeadline h.1, countsAgree_of_same (s := s) ?_ rfl rfl id h.2⟩
    rw [entriesOf_lowerDeadline, List.length_map]
  cancelled {s w} hw h := by
    refine ⟨numbersDistinct_dropEntry h.1 rfl, countsAgree_drop h.1 (hw.resolve_left id) rfl ?_ ?_ ?_ ?_ h.2⟩
    · intro hq
      rw [State.modSession_session_other _ _ _ _ hq, dropEntry_session, if_neg hq]
    all_goals rw [State.modSession_session_same, dropEntry_session, if_pos rfl]
    exact Nat.le_succ _
  created hc h := ⟨numbersDistinct_createEntry hc h.1, countsAgree_createEntry hc h.2⟩
  offered {s e} p _ h := by
    obtain ⟨hl, hr, -, -⟩ := offered_kept e (s.session p)
    exact ⟨h.1, countsAgree_modSession hl hr offered_queue_le h.2⟩
  opened {s p} units _ h := ⟨h.1, countsAgree_modSession rfl rfl
    (fun hq => Nat.le_trans (Nat.add_le_add_right (Nat.zero_le _) _) hq) h.2⟩
  watched _ _ _ _ h := ⟨h.1, countsAgree_modSession rfl rfl id h.2⟩
  unwatched p c h := ⟨h.1, countsAgree_modSession rfl rfl
    (fun hq => Nat.le_trans (Nat.add_le_add_right (List.length_filter_le _ _) _) hq) h.2⟩
  fetched p n h := ⟨h.1, countsAgree_modSession rfl rfl
    (fun hq => Nat.le_trans (Nat.add_le_add_right (List.length_drop ▸ Nat.sub_le _ _) _) hq) h.2⟩
  tornDown p h := poolAt_teardown p q h
  blank {t} hp hx := by
    obtain ⟨hl, -, hr, -, hq⟩ := hx q
    have hnone : entriesOf t q = [] := by rw [entriesOf, hp]; rfl
    refine ⟨numbersDistinct_of_empty hp, ?_, ?_, ?_, ?_⟩
    · rw [hnone, hl]
      rfl
    · rw [hnone, hr]
      rfl
    · rw [hnone]
      exact Nat.zero_le _
    · rw [hq, hr]
      exact Nat.zero_le _

/-- Settles O54: for each port, the numbers are distinct and the port's counts agree; each end of an entry takes one from
its port's entries, live waits and reservations, and fills at most the place it gives back. -/
theorem poolLawIsKept : Obligations.PoolLawIsKept := fun s _ hs ht =>
  (poolLaw_iff _).mpr fun q => (poolAt_queueStepLaw q).stepLaw.keeps_step ((poolLaw_iff s).mp hs q) ht

/-! ### The tickets of one port -/

/-- Distinct numbers, and the tickets of one port's entries. -/
def TicketAt (q : Port) (s : State) : Prop :=
  NumbersDistinct s ∧ (s.session q).nextTicket ≠ 0 ∧ ((entriesOf s q).map WaitEntry.ticket).Nodup ∧
    ∀ w ∈ entriesOf s q, w.ticket ≠ 0

theorem ticketLaw_iff (s : State) : TicketLaw s ↔ ∀ q, TicketAt q s :=
  ⟨fun ⟨hn, hc⟩ q => ⟨hn, hc q⟩, fun h => ⟨(h .a).1, fun q => (h q).2⟩⟩

/-- Fewer entries, and a next ticket that is not 0. -/
theorem ticketAt_of_sublist {s t : State} {q : Port} (hp : t.pool.Sublist s.pool)
    (hn : (s.session q).nextTicket ≠ 0 → (t.session q).nextTicket ≠ 0) (h : TicketAt q s) : TicketAt q t := by
  obtain ⟨hnum, hnext, hnodup, hne⟩ := h
  have hsub : (entriesOf t q).Sublist (entriesOf s q) := hp.filter _
  exact ⟨numbersDistinct_of_sublist hnum hp, hn hnext, hnodup.sublist (hsub.map _),
    fun w hw => hne w (hsub.subset hw)⟩

theorem ticketAt_modSession {s : State} {p q : Port} {f : Session → Session}
    (hn : (s.session p).nextTicket ≠ 0 → (f (s.session p)).nextTicket ≠ 0) (h : TicketAt q s) :
    TicketAt q (s.modSession p f) := by
  refine ticketAt_of_sublist (s := s) (List.Sublist.refl _) ?_ h
  rw [State.modSession_session]
  split
  · next hq =>
    subst hq
    exact hn
  · exact id

theorem ticketAt_createEntry {p q : Port} {wait : Wait} {timeout : Word} {s u : State} {t : Byte}
    (hc : createEntry p wait timeout s = .ok (t, u)) (h : TicketAt q s) : TicketAt q u := by
  have hnum := numbersDistinct_createEntry hc h.1
  obtain ⟨hold, hnext, hnodup, hne⟩ := h
  obtain ⟨w, hpool, hport, hticket, -⟩ := createEntry_entry hc
  obtain ⟨-, -, -, -, rfl, -⟩ := createEntry_ok hc
  have hsession := createEntry_session hc q
  have hent := entriesOf_append hpool q
  rw [hport] at hent
  refine ⟨hnum, ?_⟩
  by_cases hq : q = p
  · subst hq
    obtain ⟨hzero, hfresh, -⟩ := issuedTicket_spec (pool_length_le hold) hnext
    rw [if_pos rfl] at hent hsession
    rw [hent, hsession]
    refine ⟨ticketAfter_ne_zero _, ?_, fun v hv => ?_⟩
    · rw [List.map_append, List.nodup_append]
      refine ⟨hnodup, List.pairwise_singleton _ _, fun a ha b hb => ?_⟩
      obtain ⟨v, hv, rfl⟩ := List.mem_map.mp ha
      rw [List.map_singleton, List.mem_singleton] at hb
      subst hb
      obtain ⟨hmem, hvport⟩ := List.mem_filter.mp hv
      exact hticket ▸ hfresh v hmem (eq_of_beq hvport)
    · rcases List.mem_append.mp hv with hv | hv
      · exact hne v hv
      · rw [List.mem_singleton] at hv
        subst hv
        exact hticket ▸ hzero
  · rw [if_neg (Ne.symm hq), List.append_nil] at hent
    rw [if_neg hq] at hsession
    rw [hent, hsession]
    exact ⟨hnext, hnodup, hne⟩

theorem ticketAt_queueLaw (q : Port) : QueueLaw False (TicketAt q) where
  knows := .inr fun _ h => h.1
  same {s t} hsame h :=
    ticketAt_of_sublist (hsame.pool ▸ List.Sublist.refl _) (by rw [(hsame.session q).nextTicket]; exact id) h
  ended {s w e} _ _ h := by
    refine ticketAt_of_sublist ?_ ?_ h
    · rw [placeReserved_pool, dropEntry_pool]
      exact List.filter_sublist
    · rw [endEntry_session]
      exact id
  notified {s} c v o p h := ticketAt_modSession (by rw [(notified_kept c v o _).2.2]; exact id) h

theorem ticketAt_queueStepLaw (q : Port) : QueueStepLaw False (TicketAt q) where
  toQueueLaw := ticketAt_queueLaw q
  lowered {s} f h := by
    obtain ⟨hnum, hnext, hnodup, hne⟩ := h
    refine ⟨numbersDistinct_lowerDeadline hnum, hnext, ?_, ?_⟩ <;> rw [entriesOf_lowerDeadline]
    · rw [List.map_map]
      exact (List.map_congr_left fun w _ => (lowerDeadline_fields f w).2.2.2.1 :) ▸ hnodup
    · intro w hw
      obtain ⟨v, hv, rfl⟩ := List.mem_map.mp hw
      rw [(lowerDeadline_fields f v).2.2.2.1]
      exact hne v hv
  cancelled {s w} _ h := by
    refine ticketAt_modSession id (ticketAt_of_sublist List.filter_sublist ?_ h)
    rw [dropEntry_session]
    split <;> exact id
  created hc h := ticketAt_createEntry hc h
  offered {s e} p _ h := ticketAt_modSession (by rw [(offered_kept e _).2.2.1]; exact id) h
  opened _ _ h := ticketAt_modSession (fun _ => (by decide : (1 : Byte) ≠ 0)) h
  watched _ _ _ _ h := ticketAt_modSession id h
  unwatched p c h := ticketAt_modSession id h
  fetched p n h := ticketAt_modSession id h
  tornDown {s} p h := by
    refine (ticketAt_queueLaw q).teardown (ticketAt_of_sublist ?_ ?_ h) fun t ht => ticketAt_modSession id ht
    · rw [dropAllEntries_pool]
      exact List.filter_sublist
    · rw [dropAllEntries_session]
      split <;> exact id
  blank {t} hp hx := by
    have hnone : entriesOf t q = [] := by rw [entriesOf, hp]; rfl
    refine ⟨numbersDistinct_of_empty hp, ?_, ?_, ?_⟩
    · rw [(hx q).nextTicket]
      decide
    · rw [hnone]
      exact List.nodup_nil
    · rw [hnone]
      exact fun _ hw => nomatch hw

/-- Settles O55: a new entry's ticket is one that no live entry of its port holds, and every other change only takes
entries away. -/
theorem ticketLawIsKept : Obligations.TicketLawIsKept := fun s _ hs ht =>
  (ticketLaw_iff _).mpr fun q => (ticketAt_queueStepLaw q).stepLaw.keeps_step ((ticketLaw_iff s).mp hs q) ht

end Sys2Proof.Machine
end

section
/-!
PROOFS. Watches, their markers and the queued CHANGED records agree after every step (O56).
-/

namespace Sys2Proof.Machine

open Sys2Proof.Safety

/-! ### The watch list and the queue of one session -/

/-- The watch law of one session (R100). -/
structure Session.Watching (x : Session) : Prop where
  closed  : x.state = .closed → x.watches = []
  short   : x.watches.length ≤ 8
  nodup   : (x.watches.map Watch.cell).Nodup
  notices : ∀ c, x.queue.countP (·.reports c) = if ⟨c, true⟩ ∈ x.watches then 1 else 0

theorem watchLaw_iff (s : State) : WatchLaw s ↔ ∀ p, (s.session p).Watching := by
  refine forall_congr' fun p => ⟨fun ⟨hc, hl, hn, hr⟩ => ⟨hc, hl, hn, fun c => ?_⟩,
    fun ⟨hc, hl, hn, hr⟩ => ⟨hc, hl, hn, fun c => ?_⟩⟩
  · rw [List.countP_eq_length_filter]
    exact hr c
  · rw [noticesOf, ← List.countP_eq_length_filter]
    exact hr c

variable {x y : Session}

/-- The law sees the watches, the number of each cell's records, and whether the session is CLOSED. -/
theorem Session.Watching.of_same (hx : x.Watching) (hs : y.state = .closed → x.state = .closed)
    (hw : y.watches = x.watches) (hq : ∀ c, y.queue.countP (·.reports c) = x.queue.countP (·.reports c)) :
    y.Watching :=
  ⟨fun h => hw.trans (hx.closed (hs h)), hw ▸ hx.short, hw ▸ hx.nodup, fun c => by rw [hq, hw, hx.notices]⟩

theorem countP_append_quiet {e : Event} (he : Quiet e) (n : Byte) (q : List Record) (c : Fin 512) :
    (q ++ [(⟨n, e⟩ : Record)]).countP (·.reports c) = q.countP (·.reports c) := by
  rw [List.countP_append, List.countP_singleton, he n c]
  rfl

theorem watching_ended {e : Event} (he : Quiet e) (hx : x.Watching) : (x.ended [e]).Watching :=
  hx.of_same id rfl fun c => countP_append_quiet he _ _ c

theorem watching_offered {e : Event} (he : Quiet e) (hx : x.Watching) : (x.offered e).Watching := by
  unfold Session.offered
  split
  · exact hx.of_same id rfl fun c => countP_append_quiet he _ _ c
  · exact hx.of_same id rfl fun _ => rfl

/-- A marked watch is the only watch on its cell. -/
theorem Session.Watching.eq_of_cell (hx : x.Watching) {v w : Watch} (hv : v ∈ x.watches) (hw : w ∈ x.watches)
    (h : v.cell = w.cell) : v = w := eq_of_nodup_map hx.nodup hv hw h

/-! ### A change notice -/

theorem reports_update (c d : Fin 512) (v : Reported) (o : Port) (r : Record) :
    (Record.update c v o r).reports d = r.reports d := by
  obtain ⟨n, e⟩ := r
  cases e with
  | changed k w p m =>
    simp only [Record.update]
    split
    · next h => simp [Record.reports, h]
    · rfl
  | granted | taken | met | timedOut | leaseLow | sessionEnded => rfl

theorem setMarker_cells (c : Fin 512) (ws : List Watch) :
    (setMarker c true ws).map Watch.cell = ws.map Watch.cell := by
  rw [setMarker, List.map_map]
  refine List.map_congr_left fun w _ => ?_
  simp only [Function.comp]
  split <;> rfl

theorem mem_setMarker {c d : Fin 512} {ws : List Watch} {w : Watch} (hw : w ∈ ws) (hc : w.cell = c) :
    (⟨d, true⟩ : Watch) ∈ setMarker c true ws ↔ d = c ∨ ⟨d, true⟩ ∈ ws := by
  rw [setMarker_eq, List.mem_map]
  constructor
  · rintro ⟨u, hu, he⟩
    split at he
    · exact .inl (congrArg Watch.cell he).symm
    · exact .inr (he ▸ hu)
  · rintro (rfl | hd)
    · exact ⟨w, hw, if_pos hc⟩
    · refine ⟨_, hd, ?_⟩
      split
      · next h => exact congrArg (fun k => (⟨k, true⟩ : Watch)) h.symm
      · rfl

/-- The first record of a cell sets the marker of its watch (R103). -/
theorem watching_marked {c : Fin 512} {v : Reported} {o : Port} {w : Watch} (hw : w ∈ x.watches) (hc : w.cell = c)
    (hp : w.pending = false) (hroom : hasRoom x = true) (hx : x.Watching) :
    ({ x.offered (.changed c v o 1) with watches := setMarker c true x.watches } : Session).Watching := by
  have hqueue : (x.offered (.changed c v o 1)).queue = x.queue ++ [⟨x.sequence, .changed c v o 1⟩] := by
    rw [Session.offered, if_pos hroom]
  have hcells := setMarker_cells c x.watches
  refine ⟨fun h => ?_, ?_, ?_, fun d => ?_⟩
  · rw [(offered_kept _ x).2.2.2] at h
    rw [hx.closed h] at hw
    exact nomatch hw
  · exact (by simpa using congrArg List.length hcells : (setMarker c true x.watches).length = _) ▸ hx.short
  · rw [hcells]
    exact hx.nodup
  · have hold := hx.notices d
    simp only [hqueue, List.countP_append, hold, mem_setMarker hw hc]
    by_cases hd : d = c
    · subst hd
      have hnot : (⟨d, true⟩ : Watch) ∉ x.watches := fun h => by
        have he := hx.eq_of_cell hw h hc
        rw [he] at hp
        cases hp
      simp [hnot, Record.reports]
    · simp [hd, Ne.symm hd, Record.reports]

theorem watching_notified (c : Fin 512) (v : Reported) (o : Port) (hx : x.Watching) : (x.notified c v o).Watching := by
  unfold Session.notified
  split
  · exact hx
  · next w hfind =>
    have hw := List.mem_of_find?_eq_some hfind
    have hc : w.cell = c := eq_of_beq (List.find?_some hfind :)
    split
    · refine hx.of_same id rfl fun d => ?_
      rw [List.countP_map]
      exact List.countP_congr fun r _ => by simp [reports_update]
    · next hp =>
      split
      · next hroom => exact watching_marked hw hc (Bool.eq_false_iff.mpr hp) hroom hx
      · next hroom =>
        rw [Session.offered, if_neg hroom]
        exact hx.of_same id rfl fun _ => rfl

/-! ### OPEN, WATCH, UNWATCH and FETCH -/

theorem watching_opening (units : Byte) (hx : x.Watching) (hc : x.state = .closed) : (x.opening units).Watching := by
  have hnone : (x.opening units).watches = [] := hx.closed hc
  refine ⟨fun _ => hnone, ?_, ?_, fun c => ?_⟩
  · rw [hnone]
    exact Nat.zero_le _
  · rw [hnone]
    exact List.nodup_nil
  · rw [hnone]
    rfl

theorem watching_watched {c : Fin 512} (hx : x.Watching) (ho : x.state = .opened) (hlen : x.watches.length < 8)
    (hnot : watches x c = false) : ({ x with watches := x.watches ++ [⟨c, false⟩] } : Session).Watching := by
  have hfresh : c ∉ x.watches.map Watch.cell := by simpa [watches] using hnot
  refine ⟨fun h => ?_, ?_, ?_, fun d => ?_⟩
  · rw [ho] at h
    cases h
  · rw [List.length_append]
    exact hlen
  · rw [List.map_append, List.nodup_append]
    refine ⟨hx.nodup, List.pairwise_singleton _ _, fun a ha b hb e => ?_⟩
    rw [List.map_singleton, List.mem_singleton] at hb
    subst e hb
    exact hfresh ha
  · have hmem : (⟨d, true⟩ : Watch) ∈ x.watches ++ [⟨c, false⟩] ↔ ⟨d, true⟩ ∈ x.watches := by simp
    rw [hx.notices d]
    simp only [hmem]

theorem watching_unwatched (c : Fin 512) (hx : x.Watching) :
    ({ x with watches := x.watches.filter (fun w => w.cell != c), queue := x.queue.filter (fun r => !r.reports c) } :
      Session).Watching := by
  refine ⟨fun h => ?_, ?_, ?_, fun d => ?_⟩
  · rw [hx.closed h]
    rfl
  · exact Nat.le_trans (List.length_filter_le _ _) hx.short
  · exact hx.nodup.sublist (List.filter_sublist.map _)
  · have hold := hx.notices d
    rw [List.countP_filter]
    by_cases hd : d = c
    · subst hd
      simp
    · have hkeep : x.queue.countP (fun r => r.reports d && !r.reports c) = x.queue.countP (·.reports d) := by
        refine List.countP_congr fun r _ => ?_
        obtain ⟨n, e⟩ := r
        cases e with
        | changed k w p m =>
          simp only [Record.reports, Bool.and_eq_true, beq_iff_eq, Bool.not_eq_true', beq_eq_false_iff_ne, ne_eq,
            and_iff_left_iff_imp]
          rintro rfl
          exact hd
        | granted | taken | met | timedOut | leaseLow | sessionEnded => rfl
      rw [hkeep, hold]
      simp [hd]

theorem mem_map_clearedBy (rs : List Record) (ws : List Watch) (c : Fin 512) :
    (⟨c, true⟩ : Watch) ∈ ws.map (Watch.clearedBy rs) ↔
      ⟨c, true⟩ ∈ ws ∧ rs.countP (·.reports c) = 0 := by
  rw [List.mem_map, List.countP_eq_zero]
  constructor
  · rintro ⟨w, hw, he⟩
    unfold Watch.clearedBy at he
    split at he
    · cases he
    · next hany =>
      subst he
      exact ⟨hw, by simpa using hany⟩
  · rintro ⟨hw, hnone⟩
    refine ⟨_, hw, if_neg ?_⟩
    simpa using hnone

theorem clearedBy_cell (rs : List Record) (w : Watch) : (w.clearedBy rs).cell = w.cell := by
  unfold Watch.clearedBy
  split <;> rfl

/-- The records that FETCH takes clear the markers of their watches (R111). -/
theorem watching_fetched (n : Nat) (hx : x.Watching) :
    ({ x with
        queue := x.queue.drop n, lost := 0, watches := (x.queue.take n).foldl clearFor x.watches } :
      Session).Watching := by
  rw [foldl_clearFor]
  refine ⟨fun h => ?_, ?_, ?_, fun c => ?_⟩
  · rw [hx.closed h]
    rfl
  · rw [List.length_map]
    exact hx.short
  · rw [List.map_map]
    exact (List.map_congr_left fun w _ => clearedBy_cell _ w :) ▸ hx.nodup
  · have hsplit : (x.queue.take n).countP (·.reports c) + (x.queue.drop n).countP (·.reports c) =
        if ⟨c, true⟩ ∈ x.watches then 1 else 0 := by
      rw [← List.countP_append, List.take_append_drop, hx.notices c]
    simp only [mem_map_clearedBy]
    by_cases hw : (⟨c, true⟩ : Watch) ∈ x.watches
    · rw [if_pos hw] at hsplit
      by_cases hz : (x.queue.take n).countP (·.reports c) = 0
      · rw [if_pos ⟨hw, hz⟩]
        omega
      · rw [if_neg fun h => hz h.2]
        omega
    · rw [if_neg hw] at hsplit
      rw [if_neg fun h => hw h.1]
      omega

theorem watching_of_no_watch (hw : x.watches = []) (hq : ∀ c, x.queue.countP (·.reports c) = 0) : x.Watching :=
  ⟨fun _ => hw, hw ▸ Nat.zero_le _, hw ▸ List.nodup_nil, fun c => by rw [hq, hw]; rfl⟩

theorem watching_torn (p : Port) (s : State) : ((teardown p s).session p).Watching := by
  rw [teardown_session]
  refine watching_of_no_watch rfl fun c => ?_
  rw [List.countP_eq_zero]
  intro r hr
  obtain ⟨e, he, rfl⟩ := List.mem_map.mp hr
  unfold endNotice at he
  split at he
  · rw [List.mem_singleton] at he
    subst he
    exact Bool.false_ne_true
  · exact nomatch he

/-! ### The law of one port -/

/-- The watch law of one port. -/
def WatchAt (p : Port) (s : State) : Prop := (s.session p).Watching

theorem watchAt_modSession {s : State} {p q : Port} {f : Session → Session}
    (hf : (s.session p).Watching → (f (s.session p)).Watching) (h : WatchAt q s) : WatchAt q (s.modSession p f) := by
  rw [WatchAt, State.modSession_session]
  split
  · next hq =>
    subst hq
    exact hf h
  · exact h

theorem watchAt_queueLaw (q : Port) : QueueLaw True (WatchAt q) where
  knows := .inl trivial
  same hsame h := by
    have hx := hsame.session q
    exact h.of_same hx.closed hx.watches fun c => by rw [hx.queue]
  ended {s w e} he _ h := by
    rw [WatchAt, endEntry_session]
    split
    · exact watching_ended he h
    · rw [ended_nil]
      exact h
  notified c v o p h := watchAt_modSession (watching_notified c v o) h

theorem watchAt_queueStepLaw (q : Port) : QueueStepLaw True (WatchAt q) where
  toQueueLaw := watchAt_queueLaw q
  lowered _ h := h
  cancelled {s w} _ h := by
    have hdrop : WatchAt q (dropEntry w s) := by
      rw [WatchAt, dropEntry_session]
      split
      · exact Session.Watching.of_same h id rfl fun _ => rfl
      · exact h
    exact watchAt_modSession (fun hx => hx.of_same id rfl fun _ => rfl) hdrop
  created hc h := by
    rw [WatchAt, createEntry_session hc]
    split
    · exact Session.Watching.of_same h id rfl fun _ => rfl
    · exact h
  offered p he h := watchAt_modSession (watching_offered he) h
  opened units hc h := watchAt_modSession (fun hx => watching_opening units hx hc) h
  watched c ho hlen hnot h := watchAt_modSession (fun hx => watching_watched hx ho hlen hnot) h
  unwatched p c h := watchAt_modSession (watching_unwatched c) h
  fetched p n h := watchAt_modSession (watching_fetched n) h
  tornDown {s} p h := by
    by_cases hq : q = p
    · subst hq
      exact watching_torn q s
    · refine (watchAt_queueLaw q).teardown ?_ fun t ht => ?_
      · rw [WatchAt, dropAllEntries_session, if_neg hq]
        exact h
      · rw [WatchAt, State.modSession_session_other _ _ _ _ hq]
        exact ht
  blank _ hx := watching_of_no_watch (hx q).watches fun c => by rw [(hx q).queue]; rfl

/-- Settles O56: for each port, the marker of a watch is set when its record is queued, and cleared or dropped when the
record leaves. -/
theorem watchLawIsKept : Obligations.WatchLawIsKept := fun s _ hs ht =>
  (watchLaw_iff _).mpr fun q => (watchAt_queueStepLaw q).stepLaw.keeps_step ((watchLaw_iff s).mp hs q) ht

end Sys2Proof.Machine
end

section
/-!
PROOFS. Locks, stacks, pending ACQUIREs and epochs agree after every step (O57).
-/

namespace Sys2Proof.Machine

open Sys2Proof.Safety

/-! ### What the law of locks sees of a session -/

/-- The part of a session record that the law of locks speaks of. -/
structure LockPart where
  closed  : Bool
  epoch   : Byte
  stack   : List (Fin 48)
  pending : Option (Fin 48 × Byte)

def Session.lockPart (x : Session) : LockPart := ⟨x.state == .closed, x.epoch, x.stack, x.pendingAcquire⟩

/-- The lock and ticket of a LOCK-WAIT entry. -/
def WaitEntry.claim (w : WaitEntry) : Option (Fin 48 × Byte) :=
  match w.wait with
  | .lock l => some (l, w.ticket)
  | .take _ _ | .await _ _ _ => none

theorem claim_eq_some (w : WaitEntry) (x : Fin 48 × Byte) :
    w.claim = some x ↔ w.wait = .lock x.1 ∧ w.ticket = x.2 := by
  obtain ⟨l, t⟩ := x
  unfold WaitEntry.claim
  cases hw : w.wait <;> simp

/-- The locks and tickets of a port's LOCK-WAIT entries. -/
def lockClaims (s : State) (p : Port) : List (Fin 48 × Byte) := (entriesOf s p).filterMap WaitEntry.claim

theorem mem_lockClaims {s : State} {p : Port} {x : Fin 48 × Byte} :
    x ∈ lockClaims s p ↔ ∃ w ∈ s.pool, w.port = p ∧ w.wait = .lock x.1 ∧ w.ticket = x.2 := by
  simp only [lockClaims, entriesOf, List.mem_filterMap, List.mem_filter, beq_iff_eq, claim_eq_some, and_assoc]

/-- The law of locks, read from the parts of the sessions that it sees. -/
structure LockOk (s : State) : Prop where
  numbers : NumbersDistinct s
  entry   : ∀ w ∈ s.pool, (s.session w.port).lockPart.closed = false ∧ w.epoch = (s.session w.port).lockPart.epoch
  depth   : ∀ p, (s.session p).lockPart.stack.length ≤ 6
  count   : ∀ p l, (s.session p).lockPart.stack.count l = if holderOf s l = some p then 1 else 0
  claims  : ∀ p, (lockClaims s p).Perm (s.session p).lockPart.pending.toList
  marker  : ∀ p x, (s.session p).lockPart.pending = some x →
    (∃ q, holderOf s x.1 = some q ∧ q ≠ p) ∧ (s.session p).lockPart.stack.length < 6
  holder  : ∀ l p e, (s.lock l).state = .held p e →
    (s.session p).lockPart.closed = false ∧ e = (s.session p).lockPart.epoch

theorem perm_toList_iff {α : Type} {l : List α} {o : Option α} : l.Perm o.toList ↔ l = o.toList := by
  cases o with
  | none => exact List.perm_nil
  | some a => exact List.perm_singleton

theorem not_closed_iff (x : Session) : x.lockPart.closed = false ↔ x.state ≠ .closed := by
  rw [Session.lockPart, beq_eq_false_iff_ne]

theorem lockOk_iff (s : State) :
    LockOk s ↔ NumbersDistinct s ∧ EntryLaw s ∧ StackLaw s ∧ MarkerLaw s ∧ HolderLaw s := by
  constructor
  · rintro ⟨hn, he, hd, hc, hclaim, hm, hh⟩
    refine ⟨hn, fun w hw => ?_, fun p => ⟨hd p, hc p⟩, fun p => ⟨?_, fun l t hx => hm p (l, t) hx⟩, fun l p e hl => ?_⟩
    · obtain ⟨hstate, hepoch⟩ := he w hw
      exact ⟨(not_closed_iff _).mp hstate, hepoch⟩
    · exact perm_toList_iff.mp (hclaim p)
    · obtain ⟨hstate, hepoch⟩ := hh l p e hl
      exact ⟨(not_closed_iff _).mp hstate, hepoch⟩
  · rintro ⟨hn, he, hs, hm, hh⟩
    refine ⟨hn, fun w hw => ?_, fun p => (hs p).1, fun p => (hs p).2, fun p => ?_, fun p x hx => (hm p).2 x.1 x.2 hx,
      fun l p e hl => ?_⟩
    · obtain ⟨hstate, hepoch⟩ := he w hw
      exact ⟨(not_closed_iff _).mpr hstate, hepoch⟩
    · exact perm_toList_iff.mpr (hm p).1
    · obtain ⟨hstate, hepoch⟩ := hh l p e hl
      exact ⟨(not_closed_iff _).mpr hstate, hepoch⟩

theorem holderOf_eq_some (s : State) (l : Fin 48) (p : Port) :
    holderOf s l = some p ↔ ∃ e, (s.lock l).state = .held p e := by
  unfold holderOf
  cases (s.lock l).state <;> simp

theorem holderOf_congr {s t : State} (l : Fin 48) (h : t.lock l = s.lock l) : holderOf t l = holderOf s l := by
  rw [holderOf, holderOf, h]

/-! ### What the law says of one port -/

section
variable {s t : State} (h : LockOk s)
include h

theorem LockOk.holder_of_mem {p : Port} {l : Fin 48} (hl : l ∈ (s.session p).stack) : holderOf s l = some p := by
  have hpos := List.count_pos_iff.mpr hl
  have hcount := h.count p l
  refine Classical.byContradiction fun hne => ?_
  rw [if_neg hne] at hcount
  exact absurd hcount (Nat.pos_iff_ne_zero.mp hpos)

/-- A LOCK-WAIT entry is its port's marker. -/
theorem LockOk.marker_of_waiter {w : WaitEntry} {l : Fin 48} (hw : w ∈ s.pool) (hwait : w.wait = .lock l) :
    (s.session w.port).pendingAcquire = some (l, w.ticket) := by
  have hmem : (l, w.ticket) ∈ lockClaims s w.port := mem_lockClaims.mpr ⟨w, hw, rfl, hwait, rfl⟩
  exact Option.mem_toList.mp ((h.claims w.port).mem_iff.mp hmem)

theorem LockOk.waiter_of_marker {p : Port} {x : Fin 48 × Byte} (hx : (s.session p).pendingAcquire = some x) :
    ∃ w ∈ s.pool, w.port = p ∧ w.wait = .lock x.1 ∧ w.ticket = x.2 :=
  mem_lockClaims.mp ((h.claims p).mem_iff.mpr (Option.mem_toList.mpr hx))

/-- The law is kept where the entries that leave wait for no lock, and nothing else that it sees changes. -/
theorem LockOk.of_thinned (hn : NumbersDistinct t)
    (he : ∀ w ∈ t.pool, ∃ v ∈ s.pool, v.port = w.port ∧ v.epoch = w.epoch)
    (hc : ∀ q, (lockClaims t q).Perm (lockClaims s q)) (hl : t.locks = s.locks)
    (hs : ∀ q, (t.session q).lockPart = (s.session q).lockPart) : LockOk t := by
  have hlock : ∀ l, t.lock l = s.lock l := fun l => by rw [← State.locks_at, ← State.locks_at, hl]
  have hholder : ∀ l, holderOf t l = holderOf s l := fun l => holderOf_congr l (hlock l)
  refine ⟨hn, fun w hw => ?_, fun p => ?_, fun p l => ?_, fun p => ?_, fun p x hx => ?_, fun l p e hx => ?_⟩
  · obtain ⟨v, hv, hport, hepoch⟩ := he w hw
    rw [hs, ← hport, ← hepoch]
    exact h.entry v hv
  · rw [hs]
    exact h.depth p
  · rw [hs, hholder]
    exact h.count p l
  · rw [hs]
    exact (hc p).trans (h.claims p)
  · rw [hs] at hx ⊢
    rw [hholder]
    exact h.marker p x hx
  · rw [hlock] at hx
    rw [hs]
    exact h.holder l p e hx

theorem LockOk.of_sessions (hp : t.pool = s.pool) (hl : t.locks = s.locks)
    (hs : ∀ q, (t.session q).lockPart = (s.session q).lockPart) : LockOk t := by
  refine h.of_thinned (numbersDistinct_of_sublist h.numbers (hp ▸ List.Sublist.refl _))
    (fun w hw => ⟨w, hp ▸ hw, rfl, rfl⟩) (fun q => ?_) hl hs
  rw [lockClaims, lockClaims, entriesOf, entriesOf, hp]

theorem LockOk.modSession {p : Port} {f : Session → Session} (hf : (f (s.session p)).lockPart = (s.session p).lockPart) :
    LockOk (s.modSession p f) := by
  refine h.of_sessions rfl rfl fun q => ?_
  rw [State.modSession_session]
  split
  · next hq => exact hq ▸ hf
  · rfl
end

/-! ### Entries that wait for no lock -/

theorem lockClaims_eq (s : State) (q : Port) :
    lockClaims s q = (s.pool.filter fun w => w.port == q && w.claim.isSome).filterMap WaitEntry.claim := by
  rw [lockClaims, entriesOf, ← List.filter_filter]
  generalize s.pool = ws
  induction ws with
  | nil => rfl
  | cons w ws ih =>
    cases hc : w.claim <;> cases hp : (w.port == q) <;> simp_all

/-- A change of the pool that keeps the entries that wait for a lock keeps the claims. -/
theorem lockClaims_of_filter {s t : State}
    (h : ∀ f : WaitEntry → Bool, (∀ w, f w = true → w.claim.isSome = true) → t.pool.filter f = s.pool.filter f)
    (q : Port) : lockClaims t q = lockClaims s q := by
  rw [lockClaims_eq, lockClaims_eq, h]
  intro w hw
  rw [Bool.and_eq_true] at hw
  exact hw.2

theorem isSome_claim_of_takes {c : Fin 512} {w : WaitEntry} (h : w.takes c = true) : w.claim.isSome = false := by
  unfold WaitEntry.takes at h
  unfold WaitEntry.claim
  cases hw : w.wait <;> simp_all

theorem isSome_claim_of_awaits {c : Fin 512} {w : WaitEntry} (h : w.awaits c = true) : w.claim.isSome = false := by
  unfold WaitEntry.awaits at h
  unfold WaitEntry.claim
  cases hw : w.wait <;> simp_all

theorem lockPart_ended (es : List Event) (x : Session) : (x.ended es).lockPart = x.lockPart := rfl

theorem lockPart_offered (e : Event) (x : Session) : (x.offered e).lockPart = x.lockPart := by
  unfold Session.offered
  split <;> rfl

theorem lockPart_notified (c : Fin 512) (v : Reported) (o : Port) (x : Session) :
    (x.notified c v o).lockPart = x.lockPart := by
  obtain ⟨f, he⟩ | ⟨ws, he⟩ := notified_cases c v o x
  · rw [he]
    rfl
  · rw [he]
    exact lockPart_offered _ x

theorem lockPart_grantWalk (c : Fin 512) (s : State) (q : Port) :
    ((grantWalk c s).1.session q).lockPart = (s.session q).lockPart :=
  walkOver_keeps (fun t => (t.session q).lockPart) c (fun w t => by
    rw [grantTake, endEntry_session, lockPart_ended, lowerCounter_session]) _ s

theorem lockOk_grantWalk (c : Fin 512) {s : State} (h : LockOk s) : LockOk (grantWalk c s).1 := by
  refine h.of_thinned (numbersDistinct_grantWalk h.numbers c)
    (fun w hw => ⟨w, grantWalk_pool_subset c s hw, rfl, rfl⟩) (fun q => .of_eq (lockClaims_of_filter (fun f hf => ?_) q))
    (grantWalk_locks c s) (lockPart_grantWalk c s)
  refine grantWalk_pool_filter h.numbers c fun w hw => Bool.eq_false_iff.mpr fun hfw => ?_
  exact absurd ((hf w hfw).symm.trans (isSome_claim_of_takes hw)) (by decide)

theorem lockOk_meetAwaits (s : State) (c : Fin 512) (h : LockOk s) : LockOk (meetAwaits s c) := by
  have hsub := meetAwaits_pool_sublist s c
  refine h.of_thinned (numbersDistinct_of_sublist h.numbers hsub) (fun w hw => ⟨w, hsub.subset hw, rfl, rfl⟩)
    (fun q => .of_eq (lockClaims_of_filter (fun f hf => ?_) q)) (meetAwaits_locks s c) fun q => by
      rw [meetAwaits_session, lockPart_ended]
  rw [meetAwaits_pool h.numbers, List.filter_filter]
  refine List.filter_congr fun w _ => ?_
  cases hw : w.awaits c
  · simp
  · have hclaim := isSome_claim_of_awaits hw
    have hnot : f w = false := Bool.eq_false_iff.mpr fun e => by simp [hf w e] at hclaim
    simp [hnot]

theorem lockOk_notifyWatchers (o : Port) (s : State) (c : Fin 512) (h : LockOk s) : LockOk (notifyWatchers o s c) := by
  refine h.of_sessions (notifyWatchers_pool o s c) (notifyWatchers_locks o s c) fun q => ?_
  rw [notifyWatchers_session]
  split
  · rfl
  · exact lockPart_notified _ _ _ _

theorem lockOk_handOn (origin : Option Port) (before : Vector Cell 512) (touched : List (Fin 512)) {s : State}
    (h : LockOk s) : LockOk (handOn origin before touched s) := by
  unfold handOn
  cases origin with
  | none => exact foldl_kept lockOk_meetAwaits _ h
  | some o => exact foldl_kept (lockOk_notifyWatchers o) _ (foldl_kept lockOk_meetAwaits _ h)

theorem lockOk_walkAfter (head : Option (Fin 512)) (before : Vector Cell 512) {s : State} (h : LockOk s) :
    LockOk (walkAfter head before s) := by
  unfold walkAfter
  split
  · exact h
  · exact lockOk_handOn _ _ _ (lockOk_grantWalk _ h)

end Sys2Proof.Machine
end

section
/-!
PROOFS. The effects that change locks, stacks, markers and the pool's LOCK-WAIT entries keep the law of locks (O57).
-/

namespace Sys2Proof.Machine

open Sys2Proof.Safety

/-! ### An entry that leaves with its marker, and one that is created -/

/-- The end of a live entry takes its own claim from its port's claims. -/
theorem lockClaims_drop {s t : State} (h : NumbersDistinct s) {w : WaitEntry} (hw : w ∈ s.pool)
    (ht : t.pool = s.pool.filter fun x => x.number != w.number) (q : Port) :
    (lockClaims s q).Perm ((if w.port = q then w.claim.toList else []) ++ lockClaims t q) := by
  have hperm : s.pool.Perm (w :: t.pool) := by
    rw [ht, filter_number_eq_erase h hw]
    exact List.perm_cons_erase hw
  refine ((hperm.filter (fun x => x.port == q)).filterMap WaitEntry.claim).trans (.of_eq ?_)
  by_cases hq : w.port = q
  · rw [List.filter_cons_of_pos (by simp [hq]), if_pos hq]
    cases hc : w.claim <;> simp [hc, lockClaims, entriesOf]
  · rw [List.filter_cons_of_neg (by simp [hq]), if_neg hq]
    rfl

theorem lockClaims_append {s t : State} {w : WaitEntry} (ht : t.pool = s.pool ++ [w]) (q : Port) :
    lockClaims t q = lockClaims s q ++ if w.port = q then w.claim.toList else [] := by
  rw [lockClaims, entriesOf_append ht, List.filterMap_append, lockClaims]
  split
  · cases hc : w.claim <;> simp [hc]
  · rfl

/-- The claims that a port's marker leaves when its entry is gone. -/
theorem claims_after_drop {s t : State} (h : LockOk s) {w : WaitEntry} (hw : w ∈ s.pool)
    (ht : t.pool = s.pool.filter fun x => x.number != w.number) {x : LockPart} {q : Port}
    (hx : x.pending = if w.port = q ∧ w.wait.purpose = .lockWait then none else (s.session q).lockPart.pending) :
    (lockClaims t q).Perm x.pending.toList := by
  have hperm := (lockClaims_drop h.numbers hw ht q).symm.trans (h.claims q)
  rw [hx]
  by_cases hq : w.port = q
  · rw [if_pos hq] at hperm
    cases hwait : w.wait with
    | lock l =>
      have hclaim : w.claim = some (l, w.ticket) := (claim_eq_some w (l, w.ticket)).mpr ⟨hwait, rfl⟩
      rw [hclaim] at hperm
      rw [if_pos ⟨hq, rfl⟩]
      have hlen := hperm.length_eq
      have hle : (s.session q).lockPart.pending.toList.length ≤ 1 := by
        cases (s.session q).lockPart.pending <;> simp
      simp only [Option.toList_some, List.length_append, List.length_singleton] at hlen
      rw [List.length_eq_zero_iff.mp (by omega : (lockClaims t q).length = 0)]
      exact List.Perm.refl _
    | take c n =>
      have hclaim : w.claim = none := by simp [WaitEntry.claim, hwait]
      rw [if_neg fun h => nomatch h.2]
      rwa [hclaim] at hperm
    | await c cond operand =>
      have hclaim : w.claim = none := by simp [WaitEntry.claim, hwait]
      rw [if_neg fun h => nomatch h.2]
      rwa [hclaim] at hperm
  · rw [if_neg hq] at hperm
    rw [if_neg fun h => hq h.1]
    exact hperm

/-- A freed entry takes its marker with it. -/
theorem lockOk_freed {s t : State} (h : LockOk s) {w : WaitEntry} (hw : w ∈ s.pool)
    (ht : t.pool = s.pool.filter fun x => x.number != w.number) (hl : t.locks = s.locks)
    (hs : ∀ q, (t.session q).lockPart =
      { (s.session q).lockPart with
        pending := if w.port = q ∧ w.wait.purpose = .lockWait then none else (s.session q).lockPart.pending }) :
    LockOk t := by
  have hlock : ∀ l, t.lock l = s.lock l := fun l => by rw [← State.locks_at, ← State.locks_at, hl]
  refine ⟨numbersDistinct_dropEntry h.numbers ht, fun v hv => ?_, fun q => ?_, fun q l => ?_, fun q => ?_,
    fun q x hx => ?_, fun l q e hx => ?_⟩
  · rw [hs]
    exact h.entry v (List.mem_filter.mp (ht ▸ hv)).1
  · rw [hs]
    exact h.depth q
  · rw [hs, holderOf_congr l (hlock l)]
    exact h.count q l
  · exact claims_after_drop h hw ht (by rw [hs])
  · rw [hs] at hx ⊢
    rw [holderOf_congr _ (hlock _)]
    dsimp only at hx
    split at hx
    · cases hx
    · exact h.marker q x hx
  · rw [hlock] at hx
    rw [hs]
    exact h.holder l q e hx

theorem lockOk_clearMarker {s t : State} (h : LockOk s) {w : WaitEntry} (hw : w ∈ s.pool)
    (ht : t.pool = s.pool.filter fun x => x.number != w.number) (hl : t.locks = s.locks)
    (hs : ∀ q, (t.session q).lockPart = (s.session q).lockPart) : LockOk (clearMarker w t) := by
  rw [clearMarker_eq]
  refine lockOk_freed h hw ht hl fun q => ?_
  rw [State.modSession_session]
  by_cases hq : q = w.port
  · subst hq
    rw [if_pos rfl, ← hs]
    simp only [true_and]
    rfl
  · rw [if_neg hq, if_neg fun h => hq h.1.symm, hs]

theorem lockOk_cancelEntry {s : State} (h : LockOk s) {w : WaitEntry} (hw : w ∈ s.pool) : LockOk (cancelEntry w s) := by
  refine lockOk_walkAfter _ _ (lockOk_clearMarker h hw rfl rfl fun q => ?_)
  rw [State.modSession_session, dropEntry_session]
  by_cases hq : q = w.port
  · rw [if_pos hq, if_pos hq]
    rfl
  · rw [if_neg hq, if_neg hq]

theorem lockOk_expireEntry {s : State} (h : LockOk s) {w : WaitEntry} (hw : w ∈ s.pool) : LockOk (expireEntry w s) := by
  refine lockOk_walkAfter _ _ (lockOk_clearMarker h hw ?_ ?_ fun q => ?_)
  · rw [placeReserved_pool, dropEntry_pool]
  · rw [placeReserved_eq]
    rfl
  · rw [endEntry_session, lockPart_ended]

/-- A new entry belongs to an OPEN session under its epoch; one that waits for a lock comes with its marker, on a lock
that another port holds. -/
theorem lockOk_created {s t : State} (h : LockOk s) {w : WaitEntry} (ht : t.pool = s.pool ++ [w])
    (hfresh : ∀ v ∈ s.pool, v.number ≠ w.number) (hopen : (s.session w.port).state = .opened)
    (hepoch : w.epoch = (s.session w.port).epoch) (hl : t.locks = s.locks)
    (hclaim : ∀ x, w.claim = some x → (s.session w.port).pendingAcquire = none ∧
      (∃ q, holderOf s x.1 = some q ∧ q ≠ w.port) ∧ (s.session w.port).stack.length < 6)
    (hs : ∀ q, (t.session q).lockPart =
      { (s.session q).lockPart with
        pending := if w.port = q ∧ w.claim.isSome then w.claim else (s.session q).lockPart.pending }) :
    LockOk t := by
  have hlock : ∀ l, t.lock l = s.lock l := fun l => by rw [← State.locks_at, ← State.locks_at, hl]
  have hnotclosed : (s.session w.port).lockPart.closed = false := (not_closed_iff _).mpr (by rw [hopen]; exact nofun)
  refine ⟨numbersDistinct_append ht hfresh h.numbers, fun v hv => ?_, fun q => ?_, fun q l => ?_, fun q => ?_,
    fun q x hx => ?_, fun l q e hx => ?_⟩
  · rw [hs]
    rw [ht] at hv
    rcases List.mem_append.mp hv with hv | hv
    · exact h.entry v hv
    · rw [List.mem_singleton] at hv
      subst hv
      exact ⟨hnotclosed, hepoch⟩
  · rw [hs]
    exact h.depth q
  · rw [hs, holderOf_congr l (hlock l)]
    exact h.count q l
  · rw [hs, lockClaims_append ht]
    have hold := h.claims q
    by_cases hq : w.port = q
    · subst hq
      cases hc : w.claim with
      | none => simpa using hold
      | some x =>
        obtain ⟨hnone, -⟩ := hclaim x hc
        have hnone' : (s.session w.port).lockPart.pending = none := hnone
        rw [hnone'] at hold
        rw [List.perm_nil.mp hold]
        simp
    · rw [if_neg hq]
      simpa [hq] using hold
  · rw [hs] at hx ⊢
    rw [holderOf_congr _ (hlock _)]
    dsimp only at hx
    split at hx
    · next hq =>
      obtain ⟨rfl, -⟩ := hq
      exact (hclaim x hx).2
    · exact h.marker q x hx
  · rw [hlock] at hx
    rw [hs]
    exact h.holder l q e hx

/-! ### The grant and the passing on of a lock -/

/-- The holders after one lock is changed. -/
theorem holderOf_update {s t : State} {l : Fin 48} {x : Lock}
    (h : ∀ k, t.lock k = if k = l then x else s.lock k) {o : Option Port}
    (ho : ∀ q, o = some q ↔ ∃ e, x.state = .held q e) (k : Fin 48) :
    holderOf t k = if k = l then o else holderOf s k := by
  by_cases hk : k = l
  · rw [if_pos hk]
    refine Option.ext fun q => ?_
    rw [holderOf_eq_some, h, if_pos hk, ho]
  · rw [if_neg hk]
    exact holderOf_congr k (by rw [h, if_neg hk])

/-- The checks of R50 on the port pass. -/
theorem acquireCheck_eq_none {x : Session} {l : Fin 48} :
    acquireCheck x l = none ↔ l ∉ x.stack ∧ x.pendingAcquire = none ∧ x.stack.length < 6 := by
  unfold acquireCheck
  split
  · next h => simp [h]
  · next h =>
    split
    · next hp => simp [Option.isSome_iff_ne_none.mp hp]
    · next hp =>
      have hnone : x.pendingAcquire = none := by simpa using hp
      split
      · next hlen =>
        have hnot : ¬ x.stack.length < 6 := Nat.not_lt.mpr hlen
        simp [hnot]
      · next hlen => exact ⟨fun _ => ⟨h, hnone, Nat.lt_of_not_le hlen⟩, fun _ => rfl⟩

/-- The immediate grant of a FREE lock (R51). -/
theorem lockOk_grantLock {s : State} {p : Port} {l : Fin 48} (h : LockOk s) (hopen : (s.session p).state = .opened)
    (hcheck : acquireCheck (s.session p) l = none) (hfree : holderOf s l = none) :
    LockOk (grantLock p (s.session p).epoch l s) := by
  have hnotclosed : (s.session p).lockPart.closed = false := (not_closed_iff _).mpr (by rw [hopen]; exact nofun)
  obtain ⟨hmem, hpending, hdepth⟩ := acquireCheck_eq_none.mp hcheck
  have hholder : ∀ k, holderOf (grantLock p (s.session p).epoch l s) k = if k = l then some p else holderOf s k :=
    holderOf_update (fun k => grantLock_lock p _ l k s) (by simp)
  have hpart : ∀ q, ((grantLock p (s.session p).epoch l s).session q).lockPart =
      { (s.session q).lockPart with
        stack := if q = p then (s.session q).stack ++ [l] else (s.session q).stack } := by
    intro q
    rw [grantLock_session]
    split
    · rfl
    · rfl
  refine ⟨h.numbers, fun w hw => ?_, fun q => ?_, fun q k => ?_, fun q => ?_, fun q x hx => ?_, fun k q e hx => ?_⟩
  · rw [hpart]
    exact h.entry w hw
  · rw [hpart]
    dsimp only
    split
    · next hq =>
      subst hq
      rw [List.length_append]
      exact hdepth
    · exact h.depth q
  · rw [hpart, hholder]
    have hcount : (s.session q).stack.count k = if holderOf s k = some q then 1 else 0 := h.count q k
    by_cases hq : q = p
    · subst hq
      by_cases hk : k = l
      · subst hk
        simp [List.count_append, List.count_eq_zero_of_not_mem hmem]
      · simp [List.count_append, hk, Ne.symm hk, hcount]
    · by_cases hk : k = l
      · subst hk
        rw [hfree] at hcount
        simpa [hq, Ne.symm hq] using hcount
      · simpa [hq, hk] using hcount
  · rw [hpart]
    exact h.claims q
  · rw [hpart] at hx ⊢
    obtain ⟨⟨r, hr, hne⟩, hlen⟩ := h.marker q x hx
    have hq : q ≠ p := fun e => by
      subst e
      have hpend : (s.session q).pendingAcquire = some x := hx
      rw [hpending] at hpend
      cases hpend
    refine ⟨⟨r, ?_, hne⟩, ?_⟩
    · rw [hholder, if_neg, hr]
      intro e
      rw [e, hfree] at hr
      cases hr
    · dsimp only
      rw [if_neg hq]
      exact hlen
  · rw [grantLock_lock] at hx
    rw [hpart]
    split at hx
    · obtain ⟨rfl, rfl⟩ := LockState.held.inj hx
      exact ⟨hnotclosed, rfl⟩
    · exact h.holder k q e hx

section
variable {s t u : State} {p : Port} {l : Fin 48} (h : LockOk s) (htop : (s.session p).stack.getLast? = some l)
  (hpool : t.pool = s.pool) (hlocks : ∀ k, t.lock k = s.lock k)
  (hpop : ∀ q, (t.session q).lockPart =
    { (s.session q).lockPart with stack := if q = p then (s.session q).stack.dropLast else (s.session q).stack })
include h htop

theorem LockOk.top_holder : holderOf s l = some p := h.holder_of_mem (List.mem_of_getLast? htop)

/-- A pop takes the top lock from its holder's stack and none from another's. -/
theorem LockOk.count_popped (q : Port) (k : Fin 48) :
    (if q = p then (s.session q).stack.dropLast else (s.session q).stack).count k =
      if k ≠ l ∧ holderOf s k = some q then 1 else 0 := by
  have hcount : (s.session q).stack.count k = if holderOf s k = some q then 1 else 0 := h.count q k
  have hholder := h.top_holder htop
  by_cases hq : q = p
  · subst hq
    have hsplit : (s.session q).stack.dropLast ++ [l] = (s.session q).stack := by
      obtain ⟨ls, hls⟩ := List.getLast?_eq_some_iff.mp htop
      rw [hls, List.dropLast_concat]
    rw [← hsplit, List.count_append] at hcount
    rw [if_pos rfl]
    by_cases hk : k = l
    · subst hk
      rw [hholder] at hcount
      simpa using hcount
    · simpa [hk, Ne.symm hk] using hcount
  · rw [if_neg hq, hcount]
    by_cases hk : k = l
    · subst hk
      simp [hholder, Ne.symm hq]
    · simp [hk]

include hpool hlocks hpop

/-- A popped lock for which none waits becomes FREE (R56). -/
theorem lockOk_freeLock (hnone : lockWaiters t l = []) : LockOk (t.setLock l ⟨.free, (t.lock l).generation⟩) := by
  have hholder : ∀ k, holderOf (t.setLock l ⟨.free, (t.lock l).generation⟩) k = if k = l then none else holderOf s k :=
    fun k => holderOf_congr (s := s) k (hlocks k) ▸
      holderOf_update (s := t) (fun k => State.setLock_lock t l k _) (by simp) k
  refine ⟨numbersDistinct_of_sublist h.numbers (hpool ▸ List.Sublist.refl _), fun w hw => ?_, fun q => ?_,
    fun q k => ?_, fun q => ?_, fun q x hx => ?_, fun k q e hx => ?_⟩
  · rw [State.setLock_session, hpop]
    exact h.entry w (hpool ▸ hw)
  · rw [State.setLock_session, hpop]
    dsimp only
    split
    · rw [List.length_dropLast]
      exact Nat.le_trans (Nat.sub_le _ _) (h.depth q)
    · exact h.depth q
  · rw [State.setLock_session, hpop, hholder]
    dsimp only
    rw [h.count_popped htop q k]
    by_cases hk : k = l <;> simp [hk]
  · rw [State.setLock_session, hpop, lockClaims, entriesOf, State.setLock_pool, hpool]
    exact h.claims q
  · rw [State.setLock_session, hpop] at hx ⊢
    obtain ⟨⟨r, hr, hne⟩, hlen⟩ := h.marker q x hx
    obtain ⟨w, hw, -, hwait, -⟩ := h.waiter_of_marker hx
    refine ⟨⟨r, ?_, hne⟩, ?_⟩
    · rw [hholder, if_neg, hr]
      intro e
      have hmem : w ∈ lockWaiters t l := mem_lockWaiters.mpr ⟨hpool ▸ hw, e ▸ hwait⟩
      rw [hnone] at hmem
      exact nomatch hmem
    · dsimp only
      split
      · rw [List.length_dropLast]
        exact Nat.lt_of_le_of_lt (Nat.sub_le _ _) hlen
      · exact hlen
  · rw [State.setLock_lock] at hx
    rw [State.setLock_session, hpop]
    split at hx
    · cases hx
    · rw [hlocks] at hx
      exact h.holder k q e hx

/-- A popped lock is handed to its waiter (R57): that port's marker named it, so the port is not the one that held it. -/
theorem lockOk_handoff {w : WaitEntry} (hw : w ∈ s.pool) (hwait : w.wait = .lock l) : LockOk (handoff l w t) := by
  have hmark : (s.session w.port).lockPart.pending = some (l, w.ticket) := h.marker_of_waiter hw hwait
  obtain ⟨⟨r, hr, hne⟩, hroom⟩ := h.marker w.port _ hmark
  have hother : w.port ≠ p := by
    rw [h.top_holder htop] at hr
    exact fun e => hne (e ▸ (Option.some.inj hr).symm)
  have hholder : ∀ k, holderOf (handoff l w t) k = if k = l then some w.port else holderOf s k :=
    fun k => holderOf_congr (s := s) k (hlocks k) ▸ holderOf_update (s := t) (fun k => handoff_lock l k w t) (by simp) k
  have hdrop : (handoff l w t).pool = s.pool.filter fun x => x.number != w.number := by rw [handoff_pool, hpool]
  have hsame : ((handoff l w t).session w.port).lockPart =
      { (s.session w.port).lockPart with stack := (s.session w.port).stack ++ [l], pending := none } := by
    have hstack := congrArg LockPart.stack (hpop w.port)
    have hrest := hpop w.port
    rw [handoff_session_same l w t hwait]
    dsimp only [Session.lockPart, LockPart.mk.injEq] at hstack hrest ⊢
    rw [if_neg hother] at hstack hrest
    rw [LockPart.mk.injEq] at hrest ⊢
    obtain ⟨hc, he, -, -⟩ := hrest
    exact ⟨hc, he, by rw [hstack], rfl⟩
  have hpart : ∀ q, q ≠ w.port → ((handoff l w t).session q).lockPart =
      { (s.session q).lockPart with
        stack := if q = p then (s.session q).stack.dropLast else (s.session q).stack } := fun q hq => by
    rw [handoff_session_other l t hq, hpop]
  refine ⟨numbersDistinct_dropEntry h.numbers hdrop, fun v hv => ?_, fun q => ?_, fun q k => ?_, fun q => ?_,
    fun q x hx => ?_, fun k q e hx => ?_⟩
  · have hold := h.entry v (List.mem_filter.mp (hdrop ▸ hv)).1
    by_cases hq : v.port = w.port
    · rw [hq] at hold ⊢
      rw [hsame]
      exact hold
    · rw [hpart _ hq]
      exact hold
  · by_cases hq : q = w.port
    · subst hq
      rw [hsame]
      dsimp only
      rw [List.length_append]
      exact hroom
    · rw [hpart q hq]
      dsimp only
      split
      · rw [List.length_dropLast]
        exact Nat.le_trans (Nat.sub_le _ _) (h.depth q)
      · exact h.depth q
  · have hcount := h.count_popped htop q k
    rw [hholder]
    by_cases hq : q = w.port
    · subst hq
      rw [if_neg hother] at hcount
      rw [hsame]
      dsimp only
      rw [List.count_append, hcount]
      by_cases hk : k = l
      · simp [hk]
      · simp [hk, Ne.symm hk]
    · rw [hpart q hq]
      dsimp only
      rw [hcount]
      by_cases hk : k = l
      · simp [hk, Ne.symm hq]
      · simp [hk]
  · refine claims_after_drop h hw hdrop ?_
    by_cases hq : q = w.port
    · subst hq
      rw [hsame, if_pos ⟨rfl, by rw [hwait]; rfl⟩]
    · rw [hpart q hq, if_neg (c := w.port = q ∧ _) fun e => hq e.1.symm]
  · by_cases hq : q = w.port
    · subst hq
      rw [hsame] at hx
      cases hx
    · rw [hpart q hq] at hx ⊢
      obtain ⟨⟨r', hr', hne'⟩, hlen⟩ := h.marker q x hx
      refine ⟨?_, ?_⟩
      · rw [hholder]
        split
        · exact ⟨_, rfl, Ne.symm hq⟩
        · exact ⟨r', hr', hne'⟩
      · dsimp only
        split
        · rw [List.length_dropLast]
          exact Nat.lt_of_le_of_lt (Nat.sub_le _ _) hlen
        · exact hlen
  · rw [handoff_lock] at hx
    by_cases hq : q = w.port
    · subst hq
      rw [hsame]
      split at hx
      · obtain ⟨-, rfl⟩ := LockState.held.inj hx
        exact h.entry w hw
      · rw [hlocks] at hx
        exact h.holder k w.port e hx
    · rw [hpart q hq]
      split at hx
      · obtain ⟨rfl, -⟩ := LockState.held.inj hx
        exact absurd rfl hq
      · rw [hlocks] at hx
        exact h.holder k q e hx

/-- The top lock of a stack, popped and passed on (R56, R60). -/
theorem lockOk_passOn : LockOk (passOn l t).1 := by
  unfold passOn
  split
  · next w ws hw =>
    obtain ⟨hmem, hwait⟩ := mem_lockWaiters.mp (hw ▸ List.mem_cons_self : w ∈ lockWaiters t l)
    exact lockOk_handoff h htop hpool hlocks hpop (hpool ▸ hmem) hwait
  · next hnone => exact lockOk_freeLock h htop hpool hlocks hpop hnone
end

end Sys2Proof.Machine
end

section
/-!
PROOFS. The teardown, OPEN, the tick and the resets keep the law of locks, and with them every step does (O57).
-/

namespace Sys2Proof.Machine

open Sys2Proof.Safety

/-! ### The teardown -/

theorem lockOk_dropAllEntries (p : Port) {s : State} (h : LockOk s) : LockOk (dropAllEntries p s) := by
  have hpart : ∀ q, ((dropAllEntries p s).session q).lockPart =
      { (s.session q).lockPart with pending := if q = p then none else (s.session q).lockPart.pending } := by
    intro q
    rw [dropAllEntries_session]
    split <;> rfl
  refine ⟨numbersDistinct_dropAllEntries h.numbers p, fun w hw => ?_, fun q => ?_, fun q l => ?_, fun q => ?_,
    fun q x hx => ?_, fun l q e hx => ?_⟩
  · rw [hpart]
    exact h.entry w (List.mem_filter.mp hw).1
  · rw [hpart]
    exact h.depth q
  · rw [hpart]
    exact h.count q l
  · rw [hpart, lockClaims]
    by_cases hq : q = p
    · subst hq
      rw [entriesOf_of_absent (absent_dropAllEntries q s)]
      simp
    · rw [entriesOf_dropAllEntries hq]
      rw [if_neg hq]
      exact h.claims q
  · rw [hpart] at hx ⊢
    dsimp only at hx
    split at hx
    · cases hx
    · exact h.marker q x hx
  · rw [hpart]
    exact h.holder l q e hx

/-- The locks of a stack, from the top downward, are handed on (R60). -/
theorem lockOk_foldl_teardownLock {p : Port} {ls : List (Fin 48)} {s : State} (h : LockOk s) (ha : Absent p s)
    (hs : (s.session p).stack = ls.reverse) : LockOk (ls.foldl (teardownLock p) s) := by
  induction ls generalizing s with
  | nil => exact h
  | cons l ls ih =>
    have hsame := teardownLock_session_same (l := l) ha
    have htop : (s.session p).stack.getLast? = some l := by rw [hs, List.reverse_cons, List.getLast?_concat]
    refine ih ?_ (absent_of_subset ha (teardownLock_pool_sublist (l := l)).subset) ?_
    · refine lockOk_passOn h htop (popped_pool p l s) (fun k => popped_lock p l k s) fun q => ?_
      change ((popped p l s).session q).lockPart = _
      rw [popped_session]
      split <;> rfl
    · rw [hsame, hs, List.reverse_cons, List.dropLast_concat]

theorem lockOk_released (p : Port) {s : State} (h : LockOk s) : LockOk (released p s) := by
  refine lockOk_foldl_teardownLock ?_ (absent_walked p s) ?_
  · exact foldl_kept (fun t c ht => lockOk_grantWalk c ht) _ (lockOk_dropAllEntries p h)
  · rw [walked_session, List.reverse_reverse]

/-- A session with no entry and no lock may end. -/
theorem lockOk_closing {p : Port} {s : State} (h : LockOk s) (ha : Absent p s) (hs : (s.session p).stack = []) :
    LockOk (s.modSession p Session.closing) := by
  have hnone : ∀ l, holderOf s l ≠ some p := fun l hl => by
    have hcount : (s.session p).stack.count l = if holderOf s l = some p then 1 else 0 := h.count p l
    rw [hs, if_pos hl] at hcount
    cases hcount
  have hpart : ∀ q, ((s.modSession p Session.closing).session q).lockPart =
      { (s.session q).lockPart with closed := if q = p then true else (s.session q).lockPart.closed } := by
    intro q
    rw [State.modSession_session]
    split <;> rfl
  refine ⟨h.numbers, fun w hw => ?_, fun q => ?_, fun q l => ?_, fun q => ?_, fun q x hx => ?_, fun l q e hx => ?_⟩
  · rw [hpart]
    dsimp only
    rw [if_neg (ha w hw)]
    exact h.entry w hw
  · rw [hpart]
    exact h.depth q
  · rw [hpart]
    exact h.count q l
  · rw [hpart]
    exact h.claims q
  · rw [hpart] at hx ⊢
    exact h.marker q x hx
  · rw [hpart]
    dsimp only
    rw [if_neg (c := q = p) fun hq => hnone l ((holderOf_eq_some s l p).mpr ⟨e, hq ▸ hx⟩)]
    exact h.holder l q e hx

theorem lockOk_teardown (p : Port) {s : State} (h : LockOk s) : LockOk (teardown p s) := by
  rw [teardown_eq]
  refine lockOk_handOn _ _ _ (lockOk_closing (lockOk_released p h) (absent_released p s) ?_)
  rw [released_session]

/-! ### OPEN, the tick and the claim of a session -/

/-- A CLOSED session has no lock and no entry, so its epoch may change (R123). -/
theorem lockOk_opening {p : Port} (units : Byte) {s : State} (h : LockOk s) (hc : (s.session p).state = .closed) :
    LockOk (s.modSession p fun x => x.opening units) := by
  have hclosed : (s.session p).lockPart.closed = true := by simp [Session.lockPart, hc]
  have hpart : ∀ q, ((s.modSession p fun x => x.opening units).session q).lockPart =
      if q = p then { (s.session q).lockPart with closed := false, epoch := epochAfter (s.session q).epoch }
      else (s.session q).lockPart := by
    intro q
    rw [State.modSession_session]
    split <;> rfl
  have hother : ∀ q, (s.session q).lockPart.closed = false → q ≠ p := fun q hq e => by
    rw [e, hclosed] at hq
    cases hq
  refine ⟨h.numbers, fun w hw => ?_, fun q => ?_, fun q l => ?_, fun q => ?_, fun q x hx => ?_, fun l q e hx => ?_⟩
  · have hold := h.entry w hw
    rw [hpart, if_neg (hother _ hold.1)]
    exact hold
  · rw [hpart]
    have hold := h.depth q
    split
    · exact hold
    · exact hold
  · rw [hpart]
    have hold := h.count q l
    split
    · exact hold
    · exact hold
  · rw [hpart]
    have hold := h.claims q
    split
    · exact hold
    · exact hold
  · have hold := h.marker q x
    rw [hpart] at hx ⊢
    split at hx
    · next hq =>
      rw [if_pos hq]
      exact hold hx
    · next hq =>
      rw [if_neg hq]
      exact hold hx
  · have hold := h.holder l q e hx
    rw [hpart, if_neg (hother _ hold.1)]
    exact hold

theorem lockPart_leaseTicked {x : Session} (h : x.state = .opened) : x.leaseTicked.lockPart = x.lockPart := by
  unfold Session.leaseTicked
  split
  · rw [Session.lockPart, Session.lockPart, h]
    rfl
  · split
    · exact lockPart_offered (.leaseLow (x.leaseRemaining - 1)) { x with leaseRemaining := x.leaseRemaining - 1 }
    · rfl

theorem claim_lowerDeadline (f : Fresh) (w : WaitEntry) : (lowerDeadline f w).claim = w.claim := by
  obtain ⟨-, -, -, hticket, hwait⟩ := lowerDeadline_fields f w
  rw [WaitEntry.claim, WaitEntry.claim, hwait, hticket]

theorem lockOk_lowered (f : Fresh) {s : State} (h : LockOk s) :
    LockOk { s with pool := s.pool.map (lowerDeadline f) } := by
  refine h.of_thinned (numbersDistinct_lowerDeadline h.numbers) (fun w hw => ?_) (fun q => .of_eq ?_) rfl fun q => rfl
  · obtain ⟨v, hv, rfl⟩ := List.mem_map.mp hw
    obtain ⟨-, hport, hepoch, -, -⟩ := lowerDeadline_fields f v
    exact ⟨v, hv, hport.symm, hepoch.symm⟩
  · rw [lockClaims, entriesOf_lowerDeadline, List.filterMap_map, lockClaims]
    exact congrArg (fun g => (entriesOf s q).filterMap g) (funext fun w => claim_lowerDeadline f w)

theorem lockOk_tickLease (s : State) (p : Port) (h : LockOk s) : LockOk (tickLease s p) := by
  refine h.of_sessions ?_ ?_ fun q => ?_
  · rw [tickLease_eq]
    rfl
  · rw [tickLease_eq]
    rfl
  · rw [tickLease_session]
    split
    · next hq =>
      obtain ⟨rfl, hc⟩ := hq
      exact lockPart_leaseTicked ((leaseCounts_iff s q).mp hc).1
    · rfl

theorem lockOk_tickActs (s : State) (h : LockOk s) : LockOk (tickActs s) := by
  refine foldl_kept lockOk_tickLease allPorts ?_
  exact (lockOk_lowered s.fresh h).of_sessions rfl rfl fun _ => rfl

theorem lockOk_claimSession (p : Port) (s : State) (h : LockOk s) : LockOk (claimSession p s) := by
  unfold claimSession
  split
  · next ho =>
    have hmod : LockOk (s.modSession p fun x => { x with state := .ending, endCause := .portReset, leaseRemaining := 0 }) :=
      h.modSession (by rw [Session.lockPart, Session.lockPart, ho]; rfl)
    exact hmod.of_sessions rfl rfl fun _ => rfl
  · exact h
  · exact h

/-! ### The resets -/

/-- Free locks, no entry and sessions without a stack or a marker. -/
theorem lockOk_blank {s : State} (hp : s.pool = []) (hl : ∀ l, (s.lock l).state = .free)
    (hs : ∀ p, (s.session p).stack = [] ∧ (s.session p).pendingAcquire = none) : LockOk s := by
  have hholder : ∀ l, holderOf s l = none := fun l => by rw [holderOf, hl]
  have hstack : ∀ p, (s.session p).lockPart.stack = [] := fun p => (hs p).1
  have hpending : ∀ p, (s.session p).lockPart.pending = none := fun p => (hs p).2
  refine ⟨numbersDistinct_of_empty hp, fun w hw => ?_, fun q => ?_, fun q l => ?_, fun q => ?_, fun q x hx => ?_,
    fun l q e hx => ?_⟩
  · rw [hp] at hw
    exact nomatch hw
  · rw [hstack]
    exact Nat.zero_le _
  · rw [hstack, hholder]
    rfl
  · rw [hpending, lockClaims, entriesOf, hp]
    exact List.Perm.refl _
  · rw [hpending] at hx
    cases hx
  · rw [hl] at hx
    cases hx

theorem lockOk_powerUp (s : State) : LockOk (powerUp s) := by
  refine lockOk_blank (powerUp_pool s) (fun l => by rw [powerUp_lock]) fun p => ?_
  rw [powerUp_session]
  exact ⟨rfl, rfl⟩

theorem lineReset_lock (s : State) (l : Fin 48) : (lineReset s).lock l = ⟨.free, 0⟩ := by
  rw [lineReset, State.lock_mk]
  exact Vector.getElem_replicate _

theorem lineReset_session (s : State) (p : Port) : (lineReset s).session p = (s.session p).lineReset := by
  cases p <;> rfl

theorem lockOk_lineReset (s : State) : LockOk (lineReset s) := by
  refine lockOk_blank (by simp only [lineReset]) (fun l => by rw [lineReset_lock]) fun p => ?_
  rw [lineReset_session]
  exact ⟨rfl, rfl⟩

/-! ### The work of each kind -/

theorem claim_of_lock {w : WaitEntry} {l : Fin 48} (h : w.wait = .lock l) : w.claim = some (l, w.ticket) :=
  (claim_eq_some w (l, w.ticket)).mpr ⟨h, rfl⟩

/-- The new entry of a TAKE or an AWAIT. -/
theorem lockOk_createEntry {p : Port} {wait : Wait} {timeout : Word} {s u : State} {t : Byte}
    (hc : createEntry p wait timeout s = .ok (t, u)) (hwait : ∀ l, wait ≠ .lock l)
    (ho : (s.session p).state = .opened) (h : LockOk s) : LockOk u := by
  obtain ⟨w, hpool, rfl, -, hw, hepoch, hfresh⟩ := createEntry_entry hc
  have hnone : w.claim = none := Option.eq_none_iff_forall_not_mem.mpr fun x hx =>
    hwait x.1 (hw ▸ ((claim_eq_some w x).mp hx).1)
  refine lockOk_created h hpool hfresh ho hepoch ?_ (fun x hx => ?_) fun q => ?_
  · obtain ⟨n, -, -, -, -, rfl⟩ := createEntry_ok hc
    rfl
  · rw [hnone] at hx
    cases hx
  · rw [createEntry_session hc, hnone]
    split <;> simp [Session.lockPart]

/-- The new entry of an ACQUIRE, with its marker (R53). -/
theorem lockOk_waitForLock {p q : Port} {l : Fin 48} {timeout : Word} {s u : State} {t : Byte}
    (hc : createEntry p (.lock l) timeout s = .ok (t, u)) (ho : (s.session p).state = .opened)
    (hcheck : acquireCheck (s.session p) l = none) (hheld : holderOf s l = some q) (h : LockOk s) :
    LockOk (u.modSession p fun x => { x with pendingAcquire := some (l, t) }) := by
  obtain ⟨hmem, hpending, hdepth⟩ := acquireCheck_eq_none.mp hcheck
  obtain ⟨w, hpool, rfl, rfl, hw, hepoch, hfresh⟩ := createEntry_entry hc
  have hclaim := claim_of_lock hw
  refine lockOk_created h hpool hfresh ho hepoch ?_ (fun x hx => ?_) fun r => ?_
  · obtain ⟨n, -, -, -, -, rfl⟩ := createEntry_ok hc
    rfl
  · rw [hclaim] at hx
    cases hx
    refine ⟨hpending, ⟨q, hheld, fun e => ?_⟩, hdepth⟩
    have hcount : (s.session w.port).stack.count l = if holderOf s l = some w.port then 1 else 0 := h.count w.port l
    rw [hheld, e, if_pos rfl, List.count_eq_zero_of_not_mem hmem] at hcount
    cases hcount
  · rw [State.modSession_session, createEntry_session hc, hclaim]
    by_cases hr : r = w.port
    · simp [hr, Session.lockPart]
    · simp [hr, Ne.symm hr, Session.lockPart]

theorem lockOk_served {k : Kind} {p : Port} {s u : State} {a : Reply} (h : LockOk s)
    (ho : k.needsOpen = true → (s.session p).state = .opened) (hserved : Served p s k u a) : LockOk u := by
  cases hserved with
  | refused | answered => exact h
  | opened units f hclosed => exact (lockOk_opening units h hclosed).of_sessions rfl rfl fun _ => rfl
  | closed => exact lockOk_teardown p (h.modSession rfl)
  | renewed =>
    have hmod : LockOk (s.modSession p fun x =>
      { x with leaseRemaining := x.leasePeriod.getD 0, expected := x.expected.other, lowReported := false }) :=
      h.modSession rfl
    exact hmod.of_sessions rfl rfl fun _ => rfl
  | chained steps r => exact lockOk_handOn _ _ _ (h.of_sessions rfl rfl fun _ => rfl)
  | formatted c x => exact lockOk_handOn _ _ _ (h.of_sessions rfl rfl fun _ => rfl)
  | granted l f hcheck hfree => exact lockOk_grantLock h (ho rfl) hcheck hfree
  | waitsForLock l q timeout t u f hcheck hheld hcreate => exact lockOk_waitForLock hcreate (ho rfl) hcheck hheld h
  | released l f _ _ htop =>
    refine lockOk_passOn h htop (by rw [markBank_pool]; rfl) (fun k => ?_) fun q => ?_
    · rw [← State.locks_at, markBank_locks]
      rfl
    · rw [← State.sessions_get, markBank_sessions, State.sessions_get, popStack, State.modSession_session]
      split <;> rfl
  | taken c ceil v amount =>
    exact lockOk_handOn _ _ _ (h.of_sessions (lowerCounter_pool c _ s) (lowerCounter_locks c _ s)
      fun q => by rw [lowerCounter_session])
  | waitsToTake c ceil v amount timeout t u f _ _ hcreate => exact lockOk_createEntry hcreate nofun (ho rfl) h
  | given c ceil v amount =>
    exact lockOk_handOn _ _ _ (lockOk_grantWalk c (h.of_sessions rfl rfl fun _ => rfl))
  | awaits c cond operand timeout t u f _ hcreate => exact lockOk_createEntry hcreate nofun (ho rfl) h
  | cancelled t w f hw => exact lockOk_cancelEntry h (List.mem_of_find?_eq_some hw)
  | watched | unwatched | fetched => exact h.modSession rfl

theorem stepLaw_locks : StepLaw LockOk where
  data hd h := h.of_sessions hd.pool hd.locks fun q => by
    rw [← State.sessions_get, hd.sessions, State.sessions_get]
  tick := lockOk_tickActs
  claim := lockOk_claimSession
  work := lockOk_served
  expiry n p t s h := by
    unfold serveExpiry
    split
    · exact h
    · next w hw => exact lockOk_expireEntry h (List.mem_of_find?_eq_some hw)
  teardown p s h _ := (lockOk_teardown p h).of_sessions rfl rfl fun _ => rfl
  powerUp := lockOk_powerUp
  lineReset s _ := lockOk_lineReset s

/-- Settles O57: each effect on locks, stacks, markers and LOCK-WAIT entries keeps the five laws together. -/
theorem lockLawIsKept : Obligations.LockLawIsKept := fun s t hs ht =>
  (lockOk_iff t).mp (stepLaw_locks.keeps_step ((lockOk_iff s).mpr hs) ht)

end Sys2Proof.Machine
end

section
/-!
PROOFS. No TAKE or AWAIT is left waiting that could be served (O58).
-/

namespace Sys2Proof.Machine

open Sys2Proof.Safety

/-! ### Waiters of a cell through changes of the pool -/

/-- The end of an entry that takes from another cell, or from none. -/
theorem takeWaiters_drop {s t : State} (h : NumbersDistinct s) {w : WaitEntry} (hw : w ∈ s.pool)
    (ht : t.pool = s.pool.filter fun x => x.number != w.number) {c : Fin 512} (hc : w.takes c = false) :
    takeWaiters t c = takeWaiters s c := by
  rw [takeWaiters, ht, List.filter_filter]
  refine List.filter_congr fun x hx => ?_
  cases hx' : x.takes c
  · simp
  · have hne : x.number ≠ w.number := fun e => by
      rw [eq_of_number h hx hw e, hc] at hx'
      cases hx'
    simp [hne]

theorem takeWaiters_append {s t : State} {w : WaitEntry} (ht : t.pool = s.pool ++ [w]) (c : Fin 512) :
    takeWaiters t c = takeWaiters s c ++ if w.takes c then [w] else [] := by
  rw [takeWaiters, ht, List.filter_append, takeWaiters]
  split
  · next h => simp [h]
  · next h => simp [h]

theorem takeWaiters_meetAwaits {s : State} (h : NumbersDistinct s) (c d : Fin 512) :
    takeWaiters (meetAwaits s c) d = takeWaiters s d := by
  rw [takeWaiters, meetAwaits_pool h, List.filter_filter]
  refine List.filter_congr fun x _ => ?_
  unfold WaitEntry.takes WaitEntry.awaits
  cases x.wait <;> simp

theorem takeWaiters_passOn {s : State} (h : NumbersDistinct s) (l : Fin 48) (c : Fin 512) :
    takeWaiters (passOn l s).1 c = takeWaiters s c := by
  unfold passOn
  split
  · next w ws hw =>
    obtain ⟨hmem, hwait⟩ := mem_lockWaiters.mp (hw ▸ List.mem_cons_self : w ∈ lockWaiters s l)
    exact takeWaiters_drop h hmem (handoff_pool l w s) (by simp [WaitEntry.takes, hwait])
  · rfl

theorem takeWaiters_grantWalk_other {s : State} (h : NumbersDistinct s) {c d : Fin 512} (hd : d ≠ c) :
    takeWaiters (grantWalk c s).1 d = takeWaiters s d :=
  grantWalk_pool_filter h c fun w hw => takes_other hd w hw

/-! ### What a walk leaves waiting -/

/-- The take law of one cell. -/
def TakeOk (s : State) (c : Fin 512) : Prop :=
  ∀ w ws, takeWaiters s c = w :: ws → (s.cell c).kind = .counter ∧ (s.cell c).number.toNat < w.amount

theorem TakeOk.of_same {s t : State} {c : Fin 512} (h : TakeOk s c) (hw : takeWaiters t c = takeWaiters s c)
    (hc : t.cell c = s.cell c) : TakeOk t c := by
  unfold TakeOk
  rw [hw, hc]
  exact h

theorem takeOk_of_none {s : State} {c : Fin 512} (h : takeWaiters s c = []) : TakeOk s c := fun w ws hw => by
  rw [h] at hw
  cases hw

theorem counter_of_kind {x : Cell} (h : x.kind = .counter) : ∃ ceil v, x = .counter ceil v := by
  cases x with
  | counter ceil v => exact ⟨ceil, v, rfl⟩
  | plain | members => cases h

/-- A walk stops at the first waiter that the value does not cover (R72). -/
theorem takeOk_grantWalk {s : State} (h : NumbersDistinct s) {c : Fin 512} (hc : (s.cell c).kind = .counter) :
    TakeOk (grantWalk c s).1 c ∧ ((grantWalk c s).1.cell c).kind = .counter := by
  obtain ⟨ceil, v, hcell⟩ := counter_of_kind hc
  obtain ⟨served, rest, hsplit, -, -, hend, hstop, hpool, -⟩ := walkOver_spec c (takeWaiters s c) hcell
  have hrest : takeWaiters (grantWalk c s).1 c = rest := by
    have hnodup : ((served ++ rest).map WaitEntry.number).Nodup :=
      hsplit ▸ h.sublist (List.filter_sublist.map WaitEntry.number)
    rw [List.map_append, List.nodup_append] at hnodup
    obtain ⟨-, -, hdisj⟩ := hnodup
    rw [takeWaiters, grantWalk, hpool, List.filter_filter]
    simp only [Bool.and_comm (WaitEntry.takes c _)]
    rw [← List.filter_filter]
    change (takeWaiters s c).filter _ = rest
    rw [hsplit, List.filter_append, List.filter_eq_nil_iff.mpr, List.filter_eq_self.mpr, List.nil_append]
    · intro w hw
      rw [decide_eq_true_iff]
      exact fun hmem => hdisj _ hmem _ (List.mem_map_of_mem hw) rfl
    · intro w hw
      rw [decide_eq_true_iff, Classical.not_not]
      exact List.mem_map_of_mem hw
  have hend' : (grantWalk c s).1.cell c = _ := hend
  refine ⟨fun w ws hw => ?_, by rw [hend']; rfl⟩
  rw [hrest] at hw
  refine ⟨by rw [hend']; rfl, ?_⟩
  rw [hend']
  change (BitVec.ofNat 16 _).toNat < _
  rw [toNat_sub_amount]
  exact hstop w ws hw

/-- Walks over a list of COUNTER cells serve the waiters of each. -/
theorem takeLaw_foldl_grantWalk {cs : List (Fin 512)} {s : State} (h : NumbersDistinct s)
    (hother : ∀ d, d ∉ cs → TakeOk s d) (hkind : ∀ d ∈ cs, (s.cell d).kind = .counter) :
    TakeLaw (cs.foldl (fun t c => (grantWalk c t).1) s) := by
  induction cs generalizing s with
  | nil => exact fun d => hother d (by simp)
  | cons c cs ih =>
    obtain ⟨hok, hcounter⟩ := takeOk_grantWalk h (hkind c List.mem_cons_self)
    refine ih (numbersDistinct_grantWalk h c) (fun d hd => ?_) fun d hd => ?_
    · by_cases hdc : d = c
      · exact hdc ▸ hok
      · exact (hother d (by simp [hdc, hd])).of_same (takeWaiters_grantWalk_other h hdc) (grantWalk_cell_other c d s hdc)
    · by_cases hdc : d = c
      · exact hdc ▸ hcounter
      · rw [grantWalk_cell_other c d s hdc]
        exact hkind d (List.mem_cons_of_mem _ hd)

/-! ### The handing on of net changes -/

/-- Numbers are distinct and no TAKE or AWAIT waits that could be served. -/
def WaiterOk (s : State) : Prop := NumbersDistinct s ∧ TakeLaw s ∧ AwaitLaw s

/-- What a piece of work leaves for the handing on: no TAKE to serve, AWAITs that waited before it, and changes of
touched cells alone. -/
structure Owed (s t : State) (touched : List (Fin 512)) : Prop where
  numbers : NumbersDistinct t
  take    : TakeLaw t
  awaits  : ∀ w ∈ t.pool, ∀ c, w.awaits c = true → w ∈ s.pool
  cells   : ∀ c, t.cell c ≠ s.cell c → c ∈ touched

theorem awaitLaw_iff (s : State) :
    AwaitLaw s ↔ ∀ w ∈ s.pool, ∀ c, w.awaits c = true → w.metBy (s.cell c).reported = false := by
  refine forall_congr' fun w => forall_congr' fun _ => ?_
  unfold WaitEntry.awaits WaitEntry.metBy
  cases w.wait with
  | lock | take => simp
  | await d cond operand =>
    simp only [Wait.await.injEq, beq_iff_eq]
    exact ⟨fun h c hc => hc ▸ h d cond operand ⟨rfl, rfl, rfl⟩,
      fun h c cond' op' he => by
        obtain ⟨rfl, rfl, rfl⟩ := he
        exact h d rfl⟩

/-- The checks of a list of changed cells meet every AWAIT whose condition holds on one of them (R91). -/
theorem foldl_meetAwaits_spec {cs : List (Fin 512)} {s : State} (h : NumbersDistinct s) :
    NumbersDistinct (cs.foldl meetAwaits s) ∧ (cs.foldl meetAwaits s).cells = s.cells ∧
      (∀ d, takeWaiters (cs.foldl meetAwaits s) d = takeWaiters s d) ∧
      ∀ w ∈ (cs.foldl meetAwaits s).pool, w ∈ s.pool ∧
        ∀ c ∈ cs, w.awaits c = true → w.metBy (s.cell c).reported = false := by
  induction cs generalizing s with
  | nil => exact ⟨h, rfl, fun _ => rfl, fun w hw => ⟨hw, fun c hc => nomatch hc⟩⟩
  | cons c cs ih =>
    obtain ⟨hn, hcells, htake, hmet⟩ := ih (numbersDistinct_of_sublist h (meetAwaits_pool_sublist s c))
    have hcell : ∀ d, (meetAwaits s c).cell d = s.cell d := fun d => by
      rw [← State.cells_at, meetAwaits_cells, State.cells_at]
    refine ⟨hn, hcells.trans (meetAwaits_cells s c), fun d => (htake d).trans (takeWaiters_meetAwaits h c d),
      fun w hw => ?_⟩
    obtain ⟨hmem, hrest⟩ := hmet w hw
    rw [meetAwaits_pool h, List.mem_filter] at hmem
    obtain ⟨hpool, hnot⟩ := hmem
    refine ⟨hpool, fun d hd ha => ?_⟩
    rcases List.mem_cons.mp hd with rfl | hd
    · simpa [ha] using hnot
    · rw [← hcell d]
      exact hrest d hd ha

/-- The handing on settles what a piece of work owes. -/
theorem waiterOk_handOn {s t : State} {touched : List (Fin 512)} (hs : AwaitLaw s) (h : Owed s t touched)
    (origin : Option Port) : WaiterOk (handOn origin s.cells touched t) := by
  obtain ⟨hn, hcells, htake, hmet⟩ := foldl_meetAwaits_spec (cs := netChanges s.cells touched t) h.numbers
  have hpool : (handOn origin s.cells touched t).pool =
      ((netChanges s.cells touched t).foldl meetAwaits t).pool := by
    unfold handOn
    cases origin with
    | none => rfl
    | some p => exact foldl_keeps State.pool (notifyWatchers_pool p) _ _
  have hcell : ∀ c, (handOn origin s.cells touched t).cell c = t.cell c := fun c => by
    rw [← State.cells_at, handOn_cells, State.cells_at]
  refine ⟨numbersDistinct_of_sublist hn (hpool ▸ List.Sublist.refl _), fun c => ?_, ?_⟩
  · refine TakeOk.of_same (h.take c) ?_ (hcell c)
    rw [takeWaiters, hpool]
    exact htake c
  · rw [awaitLaw_iff]
    intro w hw c ha
    obtain ⟨hmem, hnot⟩ := hmet w (hpool ▸ hw)
    rw [hcell]
    by_cases hc : c ∈ netChanges s.cells touched t
    · exact hnot c hc ha
    · have hsame : (t.cell c).reported = (s.cell c).reported := by
        refine Classical.byContradiction fun hne => ?_
        have htouched := h.cells c fun e => hne (congrArg _ e)
        refine hc (List.mem_filter.mpr ⟨(mem_ascending c touched).mpr htouched, ?_⟩)
        rw [bne_iff_ne]
        exact Ne.symm hne
      rw [hsame]
      exact (awaitLaw_iff s).mp hs w (h.awaits w hmem c ha) c ha

/-- A piece of work that changes no cell owes nothing. -/
theorem waiterOk_of_owed {s t : State} (hs : AwaitLaw s) (h : Owed s t []) : WaiterOk t := by
  refine ⟨h.numbers, h.take, (awaitLaw_iff t).mpr fun w hw c ha => ?_⟩
  have hsame : t.cell c = s.cell c := by
    refine Classical.byContradiction fun hne => ?_
    exact nomatch h.cells c hne
  rw [hsame]
  exact (awaitLaw_iff s).mp hs w (h.awaits w hw c ha) c ha

/-- A change that leaves the cells, keeps the TAKE waiters and adds no entry. -/
theorem owed_of_cells {s t : State} (hs : WaiterOk s) (hn : NumbersDistinct t) (hp : t.pool ⊆ s.pool)
    (hw : ∀ c, takeWaiters t c = takeWaiters s c) (hc : t.cells = s.cells) : Owed s t [] := by
  have hcell : ∀ c, t.cell c = s.cell c := fun c => by rw [← State.cells_at, hc, State.cells_at]
  exact ⟨hn, fun c => TakeOk.of_same (hs.2.1 c) (hw c) (hcell c), fun w hw _ _ => hp hw,
    fun c hne => absurd (hcell c) hne⟩

theorem waiterOk_of_same {s t : State} (hs : WaiterOk s) (hp : t.pool = s.pool) (hc : t.cells = s.cells) :
    WaiterOk t := by
  refine waiterOk_of_owed hs.2.2 (owed_of_cells hs ?_ (hp ▸ List.Subset.refl _) (fun c => ?_) hc)
  · exact numbersDistinct_of_sublist hs.1 (hp ▸ List.Sublist.refl _)
  · rw [takeWaiters, hp]
    rfl

/-- The walk over one COUNTER cell, of a state in which only that cell's waiters could be served. -/
theorem owed_grantWalk {s t : State} {c : Fin 512} (hn : NumbersDistinct t) (hkind : (t.cell c).kind = .counter)
    (hother : ∀ d, d ≠ c → TakeOk t d) (hawaits : ∀ w ∈ t.pool, ∀ d, w.awaits d = true → w ∈ s.pool)
    (hcells : ∀ d, d ≠ c → t.cell d = s.cell d) : Owed s (grantWalk c t).1 [c] := by
  have hlaw : TakeLaw (grantWalk c t).1 := by
    refine takeLaw_foldl_grantWalk (cs := [c]) hn (fun d hd => hother d ?_) fun d hd => ?_
    · rwa [List.mem_singleton] at hd
    · rw [List.mem_singleton] at hd
      exact hd ▸ hkind
  refine ⟨numbersDistinct_grantWalk hn c, hlaw, fun w hw d ha => hawaits w (grantWalk_pool_subset c t hw) d ha,
    fun d hne => ?_⟩
  rw [List.mem_singleton]
  refine Classical.byContradiction fun hd => ?_
  exact hne ((grantWalk_cell_other c d t hd).trans (hcells d hd))

end Sys2Proof.Machine
end

section
/-!
PROOFS. What each effect owes its waiters, and the law of waiters after every step (O58).
-/

namespace Sys2Proof.Machine

open Sys2Proof.Safety

/-! ### The end of an entry -/

/-- The TAKE waiters of a cell after the end of an entry that is not their head. -/
theorem takeOk_drop {s t : State} (hs : WaiterOk s) {w : WaitEntry} (hw : w ∈ s.pool)
    (ht : t.pool = s.pool.filter fun x => x.number != w.number) {c : Fin 512} (hc : t.cell c = s.cell c)
    (hhead : headOf w s ≠ some c) : TakeOk t c := by
  have hfilter : takeWaiters t c = (takeWaiters s c).filter fun x => x.number != w.number := by
    rw [takeWaiters, ht, takeWaiters, List.filter_filter, List.filter_filter]
    exact List.filter_congr fun x _ => Bool.and_comm _ _
  cases htakes : w.takes c
  · exact TakeOk.of_same (hs.2.1 c) (takeWaiters_drop hs.1 hw ht htakes) hc
  · cases hwaiters : takeWaiters s c with
    | nil => exact takeOk_of_none (by rw [hfilter, hwaiters]; rfl)
    | cons v vs =>
      have hwait := (mem_takeWaiters.mp (List.mem_filter.mpr ⟨hw, htakes⟩ : w ∈ takeWaiters s c)).2
      have hne : v.number ≠ w.number := fun e => hhead ((headOf_iff s w c).mpr ⟨hwait, v, vs, hwaiters, e⟩)
      intro x xs hx
      rw [hfilter, hwaiters, List.filter_cons_of_pos (by simp [hne])] at hx
      obtain ⟨rfl, -⟩ := List.cons_eq_cons.mp hx
      rw [hc]
      exact hs.2.1 c v vs hwaiters

/-- An entry that leaves, and the walk where it was the head of its cell (R92). -/
theorem waiterOk_freed {s t : State} (hs : WaiterOk s) {w : WaitEntry} (hw : w ∈ s.pool)
    (ht : t.pool = s.pool.filter fun x => x.number != w.number) (hc : t.cells = s.cells) :
    WaiterOk (walkAfter (headOf w s) s.cells t) := by
  have hcell : ∀ c, t.cell c = s.cell c := fun c => by rw [← State.cells_at, hc, State.cells_at]
  have hnum := numbersDistinct_dropEntry hs.1 ht
  have hsub : t.pool ⊆ s.pool := ht ▸ List.filter_sublist.subset
  unfold walkAfter
  split
  · next hnone =>
    refine waiterOk_of_owed hs.2.2 ⟨hnum, fun c => ?_, fun v hv _ _ => hsub hv, fun c hne => absurd (hcell c) hne⟩
    exact takeOk_drop hs hw ht (hcell c) (by rw [hnone]; exact nofun)
  · next c hhead =>
    obtain ⟨-, v, vs, hwaiters, -⟩ := (headOf_iff s w c).mp hhead
    refine waiterOk_handOn hs.2.2 (owed_grantWalk hnum ?_ (fun d hd => ?_) (fun v hv _ _ => hsub hv)
      fun d _ => hcell d) none
    · rw [hcell]
      exact (hs.2.1 c v vs hwaiters).1
    · refine takeOk_drop hs hw ht (hcell d) ?_
      rw [hhead]
      exact fun e => hd (Option.some.inj e).symm

theorem waiterOk_cancelEntry {s : State} (hs : WaiterOk s) {w : WaitEntry} (hw : w ∈ s.pool) :
    WaiterOk (cancelEntry w s) := by
  refine waiterOk_freed hs hw ?_ (clearMarker_cells w _)
  rw [clearMarker_eq]
  rfl

theorem waiterOk_expireEntry {s : State} (hs : WaiterOk s) {w : WaitEntry} (hw : w ∈ s.pool) :
    WaiterOk (expireEntry w s) := by
  refine waiterOk_freed hs hw ?_ ?_
  · rw [clearMarker_eq, State.modSession_pool, placeReserved_pool, dropEntry_pool]
  · rw [clearMarker_cells, placeReserved_eq]
    rfl

/-! ### The teardown -/

theorem owed_walked {s : State} (hs : WaiterOk s) (p : Port) : Owed s (walked p s) (headedCells p s) := by
  have hdrop : ∀ d, takeWaiters (dropAllEntries p s) d = (takeWaiters s d).filter fun w => w.port ≠ p := fun d => by
    rw [takeWaiters, dropAllEntries_pool, takeWaiters, List.filter_filter, List.filter_filter]
    exact List.filter_congr fun x _ => Bool.and_comm _ _
  refine ⟨numbersDistinct_foldl_grantWalk _ (numbersDistinct_dropAllEntries hs.1 p),
    takeLaw_foldl_grantWalk (numbersDistinct_dropAllEntries hs.1 p) (fun d hd => ?_) (fun d hd => ?_),
    fun w hw _ _ => ?_, fun c hne => ?_⟩
  · cases hwaiters : takeWaiters s d with
    | nil => exact takeOk_of_none (by rw [hdrop, hwaiters]; rfl)
    | cons v vs =>
      have hport : v.port ≠ p := fun e => hd ((mem_headedCells hs.1 p d).mpr ⟨v, vs, hwaiters, e⟩)
      intro x xs hx
      rw [hdrop, hwaiters, List.filter_cons_of_pos (by simp [hport])] at hx
      obtain ⟨rfl, -⟩ := List.cons_eq_cons.mp hx
      exact hs.2.1 d v vs hwaiters
  · obtain ⟨w, ws, hw, -⟩ := (mem_headedCells hs.1 p d).mp hd
    exact (hs.2.1 d w ws hw).1
  · exact (List.mem_filter.mp (foldl_grantWalk_subset _ _ hw)).1
  · refine Classical.byContradiction fun hc => ?_
    exact hne (foldl_grantWalk_cell_other _ _ hc)

/-- Locks that are handed on keep the debt of a teardown. -/
theorem owed_released {s : State} (hs : WaiterOk s) (p : Port) : Owed s (released p s) (headedCells p s) := by
  refine foldl_kept (L := fun t => Owed s t (headedCells p s)) (fun t l ht => ?_) _ (owed_walked hs p)
  have hnum : NumbersDistinct (popped p l t) := numbersDistinct_of_sublist ht.numbers
    (popped_pool p l t ▸ List.Sublist.refl _)
  have hcell : ∀ c, (teardownLock p t l).cell c = t.cell c := fun c => by
    rw [← State.cells_at, teardownLock_cells, State.cells_at]
  refine ⟨numbersDistinct_teardownLock ht.numbers p l, fun c => TakeOk.of_same (ht.take c) ?_ (hcell c),
    fun w hw c ha => ht.awaits w ((teardownLock_pool_sublist (l := l)).subset hw) c ha,
    fun c hne => ht.cells c (hcell c ▸ hne)⟩
  rw [teardownLock_eq, takeWaiters_passOn hnum, takeWaiters, popped_pool]
  rfl

theorem waiterOk_teardown (p : Port) {s : State} (hs : WaiterOk s) : WaiterOk (teardown p s) := by
  rw [teardown_eq]
  obtain ⟨hn, ht, ha, hc⟩ := owed_released hs p
  exact waiterOk_handOn (t := (released p s).modSession p Session.closing) hs.2.2 ⟨hn, ht, ha, hc⟩ none

/-! ### A new entry -/

theorem createEntry_cells {p : Port} {wait : Wait} {timeout : Word} {s u : State} {t : Byte}
    (hc : createEntry p wait timeout s = .ok (t, u)) : u.cells = s.cells := by
  obtain ⟨n, -, -, -, -, rfl⟩ := createEntry_ok hc
  rfl

/-- A new entry that waits for a lock, for a value that does not cover it or behind another, or for a condition that
does not hold. -/
theorem waiterOk_createEntry {p : Port} {wait : Wait} {timeout : Word} {s u : State} {t : Byte}
    (hc : createEntry p wait timeout s = .ok (t, u))
    (htake : ∀ c n, wait = .take c n → (s.cell c).kind = .counter ∧
      (takeWaiters s c = [] → (s.cell c).number.toNat < n.toNat))
    (hawait : ∀ c cond operand, wait = .await c cond operand → cond.holds operand (s.cell c).reported = false)
    (hs : WaiterOk s) : WaiterOk u := by
  obtain ⟨w, hpool, -, -, hw, -, -⟩ := createEntry_entry hc
  have hcell : ∀ c, u.cell c = s.cell c := fun c => by
    rw [← State.cells_at, createEntry_cells hc, State.cells_at]
  refine ⟨numbersDistinct_createEntry hc hs.1, fun c => ?_, fun v hv c cond operand hv' => ?_⟩
  · have happend := takeWaiters_append hpool c
    cases htakes : w.takes c
    · exact TakeOk.of_same (hs.2.1 c) (by simpa [htakes] using happend) (hcell c)
    · rw [if_pos htakes] at happend
      obtain ⟨n, hn⟩ : ∃ n, w.wait = .take c n :=
        (mem_takeWaiters.mp (happend ▸ List.mem_append_right _ (List.mem_singleton_self w))).2
      obtain ⟨hkind, hless⟩ := htake c n (hw ▸ hn)
      intro x xs hx
      rw [hcell]
      cases hold : takeWaiters s c with
      | nil =>
        rw [happend, hold] at hx
        obtain ⟨rfl, -⟩ := List.cons_eq_cons.mp hx
        have hamount : w.amount = n.toNat := by simp [WaitEntry.amount, hn]
        exact ⟨hkind, hamount ▸ hless hold⟩
      | cons v vs =>
        rw [happend, hold] at hx
        obtain ⟨rfl, -⟩ := List.cons_eq_cons.mp hx
        exact hs.2.1 c v vs hold
  · rw [hcell]
    rcases List.mem_append.mp (hpool ▸ hv) with hv | hv
    · exact hs.2.2 v hv c cond operand hv'
    · rw [List.mem_singleton] at hv
      subst hv
      exact hawait c cond operand (hw ▸ hv')

/-! ### Chains and FORMAT -/

/-- The cells of a chain in progress: COUNTERs keep their value, and changes are of touched cells alone. -/
structure ChainRun.Sound (s : State) (r : ChainRun) : Prop where
  counters : ∀ c, (s.cell c).kind = .counter → r.cells[c.val] = s.cell c
  touched  : ∀ c : Fin 512, r.cells[c.val] ≠ s.cell c → c ∈ r.touched

theorem effect_touched (st : ChainStep) (r : ChainRun) : (st.effect r).touched = r.touched := by
  cases st <;> rfl

/-- A step that passes its checks modifies PLAIN and MEMBERS cells alone (R37). -/
theorem sound_perform {p : Port} {s : State} {st : ChainStep} (hst : checkStep p s st = none) {r : ChainRun}
    (h : r.Sound s) : (r.perform st).Sound s := by
  have htouched : (r.perform st).touched = st.cell?.toList ++ r.touched := by
    rw [ChainRun.perform, effect_touched]
  have hcells : (r.perform st).cells = (st.effect r).cells := rfl
  obtain he | ⟨c, x, -, hcell, he, hx⟩ := effect_cells st r
  · rw [he] at hcells
    refine ⟨fun d hd => ?_, fun d hd => ?_⟩
    · simpa only [hcells] using h.counters d hd
    · rw [htouched]
      exact List.mem_append_right _ (h.touched d (by simpa only [hcells] using hd))
  · rw [he] at hcells
    have hnot : (s.cell c).kind ≠ .counter := by
      intro hk
      unfold checkStep at hst
      rw [hcell] at hst
      have haccepts : st.accepts (s.cell c).kind = true := by
        refine Classical.byContradiction fun hno => ?_
        dsimp only at hst
        rw [if_pos (by simpa using hno)] at hst
        cases hst
      rcases hx with ⟨ha, -⟩ | ⟨ha, -⟩ <;> simp [ha, hk] at haccepts
    have hother : ∀ d : Fin 512, d ≠ c → (r.perform st).cells[d.val] = r.cells[d.val] := fun d hd => by
      simp only [hcells]
      exact Vector.getElem_set_ne _ _ fun e => hd (Fin.ext e.symm)
    refine ⟨fun d hd => ?_, fun d hd => ?_⟩
    · rw [hother d fun e => hnot (e ▸ hd)]
      exact h.counters d hd
    · rw [htouched]
      by_cases hdc : d = c
      · exact List.mem_append_left _ (by rw [hcell, hdc]; exact List.mem_singleton_self c)
      · rw [hother d hdc] at hd
        exact List.mem_append_right _ (h.touched d hd)

theorem sound_runSteps {p : Port} {s : State} {steps : List ChainStep} (h : ∀ st ∈ steps, checkStep p s st = none) :
    (runSteps steps false (ChainRun.start s.cells)).Sound s :=
  runSteps_kept (R := ChainRun.Sound s) (fun st hst _ hr => sound_perform (h st hst) hr)
    (fun _ hr => ⟨hr.counters, hr.touched⟩) false ⟨fun _ _ => rfl, fun _ hd => absurd rfl hd⟩

theorem owed_chain {s : State} (hs : WaiterOk s) {r : ChainRun} (hr : r.Sound s) :
    Owed s { s with cells := r.cells } r.touched := by
  refine ⟨hs.1, fun c w ws hw => ?_, fun w hw _ _ => hw, fun c hc => hr.touched c hc⟩
  obtain ⟨hkind, hless⟩ := hs.2.1 c w ws hw
  have hsame : State.cell { s with cells := r.cells } c = s.cell c := hr.counters c hkind
  rw [hsame]
  exact ⟨hkind, hless⟩

/-- A change of one cell for which no TAKE waits. -/
theorem owed_setCell {s t : State} (hs : WaiterOk s) {c : Fin 512} (hp : t.pool = s.pool)
    (hc : ∀ d, d ≠ c → t.cell d = s.cell d) (hnone : takeWaiters s c = []) : Owed s t [c] := by
  have hwaiters : ∀ d, takeWaiters t d = takeWaiters s d := fun d => by
    rw [takeWaiters, hp]
    rfl
  refine ⟨numbersDistinct_of_sublist hs.1 (hp ▸ List.Sublist.refl _), fun d => ?_, fun w hw _ _ => hp ▸ hw,
    fun d hne => ?_⟩
  · by_cases hd : d = c
    · subst hd
      exact takeOk_of_none ((hwaiters d).trans hnone)
    · exact TakeOk.of_same (hs.2.1 d) (hwaiters d) (hc d hd)
  · rw [List.mem_singleton]
    refine Classical.byContradiction fun hd => ?_
    exact hne (hc d hd)

theorem takeWaiters_of_not_busy {s : State} {c : Fin 512} (h : cellBusy s c = false) : takeWaiters s c = [] := by
  refine List.filter_eq_nil_iff.mpr fun w hw htakes => ?_
  have hbusy : cellBusy s c = true := List.any_eq_true.mpr ⟨w, hw, by rw [htakes, Bool.true_or]⟩
  rw [h] at hbusy
  cases hbusy

/-! ### The law -/

theorem waiterOk_served {k : Kind} {p : Port} {s u : State} {a : Reply} (hs : WaiterOk s)
    (hserved : Served p s k u a) : WaiterOk u := by
  have hawait := hs.2.2
  cases hserved with
  | refused | answered => exact hs
  | opened | renewed => exact waiterOk_of_same hs rfl rfl
  | closed => exact waiterOk_teardown p (waiterOk_of_same hs rfl rfl)
  | chained steps r f hsteps hr => exact waiterOk_handOn hawait (owed_chain hs (hr ▸ sound_runSteps hsteps)) (some p)
  | formatted c x f _ hbusy =>
    exact waiterOk_handOn hawait (owed_setCell (t := s.setCell c x) hs rfl (fun d hd => State.setCell_cell_other s c d x hd)
      (takeWaiters_of_not_busy hbusy)) (some p)
  | granted => exact waiterOk_of_same hs rfl rfl
  | waitsForLock l q timeout t u f _ _ hcreate =>
    exact waiterOk_of_same (waiterOk_createEntry hcreate nofun nofun hs) rfl rfl
  | released l =>
    have hpop : WaiterOk (markBank l false (popStack p s)) :=
      waiterOk_of_same hs (markBank_pool l false _) (markBank_cells l false _)
    exact waiterOk_of_owed hpop.2.2 (owed_of_cells hpop
      (numbersDistinct_of_sublist hpop.1 (passOn_pool_sublist l _)) (passOn_pool_sublist l _).subset
      (takeWaiters_passOn hpop.1 l) (passOn_cells l _))
  | taken c ceil v amount f _ hnone =>
    exact waiterOk_handOn hawait (owed_setCell hs (lowerCounter_pool c _ s)
      (fun d hd => lowerCounter_cell_other c d _ s hd) hnone) (some p)
  | waitsToTake c ceil v amount timeout t u f hcell hless hcreate =>
    refine waiterOk_createEntry hcreate (fun d n he => ?_) nofun hs
    obtain ⟨rfl, rfl⟩ := Wait.take.inj he
    rw [hcell]
    exact ⟨rfl, hless⟩
  | given c ceil v amount f hcell hle =>
    refine waiterOk_handOn hawait (owed_grantWalk
      (t := s.setCell c (.counter ceil (BitVec.ofNat 16 (v.toNat + amount.toNat)))) hs.1 ?_ (fun d hd => ?_)
      (fun w hw _ _ => hw) fun d hd => ?_) (some p)
    · rw [State.setCell_cell_same]
      rfl
    · exact TakeOk.of_same (hs.2.1 d) rfl (State.setCell_cell_other s c d _ hd)
    · exact State.setCell_cell_other s c d _ hd
  | awaits c cond operand timeout t u f hnot hcreate =>
    refine waiterOk_createEntry hcreate nofun (fun d cond' operand' he => ?_) hs
    obtain ⟨rfl, rfl, rfl⟩ := Wait.await.inj he
    exact hnot
  | cancelled t w f hw => exact waiterOk_cancelEntry hs (List.mem_of_find?_eq_some hw)
  | watched | unwatched | fetched => exact waiterOk_of_same hs rfl rfl

theorem amount_lowerDeadline (f : Fresh) (w : WaitEntry) : (lowerDeadline f w).amount = w.amount := by
  rw [WaitEntry.amount, (lowerDeadline_fields f w).2.2.2.2, WaitEntry.amount]

theorem waiterOk_lowered (f : Fresh) {s : State} (hs : WaiterOk s) :
    WaiterOk { s with pool := s.pool.map (lowerDeadline f) } := by
  refine ⟨numbersDistinct_lowerDeadline hs.1, fun c w ws hw => ?_, fun w hw c cond operand hwait => ?_⟩
  · have hmap : takeWaiters { s with pool := s.pool.map (lowerDeadline f) } c =
        (takeWaiters s c).map (lowerDeadline f) :=
      filter_lowerDeadline f s.pool fun w => by
        rw [WaitEntry.takes, (lowerDeadline_fields f w).2.2.2.2, WaitEntry.takes]
    rw [hmap, List.map_eq_cons_iff] at hw
    obtain ⟨v, vs, hv, rfl, -⟩ := hw
    rw [amount_lowerDeadline]
    exact hs.2.1 c v vs hv
  · obtain ⟨v, hv, rfl⟩ := List.mem_map.mp hw
    rw [(lowerDeadline_fields f v).2.2.2.2] at hwait
    exact hs.2.2 v hv c cond operand hwait

theorem waiterOk_tickActs (s : State) (hs : WaiterOk s) : WaiterOk (tickActs s) :=
  waiterOk_of_same (waiterOk_lowered s.fresh hs) (tickActs_pool s) (tickActs_cells s)

theorem waiterOk_of_empty {s : State} (h : s.pool = []) : WaiterOk s := by
  refine ⟨numbersDistinct_of_empty h, fun c => takeOk_of_none ?_, fun w hw => ?_⟩
  · rw [takeWaiters, h]
    rfl
  · rw [h] at hw
    exact nomatch hw

theorem stepLaw_waiters : StepLaw WaiterOk where
  data hd hs := waiterOk_of_same hs hd.pool hd.cells
  tick := waiterOk_tickActs
  claim p s hs := waiterOk_of_same hs
    (claimSession_keeps State.pool (fun _ _ _ => rfl) (fun _ _ => rfl) p s)
    (claimSession_keeps State.cells (fun _ _ _ => rfl) (fun _ _ => rfl) p s)
  work hs _ h := waiterOk_served hs h
  expiry n p t s hs := by
    unfold serveExpiry
    split
    · exact hs
    · next w hw => exact waiterOk_expireEntry hs (List.mem_of_find?_eq_some hw)
  teardown p s hs _ := waiterOk_of_same (waiterOk_teardown p hs) rfl rfl
  powerUp s := waiterOk_of_empty (powerUp_pool s)
  lineReset s _ := waiterOk_of_empty (by simp only [lineReset])

/-- Settles O58: what each piece of work leaves for its waiters, the grant walks and the handing on of its net changes
settle. -/
theorem waiterLawIsKept : Obligations.WaiterLawIsKept := fun _ _ hs ht => stepLaw_waiters.keeps_step hs ht

end Sys2Proof.Machine
end

section
/-!
PROOFS. One teardown item for each ENDING session, and leases within their period, after every step (O59).
-/

namespace Sys2Proof.Machine

open Sys2Proof.Safety

/-! ### What the law of sessions sees -/

/-- The part of a session record that the law of sessions speaks of. -/
structure LeasePart where
  state     : SessionState
  period    : Option Nat
  remaining : Nat

def Session.leasePart (x : Session) : LeasePart := ⟨x.state, x.leasePeriod, x.leaseRemaining⟩

/-- The lease law of one session (R119). -/
structure LeasePart.Ok (x : LeasePart) : Prop where
  opened : x.state = .opened → 0 < x.remaining ∧ ∃ u, 1 ≤ u ∧ u ≤ 255 ∧ x.period = some (u * 20) ∧ x.remaining ≤ u * 20
  other  : x.state ≠ .opened → x.remaining = 0

/-- The teardown items and the lease of one port. -/
structure SessionAt (p : Port) (s : State) : Prop where
  teardowns : teardownsOf s p = if (s.session p).leasePart.state = .ending then 1 else 0
  lease     : (s.session p).leasePart.Ok

theorem sessionLaw_iff (s : State) : TeardownLaw s ∧ LeaseLaw s ↔ ∀ p, SessionAt p s := by
  have hlease : ∀ p, (s.session p).leasePart.Ok ↔ match (s.session p).state with
      | .opened =>
        0 < (s.session p).leaseRemaining ∧
          ∃ u, 1 ≤ u ∧ u ≤ 255 ∧ (s.session p).leasePeriod = some (u * Config.leaseUnit) ∧
            (s.session p).leaseRemaining ≤ u * Config.leaseUnit
      | .closed | .ending => (s.session p).leaseRemaining = 0 := by
    intro p
    cases hstate : (s.session p).state with
    | opened => exact ⟨fun h => h.opened hstate, fun h => ⟨fun _ => h, fun hne => absurd hstate hne⟩⟩
    | closed | ending =>
      have hne : (s.session p).leasePart.state ≠ .opened := fun e => by
        rw [Session.leasePart, hstate] at e
        cases e
      exact ⟨fun h => h.other hne, fun h => ⟨fun e => absurd e hne, fun _ => h⟩⟩
  exact ⟨fun ⟨ht, hl⟩ p => ⟨ht p, (hlease p).mpr (hl p)⟩,
    fun h => ⟨fun p => (h p).teardowns, fun p => (hlease p).mp (h p).lease⟩⟩

theorem SessionAt.of_same {s t : State} {p : Port} (h : SessionAt p s) (ht : teardownsOf t p = teardownsOf s p)
    (hp : (t.session p).leasePart = (s.session p).leasePart) : SessionAt p t :=
  ⟨by rw [ht, hp, h.teardowns], hp ▸ h.lease⟩

theorem teardownsOf_sameOutside {s t : State} (h : SameOutside s t) (p : Port) : teardownsOf t p = teardownsOf s p := by
  rw [teardownsOf, h.workList, h.service]
  rfl

/-! ### What keeps a session's state and lease -/

theorem leasePart_offered (e : Event) (x : Session) : (x.offered e).leasePart = x.leasePart := by
  unfold Session.offered
  split <;> rfl

theorem leasePart_notified (c : Fin 512) (v : Reported) (o : Port) (x : Session) :
    (x.notified c v o).leasePart = x.leasePart := by
  obtain ⟨f, he⟩ | ⟨ws, he⟩ := notified_cases c v o x
  · rw [he]
    rfl
  · rw [he]
    exact leasePart_offered _ x

section
variable (q : Port)

theorem leasePart_modSession (s : State) (p : Port) {f : Session → Session}
    (hf : (f (s.session p)).leasePart = (s.session p).leasePart) :
    ((s.modSession p f).session q).leasePart = (s.session q).leasePart := by
  rw [State.modSession_session]
  split
  · next hq => exact hq ▸ hf
  · rfl

theorem leasePart_grantWalk (c : Fin 512) (s : State) :
    ((grantWalk c s).1.session q).leasePart = (s.session q).leasePart :=
  walkOver_keeps (fun t => (t.session q).leasePart) c (fun w t => by
    rw [grantTake, endEntry_session]
    change ((lowerCounter c w.amount t).session q).leasePart = _
    rw [lowerCounter_session]) _ s

theorem leasePart_meetAwaits (s : State) (c : Fin 512) :
    ((meetAwaits s c).session q).leasePart = (s.session q).leasePart := by
  rw [meetAwaits_session]
  rfl

theorem leasePart_notifyWatchers (o : Port) (s : State) (c : Fin 512) :
    ((notifyWatchers o s c).session q).leasePart = (s.session q).leasePart := by
  rw [notifyWatchers_session]
  split
  · rfl
  · exact leasePart_notified _ _ _ _

theorem leasePart_handOn (origin : Option Port) (before : Vector Cell 512) (touched : List (Fin 512)) (s : State) :
    ((handOn origin before touched s).session q).leasePart = (s.session q).leasePart :=
  handOn_keeps (fun t => (t.session q).leasePart) (leasePart_meetAwaits q) (leasePart_notifyWatchers q) origin before
    touched s

theorem leasePart_walkAfter (head : Option (Fin 512)) (before : Vector Cell 512) (s : State) :
    ((walkAfter head before s).session q).leasePart = (s.session q).leasePart := by
  unfold walkAfter
  split
  · rfl
  · rw [leasePart_handOn, leasePart_grantWalk]

theorem leasePart_clearMarker (w : WaitEntry) (s : State) :
    ((clearMarker w s).session q).leasePart = (s.session q).leasePart := by
  rw [clearMarker_eq]
  exact leasePart_modSession q s w.port rfl

theorem leasePart_dropEntry (w : WaitEntry) (s : State) :
    ((dropEntry w s).session q).leasePart = (s.session q).leasePart := by
  rw [dropEntry_session]
  split <;> rfl

theorem leasePart_createEntry {p : Port} {wait : Wait} {timeout : Word} {s u : State} {t : Byte}
    (hc : createEntry p wait timeout s = .ok (t, u)) : (u.session q).leasePart = (s.session q).leasePart := by
  rw [createEntry_session hc]
  split <;> rfl

theorem leasePart_passOn (l : Fin 48) (s : State) : ((passOn l s).1.session q).leasePart = (s.session q).leasePart := by
  unfold passOn
  split
  · next w ws hw =>
    obtain ⟨-, hwait⟩ := mem_lockWaiters.mp (hw ▸ List.mem_cons_self : w ∈ lockWaiters s l)
    by_cases hq : q = w.port
    · subst hq
      rw [handoff_session_same l w s hwait]
      rfl
    · rw [handoff_session_other l s hq]
  · rfl

theorem leasePart_released (p : Port) (s : State) : ((released p s).session q).leasePart = (s.session q).leasePart := by
  refine (foldl_keeps (fun t => (t.session q).leasePart) (fun t l => ?_) _ _).trans
    ((foldl_keeps (fun t => (t.session q).leasePart) (fun t c => leasePart_grantWalk q c t) _ _).trans ?_)
  · rw [teardownLock_eq, leasePart_passOn, popped_session]
    split <;> rfl
  · rw [dropAllEntries_session]
    split <;> rfl

/-- A teardown ends its own port's session alone. -/
theorem leasePart_teardown_other {p : Port} (hq : q ≠ p) (s : State) :
    ((teardown p s).session q).leasePart = (s.session q).leasePart := by
  rw [teardown_eq, leasePart_handOn, State.modSession_session_other _ _ _ _ hq, leasePart_released]

theorem leasePart_teardown_same (s : State) :
    ((teardown q s).session q).leasePart = ⟨.closed, (s.session q).leasePeriod, (s.session q).leaseRemaining⟩ := by
  rw [teardown_session]
  rfl
end

/-! ### The tick -/

theorem countP_flatMap_lapseItems (s : State) (q : Port) :
    (allPorts.flatMap (lapseItems s)).countP (· == .teardown q) = if lapses s q then 1 else 0 := by
  have hone : ∀ p, (lapseItems s p).countP (· == .teardown q) = if p = q ∧ lapses s q then 1 else 0 := by
    intro p
    unfold lapseItems
    by_cases hp : p = q
    · subst hp
      cases lapses s p <;> simp
    · cases lapses s p <;> simp [hp]
  simp only [allPorts, List.flatMap_cons, List.flatMap_nil, List.countP_append, hone, List.countP_nil]
  cases q <;> simp

theorem countP_expiryItems (s : State) (q : Port) : (expiryItems s).countP (· == .teardown q) = 0 := by
  rw [List.countP_eq_zero]
  intro i hi
  unfold expiryItems at hi
  obtain ⟨n, -, hn⟩ := List.mem_filterMap.mp hi
  split at hn
  · split at hn
    · obtain rfl := Option.some.inj hn
      simp
    · cases hn
  · cases hn

theorem teardownsOf_tickActs (s : State) (q : Port) :
    teardownsOf (tickActs s) q = teardownsOf s q + if lapses s q then 1 else 0 := by
  have hservice : (tickActs s).service = s.service := tickActs_keeps State.service (fun _ _ _ => rfl) (fun _ _ => rfl) s
  rw [teardownsOf, teardownsOf, tickActs_workList, hservice, List.countP_append, List.countP_append,
    countP_expiryItems, countP_flatMap_lapseItems]
  omega

/-- A lease that a tick lowers lapses at 0 and stays within its period above it (R124, R127). -/
theorem sessionAt_tickActs (q : Port) (s : State) (h : SessionAt q s) : SessionAt q (tickActs s) := by
  obtain ⟨hcount, hlease⟩ := h
  have hteardowns := teardownsOf_tickActs s q
  have hsession := tickActs_session s q
  by_cases hc : leaseCounts s q = true
  · have ho : (s.session q).state = .opened := ((leaseCounts_iff s q).mp hc).1
    obtain ⟨hpos, u, hu1, hu2, hperiod, hle⟩ := hlease.opened ho
    have hnot : (s.session q).leasePart.state ≠ .ending := fun e => by
      rw [Session.leasePart, ho] at e
      cases e
    rw [if_neg hnot] at hcount
    rw [if_pos hc] at hsession
    have hlow : (s.session q).leaseRemaining - 1 ≤ u * 20 := Nat.le_trans (Nat.sub_le _ _) hle
    by_cases hz : (s.session q).leaseRemaining - 1 = 0
    · rw [hcount, if_pos ((lapses_iff s q).mpr ⟨hc, hz⟩)] at hteardowns
      refine ⟨?_, ?_⟩
      · rw [hteardowns, hsession, Session.leaseTicked, if_pos hz]
        rfl
      · rw [hsession, Session.leaseTicked, if_pos hz]
        exact ⟨fun e => (nomatch e), fun _ => hz⟩
    · have hpart : ((tickActs s).session q).leasePart =
          ⟨.opened, (s.session q).leasePeriod, (s.session q).leaseRemaining - 1⟩ := by
        rw [hsession, Session.leaseTicked, if_neg hz, ← ho]
        split
        · exact leasePart_offered (.leaseLow ((s.session q).leaseRemaining - 1))
            { s.session q with leaseRemaining := (s.session q).leaseRemaining - 1 }
        · rfl
      rw [hcount, if_neg fun hl => hz ((lapses_iff s q).mp hl).2] at hteardowns
      refine ⟨?_, ?_⟩ <;> rw [hpart]
      · exact hteardowns
      · exact ⟨fun _ => ⟨Nat.pos_of_ne_zero hz, u, hu1, hu2, hperiod, hlow⟩, fun hne => absurd rfl hne⟩
  · rw [if_neg hc] at hsession
    rw [if_neg fun hl => hc ((lapses_iff s q).mp hl).1] at hteardowns
    exact SessionAt.of_same ⟨hcount, hlease⟩ hteardowns (by rw [hsession])

/-! ### The other effects -/

theorem markFresh_session (p q : Port) (s : State) : (markFresh p s).session q = s.session q := rfl

theorem claimSession_session {p : Port} {s : State} (ho : (s.session p).state = .opened) (q : Port) :
    (claimSession p s).session q =
      if q = p then { s.session q with state := .ending, endCause := .portReset, leaseRemaining := 0 }
      else s.session q := by
  have hclaim : (claimSession p s).session q = (s.modSession p fun x =>
      { x with state := .ending, endCause := .portReset, leaseRemaining := 0 }).session q := by
    unfold claimSession
    rw [ho]
    rfl
  rw [hclaim, State.modSession_session]

theorem teardownsOf_claimSession {p : Port} {s : State} (ho : (s.session p).state = .opened) (q : Port) :
    teardownsOf (claimSession p s) q = teardownsOf s q + if q = p then 1 else 0 := by
  have hclaim : teardownsOf (claimSession p s) q = (s.workList ++ [Item.teardown p]).countP (· == Item.teardown q) +
      if s.service = .serving (.item (.teardown q)) then 1 else 0 := by
    unfold claimSession
    rw [ho]
    rfl
  rw [hclaim, teardownsOf, List.countP_append, List.countP_singleton]
  simp only [beq_iff_eq, Item.teardown.injEq, eq_comm (a := p)]
  omega

/-- The session claimed by a port reset gets its one teardown item (R159). -/
theorem sessionAt_claimSession (q p : Port) (s : State) (h : SessionAt q s) : SessionAt q (claimSession p s) := by
  cases ho : (s.session p).state with
  | opened =>
    have hsession := claimSession_session ho q
    have hteardowns := teardownsOf_claimSession ho q
    by_cases hq : q = p
    · subst hq
      have hzero : teardownsOf s q = 0 := by
        rw [h.teardowns, if_neg]
        rw [Session.leasePart, ho]
        exact nofun
      rw [if_pos rfl] at hsession hteardowns
      refine ⟨?_, ?_⟩ <;> rw [hsession]
      · rw [hteardowns, hzero]
        rfl
      · exact ⟨fun e => (nomatch e), fun _ => rfl⟩
    · rw [if_neg hq] at hsession hteardowns
      exact h.of_same hteardowns (by rw [hsession])
  | closed | ending =>
    unfold claimSession
    rw [ho]
    exact h

/-- A teardown of a session without another teardown item. -/
theorem sessionAt_teardown {q p : Port} {s t : State} (h : q ≠ p → SessionAt q s)
    (hsession : ∀ r, t.session r = (teardown p s).session r) (hother : q ≠ p → teardownsOf t q = teardownsOf s q)
    (hlease : (s.session p).leaseRemaining = 0) (hzero : teardownsOf t p = 0) : SessionAt q t := by
  by_cases hq : q = p
  · subst hq
    have hpart : (t.session q).leasePart = ⟨.closed, (s.session q).leasePeriod, 0⟩ := by
      rw [hsession, leasePart_teardown_same, hlease]
    refine ⟨?_, ?_⟩
    · rw [hzero, hpart]
      rfl
    · rw [hpart]
      exact ⟨fun e => (nomatch e), fun _ => rfl⟩
  · exact (h hq).of_same (hother hq) (by rw [hsession, leasePart_teardown_other q hq])

theorem sessionAt_served {q : Port} {k : Kind} {p : Port} {s u : State} {a : Reply} (h : ∀ q, SessionAt q s)
    (ho : k.needsOpen = true → (s.session p).state = .opened) (hserved : Served p s k u a) : SessionAt q u := by
  have hteardowns := teardownsOf_sameOutside (sameOutside_served hserved) q
  have hopened : (s.session p).state = .opened → teardownsOf s p = 0 := fun e => by
    rw [(h p).teardowns, if_neg]
    rw [Session.leasePart, e]
    exact nofun
  cases hserved with
  | refused | answered => exact h q
  | opened units f hclosed hunits =>
    by_cases hq : q = p
    · subst hq
      have hpart : ((markFresh q (s.modSession q fun x => x.opening units)).session q).leasePart =
          ⟨.opened, some (units.toNat * 20), units.toNat * 20⟩ := by
        rw [markFresh_session, State.modSession_session_same]
        rfl
      have hzero : teardownsOf s q = 0 := by
        rw [(h q).teardowns, if_neg]
        rw [Session.leasePart, hclosed]
        exact nofun
      have hpos : units.toNat ≠ 0 := fun e => hunits (BitVec.eq_of_toNat_eq e)
      have hlt := units.isLt
      refine ⟨?_, ?_⟩ <;> rw [hpart]
      · exact hteardowns.trans hzero
      · exact ⟨fun _ => ⟨Nat.mul_pos (Nat.pos_of_ne_zero hpos) (by decide), units.toNat, Nat.pos_of_ne_zero hpos,
          Nat.le_of_lt_succ hlt, rfl, Nat.le_refl _⟩, fun hne => absurd rfl hne⟩
    · refine (h q).of_same hteardowns ?_
      rw [markFresh_session, State.modSession_session_other _ _ _ _ hq]
  | closed f =>
    refine sessionAt_teardown (s := s.modSession p fun x => { x with endCause := .closed, leaseRemaining := 0 })
      (fun hq => (h q).of_same rfl ?_) (fun _ => rfl) (fun _ => hteardowns) ?_ ?_
    · rw [State.modSession_session_other _ _ _ _ hq]
    · rw [State.modSession_session_same]
    · rw [teardownsOf_sameOutside (sameOutside_teardown p _)]
      exact hopened (ho rfl)
  | renewed k f hk =>
    have hopen : (s.session p).state = .opened := ho (by rcases hk with rfl | rfl <;> rfl)
    by_cases hq : q = p
    · subst hq
      obtain ⟨-, v, hv1, hv2, hperiod, -⟩ := (h q).lease.opened hopen
      have hget : (s.session q).leasePeriod.getD 0 = v * 20 := by
        have hp : (s.session q).leasePeriod = some (v * 20) := hperiod
        rw [hp]
        rfl
      have hpart : ((restartLease q s).session q).leasePart = ⟨.opened, (s.session q).leasePeriod, v * 20⟩ := by
        rw [← hget, ← hopen, restartLease, markFresh_session, State.modSession_session_same]
        rfl
      refine ⟨?_, ?_⟩ <;> rw [hpart]
      · exact hteardowns.trans (hopened hopen)
      · exact ⟨fun _ => ⟨Nat.mul_pos hv1 (by decide), v, hv1, hv2, hperiod, Nat.le_refl _⟩, fun hne => absurd rfl hne⟩
    · refine (h q).of_same hteardowns ?_
      rw [restartLease, markFresh_session, State.modSession_session_other _ _ _ _ hq]
  | chained steps r => exact (h q).of_same hteardowns (leasePart_handOn q _ _ _ _)
  | formatted c x => exact (h q).of_same hteardowns (leasePart_handOn q _ _ _ _)
  | granted l => exact (h q).of_same hteardowns (by rw [grantLock_session]; split <;> rfl)
  | waitsForLock l r timeout t u f _ _ hcreate =>
    exact (h q).of_same hteardowns ((leasePart_modSession q u p rfl).trans (leasePart_createEntry q hcreate))
  | released l =>
    refine (h q).of_same hteardowns ((leasePart_passOn q l _).trans ?_)
    rw [← State.sessions_get, markBank_sessions]
    exact leasePart_modSession q s p rfl
  | taken c ceil v amount =>
    exact (h q).of_same hteardowns ((leasePart_handOn q _ _ _ _).trans (by rw [lowerCounter_session]))
  | waitsToTake c ceil v amount timeout t u f _ _ hcreate =>
    exact (h q).of_same hteardowns (leasePart_createEntry q hcreate)
  | given c ceil v amount =>
    exact (h q).of_same hteardowns ((leasePart_handOn q _ _ _ _).trans (leasePart_grantWalk q c _))
  | awaits c cond operand timeout t u f _ hcreate =>
    exact (h q).of_same hteardowns (leasePart_createEntry q hcreate)
  | cancelled t w f hw =>
    refine (h q).of_same hteardowns ((leasePart_walkAfter q _ _ _).trans ((leasePart_clearMarker q w _).trans ?_))
    exact (leasePart_modSession q (dropEntry w s) w.port rfl).trans (leasePart_dropEntry q w s)
  | watched | unwatched | fetched => exact (h q).of_same hteardowns (leasePart_modSession q s p rfl)

theorem sessionAt_serveExpiry (q : Port) (n : Fin 24) (p : Port) (t : Byte) {s : State} (h : SessionAt q s) :
    SessionAt q (serveExpiry n p t s) := by
  refine h.of_same (teardownsOf_sameOutside (sameOutside_serveExpiry n p t s) q) ?_
  unfold serveExpiry
  split
  · rfl
  · rw [expireEntry, leasePart_walkAfter, leasePart_clearMarker, endEntry_session]
    rfl

/-- The teardown in service is its port's only one. -/
theorem sessionAt_teardownItem {q p : Port} {s : State} (h : ∀ q, SessionAt q s)
    (hservice : s.service = .serving (.item (.teardown p))) : SessionAt q { teardown p s with service := .idle } := by
  have hwork : (teardown p s).workList = s.workList := (sameOutside_teardown p s).workList
  have hcount := (h p).teardowns
  have hp : teardownsOf s p = s.workList.countP (· == .teardown p) + 1 := by rw [teardownsOf, if_pos hservice]
  have hending : (s.session p).leasePart.state = .ending := by
    refine Classical.byContradiction fun hne => ?_
    rw [if_neg hne, hp] at hcount
    cases hcount
  rw [if_pos hending, hp] at hcount
  refine sessionAt_teardown (s := s) (fun _ => h q) (fun _ => rfl) (fun hq => ?_) ?_ ?_
  · simp only [teardownsOf, hwork, hservice, reduceCtorEq, if_false, Service.serving.injEq, Work.item.injEq,
      Item.teardown.injEq, Ne.symm hq]
  · exact (h p).lease.other (by rw [hending]; exact nofun)
  · simp only [teardownsOf, hwork, reduceCtorEq, if_false]
    omega

theorem sessionAt_blank {q : Port} {s : State} (hw : s.workList = []) (hservice : s.service = .idle)
    (hs : (s.session q).state = .closed ∧ (s.session q).leaseRemaining = 0) : SessionAt q s := by
  have hstate : (s.session q).leasePart.state = .closed := hs.1
  refine ⟨?_, ?_⟩
  · rw [hstate, teardownsOf, hw, hservice]
    rfl
  · exact ⟨fun e => (nomatch hstate.symm.trans e), fun _ => hs.2⟩

theorem stepLaw_sessions : StepLaw fun s => ∀ q, SessionAt q s where
  data hd h q := (h q).of_same (hd.teardowns q) (by rw [← State.sessions_get, hd.sessions, State.sessions_get])
  tick s h q := sessionAt_tickActs q s (h q)
  claim p s h q := sessionAt_claimSession q p s (h q)
  work h ho hserved _ := sessionAt_served h ho hserved
  expiry n p t _ h q := sessionAt_serveExpiry q n p t (h q)
  teardown _ _ h hservice _ := sessionAt_teardownItem h hservice
  powerUp s q := sessionAt_blank (powerUp_workList s) rfl (by rw [powerUp_session]; exact ⟨rfl, rfl⟩)
  lineReset s _ q := by
    refine sessionAt_blank (by simp only [lineReset]) (by simp only [lineReset]) ?_
    rw [lineReset_session]
    exact ⟨rfl, rfl⟩

/-- Settles O59: an ENDING session gets its item where a lease lapses or a port reset claims it, and loses it in the
teardown; a lease is set to its period and only falls. -/
theorem sessionLawIsKept : Obligations.SessionLawIsKept := fun s t hs ht =>
  (sessionLaw_iff t).mpr (stepLaw_sessions.keeps_step ((sessionLaw_iff s).mp hs) ht)

end Sys2Proof.Machine
end

section
/-!
PROOFS. Slots, reset markers and the engine's idleness agree after every step (O60).
-/

namespace Sys2Proof.Machine

open Sys2Proof.Safety

/-! ### Work that waits -/

theorem holdsRequest_congr {s t : State} {p : Port} (h : (t.port p).slot = (s.port p).slot) :
    holdsRequest t p = holdsRequest s p := by
  rw [holdsRequest, holdsRequest, h]

theorem mem_rotationFrom (p q : Port) : q ∈ rotationFrom p := by
  cases p <;> cases q <;> decide

/-- The arbiter finds nothing when the list is empty and no request is HELD. -/
theorem choose_eq_none_iff (s : State) : choose s = none ↔ s.workList = [] ∧ ∀ p, holdsRequest s p = false := by
  constructor
  · intro h
    unfold choose at h
    split at h
    · cases h
    · next hexpiry =>
      split at h
      · cases h
      · rw [List.findSome?_eq_none_iff] at h
        have hport : ∀ p, holdsRequest s p = false ∧ listsTeardown s p = false := fun p => by
          have hp := h p (mem_rotationFrom _ p)
          unfold portWork at hp
          split at hp
          · cases hp
          · next hh =>
            split at hp
            · cases hp
            · next ht => exact ⟨Bool.eq_false_iff.mpr hh, Bool.eq_false_iff.mpr ht⟩
        refine ⟨List.eq_nil_iff_forall_not_mem.mpr fun i hi => ?_, fun p => (hport p).1⟩
        cases i with
        | expiry n p t => exact List.find?_eq_none.mp hexpiry _ hi rfl
        | teardown p =>
          have hlist := (hport p).2
          rw [(listsTeardown_iff s p).mpr hi] at hlist
          cases hlist
  · rintro ⟨hw, hh⟩
    rcases hc : choose s with _ | w
    · rfl
    · rcases choose_cases hc with ⟨p, hp, -⟩ | ⟨i, hi, -⟩
      · rw [hh p] at hp
        cases hp
      · rw [hw] at hi
        exact nomatch hi

theorem atRest_of_same {s t : State} (hservice : t.service = s.service) (hd : t.deferred = s.deferred)
    (hf : t.fresh = s.fresh) (hw : t.workList = s.workList) (hh : ∀ p, holdsRequest t p = holdsRequest s p)
    (h : AtRest s) : AtRest t := by
  obtain ⟨h1, h2, h3, h4⟩ := h
  rw [choose_eq_none_iff] at h4
  obtain ⟨hlist, hheld⟩ := h4
  exact ⟨hservice.trans h1, hd.trans h2, hf.trans h3,
    (choose_eq_none_iff t).mpr ⟨hw.trans hlist, fun p => (hh p).trans (hheld p)⟩⟩

/-! ### Slots, and the markers of the resets that wait -/

/-- The slot law, and a marker for each reset in a list of claims. -/
structure Marked (l : List Claim) (s : State) : Prop where
  slots   : SlotLaw s
  markers : ∀ p, l.count (.portReset p) = if (s.port p).resetPending then 1 else 0

/-- The engine's law of a state that a command leaves. -/
def EngineOk (s : State) : Prop := Marked s.deferred s ∧ IdleLaw s

theorem engineOk_iff (s : State) : EngineOk s ↔ SlotLaw s ∧ ResetMarkerLaw s ∧ IdleLaw s :=
  ⟨fun ⟨⟨hs, hm⟩, hi⟩ => ⟨hs, hm, hi⟩, fun ⟨hs, hm, hi⟩ => ⟨⟨hs, hm⟩, hi⟩⟩

theorem idleLaw_of_ready {s : State} (h : Ready s) : IdleLaw s := fun hi _ => by
  rcases h with ⟨w, hw⟩ | h
  · rw [hi] at hw
    cases hw
  · exact h

theorem Marked.of_same {l : List Claim} {s t : State} (h : Marked l s)
    (hslot : ∀ p, (∃ r, (t.port p).slot = .serving r) ↔ ∃ r, (s.port p).slot = .serving r)
    (hpending : ∀ p, (t.port p).resetPending = (s.port p).resetPending) (hservice : t.service = s.service) :
    Marked l t :=
  ⟨fun p => by rw [hslot, hservice]; exact h.slots p, fun p => by rw [hpending]; exact h.markers p⟩

theorem Marked.of_ports {l : List Claim} {s t : State} (h : Marked l s) (hp : t.ports = s.ports)
    (hservice : t.service = s.service) : Marked l t := by
  have hport : ∀ p, t.port p = s.port p := fun p => by rw [← State.ports_get, hp, State.ports_get]
  exact h.of_same (fun p => by rw [hport]) (fun p => by rw [hport]) hservice

/-- With no request in service no slot is SERVING. -/
theorem Marked.not_serving {l : List Claim} {s : State} (h : Marked l s) (hs : ∀ p n, s.service ≠ .serving (.request p n))
    (p : Port) (r : Request) : (s.port p).slot ≠ .serving r := fun hr => by
  obtain ⟨n, hn⟩ := (h.slots p).mp ⟨r, hr⟩
  exact hs p n hn

theorem slotLaw_of_none {s : State} (hp : ∀ p r, (s.port p).slot ≠ .serving r)
    (hs : ∀ p n, s.service ≠ .serving (.request p n)) : SlotLaw s := fun p =>
  ⟨fun ⟨r, hr⟩ => absurd hr (hp p r), fun ⟨n, hn⟩ => absurd hn (hs p n)⟩

/-! ### Claims that act in an idle engine -/

theorem marked_tickActs {l : List Claim} {s : State} (h : Marked l s) : Marked l (tickActs s) :=
  h.of_ports (tickActs_ports s) (tickActs_service s)

theorem resetPort_port (p q : Port) (s : State) :
    (resetPort p s).port q =
      if q = p then
        { s.port q with slot := .idle, overrun := false, linkError := false, linkErrors := 0, resetPending := false }
      else s.port q := by
  have hclaim : ∀ t : State, (claimSession p t).port q = t.port q := fun t => by
    rw [← State.ports_get, claimSession_keeps State.ports (fun _ _ _ => rfl) (fun _ _ => rfl), State.ports_get]
  rw [resetPort, hclaim, State.modPort_port]

/-- A reset that acts clears its port's slot and marker (R159). -/
theorem marked_resetPort {l : List Claim} {s : State} {p : Port} (hidle : s.service = .idle) (hslots : SlotLaw s)
    (hm : ∀ q, q ≠ p → l.count (.portReset q) = if (s.port q).resetPending then 1 else 0)
    (hp : l.count (.portReset p) = 0) : Marked l (resetPort p s) := by
  refine ⟨slotLaw_of_none (fun q r hr => ?_) fun q n hn => ?_, fun q => ?_⟩
  · rw [resetPort_port] at hr
    split at hr
    · cases hr
    · obtain ⟨n, hn⟩ := (hslots q).mp ⟨r, hr⟩
      rw [hidle] at hn
      cases hn
  · rw [resetPort_service, hidle] at hn
    cases hn
  · rw [resetPort_port]
    by_cases hq : q = p
    · subst hq
      rw [if_pos rfl, hp]
      rfl
    · rw [if_neg hq]
      exact hm q hq

theorem marked_tick {l : List Claim} {s : State} (h : Marked (.tick :: l) s) : Marked l s :=
  ⟨h.slots, fun p => by rw [← h.markers p, List.count_cons_of_ne (by exact nofun)]⟩

theorem marked_actClaim {c : Claim} {l : List Claim} {s : State} (hidle : s.service = .idle) (h : Marked (c :: l) s) :
    Marked l (actClaim s c) := by
  cases c with
  | tick => exact marked_tickActs (marked_tick h)
  | portReset p =>
    refine marked_resetPort hidle h.slots (fun q hq => ?_) ?_
    · rw [← h.markers q, List.count_cons_of_ne]
      exact fun e => hq (Claim.portReset.inj e).symm
    · have hp := h.markers p
      rw [List.count_cons_self] at hp
      split at hp
      · exact Nat.succ.inj hp
      · cases hp

theorem actClaim_idle {s : State} (c : Claim) (h : s.service = .idle) : (actClaim s c).service = .idle := by
  cases c with
  | tick => exact (tickActs_service s).trans h
  | portReset p => exact (resetPort_service p s).trans h

theorem marked_foldl_actClaim {l : List Claim} {s : State} (hidle : s.service = .idle) (h : Marked l s) :
    Marked [] (l.foldl actClaim s) := by
  induction l generalizing s with
  | nil => exact h
  | cons c l ih => exact ih (actClaim_idle c hidle) (marked_actClaim hidle h)

theorem marked_setDeferred {l : List Claim} {s : State} (h : Marked l s) :
    Marked (State.deferred { s with deferred := l }) { s with deferred := l } :=
  h.of_ports rfl rfl

theorem marked_actTicks {l : List Claim} {s : State} (h : Marked l s) : Marked (actTicks l s).deferred (actTicks l s) := by
  induction l generalizing s with
  | nil => exact marked_setDeferred h
  | cons c l ih =>
    cases c with
    | tick => exact ih (marked_tickActs (marked_tick h))
    | portReset p => exact marked_setDeferred h

theorem marked_actThrough {p : Port} {l : List Claim} {s : State} (hidle : s.service = .idle) (h : Marked l s) :
    Marked (actThrough p l s).deferred (actThrough p l s) := by
  induction l generalizing s with
  | nil => exact marked_setDeferred h
  | cons c l ih =>
    unfold actThrough
    split
    · next hc =>
      subst hc
      exact marked_actTicks (marked_actClaim hidle h)
    · exact ih (actClaim_idle c hidle) (marked_actClaim hidle h)

/-! ### The arbiter -/

theorem taken_serving (x : Slot) (r : Request) : x.taken = .serving r ↔ x = .held r ∨ x = .serving r := by
  cases x <;> simp [Slot.taken]

/-- The arbiter takes a HELD request, whose slot goes to SERVING, or an item (R142). -/
theorem marked_arbitrate {l : List Claim} {s : State} (h : Marked l s) : Marked l (arbitrate s) := by
  cases hservice : s.service with
  | serving w => rwa [arbitrate_of_serving hservice]
  | idle =>
    have hnone := h.not_serving fun p n => by rw [hservice]; exact nofun
    cases hc : choose s with
    | none => rwa [arbitrate_of_none hc]
    | some w =>
      rw [arbitrate_of_some hservice hc]
      rcases choose_cases hc with ⟨p, hp, rfl⟩ | ⟨i, hi, rfl⟩
      · obtain ⟨r, hr⟩ := (holdsRequest_iff s p).mp hp
        have hport : ∀ q, (takeWork (.request p (s.port p).linkErrors) s).port q =
            if q = p then { s.port q with slot := (s.port q).slot.taken } else s.port q := State.modPort_port s p
          (f := fun x => { x with slot := x.slot.taken })
        refine ⟨fun q => ?_, fun q => ?_⟩
        · rw [hport]
          by_cases hq : q = p
          · subst hq
            rw [if_pos rfl]
            exact ⟨fun _ => ⟨_, rfl⟩, fun _ => ⟨r, (taken_serving _ r).mpr (.inl hr)⟩⟩
          · rw [if_neg hq]
            refine ⟨fun ⟨r', hr'⟩ => absurd hr' (hnone q r'), fun ⟨n, hn⟩ => ?_⟩
            obtain ⟨e, -⟩ := Work.request.inj (Service.serving.inj hn)
            exact absurd e.symm hq
        · rw [hport]
          by_cases hq : q = p
          · rw [if_pos hq]
            exact h.markers q
          · rw [if_neg hq]
            exact h.markers q
      · exact ⟨slotLaw_of_none hnone fun p n hn => (nomatch Service.serving.inj hn), h.markers⟩

theorem engineOk_chooseNext {s : State} (h : Marked s.deferred s) : EngineOk (chooseNext s) := by
  unfold chooseNext
  split
  · next hd =>
    refine ⟨?_, idleLaw_of_ready (ready_arbitrate hd rfl)⟩
    rw [arbitrate_deferred]
    exact marked_arbitrate (h.of_ports rfl rfl)
  · next hd => exact ⟨h, fun _ hd' => absurd hd' hd⟩

theorem engineOk_settled {s : State} (h : EngineOk s) : EngineOk (settled s) := by
  cases hservice : s.service with
  | serving w => rwa [settled_of_serving hservice]
  | idle =>
    have hact : Marked [] (s.deferred.foldl actClaim { s with deferred := [] }) :=
      marked_foldl_actClaim hservice (h.1.of_ports rfl rfl)
    have hd : (s.deferred.foldl actClaim { s with deferred := [] }).deferred = [] := foldl_actClaim_deferred _ _
    have hs : settled s = chooseNext (s.deferred.foldl actClaim { s with deferred := [] }) := by rw [settled, hservice]
    rw [hs]
    refine engineOk_chooseNext ?_
    rw [hd]
    exact hact

/-- The end of a piece of work, once no slot is SERVING. -/
theorem engineOk_conclude {s : State} (h : Marked s.deferred { s with service := .idle }) : EngineOk (conclude s) :=
  engineOk_chooseNext (marked_actTicks h)

/-! ### Transactions -/

/-- The law in the middle of a transaction: the engine serves a piece of work or is at rest. -/
def EngineReady (s : State) : Prop := Marked s.deferred s ∧ Ready s

theorem engineOk_of_ready {s : State} (h : EngineReady s) : EngineOk s := ⟨h.1, idleLaw_of_ready h.2⟩

/-- A change of a port interface that keeps its marker, and of its slot whether it is HELD and whether it is SERVING. -/
theorem engineReady_modPort {s : State} {p : Port} {f : PortLink → PortLink}
    (hslot : ∀ r, (f (s.port p)).slot = .serving r ↔ (s.port p).slot = .serving r)
    (hheld : ∀ r, (f (s.port p)).slot = .held r ↔ (s.port p).slot = .held r)
    (hp : (f (s.port p)).resetPending = (s.port p).resetPending) (h : EngineReady s) : EngineReady (s.modPort p f) := by
  have hport : ∀ q, (s.modPort p f).port q = if q = p then f (s.port q) else s.port q := State.modPort_port s p (f := f)
  refine ⟨h.1.of_same (fun q => ?_) (fun q => ?_) rfl, ?_⟩
  · rw [hport]
    split
    · next hq => exact exists_congr fun r => hq ▸ hslot r
    · rfl
  · rw [hport]
    split
    · next hq => exact hq ▸ hp
    · rfl
  · rcases h.2 with hw | hrest
    · exact .inl hw
    · refine .inr (atRest_of_same (s := s) rfl rfl rfl rfl (fun q => Bool.eq_iff_iff.mpr ?_) hrest)
      rw [holdsRequest_iff, holdsRequest_iff, hport]
      split
      · next hq => exact exists_congr fun r => hq ▸ hheld r
      · rfl

theorem emptied_serving (x : Slot) (r : Request) :
    (x.emptied = .serving r ↔ x = .serving r) ∧ (x.emptied = .held r ↔ x = .held r) := by
  cases x <;> simp [Slot.emptied]

/-- A request placed in an idle slot is work that arrives (R141, R154). -/
theorem engineReady_acceptRequest (p : Port) (r : Request) (s : State) (h : EngineReady s) :
    EngineReady (acceptRequest p r s) := by
  unfold acceptRequest
  cases hslot : (s.port p).slot with
  | idle =>
    have hport : ∀ q, (s.modPort p fun x => { x with slot := .held r }).port q =
        if q = p then { s.port q with slot := .held r } else s.port q :=
      State.modPort_port s p (f := fun x => { x with slot := .held r })
    have hmarked : Marked s.deferred (s.modPort p fun x => { x with slot := .held r }) := by
      refine h.1.of_same (fun q => ?_) (fun q => ?_) rfl
      · rw [hport]
        split
        · next hq => simp [hq, hslot]
        · rfl
      · rw [hport]
        split <;> rfl
    dsimp only
    refine ⟨by rw [arbitrate_deferred]; exact marked_arbitrate hmarked, ?_⟩
    rcases h.2 with ⟨w, hw⟩ | ⟨-, hd, hf, -⟩
    · exact .inl ⟨w, by rw [arbitrate_of_serving (s := s.modPort p _) hw]; exact hw⟩
    · exact ready_arbitrate hd hf
  | held | serving | ready => exact engineReady_modPort (fun _ => Iff.rfl) (fun _ => Iff.rfl) rfl h

/-- A PORT-RESET received acts at once, or sets its marker and waits (R159). -/
theorem engineReady_receivePortReset (p : Port) (s : State) (h : EngineReady s) :
    EngineReady (receivePortReset p s) := by
  unfold receivePortReset
  cases hservice : s.service with
  | idle =>
    obtain ⟨-, hd, hf, -⟩ := h.2.resolve_left fun ⟨w, hw⟩ => by
      rw [hservice] at hw
      cases hw
    have hmarked : Marked [] (resetPort p s) := by
      refine marked_resetPort hservice h.1.slots (fun q _ => ?_) rfl
      rw [← hd]
      exact h.1.markers q
    dsimp only
    refine ⟨?_, ready_arbitrate (by rw [resetPort_deferred, hd]) (by rw [resetPort_fresh, hf])⟩
    rw [arbitrate_deferred, resetPort_deferred, hd]
    exact marked_arbitrate hmarked
  | serving w =>
    dsimp only
    split
    · exact h
    · next hnot =>
      have hport : ∀ q, (s.modPort p fun x => { x with resetPending := true }).port q =
          if q = p then { s.port q with resetPending := true } else s.port q :=
        State.modPort_port s p (f := fun x => { x with resetPending := true })
      have hmarked : Marked (s.deferred ++ [.portReset p]) (s.modPort p fun x => { x with resetPending := true }) := by
        refine ⟨fun q => ?_, fun q => ?_⟩
        · have hold := h.1.slots q
          rw [hport]
          split
          · exact hold
          · exact hold
        · rw [hport, List.count_append, h.1.markers q]
          by_cases hq : q = p
          · subst hq
            rw [if_pos rfl, if_neg hnot, List.count_singleton_self]
            rfl
          · rw [if_neg hq, List.count_eq_zero_of_not_mem (l := [Claim.portReset p])]
            · rfl
            · rw [List.mem_singleton]
              exact fun e => hq (Claim.portReset.inj e)
      exact ⟨marked_setDeferred hmarked, .inl ⟨w, hservice⟩⟩

theorem engineReady_linkLaw (p : Port) : LinkLaw p EngineReady where
  plain s f hf h := by
    obtain ⟨hslot, hpending⟩ := hf (s.port p)
    exact engineReady_modPort (fun r => by rw [hslot]) (fun r => by rw [hslot]) hpending h
  poll rx s h := by
    refine engineReady_modPort (fun r => ?_) (fun r => ?_) rfl h
    · dsimp only
      split
      · exact (emptied_serving _ r).1
      · rfl
    · dsimp only
      split
      · exact (emptied_serving _ r).2
      · rfl
  accept r s h := engineReady_acceptRequest p r s h
  reset s h := engineReady_receivePortReset p s h

/-! ### The pieces of work and the other commands -/

theorem engineReady_settled {s : State} (h : EngineOk s) : EngineReady (settled s) :=
  ⟨(engineOk_settled h).1, ready_settled s⟩

/-- The end of a request whose response is placed, from a state that keeps the outside. -/
theorem engineOk_answered {s u : State} {p : Port} {n : Nat} (h : Marked s.deferred s)
    (hservice : s.service = .serving (.request p n)) (hu : SameOutside s u) (r : Response) :
    EngineOk (conclude (placeResponse p r u)) := by
  have hport : ∀ q, (placeResponse p r u).port q = if q = p then { s.port q with slot := .ready r } else s.port q := by
    intro q
    rw [placeResponse, State.modPort_port, ← State.ports_get u, hu.ports, State.ports_get]
  have hdeferred : (placeResponse p r u).deferred = s.deferred := hu.deferred
  refine engineOk_conclude ⟨slotLaw_of_none (fun q r' hr => ?_) (fun q n => nofun), fun q => ?_⟩
  · change ((placeResponse p r u).port q).slot = _ at hr
    rw [hport] at hr
    split at hr
    · cases hr
    · next hq =>
      obtain ⟨m, hm⟩ := (h.slots q).mp ⟨r', hr⟩
      rw [hservice] at hm
      obtain ⟨e, -⟩ := Work.request.inj (Service.serving.inj hm)
      exact hq e.symm
  · change _ = if ((placeResponse p r u).port q).resetPending = true then 1 else 0
    rw [hdeferred, hport]
    by_cases hq : q = p
    · rw [if_pos hq]
      exact h.markers q
    · rw [if_neg hq]
      exact h.markers q

/-- The end of an item, from a state that keeps the outside. -/
theorem engineOk_item {s u : State} {i : Item} (h : Marked s.deferred s) (hservice : s.service = .serving (.item i))
    (hu : SameOutside s u) : EngineOk (conclude u) := by
  have hnone := h.not_serving fun p n hn => by
    rw [hservice] at hn
    cases hn
  have hport : ∀ q, u.port q = s.port q := fun q => by rw [← State.ports_get, hu.ports, State.ports_get]
  refine engineOk_conclude ⟨slotLaw_of_none (fun q r hr => hnone q r ?_) (fun q n => nofun), fun q => ?_⟩
  · exact hport q ▸ hr
  · change _ = if (u.port q).resetPending = true then 1 else 0
    rw [hu.deferred, hport]
    exact h.markers q

theorem serve_eq_placeResponse (k : Kind) (p : Port) (r : Request) (s : State) :
    ∃ u x, serve k k.work p r s = placeResponse p x u ∧ SameOutside s u := by
  unfold serve
  split
  · exact ⟨s, _, rfl, sameOutside_refl s⟩
  · exact ⟨_, _, rfl, sameOutside_served (served_work p r.payload s k)⟩

theorem engineOk_finishRequest (k : Kind) (p : Port) {s : State} (h : EngineOk s) :
    EngineOk (finishRequest k k.work p s) := by
  have hset := engineOk_settled h
  unfold finishRequest
  dsimp only
  split
  · next r hr =>
    split
    · obtain ⟨n, hservice⟩ := service_of_requestInService hr
      obtain ⟨u, x, he, hu⟩ := serve_eq_placeResponse k p r (settled s)
      rw [he]
      exact engineOk_answered hset.1 hservice hu x
    · exact hset
  · exact hset

theorem engineOk_unknownKindCode (p : Port) {s t : State} (h : EngineOk s) (ht : execUnknownKindCode p s = .next t) :
    EngineOk t := by
  have hset := engineOk_settled h
  unfold execUnknownKindCode at ht
  dsimp only at ht
  split at ht
  · next r hr =>
    cases ht
    split
    · obtain ⟨n, hservice⟩ := service_of_requestInService hr
      exact engineOk_answered hset.1 hservice (sameOutside_refl _) _
    · exact hset
  · cases ht
    exact hset

theorem engineOk_expiryItem (n : Fin 24) {s t : State} (h : EngineOk s) (ht : execExpiryItem n s = .next t) :
    EngineOk t := by
  have hset := engineOk_settled h
  unfold execExpiryItem at ht
  dsimp only at ht
  split at ht
  · next m p k hservice =>
    cases ht
    split
    · exact engineOk_item hset.1 hservice (sameOutside_serveExpiry m p k _)
    · exact hset
  all_goals
    cases ht
    exact hset

theorem engineOk_teardownItem (p : Port) {s t : State} (h : EngineOk s) (ht : execTeardownItem p s = .next t) :
    EngineOk t := by
  have hset := engineOk_settled h
  unfold execTeardownItem at ht
  dsimp only at ht
  split at ht
  · next q hservice =>
    cases ht
    split
    · exact engineOk_item hset.1 hservice (sameOutside_teardown q _)
    · exact hset
  all_goals
    cases ht
    exact hset

theorem engineOk_portResetActs (p : Port) {s t : State} (h : EngineOk s) (ht : execPortResetActs p s = .next t) :
    EngineOk t := by
  unfold execPortResetActs at ht
  split at ht
  · cases ht
    exact h
  · next hidle =>
    cases ht
    split
    · exact engineOk_chooseNext (marked_actThrough hidle h.1)
    · exact h

theorem engineReady_tickComes {s : State} (h : EngineReady s) : EngineReady (tickComes s) := by
  cases hservice : s.service with
  | idle =>
    obtain ⟨-, hd, hf, -⟩ := h.2.resolve_left fun ⟨w, hw⟩ => by
      rw [hservice] at hw
      cases hw
    rw [tickComes_of_idle hservice]
    refine ⟨?_, ready_arbitrate (by rw [tickActs_deferred, hd]) (by rw [tickActs_fresh, hf])⟩
    rw [arbitrate_deferred, tickActs_deferred]
    exact marked_arbitrate (marked_tickActs h.1)
  | serving w =>
    rw [tickComes_of_serving hservice]
    have hmarked : Marked (s.deferred ++ [.tick]) s := by
      refine ⟨h.1.slots, fun q => ?_⟩
      rw [List.count_append, List.count_eq_zero_of_not_mem (l := [Claim.tick]) (by simp)]
      exact h.1.markers q
    exact ⟨marked_setDeferred hmarked, .inl ⟨w, hservice⟩⟩

/-- An idle part with empty slots and nothing that waits. -/
theorem engineOk_blank {s : State} (hp : ∀ p, (s.port p).slot = .idle ∧ (s.port p).resetPending = false)
    (hservice : s.service = .idle) (hd : s.deferred = []) (hf : s.fresh = ⟨none, none⟩) (hw : s.workList = []) :
    EngineOk s := by
  refine ⟨⟨slotLaw_of_none (fun p r hr => ?_) (fun p n => by rw [hservice]; exact nofun), fun p => ?_⟩, fun _ _ =>
    ⟨hservice, hd, hf, (choose_eq_none_iff s).mpr ⟨hw, fun p => ?_⟩⟩⟩
  · rw [(hp p).1] at hr
    cases hr
  · rw [hd, (hp p).2]
    rfl
  · rw [holdsRequest, (hp p).1]

/-- The law does not see the part's other inputs and the queue of commands. -/
theorem engineOk_inputs {s t : State} (h : EngineOk s) (hp : t.ports = s.ports) (hservice : t.service = s.service)
    (hd : t.deferred = s.deferred) (hf : t.fresh = s.fresh) (hw : t.workList = s.workList) : EngineOk t := by
  refine ⟨hd ▸ h.1.of_ports hp hservice, fun hidle hnone => ?_⟩
  refine atRest_of_same hservice hd hf hw (fun p => holdsRequest_congr ?_) (h.2 (hservice ▸ hidle) (hd ▸ hnone))
  rw [← State.ports_get, hp, State.ports_get]

theorem engineOk_powerUp (s : State) : EngineOk (powerUp s) :=
  engineOk_blank (fun p => by cases p <;> exact ⟨rfl, rfl⟩) rfl rfl rfl rfl

theorem engineOk_lineReset (s : State) : EngineOk (lineReset s) := by
  refine engineOk_blank (fun p => by cases p <;> exact ⟨rfl, rfl⟩) ?_ ?_ ?_ ?_
  all_goals simp only [lineReset]

theorem engineOk_exec (c : Instr) {s t : State} (h : EngineOk s) (ht : exec c s = .next t) : EngineOk t := by
  have hready := engineReady_settled h
  cases form_of c with
  | request k p =>
    rw [exec_commandOf] at ht
    cases ht
    exact engineOk_finishRequest k p h
  | frame p type seg f hf =>
    obtain ⟨type', hexec⟩ := exec_frame hf
    rw [hexec] at ht
    cases ht
    exact engineOk_of_ready (transact_kept (engineReady_linkLaw p) type' seg hready)
  | namedTick c hc =>
    rcases exec_namedTick hc s with he | he <;> rw [he] at ht <;> cases ht
    · exact engineOk_of_ready (engineReady_tickComes hready)
    · exact engineOk_of_ready hready
  | timebaseTick =>
    cases ht
    exact engineOk_of_ready (engineReady_tickComes hready)
  | expiryItem n => exact engineOk_expiryItem n h ht
  | teardownItem p => exact engineOk_teardownItem p h ht
  | portResetActs p => exact engineOk_portResetActs p h ht
  | unknownKindCode p => exact engineOk_unknownKindCode p h ht
  | powerOn =>
    cases ht
    exact engineOk_powerUp s
  | initComplete =>
    cases ht
    exact engineOk_inputs h rfl rfl rfl rfl rfl
  | resetLine =>
    cases ht
    exact engineOk_lineReset _
  | resetReturnsHigh =>
    cases ht
    exact engineOk_inputs h rfl rfl rfl rfl rfl

theorem engineOk_step {s t : State} (h : EngineOk s) (ht : step s = .next t) : EngineOk t := by
  unfold step at ht
  split at ht
  · cases ht
    exact h
  · next c rest _ => exact engineOk_exec c (s := { s with pending := rest }) (engineOk_inputs h rfl rfl rfl rfl rfl) ht

/-- Settles O60: what acts with the engine idle clears slots and markers, what takes work marks its slot, and each command
leaves the engine serving, at rest, or with a port reset that waits to act. -/
theorem engineLawIsKept : Obligations.EngineLawIsKept := fun s t hs ht =>
  (engineOk_iff t).mp (engineOk_step ((engineOk_iff s).mpr hs) ht)

end Sys2Proof.Machine
end

section
/-!
PROOFS. The queue of commands, power-on, the RESET line, and the part that does not answer (O1, O2, O4 to O7).
-/

namespace Sys2Proof.Machine

open Sys2Proof.Safety

/-! ### The queue of commands -/

/-- Settles O1. -/
theorem stepRunsTheFrontCommand : Obligations.StepRunsTheFrontCommand := by
  intro c rest s h
  unfold step
  rw [h]

/-- A part of the state that the interfaces, the ticks, the resets and the arbiter leave alone is left alone by a
transaction. -/
theorem Untouched.linkLaw {β : Type} {g : State → β} (h : Untouched g) (hp : ∀ s p f, g (State.modPort s p f) = g s)
    (p : Port) (v : β) : LinkLaw p fun s => g s = v where
  plain s f _ hs := (hp s p f).trans hs
  poll rx s hs := (hp s p _).trans hs
  accept r s hs := by
    unfold acceptRequest
    split
    · exact (h.arbiter _).trans ((hp s p _).trans hs)
    all_goals exact (hp s p _).trans hs
  reset s hs := by
    unfold receivePortReset
    split
    · exact (h.arbiter _).trans ((h.reset p s).trans hs)
    · split
      · exact hs
      · exact (h.deferred (s.modPort p fun x => { x with resetPending := true }) _).trans ((hp s p _).trans hs)

/-- The frame commands leave alone what the interfaces and the engine do. -/
theorem Untouched.transact {β : Type} {g : State → β} (h : Untouched g)
    (hp : ∀ s p f, g (State.modPort s p f) = g s) (p : Port) (type : Byte) (seg : Segment) (s : State) :
    g (transact p type seg (settled s)) = g s :=
  transact_kept (h.linkLaw hp p (g s)) type seg (settled_keeps h s)

/-- A request served leaves alone what no piece of work and no response changes. -/
theorem finishRequest_keeps {β : Type} {g : State → β} (h : Untouched g) {k : Kind} {p : Port} {s : State}
    (hserve : ∀ r, g (serve k k.work p r (settled s)) = g (settled s)) : g (finishRequest k k.work p s) = g s := by
  have hset := settled_keeps h s
  unfold finishRequest
  dsimp only
  split
  · split
    · exact (conclude_keeps h _).trans ((hserve _).trans hset)
    · exact hset
  · exact hset

theorem pending_serve (k : Kind) (p : Port) (r : Request) (s : State) : (serve k k.work p r s).pending = s.pending := by
  obtain ⟨u, x, he, hu⟩ := serve_eq_placeResponse k p r s
  rw [he]
  exact hu.pending

theorem tickComes_pending (s : State) : (tickComes s).pending = s.pending := by
  unfold tickComes
  split
  · exact (arbitrate_pending _).trans (tickActs_pending s)
  · rfl

theorem completeWork_pending (s : State) : (completeWork s).pending = s.pending := by
  unfold completeWork
  split
  · rfl
  · exact (sameOutside_serveExpiry _ _ _ s).pending
  · exact (sameOutside_teardown _ s).pending
  · split
    · unfold serveAny
      split
      · exact pending_serve _ _ _ s
      · rfl
    all_goals rfl

/-- Settles O2: each form of command gives a next state whose queue is that of the state it found. -/
theorem everyCommandIsAnswered : Obligations.EveryCommandIsAnswered := by
  intro c s
  have hset : (settled s).pending = s.pending := settled_keeps untouched_pending s
  have hend : ∀ u : State, u.pending = s.pending → (conclude u).pending = s.pending := fun u hu =>
    (conclude_keeps untouched_pending u).trans hu
  cases form_of c with
  | request k p =>
    exact ⟨_, exec_commandOf k p s, finishRequest_keeps untouched_pending fun r => pending_serve k p r _⟩
  | frame p type seg f hf =>
    obtain ⟨type', hexec⟩ := exec_frame hf
    exact ⟨_, hexec seg s, untouched_pending.transact (fun _ _ _ => rfl) p type' seg s⟩
  | namedTick c hc =>
    rcases exec_namedTick hc s with he | he
    · exact ⟨_, he, (tickComes_pending _).trans hset⟩
    · exact ⟨_, he, hset⟩
  | timebaseTick => exact ⟨_, rfl, (tickComes_pending _).trans hset⟩
  | expiryItem n =>
    rw [exec_expiryItem]
    unfold execExpiryItem
    dsimp only
    split
    · refine ⟨_, rfl, ?_⟩
      split
      · exact hend _ ((sameOutside_serveExpiry _ _ _ _).pending.trans hset)
      · exact hset
    all_goals exact ⟨_, rfl, hset⟩
  | teardownItem p =>
    rw [exec_teardownItem]
    unfold execTeardownItem
    dsimp only
    split
    · refine ⟨_, rfl, ?_⟩
      split
      · exact hend _ ((sameOutside_teardown _ _).pending.trans hset)
      · exact hset
    all_goals exact ⟨_, rfl, hset⟩
  | portResetActs p =>
    rw [exec_portResetActs]
    unfold execPortResetActs
    split
    · exact ⟨_, rfl, rfl⟩
    · refine ⟨_, rfl, ?_⟩
      split
      · exact (chooseNext_keeps untouched_pending _).trans (actThrough_keeps untouched_pending p _ s)
      · rfl
  | unknownKindCode p =>
    rw [exec_unknownKindCode]
    unfold execUnknownKindCode
    dsimp only
    split
    · refine ⟨_, rfl, ?_⟩
      split
      · exact hend _ hset
      · exact hset
    · exact ⟨_, rfl, hset⟩
  | powerOn => exact ⟨_, rfl, rfl⟩
  | initComplete => exact ⟨_, rfl, rfl⟩
  | resetLine =>
    refine ⟨_, exec_resetLine s, ?_⟩
    have hline : ∀ u : State, (lineReset u).pending = u.pending := fun u => by simp only [lineReset]
    exact (hline _).trans ((completeWork_pending _).trans hset)
  | resetReturnsHigh => exact ⟨_, rfl, rfl⟩

/-! ### Power-on -/

theorem powerUp_reset : powerUp State.reset = State.reset := rfl

/-- The attention line of a port without records is released (R161). -/
theorem attnLow_of_queue_nil {s : State} {p : Port} (h : (s.session p).queue = []) : attnLow s p = false := by
  rw [attnLow, attention_of_queue_nil h]
  rfl

theorem powerUp_port (s : State) (p : Port) :
    (powerUp s).port p = { PortLink.powerOn with selected := (s.port p).selected } := by
  cases p <;> rfl

/-- Settles O4. -/
theorem powerOnEngineAndPorts : Obligations.PowerOnEngineAndPorts := by
  refine ⟨⟨congrArg _ powerUp_reset, rfl, rfl, fun p => by cases p <;> rfl⟩, fun s =>
    ⟨_, rfl, rfl, rfl, rfl, rfl, fun p => ⟨powerUp_port s p, attnLow_of_queue_nil ?_⟩, rfl, rfl, rfl⟩⟩
  rw [powerUp_session]
  rfl

/-- Settles O5: State.reset is what POWER_ON leaves of it, and POWER_ON establishes every law that steps keep. -/
theorem lawsHoldAtReset : Obligations.LawsHoldAtReset := by
  obtain ⟨hn, he, hs, hm, hh⟩ := (lockOk_iff State.reset).mp (stepLaw_locks.powerUp State.reset)
  obtain ⟨-, ht, ha⟩ := stepLaw_waiters.powerUp State.reset
  obtain ⟨htear, hlease⟩ := (sessionLaw_iff State.reset).mpr (stepLaw_sessions.powerUp State.reset)
  obtain ⟨hslot, hreset, hidle⟩ := (engineOk_iff State.reset).mp (engineOk_powerUp State.reset)
  exact ⟨stepLaw_cells.powerUp State.reset,
    (poolLaw_iff _).mpr fun q => (poolAt_queueStepLaw q).stepLaw.powerUp State.reset,
    (ticketLaw_iff _).mpr fun q => (ticketAt_queueStepLaw q).stepLaw.powerUp State.reset, he,
    (watchLaw_iff _).mpr fun q => (watchAt_queueStepLaw q).stepLaw.powerUp State.reset, hs, hm, hh, ht, ha, htear,
    hlease, hslot, hreset, hidle⟩

/-! ### The RESET line -/

theorem lineReset_port (s : State) (p : Port) :
    (lineReset s).port p = { PortLink.powerOn with selected := (s.port p).selected, out := (s.port p).out } := by
  cases p <;> rfl

theorem isHeld_iff_holderOf (s : State) (l : Fin 48) : (s.lock l).isHeld = (holderOf s l).isSome := by
  unfold Lock.isHeld holderOf
  cases (s.lock l).state <;> rfl

theorem lineReset_bankSuspect (s : State) (b : Fin 32) :
    (lineReset s).bankSuspect b = (s.bankSuspect b || (holderOf s (bankLock b)).isSome) := by
  rw [← isHeld_iff_holderOf, lineReset, State.bankSuspect_mk]
  exact Vector.getElem_ofFn _

theorem serveAny_of_code {k : Kind} {r : Request} (h : r.kind = k.code) (p : Port) (s : State) :
    serveAny p r s = serve k k.work p r s := by
  rw [serveAny, h, ofCode_code]

theorem serveAny_of_unknown {r : Request} (h : ∀ k : Kind, r.kind ≠ k.code) (p : Port) (s : State) :
    serveAny p r s = refuseUnknown p r s := by
  rw [serveAny, ofCode_eq_none h]

theorem completeWork_of_serves {s : State} {p : Port} {r : Request} (h : Serves s p r) :
    completeWork s = serveAny p r s := by
  obtain ⟨⟨n, hn⟩, hr⟩ := h
  simp only [completeWork, hn, hr]

theorem exec_commandOf_of_serves {k : Kind} {p : Port} {r : Request} {s : State} (h : Serves s p r)
    (hk : r.kind = k.code) : exec (commandOf k p) s = .next (conclude (serve k k.work p r s)) := by
  rw [exec_commandOf, finishRequest_of_serves h hk]

theorem exec_unknownKindCode_of_serves {p : Port} {r : Request} {s : State} (h : Serves s p r)
    (hr : ∀ k : Kind, r.kind ≠ k.code) :
    exec (.unknownKindCode p) s = .next (conclude (refuseUnknown p r s)) := by
  rw [exec_unknownKindCode]
  simp only [execUnknownKindCode, settled_of_serves h, requestInService_of_serves h, ofCode_eq_none hr,
    Option.isNone_none, if_true]

theorem exec_expiryItem_of_service {n : Fin 24} {p : Port} {t : Byte} {s : State}
    (h : s.service = .serving (.item (.expiry n p t))) :
    exec (.expiryItem n) s = .next (conclude (serveExpiry n p t s)) := by
  rw [exec_expiryItem]
  simp only [execExpiryItem, settled_of_serving h, h, if_true]

/-- Settles O6. -/
theorem resetLineValues : Obligations.ResetLineValues := by
  refine ⟨fun s => ⟨_, exec_resetLine s, ?_⟩, fun s => ⟨fun p r k h hk => ?_, fun p r h hr => ?_, fun n p t h => ?_,
    fun p h => ?_, fun h => ?_⟩⟩
  · generalize completeWork (settled s) = u
    refine ⟨lineReset_cells u, lineReset_bankSuspect u, lineReset_lock u, ?_, fun p =>
      ⟨lineReset_session u p, lineReset_port u p, attnLow_of_queue_nil ?_⟩, ?_⟩
    · simp only [lineReset]
    · rw [lineReset_session]
      rfl
    · simp only [lineReset, and_self]
  · rw [settled_of_serves h, completeWork_of_serves h, serveAny_of_code hk]
    exact ⟨rfl, exec_commandOf_of_serves h hk⟩
  · rw [settled_of_serves h, completeWork_of_serves h, serveAny_of_unknown hr]
    exact ⟨rfl, exec_unknownKindCode_of_serves h hr⟩
  · rw [settled_of_serving h]
    exact ⟨by simp only [completeWork, h], exec_expiryItem_of_service h⟩
  · rw [settled_of_serving h]
    exact ⟨by simp only [completeWork, h], exec_teardownItem_of_service h⟩
  · rw [settled_of_atRest h]
    obtain ⟨hidle, -⟩ := h
    simp only [completeWork, hidle]

/-! ### A part that does not answer -/

theorem attnLow_eq (s : State) (p : Port) : attnLow s p = (!(s.session p).queue.isEmpty && !s.resetLow) := rfl

/-- A port without an open transaction, selected while the part does not answer: SDO stays released (R162). -/
theorem openTransaction_of_silent {s : State} {p : Port} (ha : answers s = false)
    (hs : (s.port p).selected = false ∨ (s.port p).receiver = .idle) (m : ClockMode) :
    openTransaction p m s = s.modPort p fun x => { x with selected := true, out := [], receiver := .idle } := by
  rcases hs with hs | hr
  · simp [openTransaction, hs, selectPort, ha]
  · by_cases hs : (s.port p).selected = true
    · have hd : deselectPort p s = s.modPort p fun x => { x with selected := false, receiver := .idle } := by
        simp [deselectPort, hr]
      have ha' : answers (s.modPort p fun x => { x with selected := false, receiver := .idle }) = false := ha
      simp [openTransaction, hs, hd, selectPort, ha']
    · simp [openTransaction, hs, selectPort, ha]

theorem deselectPort_of_idle {s : State} {p : Port} (h : (s.port p).receiver = .idle) :
    deselectPort p s = s.modPort p fun x => { x with selected := false } := by
  have hd : deselectPort p s = s.modPort p fun x => { x with selected := false, receiver := .idle } := by
    simp [deselectPort, h]
  rw [hd]
  refine State.modPort_congr s p _ _ ?_
  simp [← h]

/-- Settles O7. -/
theorem noAnswerBeforeInitialisation : Obligations.NoAnswerBeforeInitialisation := by
  refine ⟨fun s => ⟨rfl, rfl, fun p => ⟨fun h => ?_, ?_⟩⟩, ?_, ?_⟩
  · rw [attnLow_eq, h, Bool.not_true, Bool.and_false]
  · rw [attnLow_eq]
    exact Bool.and_true _
  · intro s p type m bytes bits hready hsilent hs silent f hf
    have ha : answers s = false := by rcases hsilent with h | h <;> simp [answers, h]
    have ho := openTransaction_of_silent ha hs m
    obtain ⟨type', hexec⟩ := exec_frame hf
    have hopened : openTransaction p m s = silent true := ho
    have hidle : ((silent true).port p).receiver = .idle := by simp [silent]
    have hclosed : deselectPort p (silent true) = silent false := by
      rw [deselectPort_of_idle hidle, State.modPort_modPort]
    refine ⟨?_, ?_, ?_, ?_⟩ <;> rw [hexec, settled_of_ready hready] <;> unfold transact <;> dsimp only <;>
      rw [hopened]
    · rw [clockBits_of_idle hidle, hclosed]
    · rw [clockBits_of_idle hidle, hclosed]
    · rw [clockBits_of_idle hidle]
  · intro s p type bytes bits hready hidle
    refine ⟨by rw [sdo, hidle], fun f hf => ?_⟩
    obtain ⟨type', hexec⟩ := exec_frame hf
    refine ⟨?_, ?_, ?_⟩ <;> rw [hexec, settled_of_ready hready] <;> unfold transact <;> dsimp only <;>
      rw [clockBits_of_idle hidle]
    rw [deselectPort_of_idle hidle]

end Sys2Proof.Machine
end

section
/-!
PROOFS. The request engine: the arbiter's choice, the taking and the end of work, the common checks and the one response
of each request (O8 to O12).
-/

namespace Sys2Proof.Machine

open Sys2Proof.Safety

/-! ### The arbiter's choice -/

/-- Teardown items alone: no expiry item is found. -/
theorem oldestExpiry_of_teardowns {s : State} (h : ∀ i ∈ s.workList, ∃ q, i = .teardown q) : oldestExpiry s = none := by
  refine List.find?_eq_none.mpr fun i hi => ?_
  obtain ⟨q, rfl⟩ := h i hi
  exact Bool.false_ne_true

theorem oldestExpiry_of_first {s : State} {pre post : List Item} {n : Fin 24} {p : Port} {t : Byte}
    (hw : s.workList = pre ++ .expiry n p t :: post) (hpre : ∀ i ∈ pre, ∃ q, i = .teardown q) :
    oldestExpiry s = some (.expiry n p t) := by
  have hnone := oldestExpiry_of_teardowns (s := { s with workList := pre }) hpre
  rw [oldestExpiry] at hnone ⊢
  rw [hw, List.find?_append, hnone]
  rfl

theorem listsTeardown_eq_false {s : State} {p : Port} (h : Item.teardown p ∉ s.workList) : listsTeardown s p = false :=
  Bool.eq_false_iff.mpr fun ht => h ((listsTeardown_iff s p).mp ht)

theorem portWork_of_request {s : State} {p : Port} (h : holdsRequest s p = true) :
    portWork s p = some (.request p (s.port p).linkErrors) := by
  rw [portWork, if_pos h]

theorem portWork_of_no_request {s : State} {p : Port} (h : holdsRequest s p = false) :
    portWork s p = if listsTeardown s p then some (.item (.teardown p)) else none := by
  rw [portWork, if_neg (Bool.eq_false_iff.mp h)]

/-- Without an expiry item and a teardown of the pointer's own, the first port with work is chosen (R141). -/
theorem choose_of_rotation {s : State} {pre post : List Port} {p : Port}
    (hw : ∀ i ∈ s.workList, ∃ q, i = .teardown q) (hown : .teardown s.rotation ∉ s.workList)
    (hrot : rotationFrom s.rotation = pre ++ p :: post)
    (hpre : ∀ q ∈ pre, holdsRequest s q = false ∧ .teardown q ∉ s.workList) {w : Work} (hp : portWork s p = some w) :
    choose s = some w := by
  have hnone : pre.findSome? (portWork s) = none := List.findSome?_eq_none_iff.mpr fun q hq => by
    obtain ⟨hh, ht⟩ := hpre q hq
    rw [portWork_of_no_request hh, listsTeardown_eq_false ht]
    rfl
  unfold choose
  rw [oldestExpiry_of_teardowns hw]
  dsimp only
  rw [listsTeardown_eq_false hown, hrot, List.findSome?_append, hnone, List.findSome?_cons, hp]
  rfl

/-- Settles O8. -/
theorem arbiterChoice : Obligations.ArbiterChoice := by
  refine ⟨fun s pre post n p t hw hpre => ?_, fun s hw hown => ?_, fun s pre post p hw hown hrot hpre =>
    ⟨fun hh => ?_, fun hh ht => ?_⟩, fun s hw hh => (choose_eq_none_iff s).mpr ⟨hw, hh⟩, rfl, rfl, rfl, rfl⟩
  · rw [choose, oldestExpiry_of_first hw hpre]
  · rw [choose, oldestExpiry_of_teardowns hw]
    exact if_pos ((listsTeardown_iff s s.rotation).mpr hown)
  · exact choose_of_rotation hw hown hrot hpre (portWork_of_request hh)
  · refine choose_of_rotation hw hown hrot hpre ?_
    rw [portWork_of_no_request hh, if_pos ((listsTeardown_iff s p).mpr ht)]

/-! ### The taking and the end of work -/

theorem repeat_step {α : Type} (f : α → α) (n : Nat) (x : α) : Nat.repeat f n (f x) = Nat.repeat f (n + 1) x := by
  induction n with
  | zero => rfl
  | succ n ih => exact congrArg f ih

theorem actTicks_replicate (n : Nat) (rest : List Claim) (s : State) :
    actTicks (List.replicate n .tick ++ rest) s = actTicks rest (Nat.repeat tickActs n s) := by
  induction n generalizing s with
  | zero => rfl
  | succ n ih => exact (ih (tickActs s)).trans (congrArg _ (repeat_step tickActs n s))

theorem chooseNext_of_none (s : State) :
    chooseNext { s with deferred := [] } = arbitrate { s with deferred := [], fresh := ⟨none, none⟩ } := if_pos rfl

theorem untouched_selected (p : Port) : Untouched fun s => (s.port p).selected where
  tick s := by
    rw [← State.ports_get, tickActs_ports, State.ports_get]
  reset q s := by
    rw [resetPort_port]
    split <;> rfl
  arbiter s := arbitrate_keeps (fun s => (s.port p).selected) (fun w t => by
    cases w with
    | item i => rfl
    | request q n =>
      change ((t.modPort q fun x => { x with slot := x.slot.taken }).port p).selected = _
      rw [State.modPort_port]
      split <;> rfl) s
  service _ _ := rfl
  deferred _ _ := rfl
  fresh _ _ := rfl

/-- What POWER_ON leaves depends on the input pins and the queue of commands alone. -/
theorem powerUp_settled (s : State) : powerUp (settled s) = powerUp s := by
  have hports : (settled s).ports.map (fun x => { PortLink.powerOn with selected := x.selected }) =
      s.ports.map fun x => { PortLink.powerOn with selected := x.selected } := by
    have hsel : ∀ p, ((settled s).port p).selected = (s.port p).selected := fun p => settled_keeps (untouched_selected p) s
    refine PerPort.eq_of_get fun p => ?_
    have hp := hsel p
    cases p <;> exact congrArg (fun b => { PortLink.powerOn with selected := b }) hp
  rw [powerUp, powerUp, hports, settled_keeps untouched_resetLow, settled_keeps untouched_pending]

/-- A command other than PORT_RESET_ACTS, INIT_COMPLETE and RESET_RETURNS_HIGH finds the engine settled (log entry 3). -/
theorem exec_settled {c : Instr} (hp : ∀ p, c ≠ .portResetActs p) (hi : c ≠ .initComplete)
    (hr : c ≠ .resetReturnsHigh) (s : State) : exec c s = exec c (settled s) := by
  have hset := settled_settled s
  cases form_of c with
  | request k p =>
    rw [exec_commandOf, exec_commandOf]
    unfold finishRequest
    rw [hset]
  | frame p type seg f hf =>
    obtain ⟨type', hexec⟩ := exec_frame hf
    rw [hexec, hexec, hset]
  | namedTick c hc =>
    obtain ⟨n, rfl⟩ | ⟨p, rfl | rfl⟩ := hc
    · change execDeadlineZero n s = execDeadlineZero n (settled s)
      unfold execDeadlineZero
      rw [hset]
    · change execLeaseLow p s = execLeaseLow p (settled s)
      unfold execLeaseLow
      rw [hset]
    · change execLapse p s = execLapse p (settled s)
      unfold execLapse
      rw [hset]
  | timebaseTick => rw [exec_timebaseTick, exec_timebaseTick, hset]
  | expiryItem n =>
    rw [exec_expiryItem, exec_expiryItem]
    unfold execExpiryItem
    rw [hset]
  | teardownItem p =>
    rw [exec_teardownItem, exec_teardownItem]
    unfold execTeardownItem
    rw [hset]
  | unknownKindCode p =>
    rw [exec_unknownKindCode, exec_unknownKindCode]
    unfold execUnknownKindCode
    rw [hset]
  | powerOn => exact congrArg Host.Outcome.next (powerUp_settled s).symm
  | resetLine => rw [exec_resetLine, exec_resetLine, hset]
  | portResetActs p => exact absurd rfl (hp p)
  | initComplete => exact absurd rfl hi
  | resetReturnsHigh => exact absurd rfl hr

/-- Settles O9. -/
theorem takingAndEndingWork : Obligations.TakingAndEndingWork := by
  refine ⟨fun s => ⟨fun hidle => ⟨fun p n r hc hr => ?_, fun i hc => arbitrate_of_some hidle hc, arbitrate_of_none⟩,
    fun w => arbitrate_of_serving⟩, fun s n => ⟨fun hd => ?_, fun p rest hd => ?_⟩, fun s => ⟨fun w =>
    settled_of_serving, fun hidle => ?_, rfl, fun p => rfl, fun c hp hi hr => exec_settled hp hi hr s⟩⟩
  · have hport : (s.modPort p fun x => { x with slot := x.slot.taken }) =
        s.modPort p fun x => { x with slot := .serving r } :=
      State.modPort_congr s p _ _ (by simp only [hr, Slot.taken])
    rw [arbitrate_of_some hidle hc, ← hport]
    rfl
  · have hticks : actTicks s.deferred { s with service := .idle } =
        { Nat.repeat tickActs n { s with service := .idle } with deferred := [] } := by
      rw [hd, ← List.append_nil (List.replicate n Claim.tick), actTicks_replicate]
      rfl
    change chooseNext (actTicks s.deferred { s with service := .idle }) = _
    rw [hticks]
    exact chooseNext_of_none _
  · have hticks : actTicks s.deferred { s with service := .idle } =
        { Nat.repeat tickActs n { s with service := .idle } with deferred := .portReset p :: rest } := by
      rw [hd, actTicks_replicate]
      rfl
    change chooseNext (actTicks s.deferred { s with service := .idle }) = _
    rw [hticks]
    exact if_neg (List.cons_ne_nil _ _)
  · have hd : (s.deferred.foldl actClaim { s with deferred := [] }).deferred = [] := foldl_actClaim_deferred _ _
    have hs : settled s = chooseNext (s.deferred.foldl actClaim { s with deferred := [] }) := by rw [settled, hidle]
    rw [hs, chooseNext, if_pos hd]

/-! ### The common checks -/

/-- The first common check that fails refuses the request (R144, R145). -/
theorem exec_of_commonCheck {k : Kind} {p : Port} {r : Request} {s : State} {reason : Reason} (h : Serves s p r)
    (hk : r.kind = k.code) (hc : commonCheck k r (s.session p) = some reason) :
    exec (commandOf k p) s = answeredRefused p k reason 0 s := by
  rw [exec_commandOf_of_serves h hk, serve, hc, hk]
  rfl

theorem isSome_ofCode (b : Byte) : (Condition.ofCode b).isSome = true ↔ 1 ≤ b.toNat ∧ b.toNat ≤ 6 := by
  revert b
  decide

theorem payloadSuits_chain (pl : List Byte) :
    payloadSuits .chain pl = true ↔ ∃ n rest, pl = n :: rest ∧ pl.length = 1 + 5 * n.toNat := by
  cases pl <;> simp [payloadSuits]

/-- A payload of at least three bytes has one third byte. -/
theorem exists_third {c1 c0 kc : Byte} {rest : List Byte} {P : Byte → Prop} :
    (∃ a b c l, c1 :: c0 :: kc :: rest = a :: b :: c :: l ∧ P c) ↔ P kc := by
  refine ⟨?_, fun h => ⟨c1, c0, kc, rest, rfl, h⟩⟩
  rintro ⟨_, _, _, _, he, h⟩
  cases he
  exact h

/-- The cell kind of a FORMAT decides the length of its payload (R166). -/
theorem payloadSuits_formatCell_of_code {c1 c0 kc : Byte} {rest : List Byte} {k : CellKind}
    (h : CellKind.ofCode kc = some k) :
    payloadSuits .formatCell (c1 :: c0 :: kc :: rest) =
      ((c1 :: c0 :: kc :: rest).length == if k = .counter then 7 else 5) := by
  unfold payloadSuits
  dsimp only
  rw [h]
  cases k <;> rfl

theorem payloadSuits_formatCell_of_no_code {c1 c0 kc : Byte} {rest : List Byte} (h : CellKind.ofCode kc = none) :
    payloadSuits .formatCell (c1 :: c0 :: kc :: rest) = false := by
  unfold payloadSuits
  dsimp only
  rw [h]

theorem payloadSuits_formatCell (pl : List Byte) :
    payloadSuits .formatCell pl = true ↔
      ∃ c1 c0 kc rest, pl = c1 :: c0 :: kc :: rest ∧
        ((kc = 1 ∨ kc = 3) ∧ pl.length = 5 ∨ kc = 2 ∧ pl.length = 7) := by
  match pl with
  | [] | [_] | [_, _] => simp [payloadSuits]
  | c1 :: c0 :: kc :: rest =>
    refine Iff.trans ?_ exists_third.symm
    by_cases h1 : kc = 1
    · rw [payloadSuits_formatCell_of_code (k := .plain) (by rw [h1]; rfl)]
      simp [h1]
    · by_cases h2 : kc = 2
      · rw [payloadSuits_formatCell_of_code (k := .counter) (by rw [h2]; rfl)]
        simp [h2]
      · by_cases h3 : kc = 3
        · rw [payloadSuits_formatCell_of_code (k := .members) (by rw [h3]; rfl)]
          simp [h3]
        · rw [payloadSuits_formatCell_of_no_code (by rw [CellKind.ofCode, if_neg h1, if_neg h2, if_neg h3])]
          refine ⟨fun h => (nomatch h), fun h => ?_⟩
          rcases h with ⟨hc | hc, -⟩ | ⟨hc, -⟩
          · exact absurd hc h1
          · exact absurd hc h3
          · exact absurd hc h2

theorem payloadSuits_await (pl : List Byte) :
    payloadSuits .await pl = true ↔
      ∃ c1 c0 cc rest, pl = c1 :: c0 :: cc :: rest ∧ pl.length = 7 ∧ 1 ≤ cc.toNat ∧ cc.toNat ≤ 6 := by
  match pl with
  | [] | [_] | [_, _] => simp [payloadSuits]
  | c1 :: c0 :: cc :: rest =>
    refine Iff.trans ?_ exists_third.symm
    rw [← isSome_ofCode, payloadSuits, Bool.and_eq_true, beq_iff_eq]

/-- Settles O10. -/
theorem commonChecks : Obligations.CommonChecks := by
  refine ⟨fun k p r s h hk => ⟨fun hp => ?_, fun hp ho => ⟨fun hs => ?_, fun hs => ?_, fun hs he => ?_⟩⟩, ?_, fun pl =>
    ⟨?_, ?_, ?_, ?_, beq_iff_eq, payloadSuits_chain pl, payloadSuits_formatCell pl, payloadSuits_await pl⟩, rfl, ?_⟩
  · exact exec_of_commonCheck h hk (by simp [commonCheck, hp])
  · exact exec_of_commonCheck h hk (by simp [commonCheck, hp, ho, hs])
  · exact exec_of_commonCheck h hk (by simp [commonCheck, hp, ho, hs])
  · exact exec_of_commonCheck h hk (by simp [commonCheck, hp, ho, hs, he])
  · intro k
    cases k <;> simp [Kind.needsOpen]
  · rintro k (rfl | rfl | rfl | rfl) <;> exact beq_iff_eq
  · rintro k (rfl | rfl | rfl | rfl) <;> exact beq_iff_eq
  · rintro k (rfl | rfl) <;> exact beq_iff_eq
  · rintro k (rfl | rfl | rfl) <;> exact beq_iff_eq
  · intro k
    cases k <;> decide

/-- Settles O11. -/
theorem unknownKindRefused : Obligations.UnknownKindRefused :=
  fun _ _ _ h hr => ⟨exec_unknownKindCode_of_serves h hr, rfl⟩

/-! ### One response for each request -/

/-- Work that answers REFUSED changes nothing, and gives a step index in a chain alone. -/
theorem served_of_refused {k : Kind} {p : Port} {s u : State} {r : Reason} {i : Nat}
    (h : Served p s k u (.refused r i)) : u = s ∧ (k ≠ .chain → i = 0) := by
  cases h with
  | refused _ _ _ hi => exact ⟨rfl, hi⟩

theorem served_of_pending {k : Kind} {p : Port} {s u : State} {f : Fields} (h : Served p s k u (.pending f)) :
    k = .acquire ∨ k = .take ∨ k = .await := by
  cases h with
  | waitsForLock => exact .inl rfl
  | waitsToTake => exact .inr (.inl rfl)
  | awaits => exact .inr (.inr rfl)

/-- Settles O12: the response is the one that the common checks or the kind's own work give. -/
theorem oneResponsePerRequest : Obligations.OneResponsePerRequest := by
  refine ⟨rfl, rfl, fun n => rfl, fun k p r s h hk => ?_⟩
  have hserve : ∀ resp u, serve k k.work p r s = placeResponse p resp u →
      exec (commandOf k p) s = .next (conclude (placeResponse p resp u)) := fun resp u he => by
    rw [exec_commandOf_of_serves h hk, he]
  cases hc : commonCheck k r (s.session p) with
  | some reason =>
    have he : serve k k.work p r s = placeResponse p ((Reply.refused reason 0).response r.kind k.fixedPart) s := by
      rw [serve, hc]
    exact ⟨_, s, hserve _ _ he, sameOutside_refl s, rfl, fun _ => ⟨rfl, Option.some_ne_none _, rfl⟩,
      fun hne => absurd rfl hne, fun hp => (nomatch hp), fun _ => rfl⟩
  | none =>
    have hserved : Served p s k (k.work p r.payload s).1 (k.work p r.payload s).2 := served_work p r.payload s k
    have he : serve k k.work p r s =
        placeResponse p ((k.work p r.payload s).2.response r.kind k.fixedPart) (k.work p r.payload s).1 := by
      rw [serve, hc]
    refine ⟨_, _, hserve _ _ he, sameOutside_served hserved, ?_⟩
    generalize k.work p r.payload s = a at hserved
    obtain ⟨u, reply⟩ := a
    cases reply with
    | done f =>
      exact ⟨rfl, fun hr => (nomatch hr), fun _ => ⟨rfl, rfl⟩, fun hp => (nomatch hp), fun _ => rfl⟩
    | pending f =>
      exact ⟨rfl, fun hr => (nomatch hr), fun _ => ⟨rfl, rfl⟩, fun _ => served_of_pending hserved, fun _ => rfl⟩
    | refused reason i =>
      obtain ⟨hu, hi⟩ := served_of_refused hserved
      exact ⟨rfl, fun _ => ⟨hu, Option.some_ne_none _, rfl⟩, fun hne => absurd rfl hne, fun hp => (nomatch hp), hi⟩

end Sys2Proof.Machine
end

section
/-!
PROOFS. Sessions and cells: OPEN, the renewals, STATUS, CLOSE, FORMAT, the guarding of banks, the handing on of net changes,
and the codes of chain steps (O13 to O16, O18, O19, O21, O22).
-/

namespace Sys2Proof.Machine

open Sys2Proof.Safety

/-! ### OPEN -/

theorem serveOpen_closed {p : Port} {s : State} (h : (s.session p).state = .closed) (units : Byte) :
    serveOpen p [units] s =
      if units = 0 then (s, .refused .range 0)
      else
        (markFresh p (s.modSession p fun x => x.opening units),
          .done (.opened (epochAfter (s.session p).epoch) units)) := by
  simp only [serveOpen, h]

/-- Settles O13. -/
theorem openSession : Obligations.OpenSession := by
  intro s p units h
  refine ⟨fun hs => ?_, fun hs => ?_, fun hs hu => ?_, fun hs hu => ⟨?_, rfl⟩⟩
  · exact finishRequest_refused h (by simp only [serveOpen, hs])
  · exact finishRequest_refused h (by simp only [serveOpen, hs])
  · exact finishRequest_refused h (by rw [serveOpen_closed hs, if_pos hu])
  · refine finishRequest_done h ?_
    rw [serveOpen_closed hs, if_neg hu]
    rfl

/-! ### Renewals -/

theorem serveRenew_match {kind : Renewal} {p : Port} {s : State} {period : Nat}
    (hp : (s.session p).leasePeriod = some period) (he : (s.session p).expected = kind) :
    serveRenew kind p [] s =
      ({ s.modSession p fun x => { x with leaseRemaining := period, expected := kind.other, lowReported := false } with
          fresh := { s.fresh with lease := some p } }, .done (.renewed true kind.other period)) := by
  have hrestart : restartLease p s =
      { s.modSession p fun x => { x with leaseRemaining := period, expected := kind.other, lowReported := false } with
        fresh := { s.fresh with lease := some p } } := by
    have hmod : (s.modSession p fun x =>
        { x with leaseRemaining := x.leasePeriod.getD 0, expected := x.expected.other, lowReported := false }) =
        s.modSession p fun x => { x with leaseRemaining := period, expected := kind.other, lowReported := false } :=
      State.modSession_congr s p _ _ (by rw [hp, he]; rfl)
    rw [restartLease, hmod]
    rfl
  have hsession : (restartLease p s).session p =
      { s.session p with leaseRemaining := period, expected := kind.other, lowReported := false } := by
    rw [restartLease, markFresh_session, State.modSession_session_same]
    simp only [hp, he, Option.getD_some]
  unfold serveRenew
  dsimp only
  rw [if_pos he, hsession, hrestart]

theorem serveRenew_other {kind : Renewal} {p : Port} {s : State} (he : (s.session p).expected ≠ kind) :
    serveRenew kind p [] s = (s, .done (.renewed false (s.session p).expected (s.session p).leaseRemaining)) := by
  unfold serveRenew
  dsimp only
  rw [if_neg he]

/-- Settles O14. -/
theorem renewals : Obligations.Renewals := by
  intro s p period hp
  refine ⟨fun h => ⟨fun he => ?_, fun he => ?_⟩, fun h => ⟨fun he => ?_, fun he => ?_⟩⟩
  · exact finishRequest_done (own := serveRenew .even) h (serveRenew_match hp he)
  · refine finishRequest_done (own := serveRenew .even) h ?_
    rw [serveRenew_other (by rw [he]; exact nofun), he]
  · exact finishRequest_done (own := serveRenew .odd) h (serveRenew_match hp he)
  · refine finishRequest_done (own := serveRenew .odd) h ?_
    rw [serveRenew_other (by rw [he]; exact nofun), he]

/-! ### STATUS and CLOSE -/

/-- Settles O15. -/
theorem statusReports : Obligations.StatusReports := by
  intro s p e n hservice hslot
  have h : Admits s p .status [] := ⟨e, ⟨⟨n, hservice⟩, hslot⟩, rfl, fun hk => nomatch hk⟩
  have herrors : reportedErrors p s = n := by simp only [reportedErrors, hservice]
  refine ⟨finishRequest_done (own := serveStatus) h ?_, statusReport_bytes_length _⟩
  rw [serveStatus, statusReport, herrors]

/-- Settles O16. -/
theorem closeSession : Obligations.CloseSession := fun _ _ h => finishRequest_done (own := serveClose) h rfl

/-! ### FORMAT -/

/-- The fields of a payload that was written for a record. -/
theorem formatFields_payload (w : Word) (x : Cell) : formatFields (formatPayload w x) = some (w, x) := by
  cases x <;> simp [formatPayload, wordBytes_eq, formatFields, CellKind.ofCode]

theorem serveFormat_of_cell {w : Word} {c : Fin 512} (h : w.toNat = c.val) (p : Port) (x : Cell) (s : State) :
    serveFormat p (formatPayload w x) s =
      if !x.fits then (s, .refused .range 0)
      else if guardedAgainst s p c then (s, .refused .guarded 0)
      else if cellBusy s c then (s, .refused .cellBusy 0)
      else (handOn (some p) s.cells [c] (s.setCell c x), .done (.formatted c (s.cell c) x)) := by
  unfold serveFormat
  rw [formatFields_payload]
  dsimp only
  rw [cellOf_of_lt h]

theorem serveFormat_of_range {w : Word} (h : 512 ≤ w.toNat) (p : Port) (x : Cell) (s : State) :
    serveFormat p (formatPayload w x) s = (s, .refused .range 0) := by
  unfold serveFormat
  rw [formatFields_payload]
  dsimp only
  rw [cellOf_of_le h]

theorem cellBusy_iff (s : State) (c : Fin 512) :
    cellBusy s c = true ↔
      ∃ w ∈ s.pool, (∃ n, w.wait = .take c n) ∨ ∃ cond operand, w.wait = .await c cond operand := by
  rw [cellBusy, List.any_eq_true]
  refine exists_congr fun w => and_congr_right fun _ => ?_
  unfold WaitEntry.takes WaitEntry.awaits
  cases w.wait <;> simp

/-- Settles O18. -/
theorem formatSetsTheCell : Obligations.FormatSetsTheCell := by
  refine ⟨fun s p w x h => ⟨fun hw => ?_, fun c hc => ?_⟩, fun v n => ⟨rfl, rfl, fits_counter n v⟩, cellBusy_iff⟩
  · exact finishRequest_refused (own := serveFormat) h (serveFormat_of_range hw p x s)
  · have hserve := serveFormat_of_cell hc p x s
    refine ⟨fun hf => ?_, fun hf hg => ?_, fun hf hg hb => ?_, fun hf hg hb => ?_⟩
    · exact finishRequest_refused (own := serveFormat) h (by simpa [hf] using hserve)
    · exact finishRequest_refused (own := serveFormat) h (by simpa [hf, hg] using hserve)
    · exact finishRequest_refused (own := serveFormat) h (by simpa [hf, hg, hb] using hserve)
    · exact finishRequest_done (own := serveFormat) h (by simpa [hf, hg, hb] using hserve)

/-! ### The guarding of a bank -/

/-- Settles O19. -/
theorem bankGuarding : Obligations.BankGuarding := by
  intro s p c
  refine ⟨rfl, rfl, fun h => ?_, fun q e h => ?_⟩
  · rw [guardedAgainst, h]
  · rw [guardedAgainst, h]
    exact Bool.eq_iff_iff.mpr (bne_iff_ne.trans decide_eq_true_iff.symm)

/-! ### The handing on of net changes -/

theorem mem_netChanges (before : Vector Cell 512) (touched : List (Fin 512)) (s : State) (c : Fin 512) :
    c ∈ netChanges before touched s ↔ c ∈ touched ∧ before[c].reported ≠ (s.cell c).reported := by
  rw [netChanges, List.mem_filter, mem_ascending, bne_iff_ne]

/-- Settles O21. -/
theorem onlyNetChangesAreHandedOn : Obligations.OnlyNetChangesAreHandedOn := by
  refine ⟨fun before touched s => ⟨mem_netChanges before touched s, (ascending_pairwise touched).filter _, rfl,
    fun p => rfl, fun origin h => ?_⟩, fun s c origin => rfl⟩
  have hnone : netChanges before touched s = [] := List.eq_nil_iff_forall_not_mem.mpr fun c hc => by
    obtain ⟨hmem, hne⟩ := (mem_netChanges before touched s c).mp hc
    exact hne (h c hmem)
  unfold handOn
  rw [hnone]
  cases origin <;> rfl

/-! ### The codes of chain steps -/

theorem cellOf_ofNat (c : Fin 512) : cellOf (BitVec.ofNat 16 c.val) = some c :=
  cellOf_of_lt (by rw [BitVec.toNat_ofNat, Nat.mod_eq_of_lt (by omega)])

theorem memberOf_ofNat (m : Fin 16) : memberOf (BitVec.ofNat 16 m.val) = some m := by
  revert m
  decide

theorem memberOf_of_le {w : Word} (h : 16 ≤ w.toNat) : memberOf w = none := by
  simp [memberOf, Nat.not_lt.mpr h]

/-- Settles O22: the code decides the step, and the cell and the member decide whether its operands exist. -/
theorem stepCodes : Obligations.StepCodes := by
  refine ⟨fun c a => ?_, fun c m => ?_, fun w a => ⟨rfl, rfl, rfl⟩, fun code w a hw hcode => ?_,
    fun code w a ha hcode => ?_, fun code w a hcode => ?_⟩
  · simp [ChainStep.ofRaw, cellOf_ofNat]
  · simp [ChainStep.ofRaw, cellOf_ofNat, memberOf_ofNat]
  · have hnone := cellOf_of_le hw
    simp only [List.mem_cons, List.not_mem_nil, or_false] at hcode
    rcases hcode with rfl | rfl | rfl | rfl | rfl | rfl | rfl | rfl | rfl | rfl | rfl | rfl | rfl | rfl | rfl | rfl | rfl |
      rfl | rfl | rfl <;> simp [ChainStep.ofRaw, hnone]
  · have hnone := memberOf_of_le ha
    simp only [List.mem_cons, List.not_mem_nil, or_false] at hcode
    rcases hcode with rfl | rfl | rfl | rfl <;> simp [ChainStep.ofRaw, hnone]
  · simp only [List.mem_cons, List.not_mem_nil, or_false, not_or] at hcode
    simp only [ChainStep.ofRaw, hcode, if_false]

end Sys2Proof.Machine
end

section
/-!
PROOFS. Chains: the guards and the passing over of steps, a chain that runs, and a chain that is refused whole
(O26 to O28).
-/

namespace Sys2Proof.Machine

open Sys2Proof.Safety

/-! ### The counts of a chain -/

theorem perform_passed (st : ChainStep) (r : ChainRun) : (r.perform st).passed = r.passed := by
  cases st <;> rfl

/-- Every step is performed or passed over. -/
theorem runSteps_count (steps : List ChainStep) (skip : Bool) (r : ChainRun) :
    (runSteps steps skip r).performed + (runSteps steps skip r).passed = r.performed + r.passed + steps.length := by
  induction steps generalizing skip r with
  | nil => rfl
  | cons st rest ih =>
    cases skip with
    | false =>
      rw [runSteps, ih, perform_performed, perform_passed, List.length_cons]
      omega
    | true =>
      simp only [runSteps, ih, List.length_cons]
      omega

/-- No two steps in a row are passed over. -/
theorem runSteps_passed_le (steps : List ChainStep) (skip : Bool) (r : ChainRun) :
    (runSteps steps skip r).passed ≤ r.passed + (steps.length + skip.toNat) / 2 := by
  induction steps generalizing skip r with
  | nil => exact Nat.le_add_right _ _
  | cons st rest ih =>
    cases skip with
    | false =>
      have h := ih (st.fails r) (r.perform st)
      have hb := Bool.toNat_le (st.fails r)
      rw [perform_passed] at h
      simp only [runSteps, List.length_cons, Bool.toNat_false]
      omega
    | true =>
      have h := ih false { r with passed := r.passed + 1 }
      simp only [runSteps, List.length_cons, Bool.toNat_false, Bool.toNat_true] at h ⊢
      omega

/-! ### The guards -/

theorem guards_change_nothing (r : ChainRun) (c : Fin 512) (m : Fin 16) :
    ∀ st ∈ [ChainStep.whenZero, .whenNonzero, .whenEqual c, .whenBelow c, .whenMember c m, .whenAbsent c m],
      ChainStep.effect st r = r ∧ ChainStep.modifies st = false := by
  simp only [List.forall_mem_cons]
  exact ⟨⟨rfl, rfl⟩, ⟨rfl, rfl⟩, ⟨rfl, rfl⟩, ⟨rfl, rfl⟩, ⟨rfl, rfl⟩, ⟨rfl, rfl⟩, List.forall_mem_nil _⟩

theorem comparing_reads_numbers (c : Fin 512) :
    ∀ st ∈ [ChainStep.whenEqual c, .whenBelow c], ∀ k, ChainStep.accepts st k = true ↔ k = .plain ∨ k = .counter := by
  simp only [List.forall_mem_cons]
  refine ⟨fun k => ?_, fun k => ?_, List.forall_mem_nil _⟩ <;> cases k <;> simp [ChainStep.accepts]

theorem testing_reads_members (c : Fin 512) (m : Fin 16) :
    ∀ st ∈ [ChainStep.whenMember c m, .whenAbsent c m], ∀ k, ChainStep.accepts st k = true ↔ k = .members := by
  simp only [List.forall_mem_cons]
  refine ⟨fun k => ?_, fun k => ?_, List.forall_mem_nil _⟩ <;> cases k <;> simp [ChainStep.accepts]

theorem whenMember_passes {r : ChainRun} {c : Fin 512} {x : Word} (h : r.cells[c] = .members x) (m : Fin 16) :
    ((ChainStep.whenMember c m).fails r = false) ↔ x.getLsbD m.val = true := by
  rw [ChainStep.fails, set_of_members h, Bool.not_eq_false']

theorem whenAbsent_passes {r : ChainRun} {c : Fin 512} {x : Word} (h : r.cells[c] = .members x) (m : Fin 16) :
    ((ChainStep.whenAbsent c m).fails r = false) ↔ x.getLsbD m.val = false := by
  rw [ChainStep.fails, set_of_members h]

/-- Settles O26: the counts follow from `runSteps_count` and `runSteps_passed_le`. -/
theorem guardsAndPassingOver : Obligations.GuardsAndPassingOver := by
  refine ⟨fun r c m => ⟨?_, ?_, ?_, ?_, fun x hx => ⟨whenMember_passes hx m, whenAbsent_passes hx m⟩,
    guards_change_nothing r c m, comparing_reads_numbers c, testing_reads_members c m, ?_, fun n => ?_⟩,
    fun r st rest skip => ⟨rfl, rfl, rfl, ?_⟩, fun cells steps => ⟨rfl, ?_⟩⟩
  · simp [ChainStep.fails]
  · simp [ChainStep.fails]
  · simp [ChainStep.fails, ChainRun.number]
  · rw [ChainStep.fails, Bool.not_eq_false']
    exact decide_eq_true_iff
  · simp only [List.forall_mem_cons]
    exact ⟨rfl, rfl, List.forall_mem_nil _⟩
  · simp [ChainStep.fails]
  · rw [ChainRun.perform, effect_performed, effect_touched]
  · have hcount := runSteps_count steps false (ChainRun.start cells)
    have hpassed := runSteps_passed_le steps false (ChainRun.start cells)
    simp only [ChainRun.start, Bool.toNat_false] at hcount hpassed ⊢
    refine ⟨by omega, fun hne => ?_, fun hlen => by omega⟩
    have hpos : 0 < steps.length := List.length_pos_iff.mpr hne
    omega

/-! ### The checks of the steps -/

theorem checkStep_eq_none_of_passes {s : State} {p : Port} {raw : RawStep} {st : ChainStep} (h : Passes s p raw st) :
    checkStep p s st = none := by
  unfold checkStep
  cases hc : st.cell? with
  | none => rfl
  | some c =>
    obtain ⟨haccepts, hguard⟩ := h.2 c hc
    cases hm : st.modifies with
    | false => simp [haccepts]
    | true => simp [haccepts, hguard hm]

theorem passAll_cons {s : State} {p : Port} {raw : RawStep} {raws : List RawStep} {steps : List ChainStep}
    (h : PassAll s p (raw :: raws) steps) : ∃ st rest, steps = st :: rest ∧ Passes s p raw st ∧ PassAll s p raws rest := by
  obtain ⟨hlen, hall⟩ := h
  cases steps with
  | nil => exact nomatch hlen
  | cons st rest =>
    rw [List.zip_cons_cons, List.forall_mem_cons] at hall
    exact ⟨st, rest, rfl, hall.1, Nat.succ.inj hlen, hall.2⟩

/-- Steps that pass are read, and the rest of the payload is looked at next. -/
theorem validateSteps_append {s : State} {p : Port} {before : List RawStep} {steps : List ChainStep}
    (h : PassAll s p before steps) (i : Nat) (rest : List RawStep) :
    validateSteps p s i (before ++ rest) = (validateSteps p s (i + before.length) rest).map (steps ++ ·) := by
  induction before generalizing steps i with
  | nil =>
    obtain rfl := List.length_eq_zero_iff.mp h.1.symm
    cases hv : validateSteps p s i rest <;> simp [hv, Except.map]
  | cons raw before ih =>
    obtain ⟨st, steps', rfl, hpass, hrest⟩ := passAll_cons h
    have hnone := checkStep_eq_none_of_passes hpass
    rw [List.cons_append, validateSteps]
    simp only [hpass.1, hnone, ih hrest, List.length_cons, Nat.add_assoc, Nat.add_comm 1]
    cases hv : validateSteps p s (i + (before.length + 1)) rest <;> rfl

theorem validateSteps_of_passAll {s : State} {p : Port} {raws : List RawStep} {steps : List ChainStep}
    (h : PassAll s p raws steps) (i : Nat) : validateSteps p s i raws = .ok steps := by
  have happ := validateSteps_append h i []
  rw [List.append_nil] at happ
  rw [happ, validateSteps, Except.map, List.append_nil]

/-- The first step that fails a check decides, with its position. -/
theorem validateSteps_of_first {s : State} {p : Port} {before after : List RawStep} {raw : RawStep}
    {steps : List ChainStep} {r : Reason} (h : PassAll s p before steps)
    (hr : ChainStep.ofRaw raw = .error r ∨ ∃ st, ChainStep.ofRaw raw = .ok st ∧ checkStep p s st = some r) (i : Nat) :
    validateSteps p s i (before ++ raw :: after) = .error (r, i + before.length) := by
  rw [validateSteps_append h]
  rcases hr with herror | ⟨st, hok, hcheck⟩
  · simp only [validateSteps, herror, Except.map]
  · simp only [validateSteps, hok, hcheck, Except.map]

theorem checkStep_of_kind {s : State} {p : Port} {st : ChainStep} {c : Fin 512} (hc : st.cell? = some c)
    (h : st.accepts (s.cell c).kind = false) : checkStep p s st = some .kind := by
  simp [checkStep, hc, h]

theorem checkStep_of_guarded {s : State} {p : Port} {st : ChainStep} {c : Fin 512} (hc : st.cell? = some c)
    (h : st.accepts (s.cell c).kind = true) (hm : st.modifies = true) (hg : guardedAgainst s p c = true) :
    checkStep p s st = some .guarded := by
  simp [checkStep, hc, h, hm, hg]

/-! ### CHAIN -/

theorem serveChain_of_count {n : Byte} (h : n.toNat = 0 ∨ 6 < n.toNat) (p : Port) (raws : List RawStep) (s : State) :
    serveChain p (chainPayload n raws) s = (s, .refused .malformed 0) := by
  refine if_pos (h.imp_left fun h0 => ?_)
  exact BitVec.eq_of_toNat_eq h0

theorem stepCount_admitted {n : Byte} (h1 : 1 ≤ n.toNat) (h6 : n.toNat ≤ 6) : ¬(n = 0 ∨ Config.chainSize < n.toNat) := by
  rintro (rfl | hlt)
  · exact absurd h1 (by decide)
  · exact absurd hlt (Nat.not_lt.mpr h6)

theorem serveChain_of_steps {n : Byte} (h1 : 1 ≤ n.toNat) (h6 : n.toNat ≤ 6) {raws : List RawStep} {p : Port} {s : State}
    {steps : List ChainStep} (h : validateSteps p s 1 raws = .ok steps) :
    serveChain p (chainPayload n raws) s = runChain p steps s := by
  unfold serveChain chainPayload
  simp only [if_neg (stepCount_admitted h1 h6), rawSteps_payload, h]

theorem serveChain_of_error {n : Byte} (h1 : 1 ≤ n.toNat) (h6 : n.toNat ≤ 6) {raws : List RawStep} {p : Port} {s : State}
    {r : Reason} {i : Nat} (h : validateSteps p s 1 raws = .error (r, i)) :
    serveChain p (chainPayload n raws) s = (s, .refused r i) := by
  unfold serveChain chainPayload
  simp only [if_neg (stepCount_admitted h1 h6), rawSteps_payload, h]

/-- Settles O27. -/
theorem chainRuns : Obligations.ChainRuns := by
  intro s p n raws steps h hn h1 h6 hpass
  refine finishRequest_done (own := serveChain) h ?_
  rw [serveChain_of_steps h1 h6 (validateSteps_of_passAll hpass 1)]
  rfl

/-- Settles O28: `validateSteps` stops at the first step that fails. -/
theorem chainIsRefusedWhole : Obligations.ChainIsRefusedWhole := by
  refine ⟨fun s p n raws h _ hcount => finishRequest_refused (own := serveChain) h (serveChain_of_count hcount p raws s),
    fun s p n before after raw steps h hn h6 hpass => ?_⟩
  have h1 : 1 ≤ n.toNat := by
    rw [hn, List.length_append, List.length_cons]
    omega
  have hrefused : ∀ r,
      (ChainStep.ofRaw raw = .error r ∨ ∃ st, ChainStep.ofRaw raw = .ok st ∧ checkStep p s st = some r) →
      exec (.chain p) s = answeredRefused p .chain r (before.length + 1) s := fun r hr => by
    refine finishRequest_refused (own := serveChain) h ?_
    rw [serveChain_of_error h1 h6 (validateSteps_of_first hpass hr 1), Nat.add_comm]
  refine ⟨fun e he => hrefused e (.inl he), fun st c hst hc => ⟨fun hk => ?_, fun hk hm hg => ?_⟩⟩
  · exact hrefused _ (.inr ⟨st, hst, checkStep_of_kind hc hk⟩)
  · exact hrefused _ (.inr ⟨st, hst, checkStep_of_guarded hc hk hm hg⟩)

end Sys2Proof.Machine
end

section
/-!
PROOFS. Requests that may wait: ACQUIRE with its cycle check, AWAIT, and the end of an entry by CANCEL or by expiry
(O29, O36, O37).
-/

namespace Sys2Proof.Machine

open Sys2Proof.Safety

/-! ### The cycle check -/

theorem cycleFrom_of_end {s : State} {q : Port} (h : walkStep s q = none) (p : Port) (n : Nat) :
    cycleFrom s p (n + 1) q = false := by
  unfold walkStep at h
  unfold cycleFrom
  cases hp : (s.session q).pendingAcquire with
  | none => rfl
  | some x =>
    rw [hp, Option.bind_some] at h
    dsimp only
    rw [h]

theorem cycleFrom_of_step {s : State} {q next : Port} (h : walkStep s q = some next) (p : Port) (n : Nat) :
    cycleFrom s p (n + 1) q = if next = p then true else cycleFrom s p n next := by
  obtain ⟨x, hx, hholder⟩ := Option.bind_eq_some_iff.mp h
  conv =>
    lhs
    unfold cycleFrom
  rw [hx]
  dsimp only
  rw [hholder]

theorem walkFrom_succ_of_step {s : State} {q next : Port} (h : walkStep s q = some next) (k : Nat) :
    walkFrom s (k + 1) q = walkFrom s k next := by
  rw [walkFrom, h, Option.bind_some]

/-- The check finds a ring exactly where a step of the walk reaches the requester. -/
theorem cycleFrom_iff (s : State) (p : Port) (n : Nat) (q : Port) :
    cycleFrom s p n q = true ↔ ∃ k, 1 ≤ k ∧ k ≤ n ∧ walkFrom s k q = some p := by
  induction n generalizing q with
  | zero => exact ⟨fun h => absurd h Bool.false_ne_true, fun ⟨k, h1, h0, _⟩ => absurd (Nat.le_trans h1 h0) (by decide)⟩
  | succ n ih =>
    cases hstep : walkStep s q with
    | none =>
      rw [cycleFrom_of_end hstep]
      refine ⟨fun h => absurd h Bool.false_ne_true, fun ⟨k, h1, _, hk⟩ => ?_⟩
      obtain ⟨j, rfl⟩ := Nat.exists_eq_add_of_le' h1
      rw [walkFrom, hstep] at hk
      exact nomatch hk
    | some next =>
      rw [cycleFrom_of_step hstep]
      split
      · next hnext =>
        subst hnext
        exact ⟨fun _ => ⟨1, Nat.le_refl 1, by omega, walkFrom_succ_of_step hstep 0⟩, fun _ => rfl⟩
      · next hnext =>
        rw [ih]
        constructor
        · rintro ⟨k, h1, hn, hk⟩
          exact ⟨k + 1, by omega, by omega, (walkFrom_succ_of_step hstep k).trans hk⟩
        · rintro ⟨k, h1, hn, hk⟩
          obtain ⟨j, rfl⟩ := Nat.exists_eq_add_of_le' h1
          rw [walkFrom_succ_of_step hstep] at hk
          cases j with
          | zero => exact absurd (Option.some.inj hk) hnext
          | succ j => exact ⟨j + 1, by omega, by omega, hk⟩

/-! ### ACQUIRE -/

theorem serveAcquire_of_range {b : Byte} (h : 48 ≤ b.toNat) (p : Port) (timeout : Word) (s : State) :
    serveAcquire p (b :: wordBytes timeout) s = (s, .refused .range 0) := by
  rw [wordBytes_eq]
  unfold serveAcquire
  dsimp only
  rw [lockOf_of_le h]

section Locks

variable {b : Byte} {l : Fin 48} {p : Port} {s : State}

theorem serveAcquire_of_check {r : Reason} (hl : b.toNat = l.val) (h : acquireCheck (s.session p) l = some r)
    (timeout : Word) : serveAcquire p (b :: wordBytes timeout) s = (s, .refused r 0) := by
  rw [wordBytes_eq]
  unfold serveAcquire
  dsimp only
  rw [lockOf_of_lt hl]
  dsimp only
  rw [h]

theorem serveAcquire_of_lock (hl : b.toNat = l.val) (h : acquireCheck (s.session p) l = none) (timeout : Word) :
    serveAcquire p (b :: wordBytes timeout) s = decideAcquire p l timeout s := by
  rw [wordBytes_eq]
  unfold serveAcquire
  dsimp only
  rw [lockOf_of_lt hl]
  dsimp only
  rw [h, word_of_halves]

theorem acquireCheck_of_self {x : Session} (h : l ∈ x.stack) : acquireCheck x l = some .self := if_pos h

theorem acquireCheck_of_pending {x : Session} (h : l ∉ x.stack) (hp : x.pendingAcquire ≠ none) :
    acquireCheck x l = some .lockPending := by
  rw [acquireCheck, if_neg h, if_pos (Option.isSome_iff_ne_none.mpr hp)]

theorem acquireCheck_of_depth {x : Session} (h : l ∉ x.stack) (hp : x.pendingAcquire = none) (hd : 6 ≤ x.stack.length) :
    acquireCheck x l = some .depth := by
  rw [acquireCheck, if_neg h, hp]
  exact if_pos hd

theorem decideAcquire_of_free (h : (s.lock l).state = .free) (timeout : Word) :
    decideAcquire p l timeout s =
      (grantLock p (s.session p).epoch l s,
        .done (.acquire l ((s.lock l).generation + 1) ((lockBank l).map s.bankSuspect)
          ((s.session p).stack.length + 1) 0)) := by
  have hholder : holderOf s l = none := by rw [holderOf, h]
  unfold decideAcquire
  rw [hholder]
  simp only [grantNow, grantLock_lock, grantLock_session, if_true, List.length_append, List.length_singleton]
  rfl

theorem decideAcquire_of_held {q : Port} {e : Byte} (h : (s.lock l).state = .held q e) (timeout : Word) :
    decideAcquire p l timeout s =
      if timeout = 0 then (s, .refused .unavailable 0)
      else if cycleFrom s p 4 q then (s, .refused .cycle 0)
      else waitForLock p l timeout s := by
  have hholder : holderOf s l = some q := by rw [holderOf, h]
  unfold decideAcquire
  rw [hholder]
  rfl

theorem waitForLock_of_error {timeout : Word} {r : Reason} (h : createEntry p (.lock l) timeout s = .error r) :
    waitForLock p l timeout s = (s, .refused r 0) := by
  rw [waitForLock, h]

theorem waitForLock_of_ok {timeout : Word} {t : Byte} {u : State} (h : createEntry p (.lock l) timeout s = .ok (t, u)) :
    waitForLock p l timeout s =
      (u.modSession p fun y => { y with pendingAcquire := some (l, t) }, .pending (.acquire l 0 none 0 t)) := by
  rw [waitForLock, h]

end Locks

/-- Settles O29: the checks in their order, then the lock's state, and `cycleFrom_iff` for the walk. -/
theorem acquireALock : Obligations.AcquireALock := by
  refine ⟨fun s p b timeout h => ⟨fun hb => finishRequest_refused h (serveAcquire_of_range hb p timeout s),
    fun l hl => ⟨fun hself => ?_, fun hself hpending => ?_, fun hself hpending hdepth => ?_,
      fun hself hpending hdepth => ?_⟩⟩, fun l => ⟨lockBank_eq_some l, ?_⟩, fun s p q => cycleFrom_iff s p 4 q⟩
  · exact finishRequest_refused h (serveAcquire_of_check hl (acquireCheck_of_self hself) timeout)
  · exact finishRequest_refused h (serveAcquire_of_check hl (acquireCheck_of_pending hself hpending) timeout)
  · exact finishRequest_refused h (serveAcquire_of_check hl (acquireCheck_of_depth hself hpending hdepth) timeout)
  · have hserve := serveAcquire_of_lock hl (acquireCheck_eq_none.mpr ⟨hself, hpending, hdepth⟩) timeout
    refine ⟨fun hfree => ?_, fun q e hheld => ?_⟩
    · exact finishRequest_done (own := serveAcquire) h (hserve.trans (decideAcquire_of_free hfree timeout))
    · rw [decideAcquire_of_held hheld] at hserve
      refine ⟨fun ht => ?_, fun ht hcycle => ?_, fun ht hcycle => ?_⟩
      · exact finishRequest_refused h (hserve.trans (if_pos ht))
      · rw [if_neg ht, if_pos hcycle] at hserve
        exact finishRequest_refused h hserve
      · rw [if_neg ht, if_neg (Bool.eq_false_iff.mp hcycle)] at hserve
        exact ⟨fun r hr => finishRequest_refused h (hserve.trans (waitForLock_of_error hr)),
          fun t u hu => finishRequest_pending (own := serveAcquire) h (hserve.trans (waitForLock_of_ok hu))⟩
  · unfold lockBank
    split
    · next hlt => simp [Nat.not_le.mpr hlt]
    · next hge => simp [Nat.le_of_not_lt hge]

/-! ### AWAIT -/

theorem ofMembers_iff (cond : Condition) : cond.ofMembers = true ↔ cond = .contains ∨ cond = .lacks := by
  cases cond <;> simp [Condition.ofMembers]

theorem suits_iff (cond : Condition) (k : CellKind) :
    cond.suits k = true ↔ ((cond = .contains ∨ cond = .lacks) ↔ k = .members) := by
  rw [Condition.suits, beq_iff_eq, ← ofMembers_iff]
  cases cond.ofMembers <;> simp

theorem reported_kind (x : Cell) : x.reported.kind = x.kind := by
  cases x <;> rfl

section Awaiting

variable {code : Byte} {cond : Condition} {w operand timeout : Word} {p : Port} {s : State}

theorem serveAwait_of_range (hcode : Condition.ofCode code = some cond) (hw : 512 ≤ w.toNat) :
    serveAwait p (wordBytes w ++ code :: (wordBytes operand ++ wordBytes timeout)) s = (s, .refused .range 0) := by
  simp only [wordBytes_eq, List.cons_append, List.nil_append, serveAwait, hcode, word_of_halves, cellOf_of_le hw]

theorem serveAwait_of_cell (hcode : Condition.ofCode code = some cond) {c : Fin 512} (hw : w.toNat = c.val) :
    serveAwait p (wordBytes w ++ code :: (wordBytes operand ++ wordBytes timeout)) s =
      if cond.ofMembers && 15 < operand.toNat then (s, .refused .range 0)
      else if !cond.suits (s.cell c).kind then (s, .refused .kind 0)
      else decideAwait p c cond operand timeout s := by
  simp only [wordBytes_eq, List.cons_append, List.nil_append, serveAwait, hcode, word_of_halves, cellOf_of_lt hw]

theorem decideAwait_of_holds {c : Fin 512} (h : cond.holds operand (s.cell c).reported = true) :
    decideAwait p c cond operand timeout s = (s, .done (.await c (s.cell c).reported 0)) := if_pos h

theorem decideAwait_of_zero {c : Fin 512} (h : cond.holds operand (s.cell c).reported = false) (ht : timeout = 0) :
    decideAwait p c cond operand timeout s = (s, .refused .unavailable 0) := by
  rw [decideAwait, if_neg (Bool.eq_false_iff.mp h), if_pos ht]

theorem decideAwait_of_error {c : Fin 512} (h : cond.holds operand (s.cell c).reported = false) (ht : timeout ≠ 0)
    {r : Reason} (hr : createEntry p (.await c cond operand) timeout s = .error r) :
    decideAwait p c cond operand timeout s = (s, .refused r 0) := by
  rw [decideAwait, if_neg (Bool.eq_false_iff.mp h), if_neg ht, hr]

theorem decideAwait_of_ok {c : Fin 512} (h : cond.holds operand (s.cell c).reported = false) (ht : timeout ≠ 0)
    {t : Byte} {u : State} (hu : createEntry p (.await c cond operand) timeout s = .ok (t, u)) :
    decideAwait p c cond operand timeout s = (u, .pending (.await c (s.cell c).reported t)) := by
  rw [decideAwait, if_neg (Bool.eq_false_iff.mp h), if_neg ht, hu]

end Awaiting

/-- Settles O36. -/
theorem awaitACondition : Obligations.AwaitACondition := by
  refine ⟨fun s p w code cond operand timeout hcode h => ⟨fun hw => ?_, fun c hw => ?_⟩, rfl, fun operand v => ?_⟩
  · exact finishRequest_refused h (serveAwait_of_range hcode hw)
  · have hserve : serveAwait p _ s = _ := serveAwait_of_cell (operand := operand) (timeout := timeout) hcode hw
    simp only [reported_kind]
    refine ⟨fun hset ho => ?_, fun hset ho hk => ?_, fun hset hk => ?_, fun hsuits => ?_⟩
    · rw [(ofMembers_iff cond).mpr hset] at hserve
      exact finishRequest_refused h (hserve.trans (if_pos (by simpa using Nat.lt_of_succ_le ho)))
    · have hnot : cond.suits (s.cell c).kind = false := Bool.eq_false_iff.mpr fun hs =>
        hk (((suits_iff _ _).mp hs).mp hset)
      rw [hnot, if_neg (by simp; omega)] at hserve
      exact finishRequest_refused h hserve
    · have hnot : cond.suits (s.cell c).kind = false := Bool.eq_false_iff.mpr fun hs =>
        hset (((suits_iff _ _).mp hs).mpr hk)
      rw [hnot, if_neg (by simp [mt (ofMembers_iff cond).mp hset])] at hserve
      exact finishRequest_refused h hserve
    · have hs : cond.suits (s.cell c).kind = true := (suits_iff _ _).mpr <| by
        rcases hsuits with ⟨hset, _, hk⟩ | ⟨hset, hk⟩
        · exact iff_of_true hset hk
        · exact iff_of_false hset hk
      have hrange : ¬(cond.ofMembers && decide (15 < operand.toNat)) = true := by
        rw [Bool.and_eq_true, ofMembers_iff, decide_eq_true_iff]
        rcases hsuits with ⟨_, ho, _⟩ | ⟨hset, _⟩
        · omega
        · exact fun hboth => hset hboth.1
      rw [hs, if_neg hrange] at hserve
      refine ⟨fun hholds => ?_, fun hholds ht => ?_, fun hholds ht => ⟨fun r hr => ?_, fun t u hu => ?_⟩⟩
      · exact finishRequest_done (own := serveAwait) h (hserve.trans (decideAwait_of_holds hholds))
      · exact finishRequest_refused h (hserve.trans (decideAwait_of_zero hholds ht))
      · exact finishRequest_refused h (hserve.trans (decideAwait_of_error hholds ht hr))
      · exact finishRequest_pending (own := serveAwait) h (hserve.trans (decideAwait_of_ok hholds ht hu))
  · simp [Condition.holds]

/-! ### CANCEL and the expiry of an entry -/

/-- An entry leaves the pool, its port's session is changed, and the marker of a LOCK-WAIT is cleared. -/
theorem clearMarker_dropEntry (w : WaitEntry) (f : Session → Session) (s : State) :
    clearMarker w ((dropEntry w s).modSession w.port f) =
      { s.modSession w.port fun x =>
          { f { x with liveWaits := x.liveWaits - 1 } with
            pendingAcquire := if w.wait.purpose = .lockWait then none
              else (f { x with liveWaits := x.liveWaits - 1 }).pendingAcquire } with
        pool := s.pool.filter fun v => v.number ≠ w.number } := by
  have hfilter : s.pool.filter (fun v => v.number != w.number) = s.pool.filter (fun v => v.number ≠ w.number) :=
    List.filter_congr fun _ _ => Bool.eq_iff_iff.mpr (bne_iff_ne.trans decide_eq_true_iff.symm)
  rw [clearMarker_eq, dropEntry, hfilter]
  simp only [State.modSession_modSession]
  rfl

/-- An expiry item whose entry is gone does nothing. -/
theorem serveExpiry_of_stale {n : Fin 24} {s : State} (h : ∀ w ∈ s.pool, w.number ≠ n) (p : Port) (t : Byte) :
    serveExpiry n p t s = s := by
  have hnone : s.pool.find? (fun w => w.named n p t) = none :=
    List.find?_eq_none.mpr fun w hw => by simp [WaitEntry.named, h w hw]
  rw [serveExpiry, hnone]

theorem serveExpiry_of_entry {s : State} {w : WaitEntry} (h : NumbersDistinct s) (hw : w ∈ s.pool) :
    serveExpiry w.number w.port w.ticket s = expireEntry w s := by
  have hfind : s.pool.find? (fun v => v.named w.number w.port w.ticket) = some w := by
    cases hf : s.pool.find? (fun v => v.named w.number w.port w.ticket) with
    | none => exact absurd (by simp [WaitEntry.named]) (List.find?_eq_none.mp hf w hw)
    | some v =>
      have hv := List.find?_some hf
      simp only [WaitEntry.named, Bool.and_eq_true, beq_iff_eq] at hv
      exact congrArg some (eq_of_number h (List.mem_of_find?_eq_some hf) hw hv.1.1)
  rw [serveExpiry, hfind]

/-- Settles O37. -/
theorem cancelAndExpiry : Obligations.CancelAndExpiry := by
  refine ⟨fun s p t h => ⟨fun hnone => ?_, fun w hw => ?_⟩, fun s w c => headOf_iff s w c, fun s n p t hservice =>
    ⟨fun hstale => ?_, ?_⟩⟩
  · refine finishRequest_refused (own := serveCancel) h ?_
    have hfind : entryTicketed s p t = none :=
      List.find?_eq_none.mpr fun v hv => by simpa using hnone v hv
    rw [serveCancel, hfind]
  · refine finishRequest_done (own := serveCancel) h ?_
    have hport : w.port = p := by
      have hfound := List.find?_some hw
      rw [Bool.and_eq_true, beq_iff_eq] at hfound
      exact hfound.1
    subst hport
    have hfind : entryTicketed s w.port t = some w := hw
    rw [serveCancel, hfind]
    simp only [cancelEntry, clearMarker_dropEntry]
    cases headOf w s <;> rfl
  · rw [exec_expiryItem_of_service hservice, serveExpiry_of_stale hstale]
  · rintro w hw hdistinct rfl rfl rfl
    rw [exec_expiryItem_of_service hservice, serveExpiry_of_entry hdistinct hw, expireEntry, placeReserved_eq,
      clearMarker_dropEntry]
    cases headOf w s <;> rfl

end Sys2Proof.Machine
end

section
/-!
PROOFS. What requests leave unchanged: the frame of each kind's work, and of the command that carries it out (O51).
-/

namespace Sys2Proof.Machine

open Sys2Proof.Safety

/-! ### A request served, seen from a part of the state -/

/-- A request served stands to the state before it as the work of its kind does. -/
theorem serve_related {k : Kind} {p : Port} {s : State} {R : State → Prop} (hrefl : R s)
    (hwork : ∀ u a, Served p s k u a → R u) (hp : ∀ (u : State) f, R u → R (u.modPort p f)) (r : Request) :
    R (serve k k.work p r s) := by
  unfold serve
  split
  · exact hp _ _ hrefl
  · exact hp _ _ (hwork _ _ (served_work p r.payload s k))

/-- The command of a kind leaves alone what its work, the interfaces and the engine leave alone. -/
theorem finishRequest_keeps_work {β : Type} {g : State → β} (h : Untouched g)
    (hp : ∀ s p f, g (State.modPort s p f) = g s) {k : Kind} {p : Port}
    (hwork : ∀ {s u a}, Served p s k u a → g u = g s) (s : State) : g (finishRequest k k.work p s) = g s :=
  finishRequest_keeps h fun r =>
    serve_related (R := fun u => g u = g (settled s)) rfl (fun _ _ hu => hwork hu) (fun u f hu => (hp u p f).trans hu) r

/-! ### What the work of a kind leaves unchanged -/

theorem walkAfter_locks (head : Option (Fin 512)) (before : Vector Cell 512) (s : State) :
    (walkAfter head before s).locks = s.locks := by
  unfold walkAfter
  split <;> simp

theorem walkAfter_suspect (head : Option (Fin 512)) (before : Vector Cell 512) (s : State) :
    (walkAfter head before s).suspect = s.suspect := by
  unfold walkAfter
  split <;> simp

theorem cancelEntry_locks (w : WaitEntry) (s : State) : (cancelEntry w s).locks = s.locks := by
  simp [cancelEntry, walkAfter_locks, clearMarker_eq]

theorem cancelEntry_suspect (w : WaitEntry) (s : State) : (cancelEntry w s).suspect = s.suspect := by
  simp [cancelEntry, walkAfter_suspect, clearMarker_eq]

section Work

variable {p : Port} {s u : State} {k : Kind} {a : Reply}

theorem served_cells (h : Served p s k u a)
    (hk : k ∉ [Kind.chain, .formatCell, .take, .give, .cancel, .closeSession]) : u.cells = s.cells := by
  cases h with
  | refused | answered | opened | renewed | granted | watched | unwatched | fetched => rfl
  | waitsForLock _ _ _ _ _ _ _ _ hc | awaits _ _ _ _ _ _ _ _ hc =>
    obtain ⟨n, -, -, -, -, rfl⟩ := createEntry_ok hc
    rfl
  | released => simp [popStack]
  | chained | formatted | taken | waitsToTake | given | cancelled | closed => exact absurd (by decide) hk

theorem served_locks (h : Served p s k u a) (hk : k ∉ [Kind.acquire, .release, .closeSession]) :
    u.locks = s.locks := by
  cases h with
  | refused | answered | opened | renewed | watched | unwatched | fetched => rfl
  | waitsToTake _ _ _ _ _ _ _ _ _ _ hc | awaits _ _ _ _ _ _ _ _ hc =>
    obtain ⟨n, -, -, -, -, rfl⟩ := createEntry_ok hc
    rfl
  | chained | formatted | taken | given => simp
  | cancelled _ w => exact cancelEntry_locks w s
  | granted | waitsForLock | released | closed => exact absurd (by decide) hk

theorem served_suspect (h : Served p s k u a) (hk : k ∉ [Kind.release, .closeSession]) : u.suspect = s.suspect := by
  cases h with
  | refused | answered | opened | renewed | granted | watched | unwatched | fetched => rfl
  | waitsForLock _ _ _ _ _ _ _ _ hc | waitsToTake _ _ _ _ _ _ _ _ _ _ hc | awaits _ _ _ _ _ _ _ _ hc =>
    obtain ⟨n, -, -, -, -, rfl⟩ := createEntry_ok hc
    rfl
  | chained | formatted | taken | given => simp
  | cancelled _ w => exact cancelEntry_suspect w s
  | released | closed => exact absurd (by decide) hk

/-! ### Entries are only removed by work that creates none -/

theorem notifyWatchers_foldl_pool (q : Port) (cs : List (Fin 512)) (s : State) :
    (cs.foldl (notifyWatchers q) s).pool = s.pool :=
  foldl_keeps State.pool (notifyWatchers_pool q) cs s

theorem handOn_pool_subset (origin : Option Port) (before : Vector Cell 512) (touched : List (Fin 512)) (s : State) :
    (handOn origin before touched s).pool ⊆ s.pool := by
  unfold handOn
  cases origin with
  | none => exact (foldl_meetAwaits_sublist _ s).subset
  | some q =>
    dsimp only
    rw [notifyWatchers_foldl_pool]
    exact (foldl_meetAwaits_sublist _ s).subset

theorem walkAfter_pool_subset (head : Option (Fin 512)) (before : Vector Cell 512) (s : State) :
    (walkAfter head before s).pool ⊆ s.pool := by
  unfold walkAfter
  split
  · exact List.Subset.refl _
  · exact List.Subset.trans (handOn_pool_subset _ _ _ _) (grantWalk_pool_subset _ _)

theorem cancelEntry_pool_subset (w : WaitEntry) (s : State) : (cancelEntry w s).pool ⊆ s.pool := by
  refine List.Subset.trans (walkAfter_pool_subset _ _ _) ?_
  rw [clearMarker_dropEntry]
  exact List.filter_sublist.subset

theorem teardown_pool_subset (p : Port) (s : State) : (teardown p s).pool ⊆ s.pool := by
  have hdropped : (dropAllEntries p s).pool ⊆ s.pool := by
    rw [dropAllEntries_pool]
    exact List.filter_sublist.subset
  have hwalked : (walked p s).pool ⊆ s.pool := List.Subset.trans (foldl_grantWalk_subset _ _) hdropped
  have hreleased : (released p s).pool ⊆ s.pool :=
    List.Subset.trans (foldl_teardownLock_sublist _ _).subset hwalked
  exact List.Subset.trans (teardown_pool_sublist p s).subset hreleased

theorem served_pool_subset (h : Served p s k u a) (hk : k ∉ [Kind.acquire, .take, .await]) : u.pool ⊆ s.pool := by
  cases h with
  | refused | answered | opened | renewed | watched | unwatched | fetched => exact List.Subset.refl _
  | chained | formatted => exact handOn_pool_subset _ _ _ _
  | given => exact List.Subset.trans (handOn_pool_subset _ _ _ _) (grantWalk_pool_subset _ _)
  | released =>
    refine List.Subset.trans (passOn_pool_sublist _ _).subset ?_
    rw [markBank_pool, popStack_pool]
    exact List.Subset.refl _
  | cancelled _ w => exact cancelEntry_pool_subset w s
  | closed => exact teardown_pool_subset p _
  | granted | waitsForLock | taken | waitsToTake | awaits => exact absurd (by decide) hk

theorem served_pool (h : Served p s k u a)
    (hk : k ∈ [Kind.openSession, .renewEven, .renewOdd, .status, .gather, .watch, .unwatch, .fetch]) :
    u.pool = s.pool := by
  cases h with
  | refused | answered | opened | renewed | watched | unwatched | fetched => rfl
  | chained | formatted | given | released | cancelled | closed | granted | waitsForLock | taken | waitsToTake | awaits =>
    exact absurd hk (by decide)

theorem served_session_other (h : Served p s k u a)
    (hk : k ∈ [Kind.openSession, .renewEven, .renewOdd, .status, .gather, .acquire, .await, .watch, .unwatch, .fetch])
    {q : Port} (hq : q ≠ p) : u.session q = s.session q := by
  cases h with
  | refused | answered => rfl
  | opened => rw [markFresh_session, State.modSession_session_other _ _ _ _ hq]
  | renewed => rw [restartLease, markFresh_session, State.modSession_session_other _ _ _ _ hq]
  | watched | unwatched | fetched => exact State.modSession_session_other _ _ _ _ hq
  | granted => rw [grantLock_session, if_neg hq]
  | waitsForLock _ _ _ _ _ _ _ _ hc =>
    obtain ⟨n, -, -, -, -, rfl⟩ := createEntry_ok hc
    rw [State.modSession_session_other _ _ _ _ hq, State.modSession_session_other _ _ _ _ hq]
    rfl
  | awaits _ _ _ _ _ _ _ _ hc =>
    obtain ⟨n, -, -, -, -, rfl⟩ := createEntry_ok hc
    rw [State.modSession_session_other _ _ _ _ hq]
    rfl
  | chained | formatted | given | released | cancelled | closed | taken | waitsToTake => exact absurd hk (by decide)

end Work

/-! ### With no claim waiting, the engine's choice is all that comes before and after -/

/-- A part of the state that the arbiter and the engine's own fields leave alone. -/
structure Unchosen {β : Type} (g : State → β) : Prop where
  arbiter  : ∀ s, g (arbitrate s) = g s
  service  : ∀ (s : State) v, g { s with service := v } = g s
  deferred : ∀ (s : State) v, g { s with deferred := v } = g s
  fresh    : ∀ (s : State) v, g { s with fresh := v } = g s

theorem unchosen_pool : Unchosen State.pool := ⟨arbitrate_pool, fun _ _ => rfl, fun _ _ => rfl, fun _ _ => rfl⟩

theorem unchosen_session (q : Port) : Unchosen fun s => s.session q where
  arbiter s := congrArg (fun x => x.get q) (arbitrate_sessions s)
  service _ _ := rfl
  deferred _ _ := rfl
  fresh _ _ := rfl

theorem settled_deferred {s : State} (hd : s.deferred = []) : (settled s).deferred = [] := by
  unfold settled
  split
  · exact hd
  · rw [hd, List.foldl_nil, chooseNext, if_pos rfl, arbitrate_deferred]

section Unchosen

variable {β : Type} {g : State → β} (h : Unchosen g) {s : State} (hd : s.deferred = [])
include h

theorem Unchosen.chooseNext (s : State) : g (chooseNext s) = g s := by
  unfold Machine.chooseNext
  split
  · exact (h.arbiter _).trans (h.fresh s _)
  · rfl

include hd

theorem Unchosen.conclude : g (conclude s) = g s := by
  have hticks : actTicks s.deferred { s with service := .idle } = { s with service := .idle, deferred := [] } := by
    rw [hd]
    rfl
  rw [Machine.conclude]
  dsimp only
  rw [hticks, h.chooseNext]
  exact (h.deferred { s with service := .idle } _).trans (h.service s _)

theorem Unchosen.settled : g (settled s) = g s := by
  unfold Machine.settled
  split
  · rfl
  · rw [h.chooseNext, hd]
    exact h.deferred s _

/-- The command of a kind leaves alone what its work leaves alone. -/
theorem Unchosen.finishRequest (hp : ∀ s p f, g (State.modPort s p f) = g s) {k : Kind} {p : Port}
    (hwork : ∀ {s u a}, Served p s k u a → g u = g s) : g (finishRequest k k.work p s) = g s := by
  have hset := h.settled hd
  have hdset := settled_deferred hd
  unfold Machine.finishRequest
  dsimp only
  split
  · next r _ =>
    split
    · obtain ⟨v, x, he, hv⟩ := serve_eq_placeResponse k p r (Machine.settled s)
      rw [h.conclude (by rw [he]; exact hv.deferred.trans hdset), ← hset]
      exact serve_related (R := fun u => g u = g (Machine.settled s)) rfl (fun _ _ hu => hwork hu)
        (fun u f hu => (hp u p f).trans hu) r
    · exact hset
  · exact hset

end Unchosen

/-! ### The command of a kind -/

/-- The numbers and the tickets of the live entries. -/
def liveTickets (s : State) : List (Fin 24 × Byte) := s.pool.map fun w => (w.number, w.ticket)

theorem untouched_liveTickets : Untouched liveTickets where
  tick s := by
    rw [liveTickets, tickActs_pool, List.map_map]
    refine List.map_congr_left fun w _ => ?_
    obtain ⟨hnumber, -, -, hticket, -⟩ := lowerDeadline_fields s.fresh w
    exact Prod.ext hnumber hticket
  reset p s := by rw [liveTickets, resetPort_pool, liveTickets]
  arbiter s := by rw [liveTickets, arbitrate_pool, liveTickets]
  service _ _ := rfl
  deferred _ _ := rfl
  fresh _ _ := rfl

theorem finishRequest_liveTickets {k : Kind} (hk : k ∉ [Kind.acquire, .take, .await]) (p : Port) (s : State) :
    liveTickets (finishRequest k k.work p s) ⊆ liveTickets s := by
  have hset := settled_keeps untouched_liveTickets s
  unfold finishRequest
  dsimp only
  split
  · next r _ =>
    split
    · rw [conclude_keeps untouched_liveTickets, ← hset]
      exact serve_related (R := fun u => liveTickets u ⊆ liveTickets (settled s)) (List.Subset.refl _)
        (fun u a hu => List.map_subset _ (served_pool_subset hu hk)) (fun u f hu => hu) r
    · rw [hset]
      exact List.Subset.refl _
  · rw [hset]
    exact List.Subset.refl _

/-- Settles O51: what the work of a kind leaves unchanged, and what the engine does before and after it. -/
theorem framesOfRequests : Obligations.FramesOfRequests := by
  intro k p s t ht
  rw [exec_commandOf] at ht
  cases ht
  refine ⟨fun hk => ?_, fun hk => ?_, fun hk => ?_, fun hk w hw => ?_, fun hd => ⟨fun hk q hq => ?_, fun hk => ?_⟩, ?_, ?_⟩
  · exact finishRequest_keeps_work untouched_cells (fun _ _ _ => rfl) (fun hu => served_cells hu hk) s
  · exact finishRequest_keeps_work untouched_locks (fun _ _ _ => rfl) (fun hu => served_locks hu hk) s
  · exact finishRequest_keeps_work untouched_suspect (fun _ _ _ => rfl) (fun hu => served_suspect hu hk) s
  · have hmem := finishRequest_liveTickets hk p s (List.mem_map_of_mem hw)
    obtain ⟨v, hv, he⟩ := List.mem_map.mp hmem
    exact ⟨v, hv, congrArg Prod.fst he, congrArg Prod.snd he⟩
  · exact (unchosen_session q).finishRequest hd (fun _ _ _ => rfl) fun hu => served_session_other hu hk hq
  · exact unchosen_pool.finishRequest hd (fun _ _ _ => rfl) fun hu => served_pool hu hk
  · exact finishRequest_keeps_work untouched_initialised (fun _ _ _ => rfl)
      (fun hu => (sameOutside_served hu).initialised) s
  · exact finishRequest_keeps_work untouched_resetLow (fun _ _ _ => rfl) (fun hu => (sameOutside_served hu).resetLow) s

end Sys2Proof.Machine
end

section
/-!
PROOFS. Transactions act on their own port, and where they are cut makes no difference (O52).
-/

namespace Sys2Proof.Machine

open Sys2Proof.Safety

/-! ### What stays as it was beside one port -/

/-- From `s` to `t` nothing changed but the interface of a port, the state of its session and the engine. -/
structure OnlyPort (p : Port) (s t : State) : Prop where
  cells       : t.cells = s.cells
  suspect     : t.suspect = s.suspect
  locks       : t.locks = s.locks
  pool        : t.pool = s.pool
  other       : ∀ q, q ≠ p → t.session q = s.session q ∧ t.port q = s.port q
  queue       : (t.session p).queue = (s.session p).queue
  watches     : (t.session p).watches = (s.session p).watches
  stack       : (t.session p).stack = (s.session p).stack
  epoch       : (t.session p).epoch = (s.session p).epoch
  initialised : t.initialised = s.initialised
  resetLow    : t.resetLow = s.resetLow

theorem OnlyPort.refl (p : Port) (s : State) : OnlyPort p s s :=
  ⟨rfl, rfl, rfl, rfl, fun _ _ => ⟨rfl, rfl⟩, rfl, rfl, rfl, rfl, rfl, rfl⟩

theorem OnlyPort.trans {p : Port} {s t u : State} (h : OnlyPort p s t) (k : OnlyPort p t u) : OnlyPort p s u where
  cells := k.cells.trans h.cells
  suspect := k.suspect.trans h.suspect
  locks := k.locks.trans h.locks
  pool := k.pool.trans h.pool
  other q hq := ⟨(k.other q hq).1.trans (h.other q hq).1, (k.other q hq).2.trans (h.other q hq).2⟩
  queue := k.queue.trans h.queue
  watches := k.watches.trans h.watches
  stack := k.stack.trans h.stack
  epoch := k.epoch.trans h.epoch
  initialised := k.initialised.trans h.initialised
  resetLow := k.resetLow.trans h.resetLow

theorem onlyPort_modPort (p : Port) (f : PortLink → PortLink) (s : State) : OnlyPort p s (s.modPort p f) where
  cells := rfl
  suspect := rfl
  locks := rfl
  pool := rfl
  other _ hq := ⟨rfl, State.modPort_port_other _ _ _ _ hq⟩
  queue := rfl
  watches := rfl
  stack := rfl
  epoch := rfl
  initialised := rfl
  resetLow := rfl

theorem onlyPort_modSession {p : Port} {f : Session → Session} {s : State}
    (hqueue : (f (s.session p)).queue = (s.session p).queue) (hwatches : (f (s.session p)).watches = (s.session p).watches)
    (hstack : (f (s.session p)).stack = (s.session p).stack) (hepoch : (f (s.session p)).epoch = (s.session p).epoch) :
    OnlyPort p s (s.modSession p f) where
  cells := rfl
  suspect := rfl
  locks := rfl
  pool := rfl
  other _ hq := ⟨State.modSession_session_other _ _ _ _ hq, rfl⟩
  queue := (congrArg Session.queue (State.modSession_session_same s p f)).trans hqueue
  watches := (congrArg Session.watches (State.modSession_session_same s p f)).trans hwatches
  stack := (congrArg Session.stack (State.modSession_session_same s p f)).trans hstack
  epoch := (congrArg Session.epoch (State.modSession_session_same s p f)).trans hepoch
  initialised := rfl
  resetLow := rfl

/-- The engine's own fields do not count. -/
theorem OnlyPort.engine {p : Port} {s t : State} (h : OnlyPort p s t) (r : Port) (l : List Item) (v : Service)
    (d : List Claim) : OnlyPort p s { t with rotation := r, workList := l, service := v, deferred := d } :=
  ⟨h.cells, h.suspect, h.locks, h.pool, h.other, h.queue, h.watches, h.stack, h.epoch, h.initialised, h.resetLow⟩

theorem onlyPort_takeWork {p : Port} {w : Work} (h : ∀ q n, w = .request q n → q = p) (s : State) :
    OnlyPort p s (takeWork w s) := by
  cases w with
  | request q n =>
    obtain rfl := h q n rfl
    exact (onlyPort_modPort q (fun x => { x with slot := x.slot.taken }) s).engine q s.workList _ s.deferred
  | item i => exact (OnlyPort.refl p s).engine s.rotation _ _ s.deferred

/-- The arbiter changes the port alone where no other port holds a request. -/
theorem onlyPort_arbitrate {p : Port} {s : State} (h : ∀ q, q ≠ p → holdsRequest s q = false) :
    OnlyPort p s (arbitrate s) := by
  unfold arbitrate
  split
  · exact .refl p s
  · split
    · next w hc =>
      refine onlyPort_takeWork (fun q n hw => ?_) s
      subst hw
      rcases choose_cases hc with ⟨r, hr, he⟩ | ⟨i, -, he⟩
      · cases he
        refine Classical.byContradiction fun hq => ?_
        rw [h q hq] at hr
        exact Bool.false_ne_true hr
      · exact nomatch he
    · exact .refl p s

theorem claimSession_of_opened {p : Port} {s : State} (h : (s.session p).state = .opened) :
    claimSession p s =
      { s.modSession p fun x => { x with state := .ending, endCause := .portReset, leaseRemaining := 0 } with
        workList := s.workList ++ [.teardown p] } := by
  rw [claimSession, h]

theorem claimSession_of_not_opened {p : Port} {s : State} (h : (s.session p).state ≠ .opened) : claimSession p s = s := by
  unfold claimSession
  split
  · exact absurd (by assumption) h
  all_goals rfl

theorem onlyPort_claimSession (p : Port) (s : State) : OnlyPort p s (claimSession p s) := by
  by_cases ho : (s.session p).state = .opened
  · rw [claimSession_of_opened ho]
    have hmod : OnlyPort p s (s.modSession p fun x =>
        { x with state := .ending, endCause := .portReset, leaseRemaining := 0 }) := onlyPort_modSession rfl rfl rfl rfl
    exact hmod.engine s.rotation _ s.service s.deferred
  · rw [claimSession_of_not_opened ho]
    exact .refl p s

theorem onlyPort_resetPort (p : Port) (s : State) : OnlyPort p s (resetPort p s) :=
  (onlyPort_modPort p _ s).trans (onlyPort_claimSession p _)

/-! ### A transaction from an engine that serves or is at rest -/

theorem ready_modPort {s : State} {p : Port} {f : PortLink → PortLink}
    (hheld : ∀ r, (f (s.port p)).slot = .held r ↔ (s.port p).slot = .held r) (h : Ready s) : Ready (s.modPort p f) := by
  rcases h with hw | hrest
  · exact .inl hw
  · refine .inr (atRest_of_same (s := s) rfl rfl rfl rfl (fun q => Bool.eq_iff_iff.mpr ?_) hrest)
    rw [holdsRequest_iff, holdsRequest_iff, State.modPort_port]
    split
    · next hq => exact exists_congr fun r => hq ▸ hheld r
    · rfl

/-- Work that arrives at an engine which serves or is at rest is taken by it or waits for it. -/
theorem ready_arbitrate_of {s t : State} (h : Ready s) (hservice : t.service = s.service) (hd : t.deferred = s.deferred)
    (hf : t.fresh = s.fresh) : Ready (arbitrate t) := by
  rcases h with ⟨w, hw⟩ | ⟨-, hnone, hfresh, -⟩
  · rw [arbitrate_of_serving (hservice.trans hw)]
    exact .inl ⟨w, hservice.trans hw⟩
  · exact ready_arbitrate (hd.trans hnone) (hf.trans hfresh)

/-- Work of one port that arrives changes that port alone. -/
theorem onlyPort_arbitrate_of {p : Port} {s t : State} (h : Ready s) (hservice : t.service = s.service)
    (ht : OnlyPort p s t) : OnlyPort p s (arbitrate t) := by
  rcases h with ⟨w, hw⟩ | ⟨-, -, -, hnone⟩
  · rw [arbitrate_of_serving (hservice.trans hw)]
    exact ht
  · refine ht.trans (onlyPort_arbitrate fun q hq => ?_)
    rw [holdsRequest_congr (congrArg PortLink.slot (ht.other q hq).2)]
    exact ((choose_eq_none_iff s).mp hnone).2 q

theorem ready_acceptRequest (p : Port) (r : Request) {s : State} (h : Ready s) : Ready (acceptRequest p r s) := by
  unfold acceptRequest
  split
  · exact ready_arbitrate_of h rfl rfl rfl
  all_goals exact ready_modPort (fun _ => Iff.rfl) h

theorem onlyPort_acceptRequest (p : Port) (r : Request) {s : State} (h : Ready s) :
    OnlyPort p s (acceptRequest p r s) := by
  unfold acceptRequest
  split
  · exact onlyPort_arbitrate_of h rfl (onlyPort_modPort p _ s)
  all_goals exact onlyPort_modPort p _ s

theorem ready_receivePortReset (p : Port) {s : State} (h : Ready s) : Ready (receivePortReset p s) := by
  unfold receivePortReset
  split
  · exact ready_arbitrate_of h (resetPort_service p s) (resetPort_deferred p s) (resetPort_fresh p s)
  · next w hw =>
    split
    · exact h
    · exact .inl ⟨w, hw⟩

theorem onlyPort_receivePortReset (p : Port) {s : State} (h : Ready s) : OnlyPort p s (receivePortReset p s) := by
  unfold receivePortReset
  split
  · exact onlyPort_arbitrate_of h (resetPort_service p s) (onlyPort_resetPort p s)
  · split
    · exact .refl p s
    · exact (onlyPort_modPort p (fun x => { x with resetPending := true }) s).engine s.rotation s.workList s.service _

/-- Every effect of a transaction keeps the engine serving or at rest, and changes its port alone. -/
theorem onlyPort_linkLaw (p : Port) (s : State) : LinkLaw p fun t => Ready t ∧ OnlyPort p s t where
  plain t f hf h := by
    obtain ⟨hslot, -⟩ := hf (t.port p)
    exact ⟨ready_modPort (fun r => by rw [hslot]) h.1, h.2.trans (onlyPort_modPort p f t)⟩
  poll rx t h := by
    refine ⟨ready_modPort (fun r => ?_) h.1, h.2.trans (onlyPort_modPort p _ t)⟩
    dsimp only
    split
    · exact (emptied_serving _ r).2
    · rfl
  accept r t h := ⟨ready_acceptRequest p r h.1, h.2.trans (onlyPort_acceptRequest p r h.1)⟩
  reset t h := ⟨ready_receivePortReset p h.1, h.2.trans (onlyPort_receivePortReset p h.1)⟩

/-- A frame command that finds the engine serving or at rest. -/
theorem exec_frame_of_ready {p : Port} {type : Byte} {f : Segment → Instr} (hf : f ∈ frameCommands p type) :
    ∃ type', ∀ seg s, Ready s → exec (f seg) s = .next (transact p type' seg s) ∧ Ready (transact p type' seg s) := by
  obtain ⟨type', he⟩ := exec_frame hf
  refine ⟨type', fun seg s h => ⟨?_, ?_⟩⟩
  · rw [he, settled_of_ready h]
  · exact (transact_kept (onlyPort_linkLaw p s) type' seg ⟨h, .refl p s⟩).1

/-- Settles O52: `onlyPort_linkLaw` for the effects, and the laws of `clockBits` for the cuts. -/
theorem linksActOnTheirOwnPort : Obligations.LinksActOnTheirOwnPort := by
  refine ⟨fun s t p type seg h f hf ht => ?_, fun s p type m bytes bytes1 bytes2 bits bits1 bits2 h hw f hf => ?_⟩
  · obtain ⟨type', he⟩ := exec_frame hf
    rw [he, settled_of_ready h] at ht
    cases ht
    obtain ⟨-, hcells, hsuspect, hlocks, hpool, hother, hqueue, hwatches, hstack, hepoch, hinit, hreset⟩ :=
      transact_kept (onlyPort_linkLaw p s) type' seg ⟨h, .refl p s⟩
    exact ⟨hcells, hsuspect, hlocks, hpool, hother, hqueue, hwatches, hstack, hepoch, hinit, hreset⟩
  · obtain ⟨type', he⟩ := exec_frame_of_ready hf
    have hexec : ∀ seg u, Ready u → exec (f seg) u = .next (transact p type' seg u) := fun seg u hu => (he seg u hu).1
    refine ⟨fun t ht => ?_, fun t ht => ?_, fun t ht => ?_⟩
    · rw [hexec _ s h] at ht
      cases ht
      rw [hexec _ _ (he _ s h).2, hexec _ s h, transact_select_first]
    · rw [hexec _ s h] at ht
      cases ht
      have hcut := transact_start_more hw p type' m s
      rw [hexec _ _ (he _ s h).2, hexec _ _ (he _ s h).2, hexec _ s h, hexec _ s h, hcut]
      exact ⟨rfl, congrArg (fun u => Host.Outcome.next (deselectPort p u)) hcut⟩
    · rw [hexec _ s h] at ht
      cases ht
      have hcut := transact_more_more hw p type' s
      rw [hexec _ _ (he _ s h).2, hexec _ _ (he _ s h).2, hexec _ s h, hexec _ s h, hcut]
      exact ⟨rfl, congrArg (fun u => Host.Outcome.next (deselectPort p u)) hcut⟩

end Sys2Proof.Machine
end

section
/-!
PROOFS. How a transaction runs: the bits that SDO returns, the bytes that only extend a frame, the select with its first
byte, and the end of a frame that is over.
-/

namespace Sys2Proof.Machine

open Sys2Proof.Safety

/-! ### Bits of a stream -/

theorem byteBits_zero : byteBits 0 = List.replicate 8 false := rfl

theorem firstBits_nil (n : Nat) : firstBits [] n = List.replicate n false := by
  simp [firstBits, wire_nil]

/-- The first byte of a stream that zeros follow passes first. -/
theorem firstBits_step (stream : List Byte) (n : Nat) :
    firstBits stream (8 + n) = byteBits (stream.headD 0) ++ firstBits stream.tail n := by
  cases stream with
  | nil =>
    rw [List.tail_nil, firstBits_nil, firstBits_nil, ← List.replicate_append_replicate]
    rfl
  | cons b l =>
    have htake : ((byteBits b ++ wire l) ++ List.replicate (8 + n) false).take (8 + n) =
        byteBits b ++ (wire l ++ List.replicate (8 + n) false).take n := by
      rw [List.append_assoc]
      exact List.take_length_add_append (l₁ := byteBits b) n
    have hzeros : (wire l ++ List.replicate (8 + n) false).take n = (wire l ++ List.replicate n false).take n := by
      rw [List.take_append, List.take_append, List.take_replicate, List.take_replicate]
      congr 2
      omega
    rw [firstBits, wire_cons, htake, hzeros]
    rfl

theorem firstBits_of_short (stream : List Byte) {n : Nat} (h : n ≤ 8) :
    firstBits stream n = (byteBits (stream.headD 0)).take n := by
  cases stream with
  | nil =>
    rw [firstBits_nil, List.headD_nil, byteBits_zero, List.take_replicate, Nat.min_eq_left h]
  | cons b l =>
    rw [firstBits, wire_cons, List.append_assoc, List.take_append_of_le_length (by simpa using h)]
    rfl

/-- A stream of one byte. -/
theorem firstBits_single (b : Byte) (n : Nat) : firstBits [b] (8 + n) = byteBits b ++ List.replicate n false := by
  rw [firstBits_step, List.tail_cons, firstBits_nil]
  rfl

/-! ### What the part returns -/

/-- The bytes that the part returns in a transaction, before zeros (R151, R156). -/
def Rx.stream (rx : Rx) : List Byte := rx.status :: if rx.phase = .poll then rx.record.getD [0] else []

theorem nextOut_eq (rx : Rx) : nextOut rx = (rx.stream.drop rx.received.length).headD 0 := by
  unfold nextOut Rx.stream
  split
  · next h => simp [h]
  · next i h =>
    rw [h, List.drop_succ_cons, List.headD_eq_head?_getD, List.head?_drop]
    split
    · exact List.getD_eq_getElem?_getD
    · rfl

/-- More bytes have been received. -/
def Rx.got (rx : Rx) (bytes : List Byte) : Rx := { rx with received := rx.received ++ bytes }

theorem Rx.got_got (rx : Rx) (bs cs : List Byte) : (rx.got bs).got cs = rx.got (bs ++ cs) := by
  simp [Rx.got]

theorem Rx.got_nil (rx : Rx) : rx.got [] = rx := by
  simp [Rx.got]

/-- Each of these bytes, in their order, extends what has been received and does nothing else. -/
def Rx.Extends : List Byte → Rx → Prop
  | [], _ => True
  | b :: bs, rx => (∀ p s, receiveByte p rx b s = setReceiver p (.active (rx.got [b])) s) ∧ Rx.Extends bs (rx.got [b])

/-- The state after bits that leave the transaction in progress: what was received, and the bits returned. -/
def clocked (p : Port) (rx : Rx) (bytes : List Byte) (bits : List Bool) (s : State) : State :=
  s.modPort p fun x =>
    { x with
      receiver := .active { rx.got bytes with bits := bits }
      out := x.out ++ firstBits (rx.stream.drop rx.received.length) (8 * bytes.length + bits.length) }

theorem clocked_port (p : Port) (rx : Rx) (bytes : List Byte) (bits : List Bool) (s : State) :
    (clocked p rx bytes bits s).port p =
      { s.port p with
        receiver := .active { rx.got bytes with bits := bits }
        out := (s.port p).out ++ firstBits (rx.stream.drop rx.received.length) (8 * bytes.length + bits.length) } :=
  State.modPort_port_same _ _ _

/-- Bytes that only extend what has been received, and the bits of one more. -/
theorem clockBits_of_extends {p : Port} {bits : List Bool} (hbits : bits.length < 8) (bytes : List Byte) {s : State}
    {rx : Rx} (h : (s.port p).receiver = .active rx) (hb : rx.bits = []) (he : Rx.Extends bytes rx) :
    clockBits p (wire bytes ++ bits) s = clocked p rx bytes bits s := by
  induction bytes generalizing s rx with
  | nil =>
    rw [wire_nil, List.nil_append, clockBits_incomplete bits h (by simpa [hb] using hbits), clocked]
    refine State.modPort_congr s p _ _ ?_
    simp only [hb, List.nil_append, List.length_nil, List.drop_zero, Rx.got_nil, nextOut_eq, Nat.mul_zero, Nat.zero_add]
    rw [firstBits_of_short _ (Nat.le_of_lt hbits)]
  | cons b bs ih =>
    obtain ⟨hstep, hrest⟩ := he
    have hbyte : clockBits p (byteBits b) s =
        s.modPort p fun x => { x with receiver := .active (rx.got [b]), out := x.out ++ byteBits (nextOut rx) } := by
      rw [clockBits_byte h hb, hstep, setReceiver, State.modPort_modPort]
    rw [clockBits_wire_cons, hbyte, ih (rx := rx.got [b]) (by rw [State.modPort_port_same]) hb hrest, clocked, clocked,
      State.modPort_modPort]
    refine State.modPort_congr s p _ _ ?_
    have hlength : 8 * (b :: bs).length + bits.length = 8 + (8 * bs.length + bits.length) := by
      rw [List.length_cons]
      omega
    have hdrop : (rx.stream.drop rx.received.length).tail = (rx.got [b]).stream.drop (rx.got [b]).received.length := by
      rw [List.tail_drop, Rx.got, List.length_append]
      rfl
    simp only [Rx.got_got, List.singleton_append, nextOut_eq, List.append_assoc, hlength, firstBits_step, hdrop]

/-- Whole bytes that only extend what has been received. -/
theorem clockBits_wire_of_extends {p : Port} (bytes : List Byte) {s : State} {rx : Rx}
    (h : (s.port p).receiver = .active rx) (hb : rx.bits = []) (he : Rx.Extends bytes rx) :
    clockBits p (wire bytes) s = clocked p rx bytes [] s := by
  have hrun := clockBits_of_extends (bits := []) (by decide) bytes h hb he
  rwa [List.append_nil] at hrun

theorem extends_of_step {rx : Rx}
    (h : ∀ bytes b p s, receiveByte p (rx.got bytes) b s = setReceiver p (.active ((rx.got bytes).got [b])) s)
    (bytes : List Byte) : Rx.Extends bytes rx := by
  induction bytes generalizing rx with
  | nil => trivial
  | cons b bs ih =>
    refine ⟨fun p s => ?_, ih fun cs c p s => ?_⟩
    · have hb := h [] b p s
      rwa [Rx.got_nil] at hb
    · rw [Rx.got_got]
      exact h _ c p s

theorem extends_of_poll {rx : Rx} (h : rx.phase = .poll) (bytes : List Byte) : Rx.Extends bytes rx :=
  extends_of_step (fun cs b p s => by simp only [receiveByte, Rx.got, h]) bytes

/-- A REQUEST whose length byte is good goes on while a byte of it is missing. -/
theorem requestStep_goesOn {len : Byte} {rest : List Byte} (h3 : 3 ≤ len.toNat) (h60 : len.toNat ≤ 60)
    (hlen : rest.length < len.toNat) : requestStep (0xC1 :: len :: rest) = .goesOn := by
  unfold requestStep
  simp only [List.length_cons, List.getD_cons_succ, List.getD_cons_zero]
  split
  · exact if_pos ⟨h3, h60⟩
  · rw [if_neg]
    omega

theorem requestStep_badLength {len : Byte} (h : len.toNat < 3 ∨ 60 < len.toNat) :
    requestStep [0xC1, len] = .badLength := by
  unfold requestStep
  simp only [List.length_cons, List.length_nil, List.getD_cons_succ, List.getD_cons_zero, if_true]
  rw [if_neg]
  rintro ⟨hmin, hmax⟩
  change 3 ≤ len.toNat at hmin
  change len.toNat ≤ 60 at hmax
  omega

theorem requestStep_complete {len : Byte} {rest : List Byte} (h3 : 3 ≤ len.toNat) (hlen : rest.length = len.toNat) :
    requestStep (0xC1 :: len :: rest) = .complete := by
  unfold requestStep
  simp only [List.length_cons, List.getD_cons_succ, List.getD_cons_zero]
  rw [if_neg (by omega), if_pos (by omega)]

/-- Bytes that leave a REQUEST with a good length byte incomplete. -/
theorem extends_of_request {rx : Rx} {got bytes : List Byte} (hphase : rx.phase = .request)
    (hgot : rx.received = 0xC1 :: got)
    (h : ∀ len rest, got ++ bytes = len :: rest → 3 ≤ len.toNat ∧ len.toNat ≤ 60 ∧ rest.length < len.toNat) :
    Rx.Extends bytes rx := by
  induction bytes generalizing rx got with
  | nil => trivial
  | cons b bs ih =>
    have hnext : (rx.got [b]).received = 0xC1 :: (got ++ [b]) := by
      rw [Rx.got, hgot]
      rfl
    refine ⟨fun p s => ?_, ih (got := got ++ [b]) hphase hnext fun len rest he => h len rest (by simpa using he)⟩
    obtain ⟨len, rest, he⟩ : ∃ len rest, got ++ [b] = len :: rest := by cases got <;> simp
    have hgood := h len (rest ++ bs) (by rw [← List.cons_append, ← he]; simp)
    rw [List.length_append] at hgood
    have hstep : requestStep (rx.received ++ [b]) = .goesOn := by
      rw [hgot, List.cons_append, he]
      exact requestStep_goesOn hgood.1 hgood.2.1 (by omega)
    simp only [receiveByte, hphase, hstep, Rx.got]

/-! ### The select and the first byte -/

theorem openTransaction_of_answers {p : Port} {s : State} (ha : answers s = true) (hs : (s.port p).selected = false)
    (m : ClockMode) :
    openTransaction p m s =
      s.modPort p fun x =>
        { x with
          selected := true
          receiver := .active ⟨m, statusByte s p, readyBytes (s.port p).slot, [], [], .frameType⟩
          out := [] } := by
  simp only [openTransaction, hs, Bool.false_eq_true, if_false, selectPort, ha, if_true]

/-- The state after the select and the first byte of a transaction of a known type. -/
def begun (p : Port) (m : ClockMode) (type : Byte) (phase : RxPhase) (s : State) : State :=
  s.modPort p fun x =>
    { x with
      selected := true
      receiver := .active ⟨m, statusByte s p, readyBytes (s.port p).slot, [type], [], phase⟩
      out := byteBits (statusByte s p) }

theorem begun_receiver (p : Port) (m : ClockMode) (type : Byte) (phase : RxPhase) (s : State) :
    ((begun p m type phase s).port p).receiver =
      .active ⟨m, statusByte s p, readyBytes (s.port p).slot, [type], [], phase⟩ := by
  rw [begun, State.modPort_port_same]

theorem ready_begun {s : State} (h : Ready s) (p : Port) (m : ClockMode) (type : Byte) (phase : RxPhase) :
    Ready (begun p m type phase s) := ready_modPort (fun _ => Iff.rfl) h

theorem clockBits_begun {p : Port} {s : State} (ha : answers s = true) (hs : (s.port p).selected = false) (m : ClockMode)
    {type : Byte} {phase : RxPhase} (hp : phaseOf type = some phase) (bytes : List Byte) (bits : List Bool) :
    clockBits p (wire (type :: bytes) ++ bits) (openTransaction p m s) =
      clockBits p (wire bytes ++ bits) (begun p m type phase s) := by
  rw [clockBits_wire_cons]
  congr 1
  have hrx : ((openTransaction p m s).port p).receiver =
      .active ⟨m, statusByte s p, readyBytes (s.port p).slot, [], [], .frameType⟩ := by
    rw [openTransaction_of_answers ha hs, State.modPort_port_same]
  rw [clockBits_byte hrx rfl]
  simp only [receiveByte, hp, setReceiver, openTransaction_of_answers ha hs, State.modPort_modPort, begun]
  rfl

/-- A whole transaction of a known type is its segment from the first byte on. -/
theorem transact_whole {p : Port} {s : State} (ha : answers s = true) (hs : (s.port p).selected = false) (m : ClockMode)
    {type : Byte} {phase : RxPhase} (hp : phaseOf type = some phase) (bytes : List Byte) (bits : List Bool) :
    transact p type (.whole m bytes bits) s = transact p type (.finish bytes bits) (begun p m type phase s) :=
  congrArg (deselectPort p) (clockBits_begun ha hs m hp bytes bits)

/-- A transaction of a known type whose bytes so far only extend its frame. -/
theorem transact_start {p : Port} {s : State} (ha : answers s = true) (hs : (s.port p).selected = false) (m : ClockMode)
    {type : Byte} {phase : RxPhase} (hp : phaseOf type = some phase) {bytes : List Byte} {bits : List Bool}
    (hbits : bits.length < 8)
    (he : Rx.Extends bytes ⟨m, statusByte s p, readyBytes (s.port p).slot, [type], [], phase⟩) :
    transact p type (.start m bytes bits) s =
      s.modPort p fun x =>
        { x with
          selected := true
          receiver := .active ⟨m, statusByte s p, readyBytes (s.port p).slot, type :: bytes, bits, phase⟩
          out := byteBits (statusByte s p) ++
            firstBits (if phase = .poll then (readyBytes (s.port p).slot).getD [0] else [])
              (8 * bytes.length + bits.length) } := by
  rw [transact, clockBits_begun ha hs m hp, clockBits_of_extends hbits bytes (begun_receiver p m type phase s) rfl he,
    clocked, begun, State.modPort_modPort]
  rfl

/-! ### The deselect -/

theorem deselectPort_of_quiet {p : Port} {t : State} {rx : Rx} (h : (t.port p).receiver = .active rx)
    (hp : rx.phase = .ended ∨ rx.phase = .frameType) :
    deselectPort p t = t.modPort p fun x => { x with selected := false, receiver := .idle } := by
  unfold deselectPort
  rw [h]
  rcases hp with hp | hp <;> simp only [hp]

theorem deselectPort_of_cut {p : Port} {t : State} {rx : Rx} (h : (t.port p).receiver = .active rx)
    (hp : rx.phase = .request ∨ rx.phase = .portReset) :
    deselectPort p t = countLinkError p (t.modPort p fun x => { x with selected := false, receiver := .idle }) := by
  unfold deselectPort
  rw [h]
  rcases hp with hp | hp <;> simp only [hp]

theorem deselectPort_of_poll {p : Port} {t : State} {rx : Rx} (h : (t.port p).receiver = .active rx)
    (hp : rx.phase = .poll) :
    deselectPort p t = endPoll p rx (t.modPort p fun x => { x with selected := false, receiver := .idle }) := by
  unfold deselectPort
  rw [h]
  simp only [hp]

/-- After the end of a frame: the rest is ignored and answered with zeros, and the deselect has no other effect. -/
theorem finish_of_ended {p : Port} {t : State} {rx : Rx} (h : (t.port p).receiver = .active rx) (hp : rx.phase = .ended)
    (hr : rx.received ≠ []) (hb : rx.bits = []) (extra : List Byte) {bits : List Bool} (hbits : bits.length < 8) :
    deselectPort p (clockBits p (wire extra ++ bits) t) =
      t.modPort p fun x =>
        { x with
          selected := false
          receiver := .idle
          out := x.out ++ List.replicate (8 * extra.length + bits.length) false } := by
  rw [clockBits_ended extra bits hbits h hp hr hb]
  have hrx := State.modPort_port_same t p fun x =>
    { x with
      receiver := .active { rx with received := rx.received ++ extra, bits := bits }
      out := x.out ++ List.replicate (8 * extra.length + bits.length) false }
  rw [deselectPort_of_quiet (congrArg PortLink.receiver hrx) (.inl hp), State.modPort_modPort]

end Sys2Proof.Machine
end

section
/-!
PROOFS. A REQUEST frame that completes: where its bytes lead, and what the slot and the engine decide (O45).
-/

namespace Sys2Proof.Machine

open Sys2Proof.Safety

/-! ### The last byte of a frame -/

theorem receiveByte_of_complete {rx : Rx} {len b : Byte} {tail : List Byte} (hphase : rx.phase = .request)
    (hframe : rx.received ++ [b] = 0xC1 :: len :: tail) (h3 : 3 ≤ len.toNat) (hlen : tail.length = len.toNat) (p : Port)
    (s : State) :
    receiveByte p rx b s =
      completeRequest p (0xC1 :: len :: tail)
        (setReceiver p (.active { rx with received := rx.received ++ [b], phase := .ended }) s) := by
  simp only [receiveByte, hphase, hframe, requestStep_complete h3 hlen]

/-- The interface when the last byte of a frame has passed. -/
def PortLink.over (rx : Rx) (bytes : List Byte) (x : PortLink) : PortLink :=
  { x with
    receiver := .active { rx with received := rx.received ++ bytes, phase := .ended }
    out := x.out ++ List.replicate (8 * bytes.length) false }

theorem wire_snoc (bytes : List Byte) (b : Byte) : wire (bytes ++ [b]) = wire bytes ++ byteBits b := by
  rw [wire_append, wire_cons, wire_nil, List.append_nil]

/-- After the type byte, a transaction that is no POLL returns zeros. -/
theorem stream_drop_of_not_poll {rx : Rx} (hp : rx.phase ≠ .poll) (hr : rx.received ≠ []) :
    rx.stream.drop rx.received.length = [] := by
  rw [Rx.stream, if_neg hp]
  exact List.drop_eq_nil_of_le (List.length_pos_iff.mpr hr)

/-- The rest of a frame is clocked in, and the frame is complete. -/
theorem clockBits_of_frame {p : Port} {s : State} {rx : Rx} {got rest tail : List Byte} {len : Byte}
    (h : (s.port p).receiver = .active rx) (hb : rx.bits = []) (hphase : rx.phase = .request)
    (hgot : rx.received = 0xC1 :: got) (hframe : got ++ rest = len :: tail) (hrest : rest ≠ []) (h3 : 3 ≤ len.toNat)
    (h60 : len.toNat ≤ 60) (hlen : tail.length = len.toNat) :
    clockBits p (wire rest) s = completeRequest p (0xC1 :: len :: tail) (s.modPort p (PortLink.over rx rest)) := by
  obtain ⟨init, b, rfl⟩ : ∃ init b, rest = init ++ [b] := ⟨_, _, (List.dropLast_concat_getLast hrest).symm⟩
  have hextends : Rx.Extends init rx := extends_of_request hphase hgot fun l r he => by
    rw [← List.append_assoc, he, List.cons_append] at hframe
    obtain ⟨rfl, rfl⟩ := List.cons.inj hframe
    rw [List.length_append, List.length_singleton] at hlen
    exact ⟨h3, h60, by omega⟩
  have hreceived : (rx.got init).received ++ [b] = 0xC1 :: len :: tail := by
    rw [Rx.got, hgot, List.append_assoc, List.cons_append, hframe]
  have hzero : nextOut (rx.got init) = 0 := nextOut_zero (by simp [Rx.got, hgot]) (by simp [Rx.got, hphase])
  have hdrop : rx.stream.drop rx.received.length = [] := stream_drop_of_not_poll (by simp [hphase]) (by simp [hgot])
  have hclocked : ((clocked p rx init [] s).port p).receiver = .active { rx.got init with bits := [] } := by
    rw [clocked_port]
  have hgotBits : ({ rx.got init with bits := [] } : Rx) = rx.got init := by
    rw [← hb]
    rfl
  rw [hgotBits] at hclocked
  rw [wire_snoc, clockBits_append, clockBits_wire_of_extends init h hb hextends, clockBits_byte hclocked hb,
    receiveByte_of_complete (rx := rx.got init) hphase hreceived h3 hlen]
  congr 1
  rw [setReceiver, clocked, hzero, State.modPort_modPort, State.modPort_modPort]
  refine State.modPort_congr s p _ _ ?_
  have hzeros : (8 * (init ++ [b]).length) = 8 * init.length + 8 := by simp; omega
  simp only [PortLink.over, Rx.got, hdrop, firstBits_nil, byteBits_zero, List.append_assoc,
    List.replicate_append_replicate, List.length_nil, Nat.add_zero, hzeros]

theorem crcCorrect_of_check (body : List Byte) : crcCorrect (body ++ [crc body]) = true := by
  simp [crcCorrect]

theorem requestOf_frame (len e k check : Byte) (payload : List Byte) :
    requestOf (0xC1 :: len :: e :: k :: (payload ++ [check])) = ⟨e, k, payload⟩ := by
  simp [requestOf]

/-! ### What the slot decides -/

theorem acceptRequest_of_serving {p : Port} {s : State} {w : Work} (hslot : (s.port p).slot = .idle)
    (hw : s.service = .serving w) (r : Request) :
    acceptRequest p r s = s.modPort p fun x => { x with slot := .held r } := by
  rw [acceptRequest, hslot]
  exact arbitrate_of_serving (s := s.modPort p fun x => { x with slot := .held r }) hw

/-- The one request that waits is taken. -/
theorem choose_of_only_request {p : Port} {s : State} (hlist : s.workList = []) (hp : holdsRequest s p = true)
    (hother : ∀ q, q ≠ p → holdsRequest s q = false) : choose s = some (.request p (s.port p).linkErrors) := by
  cases hc : choose s with
  | none =>
    rw [((choose_eq_none_iff s).mp hc).2 p] at hp
    exact absurd hp Bool.false_ne_true
  | some w =>
    rcases choose_cases hc with ⟨q, hq, rfl⟩ | ⟨i, hi, -⟩
    · by_cases he : q = p
      · rw [he]
      · rw [hother q he] at hq
        exact absurd hq Bool.false_ne_true
    · rw [hlist] at hi
      exact nomatch hi

/-- The engine has taken the request of a port (R141, R142). -/
def engaged (p : Port) (n : Nat) (s : State) : State := { s with rotation := p, service := .serving (.request p n) }

theorem engaged_port (p q : Port) (n : Nat) (s : State) : (engaged p n s).port q = s.port q := rfl

theorem engaged_modPort (p : Port) (n : Nat) (f : PortLink → PortLink) (s : State) :
    (engaged p n s).modPort p f = engaged p n (s.modPort p f) := rfl

theorem acceptRequest_of_atRest {p : Port} {s : State} (hslot : (s.port p).slot = .idle) (h : AtRest s) (r : Request) :
    acceptRequest p r s = engaged p (s.port p).linkErrors (s.modPort p fun x => { x with slot := .serving r }) := by
  obtain ⟨hidle, -, -, hnone⟩ := h
  obtain ⟨hlist, hheld⟩ := (choose_eq_none_iff s).mp hnone
  have hport := State.modPort_port_same s p fun x => { x with slot := .held r }
  have hchoose : choose (s.modPort p fun x => { x with slot := .held r }) =
      some (.request p (s.port p).linkErrors) := by
    rw [choose_of_only_request (s := s.modPort p fun x => { x with slot := .held r }) (p := p) hlist, hport]
    · rw [holdsRequest_iff, hport]
      exact ⟨r, rfl⟩
    · intro q hq
      rw [← hheld q]
      exact holdsRequest_congr (congrArg PortLink.slot (State.modPort_port_other _ _ _ _ hq))
  rw [acceptRequest, hslot]
  dsimp only
  rw [arbitrate_of_some (s := s.modPort p fun x => { x with slot := .held r }) hidle hchoose, takeWork,
    State.modPort_modPort]
  rfl

theorem acceptRequest_of_busy {p : Port} {s : State} (hslot : (s.port p).slot ≠ .idle) (r : Request) :
    acceptRequest p r s = s.modPort p fun x => { x with overrun := true } := by
  unfold acceptRequest
  split
  · exact absurd (by assumption) hslot
  all_goals rfl

/-- What becomes of a request whose frame is complete, from the state in which its last bytes find the part (R154). -/
def Decided (p : Port) (r : Request) (s : State) (ended : PortLink → PortLink) (t : State) : Prop :=
  ((s.port p).slot = .idle →
    (∀ w, s.service = .serving w → t = s.modPort p fun x => { ended x with slot := .held r }) ∧
    (s.service = .idle →
      t = engaged p (s.port p).linkErrors (s.modPort p fun x => { ended x with slot := .serving r }))) ∧
  ((s.port p).slot ≠ .idle → t = s.modPort p fun x => { ended x with overrun := true })

/-- The interface after the rest of a transaction: deselected, and zeros returned. -/
def PortLink.closed (n : Nat) (x : PortLink) : PortLink :=
  { x with selected := false, receiver := .idle, out := x.out ++ List.replicate n false }

theorem atRest_modPort {s : State} {p : Port} {f : PortLink → PortLink} (hslot : (f (s.port p)).slot = (s.port p).slot)
    (h : AtRest s) : AtRest (s.modPort p f) := by
  refine atRest_of_same (s := s) rfl rfl rfl rfl (fun q => holdsRequest_congr ?_) h
  rw [State.modPort_port]
  split
  · next hq => exact hq ▸ hslot
  · rfl

/-- The request is decided at the last byte of its frame, and what follows is ignored. -/
theorem decided_of_frame {p : Port} {s : State} (h : Ready s) {rx : Rx} (hb : rx.bits = [])
    (bytes extra : List Byte) {bits : List Bool} (hbits : bits.length < 8) (r : Request)
    {type : Byte} (hclock : clockBits p (wire bytes) s = acceptRequest p r (s.modPort p (PortLink.over rx bytes)))
    (hreceived : rx.received ≠ []) :
    Decided p r s (PortLink.closed (8 * (bytes.length + extra.length) + bits.length))
      (transact p type (.finish (bytes ++ extra) bits) s) := by
  have hstart : transact p type (.finish (bytes ++ extra) bits) s =
      deselectPort p (clockBits p (wire extra ++ bits) (acceptRequest p r (s.modPort p (PortLink.over rx bytes)))) := by
    rw [transact, wire_append, List.append_assoc, clockBits_append, hclock]
  have hport := State.modPort_port_same s p (PortLink.over rx bytes)
  have hslot : ((s.modPort p (PortLink.over rx bytes)).port p).slot = (s.port p).slot := by
    rw [hport]
    rfl
  have hclosed : ∀ t : State,
      (t.port p).receiver = .active { rx with received := rx.received ++ bytes, phase := .ended } →
      deselectPort p (clockBits p (wire extra ++ bits) t) =
        t.modPort p (PortLink.closed (8 * extra.length + bits.length)) := fun t ht =>
    finish_of_ended ht rfl (by simp [hreceived]) hb extra hbits
  have hout : ∀ out : List Bool, (out ++ List.replicate (8 * bytes.length) false) ++
      List.replicate (8 * extra.length + bits.length) false =
        out ++ List.replicate (8 * (bytes.length + extra.length) + bits.length) false := fun out => by
    rw [List.append_assoc, List.replicate_append_replicate]
    congr 2
    omega
  rw [hstart]
  refine ⟨fun hidle => ⟨fun w hw => ?_, fun hrest => ?_⟩, fun hbusy => ?_⟩
  · rw [acceptRequest_of_serving (hslot.trans hidle) hw, State.modPort_modPort,
      hclosed _ (by rw [State.modPort_port_same]; rfl), State.modPort_modPort]
    refine State.modPort_congr s p _ _ ?_
    simp only [PortLink.closed, PortLink.over, hout]
  · have hatRest : AtRest s := h.resolve_left fun ⟨w, hw⟩ => by
      rw [hrest] at hw
      cases hw
    rw [acceptRequest_of_atRest (hslot.trans hidle) (atRest_modPort (by rfl) hatRest), State.modPort_modPort, hport,
      hclosed _ (by rw [engaged_port, State.modPort_port_same]; rfl), engaged_modPort, State.modPort_modPort]
    refine congrArg (engaged p _) (State.modPort_congr s p _ _ ?_)
    simp only [PortLink.closed, PortLink.over, hout]
  · rw [acceptRequest_of_busy (by rw [hslot]; exact hbusy), State.modPort_modPort,
      hclosed _ (by rw [State.modPort_port_same]; rfl), State.modPort_modPort]
    refine State.modPort_congr s p _ _ ?_
    simp only [PortLink.closed, PortLink.over, hout]

/-- A change of the interface that the end of the transaction overwrites. -/
theorem Decided.of_modPort {p : Port} {r : Request} {s t : State} {f ended ended' : PortLink → PortLink}
    (h : Decided p r (s.modPort p f) ended t) (hslot : (f (s.port p)).slot = (s.port p).slot)
    (hn : (f (s.port p)).linkErrors = (s.port p).linkErrors) (he : ended (f (s.port p)) = ended' (s.port p)) :
    Decided p r s ended' t := by
  unfold Decided at h ⊢
  rw [State.modPort_port_same, hslot, hn] at h
  obtain ⟨hidle, hbusy⟩ := h
  refine ⟨fun h0 => ⟨fun w hw => ?_, fun hs => ?_⟩, fun h0 => ?_⟩
  · rw [(hidle h0).1 w hw, State.modPort_modPort]
    exact State.modPort_congr s p _ _ (by rw [he])
  · rw [(hidle h0).2 hs, State.modPort_modPort]
    exact congrArg (engaged p _) (State.modPort_congr s p _ _ (by rw [he]))
  · rw [hbusy h0, State.modPort_modPort]
    exact State.modPort_congr s p _ _ (by rw [he])

/-! ### The frame of a REQUEST -/

section Frame

variable {e k : Byte} {payload : List Byte}

/-- The bytes of a REQUEST frame after its length byte (R153). -/
def frameTail (e k : Byte) (payload : List Byte) : List Byte :=
  e :: k :: (payload ++ [crc (0xC1 :: BitVec.ofNat 8 (payload.length + 3) :: e :: k :: payload)])

theorem frameLength_toNat (h : payload.length ≤ 57) :
    (BitVec.ofNat 8 (payload.length + 3) : Byte).toNat = payload.length + 3 := by
  rw [BitVec.toNat_ofNat, Nat.mod_eq_of_lt (by omega)]

theorem frameTail_length (h : payload.length ≤ 57) :
    (frameTail e k payload).length = (BitVec.ofNat 8 (payload.length + 3) : Byte).toNat := by
  rw [frameLength_toNat h]
  simp [frameTail]

theorem completeRequest_frame (p : Port) (s : State) :
    completeRequest p (0xC1 :: BitVec.ofNat 8 (payload.length + 3) :: frameTail e k payload) s =
      acceptRequest p ⟨e, k, payload⟩ s := by
  have hcrc : crcCorrect (0xC1 :: BitVec.ofNat 8 (payload.length + 3) :: frameTail e k payload) = true :=
    crcCorrect_of_check (0xC1 :: BitVec.ofNat 8 (payload.length + 3) :: e :: k :: payload)
  rw [completeRequest, if_pos hcrc, frameTail, requestOf_frame]

/-- The rest of a frame comes, whole or after a cut. -/
theorem decided_of_rest {p : Port} {s : State} (h : Ready s) (hp : payload.length ≤ 57) {rx : Rx}
    (hrx : (s.port p).receiver = .active rx) (hb : rx.bits = []) (hphase : rx.phase = .request) {got rest : List Byte}
    (hgot : rx.received = 0xC1 :: got)
    (hframe : got ++ rest = BitVec.ofNat 8 (payload.length + 3) :: frameTail e k payload) (hrest : rest ≠ [])
    (extra : List Byte) {bits : List Bool} (hbits : bits.length < 8) (type : Byte) :
    Decided p ⟨e, k, payload⟩ s (PortLink.closed (8 * (rest.length + extra.length) + bits.length))
      (transact p type (.finish (rest ++ extra) bits) s) := by
  have hlen := frameLength_toNat hp
  refine decided_of_frame h hb rest extra hbits ⟨e, k, payload⟩ ?_ (by simp [hgot])
  rw [clockBits_of_frame hrx hb hphase hgot hframe hrest (by omega) (by omega) (frameTail_length hp),
    completeRequest_frame]

/-- The first bytes of a frame only extend it. -/
theorem extends_of_frame {rx : Rx} (hp : payload.length ≤ 57) (hphase : rx.phase = .request) (hgot : rx.received = [0xC1])
    {got rest : List Byte} (hframe : got ++ rest = BitVec.ofNat 8 (payload.length + 3) :: frameTail e k payload)
    (hrest : rest ≠ []) : Rx.Extends got rx := by
  have hlen := frameLength_toNat hp
  have htail := frameTail_length (e := e) (k := k) hp
  refine extends_of_request (got := []) hphase hgot fun l r he => ?_
  rw [List.nil_append] at he
  rw [he, List.cons_append] at hframe
  obtain ⟨rfl, hr⟩ := List.cons.inj hframe
  have hpos := List.length_pos_iff.mpr hrest
  rw [← hr, List.length_append] at htail
  exact ⟨by omega, by omega, by omega⟩

end Frame

theorem firstBits_zeros (b : Byte) (n m : Nat) :
    firstBits [b] (8 * (n + 1) + m) = byteBits b ++ List.replicate (8 * n + m) false := by
  rw [← firstBits_single]
  congr 1
  omega

theorem exec_requestFrame {s : State} (h : Ready s) (p : Port) (seg : Segment) :
    exec (.requestFrame p seg) s = .next (transact p 0xC1 seg s) :=
  congrArg (fun u => Host.Outcome.next (transact p 0xC1 seg u)) (settled_of_ready h)

/-- Settles O45: the frame from its first byte on, or from a cut, is decided as `decided_of_rest` says. -/
theorem requestFrameIsAccepted : Obligations.RequestFrameIsAccepted := by
  intro s p m e k payload extra bits h hp hbits
  have hdecided : ∀ (ended : PortLink → PortLink) (seg : Segment),
      Decided p ⟨e, k, payload⟩ s ended (transact p 0xC1 seg s) →
        ((s.port p).slot = .idle →
          (∀ w, s.service = .serving w →
            exec (.requestFrame p seg) s =
              .next (s.modPort p fun x => { ended x with slot := .held ⟨e, k, payload⟩ })) ∧
          (s.service = .idle →
            exec (.requestFrame p seg) s =
              .next { s.modPort p fun x => { ended x with slot := .serving ⟨e, k, payload⟩ } with
                rotation := p, service := .serving (.request p (s.port p).linkErrors) })) ∧
        ((s.port p).slot ≠ .idle →
          exec (.requestFrame p seg) s = .next (s.modPort p fun x => { ended x with overrun := true })) := by
    rintro ended seg ⟨hidle, hbusy⟩
    rw [exec_requestFrame h]
    exact ⟨fun h0 => ⟨fun w hw => congrArg _ ((hidle h0).1 w hw), fun hs => congrArg _ ((hidle h0).2 hs)⟩,
      fun h0 => congrArg _ (hbusy h0)⟩
  refine ⟨fun ha hs => hdecided _ _ ?_, fun got rest hframe hrest => ⟨fun ha hs => ?_, fun status record hrx => ?_⟩⟩
  · rw [transact_whole ha hs m (phase := .request) rfl]
    refine (decided_of_rest (got := []) (ready_begun h p m _ _) hp (begun_receiver p m _ _ s) rfl rfl rfl rfl
      (List.cons_ne_nil _ _) extra hbits _).of_modPort rfl rfl ?_
    simp only [PortLink.closed, firstBits_zeros, hs]
    rfl
  · rw [exec_requestFrame h, transact_start ha hs m (phase := .request) rfl hbits
      (extends_of_frame hp rfl rfl hframe.symm hrest)]
    refine congrArg Host.Outcome.next (State.modPort_congr s p _ _ ?_)
    simp only [reduceCtorEq, if_false, firstBits_nil, firstBits_zeros]
  · exact hdecided _ _ (decided_of_rest h hp hrx rfl rfl rfl hframe.symm hrest extra hbits _)

end Sys2Proof.Machine
end

section
/-!
PROOFS. Link errors: the unknown frame type, the frames that do not complete or fail their check, and the transaction that
ends inside its first byte (O46).
-/

namespace Sys2Proof.Machine

open Sys2Proof.Safety

/-! ### The count -/

/-- An interface that has counted a link error (R155). -/
def PortLink.hit (x : PortLink) : PortLink :=
  { x with linkError := true, linkErrors := if x.linkErrors < 255 then x.linkErrors + 1 else 255 }

theorem countLinkError_eq (p : Port) (s : State) : countLinkError p s = s.modPort p PortLink.hit := by
  have hmin : ∀ n : Nat, min 255 (n + 1) = if n < 255 then n + 1 else 255 := fun n => by
    split <;> omega
  simp only [countLinkError, hmin]
  rfl

/-- What follows the end of a frame adds to the zeros of its bytes. -/
theorem closed_over (rx : Rx) (bytes : List Byte) (n : Nat) (x : PortLink) :
    PortLink.closed n (PortLink.over rx bytes x) = PortLink.closed (8 * bytes.length + n) x := by
  simp only [PortLink.closed, PortLink.over, List.append_assoc, List.replicate_append_replicate]

/-- A byte that is a link error ends the frame. -/
theorem clockBits_of_error {p : Port} {s : State} {rx : Rx} (h : (s.port p).receiver = .active rx) (hb : rx.bits = [])
    (hr : rx.received ≠ []) (hpoll : rx.phase ≠ .poll) {b : Byte}
    (herror : ∀ t, receiveByte p rx b t =
      countLinkError p (setReceiver p (.active { rx with received := rx.received ++ [b], phase := .ended }) t)) :
    clockBits p (wire [b]) s = countLinkError p (s.modPort p (PortLink.over rx [b])) := by
  rw [wire_cons, wire_nil, List.append_nil, clockBits_byte h hb, herror, setReceiver, State.modPort_modPort,
    nextOut_zero hr hpoll]
  rfl

/-- A link error inside a transaction: the rest of it is ignored. -/
theorem finish_of_error {p : Port} {s : State} {rx : Rx} (hb : rx.bits = []) (hr : rx.received ≠ []) {bytes : List Byte}
    (hclock : clockBits p (wire bytes) s = countLinkError p (s.modPort p (PortLink.over rx bytes))) (extra : List Byte)
    {bits : List Bool} (hbits : bits.length < 8) (type : Byte) :
    transact p type (.finish (bytes ++ extra) bits) s =
      s.modPort p fun x => PortLink.hit (PortLink.closed (8 * (bytes ++ extra).length + bits.length) x) := by
  have hover : ((s.modPort p fun x => PortLink.hit (PortLink.over rx bytes x)).port p).receiver =
      .active { rx with received := rx.received ++ bytes, phase := .ended } := by
    rw [State.modPort_port_same]
    rfl
  rw [transact, wire_append, List.append_assoc, clockBits_append, hclock, countLinkError_eq, State.modPort_modPort,
    finish_of_ended hover rfl (by simp [hr]) hb extra hbits, State.modPort_modPort]
  refine State.modPort_congr s p _ _ ?_
  have hlength : 8 * (bytes ++ extra).length + bits.length =
      8 * bytes.length + (8 * extra.length + bits.length) := by
    rw [List.length_append]
    omega
  rw [hlength, ← closed_over rx]
  rfl

/-- A REQUEST or a PORT-RESET that is cut short. -/
theorem finish_of_cut {p : Port} {s : State} {rx : Rx} (h : (s.port p).receiver = .active rx) (hb : rx.bits = [])
    (hr : rx.received ≠ []) (hphase : rx.phase = .request ∨ rx.phase = .portReset) {bytes : List Byte}
    (he : Rx.Extends bytes rx) {bits : List Bool} (hbits : bits.length < 8) (type : Byte) :
    transact p type (.finish bytes bits) s =
      s.modPort p fun x => PortLink.hit (PortLink.closed (8 * bytes.length + bits.length) x) := by
  have hpoll : rx.phase ≠ .poll := by
    rcases hphase with hp | hp <;> simp [hp]
  have hclocked : ((clocked p rx bytes bits s).port p).receiver = .active { rx.got bytes with bits := bits } := by
    rw [clocked_port]
  rw [transact, clockBits_of_extends hbits bytes h hb he, deselectPort_of_cut hclocked hphase, countLinkError_eq, clocked,
    State.modPort_modPort, State.modPort_modPort]
  refine State.modPort_congr s p _ _ ?_
  refine congrArg PortLink.hit ?_
  simp only [PortLink.closed, stream_drop_of_not_poll hpoll hr, firstBits_nil]

/-- A transaction with a link error, from the select on. -/
def errorOf (p : Port) (n : Nat) (s : State) : State :=
  s.modPort p fun x =>
    PortLink.hit { x with receiver := .idle, out := firstBits [statusByte s p] n }

theorem errorOf_begun {p : Port} {s : State} (hs : (s.port p).selected = false) (m : ClockMode) (type : Byte)
    (phase : RxPhase) (n k : Nat) :
    (begun p m type phase s).modPort p (fun x => PortLink.hit (PortLink.closed (8 * n + k) x)) =
      errorOf p (8 * (n + 1) + k) s := by
  rw [begun, State.modPort_modPort, errorOf]
  refine State.modPort_congr s p _ _ ?_
  refine congrArg PortLink.hit ?_
  simp only [PortLink.closed, firstBits_zeros, hs]

section Whole

variable {p : Port} {s : State} (ha : answers s = true) (hs : (s.port p).selected = false) (m : ClockMode)
  {bits : List Bool} (hbits : bits.length < 8)
include ha hs hbits

/-- The byte that makes the error comes in a transaction of a known type. -/
theorem whole_of_error {type : Byte} {phase : RxPhase} (hp : phaseOf type = some phase) {bytes : List Byte}
    (hclock : clockBits p (wire bytes) (begun p m type phase s) =
      countLinkError p ((begun p m type phase s).modPort p
        (PortLink.over ⟨m, statusByte s p, readyBytes (s.port p).slot, [type], [], phase⟩ bytes))) (extra : List Byte) :
    transact p type (.whole m (bytes ++ extra) bits) s = errorOf p (8 * ((bytes ++ extra).length + 1) + bits.length) s := by
  rw [transact_whole ha hs m hp, finish_of_error (rx := ⟨m, _, _, [type], [], phase⟩) rfl (List.cons_ne_nil _ _) hclock
    extra hbits, errorOf_begun hs]

theorem whole_of_cut {type : Byte} {phase : RxPhase} (hp : phaseOf type = some phase)
    (hphase : phase = .request ∨ phase = .portReset) {bytes : List Byte}
    (he : Rx.Extends bytes ⟨m, statusByte s p, readyBytes (s.port p).slot, [type], [], phase⟩) :
    transact p type (.whole m bytes bits) s = errorOf p (8 * (bytes.length + 1) + bits.length) s := by
  rw [transact_whole ha hs m hp, finish_of_cut (begun_receiver p m type phase s) rfl (List.cons_ne_nil _ _) hphase he hbits,
    errorOf_begun hs]

/-- A length byte outside 3 to 60 ends the frame (R153). -/
theorem whole_of_badLength {len : Byte} (hlen : len.toNat < 3 ∨ 60 < len.toNat) (rest : List Byte) :
    transact p 0xC1 (.whole m (len :: rest) bits) s = errorOf p (8 * ((len :: rest).length + 1) + bits.length) s := by
  refine whole_of_error ha hs m hbits (phase := .request) (bytes := [len]) rfl ?_ rest
  exact clockBits_of_error (begun_receiver p m _ _ s) rfl (List.cons_ne_nil _ _) (by simp) fun t => by
    simp only [receiveByte, List.singleton_append, requestStep_badLength hlen]

/-- A REQUEST that does not complete: no length byte, a bad one, or bytes missing. -/
theorem whole_of_damagedRequest {bytes : List Byte} (h : requestCompletes bytes = false) :
    transact p 0xC1 (.whole m bytes bits) s = errorOf p (8 * (bytes.length + 1) + bits.length) s := by
  cases bytes with
  | nil => exact whole_of_cut ha hs m hbits (phase := .request) rfl (.inl rfl) trivial
  | cons len rest =>
    by_cases hlen : len.toNat < 3 ∨ 60 < len.toNat
    · exact whole_of_badLength ha hs m hbits hlen rest
    · refine whole_of_cut ha hs m hbits (phase := .request) rfl (.inl rfl) <|
        extends_of_request (got := []) rfl rfl fun l r he => ?_
      cases he
      have hshort : ¬ len.toNat ≤ rest.length := fun hge => by
        have hmin : Config.minLength ≤ len.toNat := by change 3 ≤ len.toNat; omega
        have hmax : len.toNat ≤ Config.maxLength := by change len.toNat ≤ 60; omega
        simp [requestCompletes, hmin, hmax, hge] at h
      exact ⟨by omega, by omega, by omega⟩

/-- A REQUEST whose last byte is not its CRC (R158). -/
theorem whole_of_badCheck {len check : Byte} {rest : List Byte} (h3 : 3 ≤ len.toNat) (h60 : len.toNat ≤ 60)
    (hlen : rest.length + 1 = len.toNat) (hcheck : check ≠ crc (0xC1 :: len :: rest)) :
    transact p 0xC1 (.whole m (len :: (rest ++ [check])) bits) s =
      errorOf p (8 * ((len :: (rest ++ [check])).length + 1) + bits.length) s := by
  have hcrc : crcCorrect (0xC1 :: len :: (rest ++ [check])) = false := by
    have hbody : crcCorrect ((0xC1 :: len :: rest) ++ [check]) = false := by
      simp only [crcCorrect, List.getLast?_concat, List.dropLast_concat]
      simpa using hcheck
    exact hbody
  have herror := whole_of_error ha hs m hbits (type := 0xC1) (phase := .request) (bytes := len :: (rest ++ [check])) rfl
    (by
      rw [clockBits_of_frame (got := []) (begun_receiver p m _ _ s) rfl rfl rfl rfl (List.cons_ne_nil _ _) h3 h60
        (by simpa using hlen), completeRequest, hcrc]
      rfl) []
  rwa [List.append_nil] at herror

/-- A PORT-RESET without its confirm byte (R159). -/
theorem whole_of_damagedReset {bytes : List Byte} (h : bytes.head? ≠ some 0x3C) :
    transact p 0xC3 (.whole m bytes bits) s = errorOf p (8 * (bytes.length + 1) + bits.length) s := by
  cases bytes with
  | nil => exact whole_of_cut ha hs m hbits (phase := .portReset) rfl (.inr rfl) trivial
  | cons b rest =>
    have hb : b ≠ Config.confirmByte := fun e => h (congrArg some e)
    refine whole_of_error ha hs m hbits (phase := .portReset) (bytes := [b]) rfl ?_ rest
    exact clockBits_of_error (begun_receiver p m _ _ s) rfl (List.cons_ne_nil _ _) (by simp) fun t => by
      simp only [receiveByte, if_neg hb]

end Whole

/-! ### The unknown frame type -/

theorem phaseOf_eq_none {type : Byte} (h1 : type ≠ 0xC1) (h2 : type ≠ 0xC2) (h3 : type ≠ 0xC3) : phaseOf type = none := by
  rw [phaseOf, if_neg (show type ≠ Config.requestType from h1), if_neg (show type ≠ Config.pollType from h2),
    if_neg (show type ≠ Config.portResetType from h3)]

/-- A first byte that is no frame type ends the frame with a link error, and the rest is ignored. -/
theorem clockBits_of_unknown {p : Port} {s : State} {rx : Rx} (h : (s.port p).receiver = .active rx)
    (hphase : rx.phase = .frameType) (hr : rx.received = []) (hb : rx.bits = []) {type : Byte}
    (htype : phaseOf type = none) (bytes : List Byte) {bits : List Bool} (hbits : bits.length < 8) :
    clockBits p (wire (type :: bytes) ++ bits) s =
      s.modPort p fun x =>
        { PortLink.hit x with
          receiver := .active { rx with received := type :: bytes, bits := bits, phase := .ended }
          out := x.out ++ firstBits [rx.status] (8 * (bytes.length + 1) + bits.length) } := by
  have hstatus : nextOut rx = rx.status := by rw [nextOut, hr]; rfl
  have hbyte : clockBits p (byteBits type) s =
      s.modPort p fun x =>
        { PortLink.hit x with
          receiver := .active { rx with received := [type], phase := .ended }
          out := x.out ++ byteBits rx.status } := by
    rw [clockBits_byte h hb]
    simp only [receiveByte, hphase, htype, countLinkError_eq, setReceiver, State.modPort_modPort, hr, hstatus,
      List.nil_append]
    rfl
  rw [clockBits_wire_cons, hbyte,
    clockBits_ended (rx := { rx with received := [type], phase := .ended }) bytes bits hbits
      (by rw [State.modPort_port_same]) rfl (List.cons_ne_nil _ _) hb, State.modPort_modPort]
  refine State.modPort_congr s p _ _ ?_
  simp only [PortLink.hit, firstBits_zeros, List.append_assoc, List.singleton_append]

theorem whole_of_unknown {p : Port} {s : State} (ha : answers s = true) (hs : (s.port p).selected = false) (m : ClockMode)
    {type : Byte} (htype : phaseOf type = none) (bytes : List Byte) {bits : List Bool} (hbits : bits.length < 8) :
    transact p type (.whole m bytes bits) s = errorOf p (8 * (bytes.length + 1) + bits.length) s := by
  have hrx : ((openTransaction p m s).port p).receiver =
      .active ⟨m, statusByte s p, readyBytes (s.port p).slot, [], [], .frameType⟩ := by
    rw [openTransaction_of_answers ha hs, State.modPort_port_same]
  rw [transact, clockBits_of_unknown hrx rfl rfl rfl htype bytes hbits,
    deselectPort_of_quiet (congrArg PortLink.receiver (State.modPort_port_same _ _ _)) (.inl rfl),
    openTransaction_of_answers ha hs, State.modPort_modPort, State.modPort_modPort, errorOf]
  refine State.modPort_congr s p _ _ ?_
  simp only [PortLink.hit, List.nil_append, hs]

/-- A transaction that ends inside its first byte (R151). -/
theorem transact_aborted {p : Port} {s : State} (ha : answers s = true) (hs : (s.port p).selected = false) (m : ClockMode)
    {bits : List Bool} (hbits : bits.length < 8) (type : Byte) :
    transact p type (.aborted m bits) s =
      s.modPort p fun x => { x with receiver := .idle, out := firstBits [statusByte s p] bits.length } := by
  have hrx : ((openTransaction p m s).port p).receiver =
      .active ⟨m, statusByte s p, readyBytes (s.port p).slot, [], [], .frameType⟩ := by
    rw [openTransaction_of_answers ha hs, State.modPort_port_same]
  have hrun := clockBits_of_extends hbits [] hrx rfl trivial
  rw [wire_nil, List.nil_append] at hrun
  rw [transact, hrun, deselectPort_of_quiet (congrArg PortLink.receiver (State.modPort_port_same _ _ _)) (.inr rfl), clocked,
    openTransaction_of_answers ha hs, State.modPort_modPort, State.modPort_modPort]
  refine State.modPort_congr s p _ _ ?_
  simp only [hs, List.nil_append, List.length_nil, List.drop_zero, Nat.mul_zero, Nat.zero_add]
  rfl

/-- Settles O46. -/
theorem linkErrors : Obligations.LinkErrors := by
  refine ⟨fun s p m bytes bits h ha hs hbits => ⟨fun type h1 h2 h3 => ?_, fun hr => ?_, fun hr => ?_,
    fun len rest check hbytes h3 h60 hlen hcheck => ?_, fun type f hf => ?_⟩,
    fun s p m status type record bytes bits h hrx hbits h1 h2 h3 => ?_⟩
  · change Host.Outcome.next (transact p type _ (settled s)) = _
    rw [settled_of_ready h, whole_of_unknown ha hs m (phaseOf_eq_none h1 h2 h3) bytes hbits]
    rfl
  · change Host.Outcome.next (transact p 0xC1 _ (settled s)) = _
    rw [settled_of_ready h, whole_of_damagedRequest ha hs m hbits hr]
    rfl
  · change Host.Outcome.next (transact p 0xC3 _ (settled s)) = _
    rw [settled_of_ready h, whole_of_damagedReset ha hs m hbits hr]
    rfl
  · subst hbytes
    rw [exec_requestFrame h, whole_of_badCheck ha hs m hbits h3 h60 hlen hcheck]
    rfl
  · obtain ⟨type', he⟩ := exec_frame hf
    rw [he, settled_of_ready h, transact_aborted ha hs m hbits]
  · change Host.Outcome.next (transact p type _ (settled s)) = _
    rw [settled_of_ready h, transact, clockBits_of_unknown hrx rfl rfl rfl (phaseOf_eq_none h1 h2 h3) bytes hbits]
    rfl

end Sys2Proof.Machine
end

section
/-!
PROOFS. The status byte, the select and one clocked bit (O49), and the POLL frame (O47).
-/

namespace Sys2Proof.Machine

open Sys2Proof.Safety

/-! ### The bits of the status byte -/

/-- Seven flags in bits 7 to 1 (R152). -/
theorem flag_bits : ∀ a b c d e f g : Bool,
    let v : Byte := (flagByte a <<< 7) ||| (flagByte b <<< 6) ||| (flagByte c <<< 5) ||| (flagByte d <<< 4) |||
      (flagByte e <<< 3) ||| (flagByte f <<< 2) ||| (flagByte g <<< 1)
    v.getLsbD 7 = a ∧ v.getLsbD 6 = b ∧ v.getLsbD 5 = c ∧ v.getLsbD 4 = d ∧ v.getLsbD 3 = e ∧ v.getLsbD 2 = f ∧
      v.getLsbD 1 = g ∧ v.getLsbD 0 = false := by
  decide

theorem statusByte_bits (s : State) (p : Port) :
    (statusByte s p).getLsbD 7 = (s.port p).slot.reqHeld ∧ (statusByte s p).getLsbD 6 = (s.port p).slot.respReady ∧
      (statusByte s p).getLsbD 5 = attention s p ∧ (statusByte s p).getLsbD 4 = ((s.session p).state == .opened) ∧
      (statusByte s p).getLsbD 3 = ((s.session p).state == .ending) ∧
      (statusByte s p).getLsbD 2 = (s.port p).overrun ∧ (statusByte s p).getLsbD 1 = (s.port p).linkError ∧
      (statusByte s p).getLsbD 0 = false :=
  flag_bits _ _ _ _ _ _ _

theorem reqHeld_iff (x : Slot) : x.reqHeld = true ↔ ∃ r, x = .held r ∨ x = .serving r := by
  cases x <;> simp [Slot.reqHeld]

theorem respReady_iff (x : Slot) : x.respReady = true ↔ ∃ r, x = .ready r := by
  cases x <;> simp [Slot.respReady]

theorem attention_iff (s : State) (p : Port) : attention s p = true ↔ (s.session p).queue ≠ [] := by
  simp [attention]

theorem attnLow_iff (s : State) (p : Port) : attnLow s p = true ↔ (s.session p).queue ≠ [] ∧ s.resetLow = false := by
  rw [attnLow, Bool.and_eq_true, attention_iff, Bool.not_eq_true']

/-! ### One clocked bit -/

/-- What a master sees of a port: its receiver and the bits that SDO has driven. -/
def onWire (p : Port) (s : State) : Receiver × List Bool := ((s.port p).receiver, (s.port p).out)

theorem onWire_modPort {p : Port} {f : PortLink → PortLink} (hr : ∀ x, (f x).receiver = x.receiver)
    (ho : ∀ x, (f x).out = x.out) (q : Port) (s : State) : onWire p (s.modPort q f) = onWire p s := by
  rw [onWire, State.modPort_port]
  split
  · rw [hr, ho, onWire]
  · rfl

theorem onWire_arbitrate (p : Port) (s : State) : onWire p (arbitrate s) = onWire p s := by
  refine arbitrate_keeps (onWire p) (fun w s => ?_) s
  cases w with
  | request q n => exact onWire_modPort (f := fun x => { x with slot := x.slot.taken }) (fun _ => rfl) (fun _ => rfl) q s
  | item i => rfl

theorem onWire_acceptRequest (p : Port) (r : Request) (s : State) : onWire p (acceptRequest p r s) = onWire p s := by
  unfold acceptRequest
  split
  · rw [onWire_arbitrate]
    exact onWire_modPort (f := fun x => { x with slot := .held r }) (fun _ => rfl) (fun _ => rfl) p s
  all_goals exact onWire_modPort (f := fun x => { x with overrun := true }) (fun _ => rfl) (fun _ => rfl) p s

theorem onWire_countLinkError (p : Port) (s : State) : onWire p (countLinkError p s) = onWire p s := by
  rw [countLinkError_eq]
  exact onWire_modPort (f := PortLink.hit) (fun _ => rfl) (fun _ => rfl) p s

theorem onWire_receivePortReset (p : Port) (s : State) : onWire p (receivePortReset p s) = onWire p s := by
  unfold receivePortReset
  split
  · rw [onWire_arbitrate, onWire, resetPort_port, if_pos rfl]
    rfl
  · split
    · rfl
    · exact onWire_modPort (f := fun x => { x with resetPending := true }) (fun _ => rfl) (fun _ => rfl) p s

theorem onWire_setReceiver (p : Port) (r : Receiver) (s : State) : onWire p (setReceiver p r s) = (r, (s.port p).out) := by
  rw [onWire, setReceiver, State.modPort_port_same]

/-- A byte received leaves the transaction in its mode, and the bits that were driven. -/
theorem onWire_receiveByte (p : Port) (rx : Rx) (b : Byte) (s : State) :
    ∃ rx', rx'.mode = rx.mode ∧ onWire p (receiveByte p rx b s) = (.active rx', (s.port p).out) := by
  have hset : ∀ rx' : Rx, rx'.mode = rx.mode → ∀ t, onWire p t = onWire p (setReceiver p (.active rx') s) →
      ∃ rx', rx'.mode = rx.mode ∧ onWire p t = (.active rx', (s.port p).out) := fun rx' hm t ht =>
    ⟨rx', hm, ht.trans (onWire_setReceiver p _ s)⟩
  unfold receiveByte completeRequest
  dsimp only
  split
  · split
    · exact hset _ (by rfl) _ rfl
    · exact hset _ (by rfl) _ (onWire_countLinkError p _)
  · split
    · exact hset _ (by rfl) _ rfl
    · exact hset _ (by rfl) _ (onWire_countLinkError p _)
    · split
      · exact hset _ (by rfl) _ (onWire_acceptRequest p _ _)
      · exact hset _ (by rfl) _ (onWire_countLinkError p _)
  · exact hset _ (by rfl) _ rfl
  · split
    · exact hset _ (by rfl) _ (onWire_receivePortReset p _)
    · exact hset _ (by rfl) _ (onWire_countLinkError p _)
  · exact hset _ (by rfl) _ rfl

/-- A bit is answered by the bit that was driven, in the mode of the transaction (R151). -/
theorem onWire_clockBit {p : Port} {s : State} {rx : Rx} (h : (s.port p).receiver = .active rx) (bit : Bool) :
    ∃ rx', rx'.mode = rx.mode ∧ onWire p (clockBit p s bit) = (.active rx', (s.port p).out ++ [driven rx]) := by
  have hout : ((s.modPort p fun x => { x with out := x.out ++ [driven rx] }).port p).out =
      (s.port p).out ++ [driven rx] := by
    rw [State.modPort_port_same]
  unfold clockBit
  rw [h]
  dsimp only
  split
  · rw [← hout]
    exact onWire_receiveByte p { rx with bits := [] } _ _
  · exact ⟨{ rx with bits := rx.bits ++ [bit] }, rfl, by rw [onWire_setReceiver, hout]⟩

theorem sdo_of_mode0 {p : Port} {s : State} {rx : Rx} (h : (s.port p).receiver = .active rx) (hm : rx.mode = .mode0) :
    sdo s p = some (driven rx) := by
  unfold sdo
  rw [h]
  dsimp only
  rw [hm]

theorem sdo_of_mode3 {p : Port} {s : State} {rx : Rx} (h : (s.port p).receiver = .active rx) (hm : rx.mode = .mode3) :
    sdo s p = (s.port p).out.getLast? := by
  unfold sdo
  rw [h]
  dsimp only
  rw [hm]

/-- Settles O49. -/
theorem statusByteAndAttention : Obligations.StatusByteAndAttention := by
  refine ⟨fun s p => ?_, fun s p m type h ha hs => ⟨fun f hf => ?_, ?_⟩, fun s t p rx type bit h hrx f hf ht => ?_⟩
  · obtain ⟨h7, h6, h5, h4, h3, h2, h1, h0⟩ := statusByte_bits s p
    dsimp only
    rw [h7, h6, h5, h4, h3, reqHeld_iff, respReady_iff, attention_iff, beq_iff_eq, beq_iff_eq, attnLow_iff]
    exact ⟨Iff.rfl, Iff.rfl, Iff.rfl, Iff.rfl, Iff.rfl, h2, h1, h0, Iff.rfl, Iff.rfl⟩
  · obtain ⟨type', he⟩ := exec_frame hf
    rw [he, settled_of_ready h, transact, openTransaction_of_answers ha hs]
    cases (s.port p).slot <;> rfl
  · have hrx := State.modPort_port_same s p fun x =>
      { x with
        selected := true
        receiver := .active ⟨m, statusByte s p, readyBytes (s.port p).slot, [], [], .frameType⟩
        out := [] }
    have hrecord : readyBytes (s.port p).slot =
        (match (s.port p).slot with
          | .ready r => some r.bytes
          | .idle | .held _ | .serving _ => none) := by
      cases (s.port p).slot <;> rfl
    rw [hrecord] at hrx
    cases m with
    | mode0 => exact sdo_of_mode0 (congrArg PortLink.receiver hrx) rfl
    | mode3 => exact (sdo_of_mode3 (congrArg PortLink.receiver hrx) rfl).trans (congrArg (fun x => x.out.getLast?) hrx)
  · obtain ⟨type', he⟩ := exec_frame hf
    rw [he, settled_of_ready h] at ht
    cases ht
    obtain ⟨rx', hmode, hwire⟩ := onWire_clockBit hrx bit
    obtain ⟨hreceiver, hout⟩ := Prod.mk.inj hwire
    refine ⟨driven rx, hout, fun hm => sdo_of_mode0 hrx hm, fun hm => ?_⟩
    have hlast : ((clockBit p s bit).port p).out.getLast? = some (driven rx) := by
      rw [hout, List.getLast?_concat]
    exact (sdo_of_mode3 hreceiver (hmode.trans hm)).trans hlast

/-! ### POLL -/

/-- The end of a POLL: deselected, the answer's bits returned, the flags that were shown cleared, and the slot emptied where
the record was read out (R156). -/
def PortLink.polled (status : Byte) (emptied : Bool) (bits : List Bool) (x : PortLink) : PortLink :=
  { x with
    slot := if emptied then x.slot.emptied else x.slot
    selected := false, receiver := .idle
    overrun := x.overrun && !status.getLsbD 2, linkError := x.linkError && !status.getLsbD 1
    out := x.out ++ bits }

theorem finish_poll {p : Port} {s : State} {m : ClockMode} {status : Byte} {record : Option (List Byte)} {got : List Byte}
    (h : (s.port p).receiver = .active ⟨m, status, record, 0xC2 :: got, [], .poll⟩) (bytes : List Byte) {bits : List Bool}
    (hbits : bits.length < 8) :
    transact p 0xC2 (.finish bytes bits) s =
      s.modPort p (PortLink.polled status (readOut ⟨m, status, record, 0xC2 :: (got ++ bytes), bits, .poll⟩)
        (firstBits ((record.getD [0]).drop got.length) (8 * bytes.length + bits.length))) := by
  have hclocked := clocked_port p ⟨m, status, record, 0xC2 :: got, [], .poll⟩ bytes bits s
  rw [transact, clockBits_of_extends hbits bytes h rfl (extends_of_poll rfl bytes),
    deselectPort_of_poll (congrArg PortLink.receiver hclocked) rfl, endPoll, clocked, State.modPort_modPort,
    State.modPort_modPort]
  rfl

theorem readOut_iff (m : ClockMode) (status : Byte) (record : Option (List Byte)) (received : List Byte) (bits : List Bool) :
    readOut ⟨m, status, record, 0xC2 :: received, bits, .poll⟩ = true ↔
      ∃ r, record = some r ∧ r.length ≤ received.length := by
  cases record <;> simp [readOut]

theorem emptied_of_not_ready {x : Slot} (h : ∀ r, x ≠ .ready r) : x.emptied = x := by
  cases x with
  | ready r => exact absurd rfl (h r)
  | idle | held | serving => rfl

theorem exec_pollFrame {s : State} (h : Ready s) (p : Port) (seg : Segment) :
    exec (.pollFrame p seg) s = .next (transact p 0xC2 seg s) :=
  congrArg (fun u => Host.Outcome.next (transact p 0xC2 seg u)) (settled_of_ready h)

/-- A POLL whole, from the select on. -/
theorem whole_poll {p : Port} {s : State} (ha : answers s = true) (hs : (s.port p).selected = false) (m : ClockMode)
    (bytes : List Byte) {bits : List Bool} (hbits : bits.length < 8) :
    transact p 0xC2 (.whole m bytes bits) s =
      s.modPort p fun x =>
        { x with
          slot := if readOut ⟨m, statusByte s p, readyBytes (s.port p).slot, 0xC2 :: bytes, bits, .poll⟩ then
            x.slot.emptied else x.slot
          receiver := .idle, overrun := false, linkError := false
          out := firstBits (statusByte s p :: (readyBytes (s.port p).slot).getD [0])
            (8 * (bytes.length + 1) + bits.length) } := by
  obtain ⟨-, -, -, -, -, hoverrun, hlinkError, -⟩ := statusByte_bits s p
  have hlength : 8 * (bytes.length + 1) + bits.length = 8 + (8 * bytes.length + bits.length) := by omega
  rw [transact_whole ha hs m (phase := .poll) rfl, finish_poll (begun_receiver p m _ _ s) bytes hbits, begun,
    State.modPort_modPort]
  refine State.modPort_congr s p _ _ ?_
  simp only [PortLink.polled, hoverrun, hlinkError, Bool.and_not_self, hs, hlength, firstBits_step]
  rfl

theorem start_poll {p : Port} {s : State} (ha : answers s = true) (hs : (s.port p).selected = false) (m : ClockMode)
    (bytes : List Byte) {bits : List Bool} (hbits : bits.length < 8) :
    transact p 0xC2 (.start m bytes bits) s =
      s.modPort p fun x =>
        { x with
          selected := true
          receiver := .active ⟨m, statusByte s p, readyBytes (s.port p).slot, 0xC2 :: bytes, bits, .poll⟩
          out := firstBits (statusByte s p :: (readyBytes (s.port p).slot).getD [0])
            (8 * (bytes.length + 1) + bits.length) } := by
  have hlength : 8 * (bytes.length + 1) + bits.length = 8 + (8 * bytes.length + bits.length) := by omega
  rw [transact_start ha hs m (phase := .poll) rfl hbits (extends_of_poll rfl bytes)]
  refine State.modPort_congr s p _ _ ?_
  simp only [hlength, firstBits_step, if_true]
  rfl

theorem readyBytes_of_not_ready {x : Slot} (h : ∀ r, x ≠ .ready r) : readyBytes x = none := by
  cases x with
  | ready r => exact absurd rfl (h r)
  | idle | held | serving => rfl

/-- Settles O47. -/
theorem pollReturnsTheResponse : Obligations.PollReturnsTheResponse := by
  refine ⟨fun s p m bytes bits h ha hs hbits => ⟨fun r hr => ⟨?_, ?_⟩, fun hnot => ⟨?_, ?_⟩⟩,
    fun s p m status record got bytes bits h hrx hbits => ⟨fun r hr hlen hready => ?_, fun hkept => ?_⟩⟩
  · rw [exec_pollFrame h, whole_poll ha hs m bytes hbits]
    refine congrArg Host.Outcome.next (State.modPort_congr s p _ _ ?_)
    simp only [hr, readOut_iff, readyBytes, Option.some.injEq, exists_eq_left', Option.getD_some, Slot.emptied]
  · rw [exec_pollFrame h, start_poll ha hs m bytes hbits]
    refine congrArg Host.Outcome.next (State.modPort_congr s p _ _ ?_)
    simp only [hr, readyBytes, Option.getD_some]
  · rw [exec_pollFrame h, whole_poll ha hs m bytes hbits]
    refine congrArg Host.Outcome.next (State.modPort_congr s p _ _ ?_)
    simp only [readyBytes_of_not_ready hnot, emptied_of_not_ready hnot, ite_self, Option.getD_none]
  · rw [exec_pollFrame h, start_poll ha hs m bytes hbits]
    refine congrArg Host.Outcome.next (State.modPort_congr s p _ _ ?_)
    simp only [readyBytes_of_not_ready hnot, Option.getD_none]
  · obtain ⟨resp, hresp⟩ := hready
    have hread : readOut ⟨m, status, record, 0xC2 :: (got ++ bytes), bits, .poll⟩ = true :=
      (readOut_iff _ _ _ _ _).mpr ⟨r, hr, by rwa [List.length_append]⟩
    rw [exec_pollFrame h, finish_poll hrx bytes hbits, hread]
    refine congrArg Host.Outcome.next (State.modPort_congr s p _ _ ?_)
    simp only [PortLink.polled, hresp, if_true, Slot.emptied]
  · rw [exec_pollFrame h, finish_poll hrx bytes hbits]
    refine congrArg Host.Outcome.next (State.modPort_congr s p _ _ ?_)
    have hslot : (if readOut ⟨m, status, record, 0xC2 :: (got ++ bytes), bits, .poll⟩ then (s.port p).slot.emptied
        else (s.port p).slot) = (s.port p).slot := by
      rcases hkept with hshort | hnot
      · rw [if_neg]
        rintro hread
        obtain ⟨r, hr, hlen⟩ := (readOut_iff _ _ _ _ _).mp hread
        rw [List.length_append] at hlen
        exact absurd (hshort r hr) (Nat.not_lt.mpr hlen)
      · rw [emptied_of_not_ready hnot, ite_self]
    simp only [PortLink.polled, hslot]

end Sys2Proof.Machine
end

section
/-!
PROOFS. The PORT-RESET frame and the resets that act when a piece of work has ended (O48).
-/

namespace Sys2Proof.Machine

open Sys2Proof.Safety

/-! ### A port reset that acts -/

theorem resetPort_of_opened {p : Port} {s : State} (h : (s.session p).state = .opened) :
    (resetPort p s).session p = { s.session p with state := .ending, endCause := .portReset, leaseRemaining := 0 } ∧
      (resetPort p s).workList = s.workList ++ [.teardown p] := by
  refine ⟨?_, by rw [resetPort, claimSession_of_opened (s := s.modPort p _) h]; rfl⟩
  rw [resetPort, claimSession_session (s := s.modPort p _) h, if_pos rfl]
  rfl

theorem resetPort_of_not_opened {p : Port} {s : State} (h : (s.session p).state ≠ .opened) :
    (resetPort p s).session p = s.session p ∧ (resetPort p s).workList = s.workList := by
  rw [resetPort, claimSession_of_not_opened (s := s.modPort p _) h]
  exact ⟨rfl, rfl⟩

theorem claimSession_modPort (p q : Port) (f : PortLink → PortLink) (s : State) :
    claimSession p (s.modPort q f) = (claimSession p s).modPort q f := by
  by_cases h : (s.session p).state = .opened
  · rw [claimSession_of_opened h, claimSession_of_opened (s := s.modPort q f) h]
    rfl
  · rw [claimSession_of_not_opened h, claimSession_of_not_opened (s := s.modPort q f) h]

/-- What a port reset clears of an interface (R159). -/
def PortLink.cleared (x : PortLink) : PortLink :=
  { x with slot := .idle, overrun := false, linkError := false, linkErrors := 0, resetPending := false }

/-- A change of the interface that clearing does not touch may come before or after the reset. -/
theorem resetPort_modPort {p : Port} {f : PortLink → PortLink} (hf : ∀ x, (f x).cleared = f x.cleared) (s : State) :
    resetPort p (s.modPort p f) = (resetPort p s).modPort p f := by
  have hcleared : ∀ t : State, resetPort p t = claimSession p (t.modPort p PortLink.cleared) := fun _ => rfl
  rw [hcleared, hcleared, ← claimSession_modPort, State.modPort_modPort, State.modPort_modPort]
  simp only [hf]

/-! ### The arbiter with no request waiting -/

theorem choose_modPort {s : State} (h : ∀ q, holdsRequest s q = false) {p : Port} {f : PortLink → PortLink}
    (hf : (f (s.port p)).slot = (s.port p).slot) : choose (s.modPort p f) = choose s := by
  have hheld : ∀ q, holdsRequest (s.modPort p f) q = false := fun q => by
    rw [← h q]
    refine holdsRequest_congr ?_
    rw [State.modPort_port]
    split
    · next hq => exact hq ▸ hf
    · rfl
  have hwork : portWork (s.modPort p f) = portWork s := funext fun q => by
    rw [portWork_of_no_request (h q), portWork_of_no_request (hheld q)]
    rfl
  unfold choose
  rw [hwork]
  rfl

theorem arbitrate_modPort {s : State} (h : ∀ q, holdsRequest s q = false) {p : Port} {f : PortLink → PortLink}
    (hf : (f (s.port p)).slot = (s.port p).slot) : arbitrate (s.modPort p f) = (arbitrate s).modPort p f := by
  cases hs : s.service with
  | serving w => rw [arbitrate_of_serving hs, arbitrate_of_serving (s := s.modPort p f) hs]
  | idle =>
    cases hc : choose s with
    | none => rw [arbitrate_of_none hc, arbitrate_of_none ((choose_modPort h hf).trans hc)]
    | some w =>
      rw [arbitrate_of_some hs hc, arbitrate_of_some (s := s.modPort p f) hs ((choose_modPort h hf).trans hc)]
      rcases choose_cases hc with ⟨q, hq, -⟩ | ⟨i, -, rfl⟩
      · rw [h q] at hq
        exact absurd hq Bool.false_ne_true
      · rfl

theorem holdsRequest_resetPort {s : State} (h : ∀ q, holdsRequest s q = false) (p q : Port) :
    holdsRequest (resetPort p s) q = false := by
  by_cases hq : q = p
  · refine Bool.eq_false_iff.mpr fun hheld => ?_
    obtain ⟨r, hr⟩ := (holdsRequest_iff _ _).mp hheld
    rw [resetPort_port, if_pos hq] at hr
    exact nomatch hr
  · rw [holdsRequest_congr (t := resetPort p s) (s := s) (by rw [resetPort_port, if_neg hq])]
    exact h q

/-! ### The PORT-RESET frame -/

/-- The interface when the confirm byte has passed. -/
def confirmed (s : State) (p : Port) (m : ClockMode) (x : PortLink) : PortLink :=
  { x with
    selected := true
    receiver := .active ⟨m, statusByte s p, readyBytes (s.port p).slot, [0xC3, 0x3C], [], .ended⟩
    out := byteBits (statusByte s p) ++ List.replicate 8 false }

/-- The interface after a transaction of `n` bits that returned the status byte and zeros. -/
def answered (s : State) (p : Port) (n : Nat) (x : PortLink) : PortLink :=
  { x with receiver := .idle, out := firstBits [statusByte s p] n }

theorem closed_confirmed {s : State} {p : Port} {m : ClockMode} {n k : Nat} {x : PortLink} (h : x.selected = false) :
    PortLink.closed (8 * n + k) (confirmed s p m x) = answered s p (8 * (n + 2) + k) x := by
  have hlength : 8 * (n + 1) + k = 8 + (8 * n + k) := by omega
  have hbits : firstBits [statusByte s p] (8 * (n + 2) + k) =
      byteBits (statusByte s p) ++ List.replicate (8 * (n + 1) + k) false := firstBits_zeros _ (n + 1) k
  simp only [PortLink.closed, confirmed, answered, hbits, h, List.append_assoc, List.replicate_append_replicate, hlength]

/-- A whole PORT-RESET acts at its confirm byte, and what follows is ignored. -/
theorem whole_portReset {p : Port} {s : State} (ha : answers s = true) (hs : (s.port p).selected = false) (m : ClockMode)
    (rest : List Byte) {bits : List Bool} (hbits : bits.length < 8) :
    transact p 0xC3 (.whole m (0x3C :: rest) bits) s =
      (receivePortReset p (s.modPort p (confirmed s p m))).modPort p
        (PortLink.closed (8 * rest.length + bits.length)) := by
  have hbyte : clockBits p (byteBits 0x3C) (begun p m 0xC3 .portReset s) =
      receivePortReset p (s.modPort p (confirmed s p m)) := by
    rw [clockBits_byte (begun_receiver p m _ _ s) rfl, nextOut_zero (by simp) (by simp)]
    simp only [receiveByte, setReceiver, State.modPort_modPort, begun]
    rfl
  have hrx : ((receivePortReset p (s.modPort p (confirmed s p m))).port p).receiver =
      .active ⟨m, statusByte s p, readyBytes (s.port p).slot, [0xC3, 0x3C], [], .ended⟩ := by
    have hwire := congrArg Prod.fst (onWire_receivePortReset p (s.modPort p (confirmed s p m)))
    refine hwire.trans ?_
    rw [onWire, State.modPort_port_same]
    rfl
  rw [transact_whole ha hs m (phase := .portReset) rfl, transact, clockBits_wire_cons, hbyte,
    finish_of_ended hrx rfl (List.cons_ne_nil _ _) rfl rest hbits]
  rfl

theorem exec_portResetFrame {s : State} (h : Ready s) (p : Port) (seg : Segment) :
    exec (.portResetFrame p seg) s = .next (transact p 0xC3 seg s) :=
  congrArg (fun u => Host.Outcome.next (transact p 0xC3 seg u)) (settled_of_ready h)

/-! ### The claims that act -/

/-- The claims ahead of a port's reset act, the reset acts, and the claims behind it follow. -/
theorem actThrough_append {p : Port} {ahead : List Claim} (h : Claim.portReset p ∉ ahead) (later : List Claim) (s : State) :
    actThrough p (ahead ++ .portReset p :: later) s = actTicks later (resetPort p (ahead.foldl actClaim s)) := by
  induction ahead generalizing s with
  | nil => exact if_pos rfl
  | cons c cs ih =>
    rw [List.mem_cons, not_or] at h
    obtain ⟨hc, hcs⟩ := h
    rw [List.cons_append, actThrough, if_neg (Ne.symm hc), ih hcs, List.foldl_cons]

/-- Settles O48. -/
theorem portReset : Obligations.PortReset := by
  refine ⟨fun s p => ?_, fun s p m bits rest ha hs hbits =>
      ⟨fun h => ?_, fun w hw => ⟨fun hpending => ?_, fun hpending => ?_⟩⟩,
    fun s p ahead rest n hidle hahead hdeferred => ?_⟩
  · obtain ⟨hcells, hsuspect, hlocks, hpool, hother, -⟩ := onlyPort_resetPort p s
    refine ⟨?_, fun q hq => ⟨(hother q hq).2, (hother q hq).1⟩, resetPort_of_opened, resetPort_of_not_opened, hcells,
      hsuspect, hlocks, hpool, resetPort_rotation p s, resetPort_service p s, resetPort_deferred p s⟩
    rw [resetPort_port, if_pos rfl]
  · have hready : Ready s := .inr h
    obtain ⟨hidle, -, -, hnone⟩ := h
    have hheld : ∀ q, holdsRequest (resetPort p s) q = false :=
      holdsRequest_resetPort ((choose_eq_none_iff s).mp hnone).2 p
    have hselected : ((arbitrate (resetPort p s)).port p).selected = false := by
      rw [(untouched_selected p).arbiter, (untouched_selected p).reset, hs]
    have hacts : receivePortReset p (s.modPort p (confirmed s p m)) =
        (arbitrate (resetPort p s)).modPort p (confirmed s p m) := by
      rw [receivePortReset, State.modPort_service, hidle]
      dsimp only
      rw [resetPort_modPort (f := confirmed s p m) (fun _ => rfl), arbitrate_modPort hheld (by rfl)]
    rw [exec_portResetFrame hready, whole_portReset ha hs m rest hbits, hacts, State.modPort_modPort]
    refine congrArg Host.Outcome.next ?_
    refine Eq.trans ?_ (arbitrate_modPort (f := answered s p (8 * (rest.length + 2) + bits.length)) hheld (by rfl)).symm
    exact State.modPort_congr _ p _ _ (closed_confirmed hselected)
  · have hport := State.modPort_port_same s p (confirmed s p m)
    have hacts : receivePortReset p (s.modPort p (confirmed s p m)) = s.modPort p (confirmed s p m) := by
      rw [receivePortReset, State.modPort_service, hw]
      dsimp only
      rw [hport]
      exact if_pos hpending
    rw [exec_portResetFrame (.inl ⟨w, hw⟩), whole_portReset ha hs m rest hbits, hacts, State.modPort_modPort]
    exact congrArg Host.Outcome.next (State.modPort_congr s p _ _ (closed_confirmed hs))
  · have hport := State.modPort_port_same s p (confirmed s p m)
    have hacts : receivePortReset p (s.modPort p (confirmed s p m)) =
        { s.modPort p fun x => { confirmed s p m x with resetPending := true } with
          deferred := s.deferred ++ [.portReset p] } := by
      rw [receivePortReset, State.modPort_service, hw]
      dsimp only
      rw [hport, if_neg (by rw [confirmed, hpending]; exact Bool.false_ne_true), State.modPort_modPort]
      rfl
    rw [exec_portResetFrame (.inl ⟨w, hw⟩), whole_portReset ha hs m rest hbits, hacts]
    have hmod : (s.modPort p fun x => { confirmed s p m x with resetPending := true }).modPort p
        (PortLink.closed (8 * rest.length + bits.length)) =
          s.modPort p fun x => { answered s p (8 * (rest.length + 2) + bits.length) x with resetPending := true } := by
      rw [State.modPort_modPort]
      exact State.modPort_congr s p _ _
        (congrArg (fun x : PortLink => { x with resetPending := true }) (closed_confirmed hs))
    exact congrArg (fun t : State => Host.Outcome.next { t with deferred := s.deferred ++ [Claim.portReset p] }) hmod
  · have hexec : exec (.portResetActs p) s = .next (chooseNext (actThrough p s.deferred s)) := by
      have hmem : Claim.portReset p ∈ s.deferred := by simp [hdeferred]
      rw [exec_portResetActs, execPortResetActs, hidle]
      dsimp only
      rw [if_pos hmem]
    rw [hdeferred, actThrough_append hahead, actTicks_replicate] at hexec
    refine ⟨fun hrest => ?_, fun q later hrest => ?_, rfl, fun q => rfl⟩
    · rw [hexec, hrest]
      rfl
    · rw [hexec, hrest]
      rfl

end Sys2Proof.Machine
end

section
/-!
PROOFS. The CRC, the response records with their field groups, the event records and the codes (O50).
-/

namespace Sys2Proof.Machine

open Sys2Proof.Safety

/-! ### The CRC register -/

theorem crcBit_eq (reg : Byte) (bit : Bool) :
    crcBit reg bit = if reg.getLsbD 7 = bit then reg <<< 1 else (reg <<< 1) ^^^ 0x07 := by
  have hmsb : reg.msb = reg.getLsbD 7 := BitVec.msb_eq_getLsbD_last reg
  rw [crcBit, hmsb]
  by_cases h : reg.getLsbD 7 = bit
  · rw [if_pos h, h, bne_self_eq_false]
    rfl
  · rw [if_neg h, bne_iff_ne.mpr h]
    rfl

/-! ### Fields of one and two bytes -/

/-- A number as a two-byte field, the most significant byte first (R164). -/
theorem wordBytes_of_toNat (w : Word) : wordBytes w = [BitVec.ofNat 8 (w.toNat / 256), BitVec.ofNat 8 w.toNat] := by
  have hw := w.isLt
  have hhigh : w.extractLsb' 8 8 = BitVec.ofNat 8 (w.toNat / 256) := by
    apply BitVec.eq_of_toNat_eq
    rw [BitVec.extractLsb'_toNat, BitVec.toNat_ofNat, Nat.shiftRight_eq_div_pow]
  have hlow : w.extractLsb' 0 8 = BitVec.ofNat 8 w.toNat := by
    apply BitVec.eq_of_toNat_eq
    rw [BitVec.extractLsb'_toNat, BitVec.toNat_ofNat, Nat.shiftRight_zero]
  rw [wordBytes_eq, hhigh, hlow]

theorem countBytes_eq (n : Nat) : countBytes n = [BitVec.ofNat 8 (n / 256), BitVec.ofNat 8 n] := by
  have hhigh : (BitVec.ofNat 8 (n % 65536 / 256) : Byte) = BitVec.ofNat 8 (n / 256) := by
    apply BitVec.eq_of_toNat_eq
    rw [BitVec.toNat_ofNat, BitVec.toNat_ofNat]
    omega
  have hlow : (BitVec.ofNat 8 (n % 65536) : Byte) = BitVec.ofNat 8 n := by
    apply BitVec.eq_of_toNat_eq
    rw [BitVec.toNat_ofNat, BitVec.toNat_ofNat]
    omega
  rw [countBytes, wordBytes_of_toNat, BitVec.toNat_ofNat, hhigh, hlow]

theorem suspectByte_eq (x : Option Bool) : suspectByte x = (x.map fun b => if b then (0x01 : Byte) else 0x00).getD 0xFF := by
  cases x <;> rfl

theorem chainFlags_eq (z c v : Bool) :
    chainFlags z c v = (if z then 0x04 else 0) + (if c then 0x02 else 0) + (if v then 0x01 else 0) := by
  cases z <;> cases c <;> cases v <;> rfl

/-- The places of a stack that holds at most six locks. -/
theorem stackBytes_eq {stack : List (Fin 48)} (h : stack.length ≤ 6) :
    stackBytes stack = (stack.map fun l => byteOf l.val) ++ List.replicate (6 - stack.length) 0xFF := by
  rw [stackBytes, List.take_append, List.take_of_length_le (by simpa using h), List.take_replicate, List.length_map,
    Nat.min_eq_left (Nat.sub_le _ _)]

/-! ### The response record -/

theorem response_bytes_eq (r : Response) :
    r.bytes.take 5 =
        [BitVec.ofNat 8 (r.bytes.length - 1), r.outcome.code, r.kind, (r.reason.map Reason.code).getD 0,
          BitVec.ofNat 8 r.stepIndex] ∧
      (r.bytes.drop 5).dropLast = r.fields.bytes := by
  have hreason : reasonByte r.reason = (r.reason.map Reason.code).getD 0 := by cases r.reason <;> rfl
  have hlength : r.bytes.length - 1 = 5 + r.fields.bytes.length := by
    rw [response_bytes_length]
    omega
  rw [hlength, ← hreason]
  exact ⟨rfl, List.dropLast_concat⟩

/-! ### Field groups (R169) -/

/-- A descriptor closes with the ceiling, and with zeros for a cell that has none. -/
theorem descriptor_bytes (v n : Word) :
    (Cell.plain v).descriptor = 0x01 :: ([BitVec.ofNat 8 (v.toNat / 256), BitVec.ofNat 8 v.toNat] ++ [0, 0]) ∧
      (Cell.counter n v).descriptor =
        0x02 :: ([BitVec.ofNat 8 (v.toNat / 256), BitVec.ofNat 8 v.toNat] ++
          [BitVec.ofNat 8 (n.toNat / 256), BitVec.ofNat 8 n.toNat]) ∧
      (Cell.members v).descriptor = 0x03 :: ([BitVec.ofNat 8 (v.toNat / 256), BitVec.ofNat 8 v.toNat] ++ [0, 0]) := by
  have hzero : wordBytes 0 = [0, 0] := rfl
  rw [← wordBytes_of_toNat, ← wordBytes_of_toNat, ← hzero]
  exact ⟨rfl, rfl, rfl⟩

theorem reported_bytes_eq (r : Reported) :
    r.bytes = [r.kind.code, BitVec.ofNat 8 (r.value.toNat / 256), BitVec.ofNat 8 r.value.toNat] := by
  rw [Reported.bytes, wordBytes_of_toNat]

theorem status_bytes_eq {r : StatusReport} (h : r.stack.length ≤ 6) :
    (Fields.status r).bytes =
      [r.state.code, r.epoch, r.endCause.code, byteOf (r.leasePeriod.getD 0 / 20)] ++
        [BitVec.ofNat 8 (r.leaseRemaining / 256), BitVec.ofNat 8 r.leaseRemaining] ++
        [r.expected.code, byteOf r.stack.length] ++ (r.stack.map fun l => byteOf l.val) ++
        List.replicate (6 - r.stack.length) 0xFF ++ pendingBytes r.pendingAcquire ++
        [byteOf r.liveWaits, byteOf r.queueLength, byteOf r.reserved, byteOf r.lost, byteOf r.watchCount,
          byteOf r.linkErrors] := by
  rw [Fields.bytes, StatusReport.bytes, countBytes_eq, stackBytes_eq h, ← List.append_assoc]
  rfl

/-- Settles O50: the bytes of each record and field, group by group. -/
theorem checksumAndRecords : Obligations.ChecksumAndRecords := by
  refine ⟨⟨rfl, crc_snoc, fun reg b => rfl, crcBit_eq, crc_with_check⟩,
    ⟨fun r => ⟨(response_bytes_eq r).1, (response_bytes_eq r).2, response_bytes_length r, crc_with_check _⟩, rfl⟩,
    ⟨descriptor_bytes,
      fun n a b e u t m restarted z c v suspectFlag x => ⟨rfl, rfl, rfl, ?_, fun w => ?_,
        fun first k cells => ⟨?_, fun d last => ?_⟩,
        fun d before after r w q rs => ⟨?_, ?_, ?_, ?_, ?_, ?_, ?_, rfl⟩, fun l g s => ⟨?_, rfl⟩⟩,
      fun r h => ?_, fun q t l c g s r u o n e => ⟨?_, ?_, ?_, ?_, ?_, ?_, rfl⟩, record_bytes_length⟩,
    rfl, rfl, rfl, rfl, rfl, rfl, rfl, rfl, fun l => ⟨rfl, rfl⟩, fun c n => ⟨rfl, rfl⟩, fun c cond operand => ⟨rfl, rfl⟩⟩
  · rw [Fields.bytes, countBytes_eq]
    rfl
  · rw [Fields.bytes, wordBytes_of_toNat, chainFlags_eq]
    rfl
  · rw [Fields.bytes, countBytes_eq]
    rfl
  · rw [Fields.bytes, countBytes_eq]
    rfl
  · rw [Fields.bytes, countBytes_eq]
  · rw [Fields.bytes, countBytes_eq, wordBytes_of_toNat]
    rfl
  · rw [Fields.bytes, countBytes_eq, wordBytes_of_toNat]
    rfl
  · rw [Fields.bytes, countBytes_eq, reported_bytes_eq]
  · rw [Fields.bytes, wordBytes_of_toNat]
  · rw [Fields.bytes, countBytes_eq, reported_bytes_eq]
    rfl
  · rw [Fields.bytes, countBytes_eq]
    rfl
  · rw [Fields.bytes, wordBytes_of_toNat, suspectByte_eq]
    rfl
  · rw [status_bytes_eq h]
    cases r.pendingAcquire <;> rfl
  · simp only [Record.bytes, Event.bytes, wordBytes_of_toNat, suspectByte_eq]
    rfl
  · simp only [Record.bytes, Event.bytes, wordBytes_of_toNat, countBytes_eq]
    rfl
  · simp only [Record.bytes, Event.bytes, countBytes_eq, reported_bytes_eq]
    rfl
  · simp only [Record.bytes, Event.bytes, wordBytes_of_toNat]
    rfl
  · simp only [Record.bytes, Event.bytes, countBytes_eq, reported_bytes_eq]
    rfl
  · simp only [Record.bytes, Event.bytes, countBytes_eq]
    rfl

end Sys2Proof.Machine
end
